-- ==== Sys2Proof/Word.lean ====
section
/-! DEFINITION. The words the CMOD block moves: bytes, 64-bit register words, 24-bit host byte
addresses, and the 64-bit interchange pattern of an IEEE 754 binary64 number (00_scope.md R13, R22). -/

namespace Sys2Proof

/-- One byte lane of the host data path (20_memory.md R93). -/
abbrev Byte := BitVec 8

/-- One 64-bit register or buffer entry (00_scope.md R13). -/
abbrev Word := BitVec 64

/-- A host byte address, ADDR_W = 24 bits (20_memory.md R90). -/
abbrev Addr := BitVec 24

/-- A binary64 datum, stored as its 64-bit interchange bit pattern (00_scope.md R22). -/
abbrev F64 := BitVec 64

end Sys2Proof
end

