-- ==== Sys2Proof/Machine/Binary64.lean ====
section
/-! DEFINITION. The binary64 format: fields, classes, order, and the rational number a finite
pattern denotes (00_scope.md R22, R25, R26). The arithmetic on it is Machine/Arith.lean. -/

namespace Sys2Proof

/-- Bit 63, the sign (R22). -/
def F64.neg? (x : F64) : Bool := decide (2 ^ 63 ≤ x.toNat)

/-- The pattern without its sign bit: exponent and fraction as one number. -/
def F64.mag (x : F64) : Nat := x.toNat % 2 ^ 63

/-- Bits [62:52], the biased exponent (R22). -/
def F64.expo (x : F64) : Nat := x.mag / 2 ^ 52

/-- Bits [51:0], the fraction (R22). -/
def F64.frac (x : F64) : Nat := x.toNat % 2 ^ 52

/-- The pattern of the infinities without the sign bit. -/
def F64.infMag : Nat := 0x7FF0000000000000

/-- `finite(a)`: neither an infinity nor a NaN (R25). -/
def F64.isFinite (x : F64) : Bool := decide (F64.mag x < F64.infMag)

/-- A NaN pattern. -/
def F64.isNaN (x : F64) : Bool := decide (F64.infMag < F64.mag x)

/-- Plus or minus infinity. -/
def F64.isInf (x : F64) : Bool := decide (F64.mag x = F64.infMag)

/-- Plus or minus zero. -/
def F64.isZero (x : F64) : Bool := decide (F64.mag x = 0)

/-- The integer significand of a finite pattern: the value is `± sig * 2 ^ exp2`. -/
def F64.sig (x : F64) : Nat := if F64.expo x = 0 then F64.frac x else 2 ^ 52 + F64.frac x

/-- The power of two of a finite pattern's last place. -/
def F64.exp2 (x : F64) : Int := (max (F64.expo x) 1 : Nat) - 1075

/-- The rational number a finite pattern denotes (R22); of no meaning for the other patterns. -/
def F64.toRat (x : F64) : ℚ :=
  (if F64.neg? x then -1 else 1) * (F64.sig x : ℚ) * (2 : ℚ) ^ (F64.exp2 x)

/-- The order key: sign and magnitude as one integer, the same for both zeros, with the
infinities outside every finite number. -/
def F64.key (x : F64) : Int := if F64.neg? x then -(F64.mag x : Int) else F64.mag x

/-- `a < b`, false when an operand is a NaN (R25). -/
def F64.lt (a b : F64) : Bool :=
  !(F64.isNaN a) && !(F64.isNaN b) && decide (F64.key a < F64.key b)

/-- `a <= b`, false when an operand is a NaN (R25). -/
def F64.le (a b : F64) : Bool :=
  !(F64.isNaN a) && !(F64.isNaN b) && decide (F64.key a ≤ F64.key b)

/-- `a == b`, false when an operand is a NaN and true of +0.0 and -0.0 (R25). -/
def F64.eq (a b : F64) : Bool :=
  !(F64.isNaN a) && !(F64.isNaN b) && decide (F64.key a = F64.key b)

/-- The pattern with sign `neg` and magnitude pattern `m` (below 2 ^ 63). -/
def F64.pack (neg : Bool) (m : Nat) : F64 := BitVec.ofNat 64 ((if neg then 2 ^ 63 else 0) + m)

/-- +0.0 -/
def F64.zero : F64 := 0x0000000000000000#64
/-- -0.0 -/
def F64.negZero : F64 := 0x8000000000000000#64
/-- 1.0 -/
def F64.one : F64 := 0x3FF0000000000000#64
/-- -1.0 -/
def F64.negOne : F64 := 0xBFF0000000000000#64
/-- 2.0 -/
def F64.two : F64 := 0x4000000000000000#64
/-- 0.5 (R26) -/
def F64.half : F64 := 0x3FE0000000000000#64
/-- 10.0 (R26) -/
def F64.ten : F64 := 0x4024000000000000#64
/-- 0.375 (R26) -/
def F64.threeEighths : F64 := 0x3FD8000000000000#64
/-- 0.8, the nearest binary64 number to 4/5 (R26, R294) -/
def F64.fourFifths : F64 := 0x3FE999999999999A#64
/-- 42.0 (R26) -/
def F64.fortyTwo : F64 := 0x4045000000000000#64
/-- 3000.0, the bound of check_noise in mode 1 (R232) -/
def F64.threeThousand : F64 := 0x40A7700000000000#64
/-- -3000.0 -/
def F64.negThreeThousand : F64 := 0xC0A7700000000000#64
/-- +inf (R26) -/
def F64.posInf : F64 := 0x7FF0000000000000#64
/-- -inf (R26) -/
def F64.negInf : F64 := 0xFFF0000000000000#64
/-- QNAN, the one NaN pattern a rule writes by name (R26, R240) -/
def F64.qnan : F64 := 0x7FF8000000000000#64
/-- SCALE = 1.0 ⊘ SQRT(2.0) (R28) -/
def F64.scale : F64 := 0x3FE6A09E667F3BCC#64
/-- -SCALE (R176) -/
def F64.negScale : F64 := 0xBFE6A09E667F3BCC#64
/-- PI64, the binary64 number nearest pi (R28) -/
def F64.pi64 : F64 := 0x400921FB54442D18#64
/-- TWO_PI = 2.0 ⊗ PI64 (R28) -/
def F64.twoPi : F64 := 0x401921FB54442D18#64
/-- C712 = 7.0 ⊘ 12.0 (R28) -/
def F64.c712 : F64 := 0x3FE2AAAAAAAAAAAB#64
/-- The smallest positive normal number, 2 ^ -1022 (the bound R27 names for POW10) -/
def F64.minNormal : F64 := 0x0010000000000000#64

end Sys2Proof
end

