-- ==== Sys2Proof/Config.lean ====
section
/-! DEFINITION. What one implementation of the block fixes (00_scope.md R9 to R12, R14, R27; R150;
R230) and the values the spec leaves open. The capacities are data (`Params`, held in State, since
register PARAM shows them). The numerics functions and random streams are opaque: nothing can
evaluate them, and only the laws the spec states are known of them. -/

namespace Sys2Proof

/-- The capacities a block is built with (R9, R10, R11), constant for its lifetime (R71). -/
structure Params where
  /-- N_MAX, the largest bit count (R9) -/
  nMax : Nat
  /-- SPS_MAX, the largest samples-per-symbol value (R10) -/
  spsMax : Nat
  /-- BER_MAX, the largest number of SNR points (R11) -/
  berMax : Nat
deriving DecidableEq, Repr

namespace Config

/-- The default capacities N_MAX = 1024, SPS_MAX = 64, BER_MAX = 64 (R9, R10, R11). -/
def defaultParams : Params := { nMax := 1024, spsMax := 64, berMax := 64 }

end Config

/-- SYM_CAP = N_MAX (R12). -/
def Params.symCap (p : Params) : Nat := p.nMax
/-- L_MAX = N_MAX * SPS_MAX (R12). -/
def Params.lMax (p : Params) : Nat := p.nMax * p.spsMax
/-- BITW = N_MAX / 64 (R12). -/
def Params.bitW (p : Params) : Nat := p.nMax / 64
/-- RXBW = N_MAX / 64 + 1 (R12). -/
def Params.rxBW (p : Params) : Nat := p.nMax / 64 + 1

/-- The numerics functions and random streams (R14): parameters of the model. -/
structure Numerics where
  /-- COS (R27) -/
  cos : F64 → F64
  /-- SIN (R27) -/
  sin : F64 → F64
  /-- LOG10 (R27) -/
  log10 : F64 → F64
  /-- POW10 (R27) -/
  pow10 : F64 → F64
  /-- ERFC (R27) -/
  erfc : F64 → F64
  /-- BIT_RNG(seed, i) (R150) -/
  bitRng : Word → Nat → Bool
  /-- GAUSS_RNG(seed, n) (R230) -/
  gaussRng : Word → Nat → F64
deriving Inhabited

/-- `f` is a faithful rounding of the real number `y` (R27): finite, and no other binary64 number
lies between `f` and `y`, `y` itself included. -/
def Faithful (f : F64) (y : ℝ) : Prop :=
  F64.isFinite f = true ∧
  ∀ g : F64, F64.isFinite g = true →
    ((F64.toRat f : ℝ) ≤ F64.toRat g → (F64.toRat g : ℝ) ≤ y → F64.toRat g = F64.toRat f) ∧
    (y ≤ F64.toRat g → (F64.toRat g : ℝ) ≤ F64.toRat f → F64.toRat g = F64.toRat f)

/-- The laws of R27, R150 and R230: everything the spec states of the numerics parameters, and so
everything a claim may assume of them. The overflow threshold of POW10 is read as the least real
that rounds to +inf under roundTiesToEven, 2 ^ 1024 - 2 ^ 970 (DEDUCED, log entry 5). -/
structure Numerics.Laws (N : Numerics) : Prop where
  cos_faithful : ∀ x, F64.isFinite x = true →
    Faithful (N.cos x) (Real.cos (F64.toRat x)) ∧
      F64.le F64.negOne (N.cos x) = true ∧ F64.le (N.cos x) F64.one = true
  cos_zero : N.cos F64.zero = F64.one
  sin_faithful : ∀ x, F64.isFinite x = true →
    Faithful (N.sin x) (Real.sin (F64.toRat x)) ∧
      F64.le F64.negOne (N.sin x) = true ∧ F64.le (N.sin x) F64.one = true
  sin_zero : N.sin F64.zero = F64.zero
  log10_zero : ∀ x, F64.isZero x = true → N.log10 x = F64.negInf
  log10_posInf : N.log10 F64.posInf = F64.posInf
  log10_nan : ∀ x, F64.isNaN x = true ∨ F64.lt x F64.zero = true → N.log10 x = F64.qnan
  log10_one : N.log10 F64.one = F64.zero
  log10_faithful : ∀ x, F64.isFinite x = true → F64.lt F64.zero x = true →
    Faithful (N.log10 x) (Real.logb 10 (F64.toRat x))
  log10_mono : ∀ x y, F64.le F64.zero x = true → F64.le x y = true →
    F64.le (N.log10 x) (N.log10 y) = true
  pow10_nan : ∀ x, F64.isNaN x = true → N.pow10 x = F64.qnan
  pow10_zero : ∀ x, F64.isZero x = true → N.pow10 x = F64.one
  pow10_faithful : ∀ x, F64.isFinite x = true →
    (2 : ℝ) ^ (-1022 : ℤ) ≤ (10 : ℝ) ^ (F64.toRat x : ℝ) →
    (10 : ℝ) ^ (F64.toRat x : ℝ) < 2 ^ 1024 - 2 ^ 970 →
    Faithful (N.pow10 x) ((10 : ℝ) ^ (F64.toRat x : ℝ))
  pow10_overflow : ∀ x, F64.isFinite x = true →
    (2 : ℝ) ^ 1024 - 2 ^ 970 ≤ (10 : ℝ) ^ (F64.toRat x : ℝ) → N.pow10 x = F64.posInf
  pow10_tiny : ∀ x, F64.isFinite x = true →
    (10 : ℝ) ^ (F64.toRat x : ℝ) < (2 : ℝ) ^ (-1022 : ℤ) →
    F64.le (N.pow10 x) F64.minNormal = true
  pow10_sign : ∀ x, F64.isNaN x = false → F64.neg? (N.pow10 x) = false ∧ F64.isNaN (N.pow10 x) = false
  pow10_mono : ∀ x y, F64.le x y = true → F64.le (N.pow10 x) (N.pow10 y) = true
  erfc_close : ∀ x, F64.isFinite x = true → F64.le F64.zero x = true →
    |(F64.toRat (N.erfc x) : ℝ)
      - 2 / Real.sqrt Real.pi * ∫ t in Set.Ioi (F64.toRat x : ℝ), Real.exp (-t ^ 2)| ≤ 1.2e-7
  erfc_range : ∀ x, F64.le F64.zero x = true →
    F64.le F64.zero (N.erfc x) = true ∧ F64.le (N.erfc x) F64.one = true
  erfc_zero : N.erfc F64.zero = F64.one
  erfc_posInf : N.erfc F64.posInf = F64.zero
  erfc_anti : ∀ x y, F64.le F64.zero x = true → F64.le x y = true →
    F64.le (N.erfc y) (N.erfc x) = true
  gauss_finite : ∀ seed n, F64.isFinite (N.gaussRng seed n) = true

/-- The laws of R27 and R230 that speak of one argument at a time, imposed on any functions: a
function that already meets them is left as it is (Laws/Numerics.lean, `enforce_eq_self`). -/
def Numerics.enforce (N : Numerics) : Numerics where
  cos x :=
    if x = F64.zero then F64.one
    else if F64.isFinite x && !(F64.le F64.negOne (N.cos x) && F64.le (N.cos x) F64.one) then F64.one
    else N.cos x
  sin x :=
    if x = F64.zero then F64.zero
    else if F64.isFinite x && !(F64.le F64.negOne (N.sin x) && F64.le (N.sin x) F64.one) then F64.zero
    else N.sin x
  log10 x :=
    if F64.isZero x then F64.negInf
    else if x = F64.posInf then F64.posInf
    else if F64.isNaN x || F64.lt x F64.zero then F64.qnan
    else if x = F64.one then F64.zero
    else if F64.isFinite (N.log10 x) then N.log10 x else F64.zero
  pow10 x :=
    if F64.isNaN x then F64.qnan
    else if F64.isZero x then F64.one
    else if F64.neg? (N.pow10 x) || F64.isNaN (N.pow10 x) then F64.zero
    else N.pow10 x
  erfc x :=
    if x = F64.zero then F64.one
    else if x = F64.posInf then F64.zero
    else if F64.le F64.zero x && !(F64.le F64.zero (N.erfc x) && F64.le (N.erfc x) F64.one) then F64.zero
    else N.erfc x
  bitRng := N.bitRng
  gaussRng seed n := if F64.isFinite (N.gaussRng seed n) then N.gaussRng seed n else F64.zero

namespace Config

/-- The uninterpreted numerics functions and random streams. -/
opaque rawNumerics : Numerics

/-- The numerics functions and random streams the block was built with (R14): uninterpreted, but
for the one-argument laws of R27 and R230. -/
def numerics : Numerics := rawNumerics.enforce

/-- The sign bit of the arithmetic's default NaN: open (93_implementation_defined.md section 2). -/
opaque nanSign : Bool

/-- The 51 payload bits below the quiet bit of the arithmetic's default NaN: open. -/
opaque nanPayload : BitVec 51

/-- The default NaN of the arithmetic, the result of an IEEE operation that produces a NaN:
some quiet NaN, the same for every operation (93_implementation_defined.md section 2). -/
def defaultNaN : F64 := F64.pack nanSign (F64.infMag + 2 ^ 51 + nanPayload.toNat)

/-- The n-th draw of a block of the system, by the block's number: the unconstrained 64-bit value a
host read returns where R68, R103 or R372 says a read is a draw. State counts the draws taken, so
that each read draws afresh; each block has its own draws (R108). -/
opaque draw : Nat → Nat → Word

/-- What the buffer entry at a byte address of a block, by the block's number (R108), holds before
any command has written it (R68, R372: "an unspecified value"), where a command reads it; no
reachable state lets one do so (R338). -/
opaque unwritten : Nat → Nat → Word

end Config

end Sys2Proof
end

