-- ==== Sys2Proof/Machine/Arith.lean ====
section
/-! DEFINITION. Binary64 arithmetic: addition, subtraction, multiplication, division and square
root, each the exact result rounded once, to nearest with ties to even, no fused multiply-add
(00_scope.md R23), and the conversions of R26 and R128. A NaN result is `Config.defaultNaN`. -/

namespace Sys2Proof

/-- `m / 2 ^ s` rounded to an integer, to nearest, ties to even. -/
def F64.roundShift (m s : Nat) : Nat :=
  let d := 2 ^ s
  let f := m / d
  let r := m % d
  if d < 2 * r ∨ (2 * r = d ∧ f % 2 = 1) then f + 1 else f

/-- The power of two of the last place of the binary64 numbers around `m * 2 ^ e`. -/
def F64.ulpExp (m : Nat) (e : Int) : Int := max (e + (Nat.log2 m + 1 : Nat) - 53) (-1074)

/-- The magnitude pattern of `m * 2 ^ e` rounded to binary64: the significand on its last-place
grid, added to the exponent field so that a carry moves into it; past the largest finite number,
the infinity. -/
def F64.roundMag (m : Nat) (e : Int) : Nat :=
  let q := F64.ulpExp m e
  let r := if q ≤ e then m * 2 ^ (e - q).toNat else F64.roundShift m (q - e).toNat
  min ((q + 1074).toNat * 2 ^ 52 + r) F64.infMag

/-- The exact number `± m * 2 ^ e` rounded to binary64, to nearest with ties to even (R23). -/
def F64.round (neg : Bool) (m : Nat) (e : Int) : F64 :=
  F64.pack neg (if m = 0 then 0 else F64.roundMag m e)

/-- `-a`: bit 63 flipped (R23). -/
def F64.neg (a : F64) : F64 := a ^^^ 0x8000000000000000#64

/-- The finite pattern's value as a signed integer count of `2 ^ e`, for `e` at or below its last
place. -/
def F64.scaled (a : F64) (e : Int) : Int :=
  (if F64.neg? a then -1 else 1) * ((F64.sig a * 2 ^ (F64.exp2 a - e).toNat : Nat) : Int)

/-- `a ⊕ b` (R23). -/
def F64.add (a b : F64) : F64 :=
  if F64.isNaN a || F64.isNaN b then Config.defaultNaN
  else if F64.isInf a then
    if F64.isInf b && (F64.neg? a != F64.neg? b) then Config.defaultNaN else a
  else if F64.isInf b then b
  else
    let e := min (F64.exp2 a) (F64.exp2 b)
    let t := F64.scaled a e + F64.scaled b e
    if t = 0 then F64.pack (F64.neg? a && F64.neg? b) 0
    else F64.round (decide (t < 0)) t.natAbs e

/-- `a ⊖ b` (R23). -/
def F64.sub (a b : F64) : F64 := F64.add a (F64.neg b)

/-- `a ⊗ b` (R23). -/
def F64.mul (a b : F64) : F64 :=
  let n := F64.neg? a != F64.neg? b
  if F64.isNaN a || F64.isNaN b then Config.defaultNaN
  else if F64.isInf a || F64.isInf b then
    if F64.isZero a || F64.isZero b then Config.defaultNaN else F64.pack n F64.infMag
  else F64.round n (F64.sig a * F64.sig b) (F64.exp2 a + F64.exp2 b)

/-- `p / q * 2 ^ e` rounded once: the quotient to at least 60 significant bits, and one more bit
below them that records whether anything is left over. -/
def F64.roundRatio (neg : Bool) (p q : Nat) (e : Int) : F64 :=
  let k := 60 + Nat.log2 q
  let n := p * 2 ^ k
  F64.round neg (2 * (n / q) + (if n % q = 0 then 0 else 1)) (e - k - 1)

/-- `a ⊘ b` (R23). -/
def F64.div (a b : F64) : F64 :=
  let n := F64.neg? a != F64.neg? b
  if F64.isNaN a || F64.isNaN b then Config.defaultNaN
  else if F64.isInf a then
    if F64.isInf b then Config.defaultNaN else F64.pack n F64.infMag
  else if F64.isInf b then F64.pack n 0
  else if F64.isZero b then
    if F64.isZero a then Config.defaultNaN else F64.pack n F64.infMag
  else F64.roundRatio n (F64.sig a) (F64.sig b) (F64.exp2 a - F64.exp2 b)

/-- The integer square root of `n`, from the bits below `2 ^ k`, the highest first, on top of the
root found so far. -/
def F64.isqrtFrom (n : Nat) : Nat → Nat → Nat
  | 0, r => r
  | k + 1, r =>
    F64.isqrtFrom n k (if (r + 2 ^ k) * (r + 2 ^ k) ≤ n then r + 2 ^ k else r)

/-- The integer square root of a number below `2 ^ 176`. -/
def F64.isqrt (n : Nat) : Nat := F64.isqrtFrom n 88 0

/-- `SQRT(a)` (R23): the root of -0.0 is -0.0, that of a negative number a NaN. -/
def F64.sqrt (a : F64) : F64 :=
  if F64.isNaN a then Config.defaultNaN
  else if F64.isZero a then a
  else if F64.neg? a then Config.defaultNaN
  else if F64.isInf a then a
  else
    let k : Nat := 120 + (F64.exp2 a % 2).toNat
    let n := F64.sig a * 2 ^ k
    let r := F64.isqrt n
    F64.round false (2 * r + (if r * r = n then 0 else 1)) ((F64.exp2 a - k) / 2 - 1)

/-- `f64(n)` of a natural number (R26). -/
def F64.ofNat (n : Nat) : F64 := F64.round false n 0

/-- `f64(n)` of an integer (R26). -/
def F64.ofInt (n : Int) : F64 := F64.round (decide (n < 0)) n.natAbs 0

/-- The binary64 number nearest the decimal `± p / q`, for the host assembly's `f:` values
(R26, R128). -/
def F64.ofRatio (neg : Bool) (p q : Nat) : F64 := F64.roundRatio neg p q 0

/-- `Σ term(i)` over `0 .. n-1`: sequential from the lowest index upward, from +0.0 (R24). -/
def F64.sum (n : Nat) (term : Nat → F64) : F64 :=
  (List.range n).foldl (fun acc i => F64.add acc (term i)) F64.zero

end Sys2Proof
end

