-- ==== Sys2Proof/Syntax.lean ====
section
/-! DEFINITION. The languages of the block: its nine commands (30_encoding.md R121, the rows of
spec/opcode_table.json), the modulation schemes (41_mapper.md R170), and what the two agents can do
(00_scope.md R29): the host's accesses and waits, and whose turn it is. -/

namespace Sys2Proof

/-- A command: one constructor per row of the opcode map (R121). A command word carries no operand
field (R122). -/
inductive Instr where
  /-- NOP, word 0x00 (46_control.md R314) -/
  | nop
  /-- CLEAR, word 0x01 (46_control.md R315) -/
  | clear
  /-- GEN_BITS, word 0x10 (40_bitsource.md R151) -/
  | genBits
  /-- MAP, word 0x20 (41_mapper.md R171) -/
  | map
  /-- SYNTH, word 0x30 (42_synth.md R200) -/
  | synth
  /-- CHANNEL, word 0x40 (43_channel.md R231) -/
  | channel
  /-- SLICE, word 0x50 (44_slicer.md R260) -/
  | slice
  /-- BER, word 0x60 (45_ber.md R290) -/
  | ber
  /-- RUN, word 0x70 (46_control.md R316) -/
  | run
deriving DecidableEq, Repr

/-- The closed set of modulation schemes (R3, R170). -/
inductive Scheme where
  | bpsk
  | qpsk
  | qam16
  | qam64
deriving DecidableEq, Repr

/-- The width of a host access (20_memory.md R92): the full 64-bit word, the only one served, or
anything narrower. -/
inductive Width where
  | full
  | narrow
deriving DecidableEq, Repr

/-- One thing the host does at its own step. -/
inductive HostOp where
  /-- `R <addr>`: one read access (R18, R127) -/
  | read (addr : Addr) (width : Width)
  /-- `W <addr> <data>`: one write access (R18, R127) -/
  | write (addr : Addr) (width : Width) (data : Word)
  /-- one turn of the `wait` loop: read STATUS, and go on once bit 0 reads 0 (R129) -/
  | wait
  /-- watch the IRQ output, and go on once it is 1 (R102, R380) -/
  | awaitIrq
deriving DecidableEq, Repr

/-- What moves next: one of the two agents (R29), or the reset input (70_reset_and_hazards.md
R370). -/
inductive Agent where
  | host
  | sequencer
  | reset
deriving DecidableEq, Repr

end Sys2Proof
end

