-- ==== Sys2Proof/Machine/State.lean ====
section
/-! DEFINITION. The state of the block as plain data (10_state.md R40), the reasons a step could
stop, and the state after reset (70_reset_and_hazards.md R371). -/

namespace Sys2Proof.Machine

/-- The reasons a step faults: none. No behaviour of the block is stuck: every accepted command
completes and every host access has a defined result or a draw (93_implementation_defined.md
section 2), and a command's error is a status report (60_exceptions.md R340), a next state. -/
inductive Fault where
deriving DecidableEq, Repr

/-- The reasons a step is refused. -/
inductive Refusal where
  /-- raised by `exec` alone, for an instruction that has no meaning yet; safe. No arm raises it. -/
  | notModelled (mnemonic : String)
deriving DecidableEq, Repr

/-- The configuration registers the host writes and commands read (R41, R44, R48 to R54, R58). -/
structure ConfigRegs where
  /-- CTRL[3:0] (R44); bits [63:4] are reserved, discarded on write and read 0 -/
  ctrl : BitVec 4
  /-- SCHEME[2:0] (R48); bits [63:3] are reserved, discarded on write and read 0 -/
  scheme : BitVec 3
  /-- NBITS, s64 (R49) -/
  nbits : Word
  /-- SPS, s64 (R50) -/
  sps : Word
  /-- FC, f64 (R51) -/
  fc : F64
  /-- FS, f64 (R52) -/
  fs : F64
  /-- NOISE_LEVEL, f64 (R53) -/
  noiseLevel : F64
  /-- SEED, u64 (R54) -/
  seed : Word
  /-- BER_COUNT, s64 (R58) -/
  berCount : Word
deriving DecidableEq, Repr

/-- The stored fields of STATUS (R45). BUSY is not stored: it reads 1 exactly when a command is
pending (R69). The reserved fields read 0 and are not stored. -/
structure Status where
  /-- bit 1, W1C -/
  done : Bool
  /-- bit 2, W1C, sticky -/
  err : Bool
  /-- bit 3, W1C, sticky -/
  haz : Bool
  /-- bit 4, W1C, sticky -/
  busErr : Bool
  /-- bit 5, W1C, sticky -/
  degen : Bool
  /-- bit 8 -/
  bitsV : Bool
  /-- bit 9 -/
  symV : Bool
  /-- bit 10 -/
  waveV : Bool
  /-- bit 11 -/
  rxV : Bool
  /-- bit 12 -/
  estV : Bool
  /-- bit 13 -/
  berV : Bool
  /-- ERRCODE, bits [23:16] -/
  errCode : BitVec 8
  /-- ERRINFO, bits [31:24] -/
  errInfo : BitVec 8
  /-- LASTOP, bits [39:32] -/
  lastOp : BitVec 8
deriving DecidableEq, Repr

/-- The read-only length, latched and result registers (R55, R56, R57). -/
structure ResultRegs where
  /-- SNR_MEAS, f64 -/
  snrMeas : F64
  /-- BITS_LEN, u64 -/
  bitsLen : Word
  /-- SYM_LEN, u64 -/
  symLen : Word
  /-- SAMP_LEN, u64 -/
  sampLen : Word
  /-- NPAD, u64 -/
  npad : Word
  /-- ERRCNT, u64 -/
  errCnt : Word
  /-- LAT_SCHEME[2:0]: only ever a code MAP accepted (R331), so held as the scheme it names -/
  latScheme : Scheme
  /-- LAT_SPS, u64 -/
  latSps : Word
  /-- LAT_FC, f64 -/
  latFc : F64
  /-- LAT_FS, f64 -/
  latFs : F64
  /-- NOISE_PWR, f64 -/
  noisePwr : F64
  /-- VAR_TX, f64 -/
  varTx : F64
  /-- VAR_NOISE, f64 -/
  varNoise : F64
  /-- BER_LEN, u64 -/
  berLen : Word
deriving DecidableEq, Repr

/-- The state: what the spec gives the block (R40), and then the host's side of the model. -/
structure State where
  /-- the capacities the block was built with, which PARAM shows (R43); no step changes them -/
  params : Params
  /-- the configuration registers -/
  cfg : ConfigRegs
  /-- the stored fields of STATUS -/
  status : Status
  /-- the length, latched and result registers -/
  res : ResultRegs
  /-- the arrays HBITS, SNR_IN, BER_OUT (R59, R66) and the buffers (R60), as the bytes of the host
  address space that hold something else than after reset (R93, R94): a buffer entry is written
  since reset exactly when its bytes are listed (R68) -/
  mem : List Host.Cell
  /-- the SEQUENCER's pending command word, none when idle (R69, R310) -/
  pending : Option Word
  /-- MODEL'S OWN: what the host has still to do, in its program order (R29, R100) -/
  hostProg : List HostOp
  /-- MODEL'S OWN: the interleaving still to come, the next mover first (R100); when it is used up
  the SEQUENCER moves whenever it can, and the host otherwise (R385) -/
  sched : List Agent
  /-- MODEL'S OWN: what the host's reads returned, the latest first -/
  readLog : List (Addr × Word)
  /-- MODEL'S OWN: how many draws host reads have taken (R68, R103) -/
  draws : Nat
  /-- MODEL'S OWN: the number of this block among those of its system, which keeps its free values
  apart from theirs (R108); no step changes it -/
  unitNo : Nat
deriving DecidableEq, Repr

/-- The configuration registers after reset (R371). -/
def ConfigRegs.reset : ConfigRegs where
  ctrl := 0
  scheme := 0
  nbits := 0
  sps := 0
  fc := F64.zero
  fs := F64.zero
  noiseLevel := F64.zero
  seed := 0
  berCount := 0

/-- STATUS after reset (R371). -/
def Status.reset : Status where
  done := false
  err := false
  haz := false
  busErr := false
  degen := false
  bitsV := false
  symV := false
  waveV := false
  rxV := false
  estV := false
  berV := false
  errCode := 0
  errInfo := 0
  lastOp := 0

/-- The read-only registers after reset (R371), which is also what CLEAR leaves in them (R315). -/
def ResultRegs.reset : ResultRegs where
  snrMeas := F64.zero
  bitsLen := 0
  symLen := 0
  sampLen := 0
  npad := 0
  errCnt := 0
  latScheme := .bpsk
  latSps := 0
  latFc := F64.zero
  latFs := F64.zero
  noisePwr := F64.zero
  varTx := F64.zero
  varNoise := F64.zero
  berLen := 0

/-- The state after reset of a block built with the capacities `p` (R371): arrays zero and buffers
not written, so no byte is listed; no command pending; no host program loaded. -/
def State.resetOf (p : Params) : State where
  params := p
  cfg := ConfigRegs.reset
  status := Status.reset
  res := ResultRegs.reset
  mem := []
  pending := none
  hostProg := []
  sched := []
  readLog := []
  draws := 0
  unitNo := 0

/-- The state after reset of a block with the default capacities (R371). -/
def State.reset : State := State.resetOf Config.defaultParams

end Sys2Proof.Machine
end

