-- ==== Sys2Proof/Machine/Memory.lean ====
section
/-! DEFINITION. The byte memory behind the arrays and buffer windows (20_memory.md R93, R94): a list
of (address, byte) pairs in one canonical form. Byte order is decided here and nowhere else. -/

namespace Sys2Proof.Machine

/-- What an unlisted address reads as, the reset contents (R371, R372): the bytes of the register
arrays HBITS, SNR_IN and BER_OUT are 0; a buffer byte holds no value until it is written. -/
def Memory.unlisted (a : Nat) : Option Byte :=
  if 0x1000 ≤ a ∧ a < 0x4000 then some 0 else none

/-- The canonical form: addresses strictly rising, no entry equal to what an unlisted address reads
as. Equal memories are equal lists. -/
abbrev Memory.wf (m : List Host.Cell) : Prop :=
  m.Pairwise (fun c d => c.1 < d.1) ∧ ∀ c ∈ m, Memory.unlisted c.1 ≠ some c.2

/-- The listed byte at an address, in a memory in canonical form. -/
def Memory.find (a : Nat) : List Host.Cell → Option Byte
  | [] => none
  | c :: t => if c.1 < a then Memory.find a t else if c.1 = a then some c.2 else none

/-- The byte at an address: none for a buffer byte not written since reset. -/
def Memory.read (m : List Host.Cell) (a : Nat) : Option Byte :=
  match Memory.find a m with
  | some b => some b
  | none => Memory.unlisted a

/-- Store cells whose addresses strictly rise, the memory kept in canonical form: the one operation
every write goes through. -/
def Memory.overlay : List Host.Cell → List Host.Cell → List Host.Cell
  | [], m => m
  | c :: cs, m =>
    m.takeWhile (fun d => decide (d.1 < c.1))
      ++ (if Memory.unlisted c.1 = some c.2 then [] else [c])
      ++ Memory.overlay cs (m.dropWhile (fun d => decide (d.1 ≤ c.1)))

/-- Byte lane `i` of a word carries bits [8*i+7 : 8*i] (R93). -/
def lane (v : Word) (i : Nat) : Byte := v.extractLsb' (8 * i) 8

/-- The word whose lanes are the eight bytes, lane 0 first (R93). -/
def ofLanes (b0 b1 b2 b3 b4 b5 b6 b7 : Byte) : Word :=
  b7 ++ b6 ++ b5 ++ b4 ++ b3 ++ b2 ++ b1 ++ b0

/-- The word at the aligned byte address `a`: none where it is not written since reset. -/
def readWord (m : List Host.Cell) (a : Nat) : Option Word := do
  let t := m.dropWhile (fun d => decide (d.1 < a))
  let b0 ← Memory.read t a
  let b1 ← Memory.read t (a + 1)
  let b2 ← Memory.read t (a + 2)
  let b3 ← Memory.read t (a + 3)
  let b4 ← Memory.read t (a + 4)
  let b5 ← Memory.read t (a + 5)
  let b6 ← Memory.read t (a + 6)
  let b7 ← Memory.read t (a + 7)
  return ofLanes b0 b1 b2 b3 b4 b5 b6 b7

/-- The cells of `n` consecutive words from the byte address `base`, word `j` being `f j`: lane `i` of
word `j` at `base + 8*j + i` (R93). -/
def blockCells (base n : Nat) (f : Nat → Word) : List Host.Cell :=
  (List.range (8 * n)).map (fun t => (base + t, lane (f (t / 8)) (t % 8)))

/-- Store `n` consecutive words from the byte address `base`, word `j` being `f j`. -/
def writeBlock (m : List Host.Cell) (base n : Nat) (f : Nat → Word) : List Host.Cell :=
  Memory.overlay (blockCells base n f) m

end Sys2Proof.Machine
end

