-- ==== Sys2Proof/Machine/AddressMap.lean ====
section
/-! DEFINITION. The host address map (20_memory.md R94): the control and status registers (10_state.md
R41), the register arrays (R59, R66) and the buffer windows (R60). -/

namespace Sys2Proof.Machine

/-- The control and status registers, in address order (R41). -/
inductive Reg where
  | id
  | param
  | ctrl
  | status
  | cmd
  | scheme
  | nbits
  | sps
  | fc
  | fs
  | noiseLevel
  | seed
  | berCount
  | snrMeas
  | bitsLen
  | symLen
  | sampLen
  | npad
  | errCnt
  | latScheme
  | latSps
  | latFc
  | latFs
  | noisePwr
  | varTx
  | varNoise
  | berLen
deriving DecidableEq, Repr

/-- The byte offset of a register (R41). -/
def Reg.offset : Reg → Nat
  | .id => 0x000
  | .param => 0x008
  | .ctrl => 0x010
  | .status => 0x018
  | .cmd => 0x020
  | .scheme => 0x028
  | .nbits => 0x030
  | .sps => 0x038
  | .fc => 0x040
  | .fs => 0x048
  | .noiseLevel => 0x050
  | .seed => 0x058
  | .berCount => 0x060
  | .snrMeas => 0x068
  | .bitsLen => 0x070
  | .symLen => 0x078
  | .sampLen => 0x080
  | .npad => 0x088
  | .errCnt => 0x090
  | .latScheme => 0x098
  | .latSps => 0x0A0
  | .latFc => 0x0A8
  | .latFs => 0x0B0
  | .noisePwr => 0x0B8
  | .varTx => 0x0C0
  | .varNoise => 0x0C8
  | .berLen => 0x0D0

/-- Every register. -/
def Reg.all : List Reg :=
  [.id, .param, .ctrl, .status, .cmd, .scheme, .nbits, .sps, .fc, .fs, .noiseLevel, .seed, .berCount]
    ++ [.snrMeas, .bitsLen, .symLen, .sampLen, .npad, .errCnt, .latScheme, .latSps, .latFc, .latFs]
    ++ [.noisePwr, .varTx, .varNoise, .berLen]

/-- A register whose value a host read returns even while a command is pending (R103). -/
def Reg.steadyWhileBusy : Reg → Bool
  | .id | .param | .ctrl | .scheme | .nbits | .sps | .fc | .fs => true
  | .noiseLevel | .seed | .berCount => true
  | .status | .cmd | .snrMeas | .bitsLen | .symLen | .sampLen | .npad | .errCnt => false
  | .latScheme | .latSps | .latFc | .latFs | .noisePwr | .varTx | .varNoise | .berLen => false

/-- The register arrays and the buffer windows (R59, R60, R66), in address order. -/
inductive Region where
  | hbits
  | snrIn
  | berOut
  | bits
  | symI
  | symQ
  | time
  | carI
  | carQ
  | tx
  | noise
  | rx
  | demodI
  | demodQ
  | estI
  | estQ
  | rxbits
deriving DecidableEq, Repr

/-- Every array and window. -/
def Region.all : List Region :=
  [.hbits, .snrIn, .berOut, .bits, .symI, .symQ, .time, .carI, .carQ]
    ++ [.tx, .noise, .rx, .demodI, .demodQ, .estI, .estQ, .rxbits]

/-- The byte address of entry 0 (R94). -/
def Region.base : Region → Nat
  | .hbits => 0x001000
  | .snrIn => 0x002000
  | .berOut => 0x003000
  | .bits => 0x100000
  | .symI => 0x200000
  | .symQ => 0x300000
  | .time => 0x400000
  | .carI => 0x500000
  | .carQ => 0x600000
  | .tx => 0x700000
  | .noise => 0x800000
  | .rx => 0x900000
  | .demodI => 0xA00000
  | .demodQ => 0xB00000
  | .estI => 0xC00000
  | .estQ => 0xD00000
  | .rxbits => 0xE00000

/-- The number of entries (R12, R60). -/
def Region.capacity (p : Params) : Region → Nat
  | .hbits => p.bitW
  | .snrIn => p.berMax
  | .berOut => p.berMax
  | .bits => p.bitW
  | .symI => p.symCap
  | .symQ => p.symCap
  | .time => p.lMax
  | .carI => p.lMax
  | .carQ => p.lMax
  | .tx => p.lMax
  | .noise => p.lMax
  | .rx => p.lMax
  | .demodI => p.lMax
  | .demodQ => p.lMax
  | .estI => p.symCap
  | .estQ => p.symCap
  | .rxbits => p.rxBW

/-- An array the host may write: the configuration arrays HBITS and SNR_IN (R59, R66). Every other
array and window is read-only to the host (R96). The same two are read as they stand while a
command is pending (R103). -/
def Region.isConfig : Region → Bool
  | .hbits | .snrIn => true
  | .berOut | .bits | .symI | .symQ | .time | .carI | .carQ | .tx => false
  | .noise | .rx | .demodI | .demodQ | .estI | .estQ | .rxbits => false

/-- Entry `j` lies at base + 8*j (R94). -/
def Region.entryAddr (r : Region) (j : Nat) : Nat := r.base + 8 * j

/-- What an aligned address names. -/
inductive Target where
  | reg (r : Reg)
  | cell (r : Region) (j : Nat)
  | unmapped
deriving DecidableEq, Repr

/-- The address map for an aligned byte address (R94): a register, an entry within capacity of an
array or window, or nothing. -/
def decodeAddr (p : Params) (a : Nat) : Target :=
  match Reg.all.find? (fun r => r.offset == a) with
  | some r => .reg r
  | none =>
    match Region.all.find? (fun r => decide (r.base ≤ a) && decide (a < r.entryAddr (r.capacity p))) with
    | some r => .cell r ((a - r.base) / 8)
    | none => .unmapped

end Sys2Proof.Machine
end

