-- ==== Sys2Proof/Machine/Flags.lean ====
section
/-! DEFINITION. STATUS: its read view (10_state.md R45), the errors it reports (60_exceptions.md R330,
R336), the VALID flags each command sets and clears (10_state.md R67), the W1C write (R46) and the
interrupt output (R72). -/

namespace Sys2Proof.Machine

/-- The errors a command can end with, one per row of the ERRINFO table (R336). -/
inductive CmdError where
  /-- NBITS outside 1..N_MAX -/
  | bitCount
  /-- SPS outside 1..SPS_MAX -/
  | spsRange
  /-- SPS = 1 with a scheme other than BPSK -/
  | spsOneWithQ
  /-- FS not finite or not > 0 -/
  | sampleRate
  /-- FC not finite or not > 0 -/
  | carrier
  /-- FC >= FS ⊗ 0.5 -/
  | nyquist
  /-- phase range not finite -/
  | phaseRange
  /-- NOISE_LEVEL invalid for CTRL.NOISE_MODE -/
  | noiseLevel
  /-- BER_COUNT outside 1..BER_MAX -/
  | berCount
  /-- an SNR_IN point in use not finite -/
  | snrPoint
  /-- scheme code 4 to 7 -/
  | scheme
  /-- MAP with BITS_V = 0 -/
  | bitsNotReady
  /-- SYNTH with SYM_V = 0 -/
  | symNotReady
  /-- CHANNEL with WAVE_V = 0 -/
  | waveNotReady
  /-- SLICE with RX_V = 0 -/
  | rxNotReady
  /-- strict ratio: noise variance 0 -/
  | strictNoise
  /-- strict ratio: signal variance 0 -/
  | strictSignal
  /-- RSVD bits of the command word not 0 -/
  | reservedBits
  /-- undefined opcode -/
  | undefinedOpcode
deriving DecidableEq, Repr

/-- ERRINFO (R336). -/
def CmdError.info : CmdError → BitVec 8
  | .bitCount => 0x01
  | .spsRange => 0x02
  | .spsOneWithQ => 0x03
  | .sampleRate => 0x04
  | .carrier => 0x05
  | .nyquist => 0x06
  | .phaseRange => 0x07
  | .noiseLevel => 0x08
  | .berCount => 0x09
  | .snrPoint => 0x0A
  | .scheme => 0x10
  | .bitsNotReady => 0x20
  | .symNotReady => 0x21
  | .waveNotReady => 0x22
  | .rxNotReady => 0x23
  | .strictNoise => 0x30
  | .strictSignal => 0x31
  | .reservedBits => 0x40
  | .undefinedOpcode => 0x41

/-- ERRCODE (R330): 1 INVALID_PARAMETER, 2 UNSUPPORTED_SCHEME, 3 NUMERIC_DEGENERATE,
4 ILLEGAL_COMMAND, 5 NOT_READY. -/
def CmdError.code : CmdError → BitVec 8
  | .bitCount | .spsRange | .spsOneWithQ | .sampleRate | .carrier => 1
  | .nyquist | .phaseRange | .noiseLevel | .berCount | .snrPoint => 1
  | .scheme => 2
  | .strictNoise | .strictSignal => 3
  | .reservedBits | .undefinedOpcode => 4
  | .bitsNotReady | .symNotReady | .waveNotReady | .rxNotReady => 5

/-- BUSY: a command is pending (R69). -/
def State.busy (s : State) : Bool := s.pending.isSome

/-- The 64 bits an idle host read of STATUS returns, field by field (R45). -/
def State.statusWord (s : State) : Word :=
  (0 : BitVec 24) ++ s.status.lastOp ++ s.status.errInfo ++ s.status.errCode
    ++ (0 : BitVec 2) ++ BitVec.ofBool s.status.berV ++ BitVec.ofBool s.status.estV
    ++ BitVec.ofBool s.status.rxV ++ BitVec.ofBool s.status.waveV
    ++ BitVec.ofBool s.status.symV ++ BitVec.ofBool s.status.bitsV
    ++ (0 : BitVec 2) ++ BitVec.ofBool s.status.degen ++ BitVec.ofBool s.status.busErr
    ++ BitVec.ofBool s.status.haz ++ BitVec.ofBool s.status.err
    ++ BitVec.ofBool s.status.done ++ BitVec.ofBool s.busy

/-- A W1C write to STATUS: each of bits 1 to 5 written with 1 is cleared, all else is ignored
(R46). -/
def Status.writeOneToClear (st : Status) (v : Word) : Status :=
  { st with
    done := st.done && !v.getLsbD 1
    err := st.err && !v.getLsbD 2
    haz := st.haz && !v.getLsbD 3
    busErr := st.busErr && !v.getLsbD 4
    degen := st.degen && !v.getLsbD 5 }

/-- GEN_BITS's row of the VALID table (R67). -/
def Status.validGenBits (st : Status) : Status :=
  { st with bitsV := true, symV := false, waveV := false, rxV := false, estV := false }

/-- MAP's row (R67). -/
def Status.validMap (st : Status) : Status :=
  { st with symV := true, waveV := false, rxV := false, estV := false }

/-- SYNTH's row (R67). -/
def Status.validSynth (st : Status) : Status :=
  { st with waveV := true, rxV := false, estV := false }

/-- CHANNEL's row (R67). -/
def Status.validChannel (st : Status) : Status := { st with rxV := true, estV := false }

/-- SLICE's row (R67), and the sticky DEGEN when some window was degenerate (R264). -/
def Status.validSlice (st : Status) (degenerate : Bool) : Status :=
  { st with estV := true, degen := st.degen || degenerate }

/-- BER's row (R67). -/
def Status.validBer (st : Status) : Status := { st with berV := true }

/-- CLEAR: the six VALID flags and the four sticky bits cleared (R315). -/
def Status.cleared (st : Status) : Status :=
  { st with
    bitsV := false, symV := false, waveV := false, rxV := false, estV := false, berV := false
    err := false, haz := false, busErr := false, degen := false }

/-- CTRL.IRQ_EN (R44). -/
def State.irqEn (s : State) : Bool := s.cfg.ctrl.getLsbD 0
/-- CTRL.STRICT_SNR (R44). -/
def State.strictSnr (s : State) : Bool := s.cfg.ctrl.getLsbD 1
/-- CTRL.BITSRC (R44). -/
def State.bitSrc (s : State) : Bool := s.cfg.ctrl.getLsbD 2
/-- CTRL.NOISE_MODE (R44). -/
def State.noiseMode (s : State) : Bool := s.cfg.ctrl.getLsbD 3

/-- The interrupt output: IRQ = CTRL.IRQ_EN and STATUS.DONE, a level of the current state (R72,
R344). -/
def State.irq (s : State) : Bool := s.irqEn && s.status.done

end Sys2Proof.Machine
end

