-- ==== Sys2Proof/Machine/Ops.lean ====
section
/-! DEFINITION. The named operations over registers and memory: array and buffer entries (10_state.md
R17, R60), acceptance (46_control.md R310), completion with or without an error (R313,
60_exceptions.md R340), the host's acknowledgement (R341) and reset (70_reset_and_hazards.md R370). -/

namespace Sys2Proof.Machine

/-- `BUF[j]` as a command reads it (R17). An entry not written since reset holds an unspecified
value (R68). -/
def State.entry (s : State) (r : Region) (j : Nat) : Word :=
  match readWord s.mem (r.entryAddr j) with
  | some v => v
  | none => Config.unwritten s.unitNo (r.entryAddr j)

/-- Whether an entry was written since reset (R68). -/
def State.written (s : State) (r : Region) (j : Nat) : Bool :=
  (readWord s.mem (r.entryAddr j)).isSome

/-- `BUF.bit(i)`: bit (i mod 64) of word (i div 64) of a packed buffer (R17). -/
def State.bit (s : State) (r : Region) (i : Nat) : Bool := (s.entry r (i / 64)).getLsbD (i % 64)

/-- Entries 0 to n-1 of an array or buffer written, entry `j` with `f j`. -/
def State.fill (s : State) (r : Region) (n : Nat) (f : Nat → Word) : State :=
  { s with mem := writeBlock s.mem r.base n f }

/-- One entry written. -/
def State.setEntry (s : State) (r : Region) (j : Nat) (v : Word) : State :=
  { s with mem := writeBlock s.mem (r.entryAddr j) 1 (fun _ => v) }

/-- Word `w` of a sequence of `n` bits packed 64 to a word, the bits at `n` and beyond 0 (R17). -/
def packBits (n : Nat) (bit : Nat → Bool) (w : Nat) : Word :=
  BitVec.ofNat 64 ((List.range 64).foldr
    (fun t acc => 2 * acc + (decide (64 * w + t < n) && bit (64 * w + t)).toNat) 0)

/-- `ceil(a / b)` (R20). -/
def ceilDiv (a b : Nat) : Nat := (a + b - 1) / b

/-- A packed buffer written with the `n` bits `bit 0 .. bit (n-1)`: words 0 to ceil(n/64)-1, the last
one zero-filled, the words beyond untouched (R151, R266). -/
def State.fillBits (s : State) (r : Region) (n : Nat) (bit : Nat → Bool) : State :=
  s.fill r (ceilDiv n 64) (packBits n bit)

/-- How a command's body ends (R312): the state it leaves, and the error it raised, if any (R19). -/
structure Result where
  state : State
  error : Option CmdError
deriving DecidableEq, Repr

/-- The body ran to its end. -/
def Result.ok (s : State) : Result := { state := s, error := none }

/-- `raise Error(CODE, INFO)` (R19): the body ends here, with the writes made so far. -/
def Result.raise (e : CmdError) (s : State) : Result := { state := s, error := some e }

/-- The next body of a RUN, performed unless this one raised an error (R316, R318). -/
def Result.andThen (r : Result) (next : State → Result) : Result :=
  match r.error with
  | none => next r.state
  | some e => .raise e r.state

/-- Error entry (R340): ERRCODE, ERRINFO, ERR, DONE and BUSY, and nothing else. -/
def takeError (e : CmdError) (s : State) : State :=
  { s with
    pending := none
    status := { s.status with errCode := e.code, errInfo := e.info, err := true, done := true } }

/-- Completion without an error (R313). -/
def completeOk (s : State) : State :=
  { s with
    pending := none
    status := { s.status with errCode := 0, errInfo := 0, done := true } }

/-- Completion, the last part of every SEQUENCER step (R313). -/
def complete (r : Result) : State :=
  match r.error with
  | none => completeOk r.state
  | some e => takeError e r.state

/-- The whole SEQUENCER step of a command: its body, then completion (R312). -/
def perform (body : State → Result) (s : State) : Host.Outcome State Fault Refusal :=
  .next (complete (body s))

/-- Acceptance of a command word by an idle block (R310). -/
def accept (v : Word) (s : State) : State :=
  { s with
    pending := some v
    status := { s.status with done := false, errCode := 0, errInfo := 0, lastOp := v.setWidth 8 } }

/-- The host's acknowledgement of a completion, the W1C write to STATUS (R46, R341): the nearest the
block has to a return from an error. -/
def acknowledge (v : Word) (s : State) : State :=
  { s with status := s.status.writeOneToClear v }

/-- The reset input (R370, R371): the block in its reset state, a pending command abandoned (R373)
and every buffer entry not written (R372). The host's side goes on, and the block keeps its number
(R108). -/
def resetBlock (s : State) : State :=
  { State.resetOf s.params with
    hostProg := s.hostProg
    sched := s.sched
    readLog := s.readLog
    draws := s.draws
    unitNo := s.unitNo }

end Sys2Proof.Machine
end

