-- ==== Sys2Proof/Machine/Operands.lean ====
section
/-! DEFINITION. The operands of the commands (30_encoding.md R122, R123): the scheme table (41_mapper.md
R170), the signed and unsigned registers, and the checks on them that more than one command makes
(42_synth.md R201, 43_channel.md R232). -/

namespace Sys2Proof

/-- SCHEME[2:0] decoded (R170); codes 4 to 7 name no scheme (R48). -/
def Scheme.ofCode (c : BitVec 3) : Option Scheme :=
  match c.toNat with
  | 0 => some .bpsk
  | 1 => some .qpsk
  | 2 => some .qam16
  | 3 => some .qam64
  | _ => none

/-- The code of a scheme (R170). -/
def Scheme.code : Scheme → BitVec 3
  | .bpsk => 0
  | .qpsk => 1
  | .qam16 => 2
  | .qam64 => 3

/-- k, the bits per symbol (R170). -/
def Scheme.bitsPerSymbol : Scheme → Nat
  | .bpsk => 1
  | .qpsk => 2
  | .qam16 => 4
  | .qam64 => 6

/-- A, the levels per axis (R170). -/
def Scheme.levels : Scheme → Nat
  | .bpsk => 2
  | .qpsk => 2
  | .qam16 => 4
  | .qam64 => 8

/-- h = k / 2, the bits of one axis label (R173). -/
def Scheme.halfBits (c : Scheme) : Nat := c.bitsPerSymbol / 2

/-- The Gray code of a level index (R21). -/
def gray (m : Nat) : Nat := m ^^^ (m / 2)

/-- The inverse of `gray` on labels of `b` bits (R21): every bit of `m` is the parity of the label's
bits from there upward. -/
def ginv : Nat → Nat → Nat
  | 0, _ => 0
  | b + 1, g => g ^^^ ginv b (g / 2)

end Sys2Proof

namespace Sys2Proof.Machine

/-- `sint64(NBITS)` (R49, R123). -/
def State.bitCount (s : State) : Int := s.cfg.nbits.toInt
/-- `sint64(SPS)` (R50, R123). -/
def State.samplesPerSymbol (s : State) : Int := s.cfg.sps.toInt
/-- `sint64(BER_COUNT)` (R58, R123). -/
def State.pointCount (s : State) : Int := s.cfg.berCount.toInt

/-- The bit-count check, 0x01 (R151, R317). -/
def checkBitCount (p : Params) (n : Int) : Option CmdError :=
  if 1 ≤ n ∧ n ≤ p.nMax then none else some .bitCount

/-- `f64(S*P - 1)`, the index of the last sample (R201). -/
def lastIndex (symbols : Nat) (sps : Int) : F64 := F64.ofInt (symbols * sps - 1)

/-- Check 0x07 (R201): the phase increment, the last time and the last phase are finite. -/
def phaseFinite (symbols : Nat) (sps : Int) (fs fc : F64) : Bool :=
  F64.isFinite (F64.mul F64.twoPi fc)
    && F64.isFinite (F64.div (lastIndex symbols sps) fs)
    && F64.isFinite (F64.mul (F64.mul F64.twoPi fc) (F64.div (lastIndex symbols sps) fs))

/-- `check_synth(P, fs, fc, c, S)` (R201): the first check that fails. -/
def checkSynth (p : Params) (sps : Int) (fs fc : F64) (c : Scheme) (symbols : Nat) :
    Option CmdError :=
  if ¬(1 ≤ sps ∧ sps ≤ p.spsMax) then some .spsRange
  else if sps = 1 ∧ c ≠ .bpsk then some .spsOneWithQ
  else if ¬(F64.isFinite fs = true ∧ F64.lt F64.zero fs = true) then some .sampleRate
  else if ¬(F64.isFinite fc = true ∧ F64.lt F64.zero fc = true) then some .carrier
  else if F64.le (F64.mul fs F64.half) fc = true then some .nyquist
  else if ¬(phaseFinite symbols sps fs fc = true) then some .phaseRange
  else none

/-- `check_noise(mode, x)` (R232): a noise power must be finite and >= 0, a target SNR within
[-3000, 3000] dB. -/
def checkNoise (mode : Bool) (x : F64) : Option CmdError :=
  let good :=
    if mode then F64.isFinite x && F64.le F64.negThreeThousand x && F64.le x F64.threeThousand
    else F64.isFinite x && F64.le F64.zero x
  if good then none else some .noiseLevel

end Sys2Proof.Machine
end

