-- ==== Sys2Proof/Machine/Bus.lean ====
section
/-! DEFINITION. The host bus port (20_memory.md): reads and writes of registers and entries, the
accesses that are not served, and what happens while a command is pending; then one step of the
HOST (00_scope.md R29). -/

namespace Sys2Proof.Machine

/-- PARAM: N_MAX, SPS_MAX and BER_MAX in 16-bit fields (R43). -/
def paramWord (p : Params) : Word :=
  (0 : BitVec 16) ++ BitVec.ofNat 16 p.berMax ++ BitVec.ofNat 16 p.spsMax ++ BitVec.ofNat 16 p.nMax

/-- ID (R42). -/
def idWord : Word := 0x434D4F4400070000#64

/-- What a host read of a register returns while no command is pending (R41). -/
def State.readReg (s : State) : Reg → Word
  | .id => idWord
  | .param => paramWord s.params
  | .ctrl => s.cfg.ctrl.setWidth 64
  | .status => s.statusWord
  | .cmd => 0
  | .scheme => s.cfg.scheme.setWidth 64
  | .nbits => s.cfg.nbits
  | .sps => s.cfg.sps
  | .fc => s.cfg.fc
  | .fs => s.cfg.fs
  | .noiseLevel => s.cfg.noiseLevel
  | .seed => s.cfg.seed
  | .berCount => s.cfg.berCount
  | .snrMeas => s.res.snrMeas
  | .bitsLen => s.res.bitsLen
  | .symLen => s.res.symLen
  | .sampLen => s.res.sampLen
  | .npad => s.res.npad
  | .errCnt => s.res.errCnt
  | .latScheme => s.res.latScheme.code.setWidth 64
  | .latSps => s.res.latSps
  | .latFc => s.res.latFc
  | .latFs => s.res.latFs
  | .noisePwr => s.res.noisePwr
  | .varTx => s.res.varTx
  | .varNoise => s.res.varNoise
  | .berLen => s.res.berLen

/-- A host write of a register while no command is pending (R41, R98): CMD accepts a command (R310),
STATUS is write-1-to-clear (R46), the configuration registers store the value with their reserved
bits discarded, and the read-only registers ignore it (R96). -/
def State.writeReg (s : State) (r : Reg) (v : Word) : State :=
  match r with
  | .ctrl => { s with cfg := { s.cfg with ctrl := v.setWidth 4 } }
  | .status => acknowledge v s
  | .cmd => accept v s
  | .scheme => { s with cfg := { s.cfg with scheme := v.setWidth 3 } }
  | .nbits => { s with cfg := { s.cfg with nbits := v } }
  | .sps => { s with cfg := { s.cfg with sps := v } }
  | .fc => { s with cfg := { s.cfg with fc := v } }
  | .fs => { s with cfg := { s.cfg with fs := v } }
  | .noiseLevel => { s with cfg := { s.cfg with noiseLevel := v } }
  | .seed => { s with cfg := { s.cfg with seed := v } }
  | .berCount => { s with cfg := { s.cfg with berCount := v } }
  | .id | .param | .snrMeas | .bitsLen | .symLen | .sampLen | .npad | .errCnt => s
  | .latScheme | .latSps | .latFc | .latFs | .noisePwr | .varTx | .varNoise | .berLen => s

/-- BUSERR set: an unmapped, misaligned or narrow access (R92, R95). -/
def State.setBusErr (s : State) : State := { s with status := { s.status with busErr := true } }

/-- HAZ set: a mapped, aligned write dropped while a command is pending (R104, 70 R381). -/
def State.setHaz (s : State) : State := { s with status := { s.status with haz := true } }

/-- What a host access names: nothing unless it is a full, aligned word (R92) at a mapped address
(R94). -/
def accessTarget (p : Params) (a : Addr) (width : Width) : Target :=
  match width with
  | .narrow => .unmapped
  | .full => if a.toNat % 8 = 0 then decodeAddr p a.toNat else .unmapped

/-- A draw: an unconstrained word, fresh for each read (R68, R103). -/
def State.takeDraw (s : State) : Word × State :=
  (Config.draw s.unitNo s.draws, { s with draws := s.draws + 1 })

/-- STATUS read while a command is pending: BUSY = 1, DONE = 0, every other bit a draw (R103). -/
def busyStatus (d : Word) : Word := (d &&& 0xFFFFFFFFFFFFFFFC#64) ||| 0x0000000000000001#64

/-- One host read (R92, R95, R97, R103): the value, and the state, in which nothing changes but
BUSERR and the count of draws. -/
def hostRead (a : Addr) (width : Width) (s : State) : Word × State :=
  match accessTarget s.params a width with
  | .unmapped => (0, s.setBusErr)
  | .reg r =>
    if s.busy && !r.steadyWhileBusy then
      if r = .status then (busyStatus s.takeDraw.1, s.takeDraw.2) else s.takeDraw
    else (s.readReg r, s)
  | .cell r j =>
    if s.busy && !r.isConfig then s.takeDraw
    else
      match readWord s.mem (r.entryAddr j) with
      | some v => (v, s)
      | none => s.takeDraw

/-- One host write (R92, R95, R96, R98, R104). -/
def hostWrite (a : Addr) (width : Width) (v : Word) (s : State) : State :=
  match accessTarget s.params a width with
  | .unmapped => s.setBusErr
  | .reg r => if s.busy then s.setHaz else s.writeReg r v
  | .cell r j =>
    if s.busy then s.setHaz
    else if r.isConfig then s.setEntry r j v
    else s

/-- The byte address of STATUS (R41). -/
def statusAddr : Addr := 0x000018#24

/-- The host notes the value a read returned. -/
def logRead (a : Addr) (r : Word × State) : State :=
  { r.2 with readLog := (a, r.1) :: r.2.readLog }

/-- One host operation, taken from the head of the host's program; `rest` is what follows it. A
`wait` that reads BUSY = 1 and an `awaitIrq` that finds IRQ = 0 are tried again (R129, R380). -/
def hostOp (op : HostOp) (rest : List HostOp) (s : State) : State :=
  match op with
  | .read a width => { logRead a (hostRead a width s) with hostProg := rest }
  | .write a width v => { hostWrite a width v s with hostProg := rest }
  | .wait =>
    let r := hostRead statusAddr .full s
    if r.1.getLsbD 0 then logRead statusAddr r else { logRead statusAddr r with hostProg := rest }
  | .awaitIrq => if s.irq then { s with hostProg := rest } else s

/-- One step of the HOST (R29): its next operation, in program order (R100), or nothing when it has
finished. -/
def hostStep (s : State) : State :=
  match s.hostProg with
  | [] => s
  | op :: rest => hostOp op rest s

end Sys2Proof.Machine
end

