-- ==== Sys2Proof/Machine/Ber.lean ====
section
/-! DEFINITION. BER, the theoretical BER curve generator (45_ber.md). -/

namespace Sys2Proof.Machine

/-- The linear SNR s = POW10(snr_db ⊘ 10.0) (R292). -/
def linearSnr (N : Numerics) (db : F64) : F64 := N.pow10 (F64.div db F64.ten)

/-- `ber(c, s)`, exactly as the document gives the formulas (R293, R294, R295). -/
def berOf (N : Numerics) (c : Scheme) (snr : F64) : F64 :=
  match c with
  | .bpsk | .qpsk => F64.mul F64.half (N.erfc (F64.sqrt snr))
  | .qam16 => F64.mul F64.threeEighths (N.erfc (F64.sqrt (F64.mul F64.fourFifths snr)))
  | .qam64 => F64.mul F64.c712 (N.erfc (F64.sqrt (F64.div snr F64.fortyTwo)))

/-- The point-count check, 0x09 (R290). -/
def checkPointCount (p : Params) (k : Int) : Option CmdError :=
  if 1 ≤ k ∧ k ≤ p.berMax then none else some .berCount

/-- Whether every SNR point in use is finite (R290, check 0x0A). -/
def pointsFinite (s : State) (k : Nat) : Bool :=
  (List.range k).all (fun j => F64.isFinite (s.entry .snrIn j))

/-- The body of BER (R290). It reads SCHEME, not LAT_SCHEME (R291). -/
def bodyBer (N : Numerics) (s : State) : Result :=
  match Scheme.ofCode s.cfg.scheme with
  | none => .raise .scheme s
  | some c =>
    match checkPointCount s.params s.pointCount with
    | some e => .raise e s
    | none =>
      let k := s.pointCount.toNat
      if pointsFinite s k = false then .raise .snrPoint s
      else
        let t := s.fill .berOut k (fun j => berOf N c (linearSnr N (s.entry .snrIn j)))
        .ok { t with
          res := { t.res with berLen := BitVec.ofNat 64 k }
          status := t.status.validBer }

/-- BER (R290). -/
def execBer (s : State) : Host.Outcome State Fault Refusal := perform (bodyBer Config.numerics) s

end Sys2Proof.Machine
end

