-- ==== Sys2Proof/WellFormed.lean ====
section
/-! DEFINITION. The checks on raw data: the legal capacities of a block (00_scope.md R9 to R11), the
legal command words (30_encoding.md R120, R121), and the well-formed instructions. -/

namespace Sys2Proof

/-- The capacities the spec allows (R9, R10, R11). -/
def Params.legal (p : Params) : Bool :=
  decide (p.nMax % 64 = 0) && decide (128 ≤ p.nMax) && decide (p.nMax ≤ 32768)
    && decide (p.nMax * p.spsMax ≤ 131072) && decide (20 ≤ p.spsMax)
    && decide (3 ≤ p.berMax) && decide (p.berMax ≤ 512)

/-- The nine opcodes of the opcode map (R121). -/
def opcodes : List Nat := [0x00, 0x01, 0x10, 0x20, 0x30, 0x40, 0x50, 0x60, 0x70]

/-- RSVD, bits [63:8] of a command word, is 0 (R120, R124). -/
def reservedZero (w : Word) : Bool := decide (w.toNat / 256 = 0)

/-- OPCODE, bits [7:0] of a command word, is one of the nine (R121, R125). -/
def opcodeDefined (w : Word) : Bool := opcodes.contains (w.toNat % 256)

/-- A legal command word: one that passes both decode checks (R312). -/
def wordWellFormed (w : Word) : Bool := reservedZero w && opcodeDefined w

/-- An instruction is well-formed when its operands are; no command has one (R122). -/
def Instr.wellFormed : Instr → Bool
  | .nop | .clear | .genBits | .map | .synth | .channel | .slice | .ber | .run => true

end Sys2Proof
end

