-- ==== Sys2Proof/Decode.lean ====
section
/-! DEFINITION. Decoding a command word, total and rejecting by name, and the encoder (30_encoding.md
R120, R121, R124, R125; 46_control.md R312; byte order 20_memory.md R93). -/

namespace Sys2Proof

/-- Why a word is no command. -/
inductive DecodeError where
  /-- RSVD is not 0: ERRINFO 0x40 (R124) -/
  | reservedBits
  /-- RSVD is 0 and OPCODE is none of the nine: ERRINFO 0x41 (R125) -/
  | undefinedOpcode
deriving DecidableEq, Repr

/-- Why a list of bytes holds no command at its head. -/
inductive BytesError where
  /-- fewer than the eight bytes of a command word (R120); the bus moves whole words only (R92) -/
  | truncated
  /-- eight bytes that form an illegal command word -/
  | illegal (e : DecodeError)
deriving DecidableEq, Repr

/-- The instruction an opcode selects (R121). -/
def decodeOpcode (op : Nat) : Option Instr :=
  match op with
  | 0x00 => some .nop
  | 0x01 => some .clear
  | 0x10 => some .genBits
  | 0x20 => some .map
  | 0x30 => some .synth
  | 0x40 => some .channel
  | 0x50 => some .slice
  | 0x60 => some .ber
  | 0x70 => some .run
  | _ => none

/-- A command word decoded: RSVD is checked before the opcode (R312). -/
def decode (w : Word) : Except DecodeError Instr :=
  if w.toNat / 256 ≠ 0 then .error .reservedBits
  else
    match decodeOpcode (w.toNat % 256) with
    | some i => .ok i
    | none => .error .undefinedOpcode

/-- The word whose byte lanes are the listed bytes, lane 0 first (R93). -/
def wordOfBytes (bytes : List Byte) : Word :=
  BitVec.ofNat 64 (bytes.foldr (fun b acc => b.toNat + 256 * acc) 0)

/-- The command at the head of a list of bytes, and the bytes after it. -/
def decodeBytes (bytes : List Byte) : Except BytesError (Instr × List Byte) :=
  if bytes.length < 8 then .error .truncated
  else
    match decode (wordOfBytes (bytes.take 8)) with
    | .ok i => .ok (i, bytes.drop 8)
    | .error e => .error (.illegal e)

/-- The command word of an instruction (R121). -/
def encode : Instr → Word
  | .nop => 0x0000000000000000#64
  | .clear => 0x0000000000000001#64
  | .genBits => 0x0000000000000010#64
  | .map => 0x0000000000000020#64
  | .synth => 0x0000000000000030#64
  | .channel => 0x0000000000000040#64
  | .slice => 0x0000000000000050#64
  | .ber => 0x0000000000000060#64
  | .run => 0x0000000000000070#64

/-- The eight bytes of a word, lane 0 first (R93). -/
def bytesOfWord (w : Word) : List Byte := (List.range 8).map (fun i => w.extractLsb' (8 * i) 8)

/-- The command word made of the low `nbits` bits of `w`, every bit above them 0. -/
def tableWord (nbits w : Nat) : Word := BitVec.ofNat 64 (w % 2 ^ nbits)

/-- The instruction the decoder reads from a row of the opcode table: the word laid out as its eight
bytes, then decoded. -/
def decodeTableWord (nbits w : Nat) : Option Instr :=
  match decodeBytes (bytesOfWord (tableWord nbits w)) with
  | .ok (i, _) => some i
  | .error _ => none

end Sys2Proof
end

