-- ==== Sys2Proof/Machine/BitSource.lean ====
section
/-! DEFINITION. GEN_BITS, the bit source (40_bitsource.md). -/

namespace Sys2Proof.Machine

/-- Bit `i` of the sequence: the host's pattern when CTRL.BITSRC = 1, else the seeded stream (R151,
R153). -/
def sourceBit (N : Numerics) (s : State) (i : Nat) : Bool :=
  if s.bitSrc then s.bit .hbits i else N.bitRng s.cfg.seed i

/-- The body of GEN_BITS (R151). -/
def bodyGenBits (N : Numerics) (s : State) : Result :=
  match checkBitCount s.params s.bitCount with
  | some e => .raise e s
  | none =>
    let n := s.bitCount.toNat
    let t := s.fillBits .bits n (sourceBit N s)
    .ok { t with
      res := { t.res with bitsLen := BitVec.ofNat 64 n }
      status := t.status.validGenBits }

/-- GEN_BITS (R151). -/
def execGenBits (s : State) : Host.Outcome State Fault Refusal :=
  perform (bodyGenBits Config.numerics) s

end Sys2Proof.Machine
end

