-- ==== Sys2Proof/Machine/Channel.lean ====
section
/-! DEFINITION. CHANNEL: the Gaussian noise adder, the coherent demodulator and the realised-SNR meter
(43_channel.md). -/

namespace Sys2Proof.Machine

/-- `variance(X, L)`: the population variance by two sequential passes (R233). -/
def variance (x : Nat → F64) (len : Nat) : F64 :=
  let m := F64.div (F64.sum len x) (F64.ofNat len)
  F64.div (F64.sum len (fun n => F64.mul (F64.sub (x n) m) (F64.sub (x n) m))) (F64.ofNat len)

/-- The noise power Pn: NOISE_LEVEL itself in mode 0, the target-SNR form in mode 1 (R234). -/
def noisePower (N : Numerics) (mode : Bool) (x vtx : F64) : F64 :=
  if mode then F64.div vtx (N.pow10 (F64.div x F64.ten)) else x

/-- Noise sample w_n = SQRT(Pn) ⊗ GAUSS_RNG(SEED, n) (R235). -/
def noiseSample (N : Numerics) (pn : F64) (seed : Word) (n : Nat) : F64 :=
  F64.mul (F64.sqrt pn) (N.gaussRng seed n)

/-- The SNR in dB of two variances (R239). -/
def snrDb (N : Numerics) (vtx vn : F64) : F64 :=
  if F64.eq vn F64.zero then F64.posInf
  else if F64.eq vtx F64.zero then F64.negInf
  else F64.mul F64.ten (N.log10 (F64.div vtx vn))

/-- `report_snr(vtx, vn, strict)` (R239): SNR_MEAS, or under a strict ratio the error of a zero
variance, with SNR_MEAS = QNAN (R240). -/
def reportSnr (N : Numerics) (vtx vn : F64) (strict : Bool) (s : State) : Result :=
  if strict && F64.eq vn F64.zero then
    .raise .strictNoise { s with res := { s.res with snrMeas := F64.qnan } }
  else if strict && F64.eq vtx F64.zero then
    .raise .strictSignal { s with res := { s.res with snrMeas := F64.qnan } }
  else .ok { s with res := { s.res with snrMeas := snrDb N vtx vn } }

/-- Everything CHANNEL writes before it reports the SNR (R231), for a transmitted variance `vtx` and
a noise power `pn`. -/
def channelWrites (N : Numerics) (vtx pn : F64) (s : State) : State :=
  let len := s.res.sampLen.toNat
  let w := noiseSample N pn s.cfg.seed
  let r := fun n => F64.add (s.entry .tx n) (w n)
  let t := (((s.fill .noise len w).fill .rx len r).fill .demodI len
    (fun n => F64.mul (r n) (s.entry .carI n))).fill .demodQ len
    (fun n => F64.mul (r n) (s.entry .carQ n))
  { t with
    res := { t.res with noisePwr := pn, varTx := vtx, varNoise := variance w len }
    status := t.status.validChannel }

/-- The body of CHANNEL (R231): the NOT_READY check comes first. -/
def bodyChannel (N : Numerics) (s : State) : Result :=
  if s.status.waveV = false then .raise .waveNotReady s
  else
    match checkNoise s.noiseMode s.cfg.noiseLevel with
    | some e => .raise e s
    | none =>
      let vtx := variance (s.entry .tx) s.res.sampLen.toNat
      let t := channelWrites N vtx (noisePower N s.noiseMode s.cfg.noiseLevel vtx) s
      reportSnr N vtx t.res.varNoise s.strictSnr t

/-- CHANNEL (R231). -/
def execChannel (s : State) : Host.Outcome State Fault Refusal :=
  perform (bodyChannel Config.numerics) s

end Sys2Proof.Machine
end

