-- ==== Sys2Proof/Machine/Mapper.lean ====
section
/-! DEFINITION. MAP, the QAM/PSK constellation mapper (41_mapper.md). -/

namespace Sys2Proof.Machine

/-- Bit `i` of a sequence of `n` bits right-padded with zeros (R172). -/
def padded (n : Nat) (bit : Nat → Bool) (i : Nat) : Bool := decide (i < n) && bit i

/-- A label of `h` bits read with its first bit the most significant (R173). -/
def label (h : Nat) (bit : Nat → Bool) : Nat :=
  (List.range h).foldl (fun g t => 2 * g + (bit t).toNat) 0

/-- The odd integer coordinate of level `m` of an axis of `levels` levels (R174). -/
def levelCoordinate (levels m : Nat) : Int := 2 * m - (levels - 1)

/-- The coordinate that an axis label of `h` bits selects (R174). -/
def axisLevel (levels h g : Nat) : F64 := F64.ofInt (levelCoordinate levels (ginv h g))

/-- `point(c, group)`: the constellation point of a group of k bits (R173 to R178). -/
def point (c : Scheme) (group : Nat → Bool) : F64 × F64 :=
  match c with
  | .bpsk => (if group 0 then F64.one else F64.negOne, F64.zero)
  | .qpsk =>
    (if group 0 then F64.scale else F64.negScale, if group 1 then F64.scale else F64.negScale)
  | .qam16 | .qam64 =>
    let h := c.halfBits
    (axisLevel c.levels h (label h group), axisLevel c.levels h (label h (fun t => group (h + t))))

/-- The point of symbol `j`: group `j` is bits j*k to j*k+k-1 of the padded sequence (R172). -/
def symbolPoint (s : State) (c : Scheme) (j : Nat) : F64 × F64 :=
  point c (fun t => padded s.res.bitsLen.toNat (s.bit .bits) (j * c.bitsPerSymbol + t))

/-- S = ceil(N / k) (R172). -/
def symbolCount (c : Scheme) (n : Nat) : Nat := ceilDiv n c.bitsPerSymbol

/-- The body of MAP (R171): the scheme check comes first. -/
def bodyMap (s : State) : Result :=
  match Scheme.ofCode s.cfg.scheme with
  | none => .raise .scheme s
  | some c =>
    if s.status.bitsV = false then .raise .bitsNotReady s
    else
      let n := s.res.bitsLen.toNat
      let count := symbolCount c n
      let t := (s.fill .symI count (fun j => (symbolPoint s c j).1)).fill .symQ count
        (fun j => (symbolPoint s c j).2)
      .ok { t with
        res := { t.res with
          symLen := BitVec.ofNat 64 count
          npad := BitVec.ofNat 64 (count * c.bitsPerSymbol - n)
          latScheme := c }
        status := t.status.validMap }

/-- MAP (R171). -/
def execMap (s : State) : Host.Outcome State Fault Refusal := perform bodyMap s

end Sys2Proof.Machine
end

