-- ==== Sys2Proof/Machine/Slicer.lean ====
section
/-! DEFINITION. SLICE, the integrate-and-dump symbol slicer (44_slicer.md). -/

namespace Sys2Proof.Machine

/-- The five window sums of `integrate(j)` (R261). -/
structure Window where
  h11 : F64
  h22 : F64
  h12 : F64
  ai : F64
  aq : F64
deriving DecidableEq, Repr

/-- `integrate(j)`: the sums over samples j*P to j*P+P-1, each sequential from +0.0 (R261). -/
def integrate (s : State) (sps j : Nat) : Window where
  h11 := F64.sum sps (fun t => F64.mul (s.entry .carI (j * sps + t)) (s.entry .carI (j * sps + t)))
  h22 := F64.sum sps (fun t => F64.mul (s.entry .carQ (j * sps + t)) (s.entry .carQ (j * sps + t)))
  h12 := F64.sum sps (fun t => F64.mul (s.entry .carI (j * sps + t)) (s.entry .carQ (j * sps + t)))
  ai := F64.sum sps (fun t => s.entry .demodI (j * sps + t))
  aq := F64.sum sps (fun t => s.entry .demodQ (j * sps + t))

/-- A symbol estimate, and whether its window was degenerate (R264). -/
structure Estimate where
  x : F64
  y : F64
  degenerate : Bool
deriving DecidableEq, Repr

/-- The estimate of a degenerate window (R264). -/
def Estimate.none : Estimate := { x := F64.zero, y := F64.zero, degenerate := true }

/-- `est_bpsk(h11, ai)` (R262). -/
def estBpsk (w : Window) : Estimate :=
  if F64.lt F64.zero w.h11 then { x := F64.div w.ai w.h11, y := F64.zero, degenerate := false }
  else Estimate.none

/-- The determinant of the 2x2 carrier system (R263). -/
def Window.det (w : Window) : F64 := F64.sub (F64.mul w.h11 w.h22) (F64.mul w.h12 w.h12)

/-- `est_2x2(h11, h22, h12, ai, aq)` (R263). -/
def est2x2 (w : Window) : Estimate :=
  if F64.lt F64.zero w.det && F64.isFinite w.det then
    { x := F64.div (F64.sub (F64.mul w.h22 w.ai) (F64.mul w.h12 w.aq)) w.det
      y := F64.div (F64.sub (F64.mul w.h11 w.aq) (F64.mul w.h12 w.ai)) w.det
      degenerate := false }
  else Estimate.none

/-- The estimate of a window under a scheme (R260). -/
def estimateOf (c : Scheme) (w : Window) : Estimate :=
  match c with
  | .bpsk => estBpsk w
  | .qpsk | .qam16 | .qam64 => est2x2 w

/-- The estimate of symbol `j` (R260), from the latched scheme and samples per symbol (R55). -/
def estimate (s : State) (j : Nat) : Estimate :=
  estimateOf s.res.latScheme (integrate s s.res.latSps.toNat j)

/-- `level(v, A)`: the number of thresholds 2*i - A, i in 1..A-1, below the estimate (R265). -/
def level (v : F64) (levels : Nat) : Nat :=
  (List.range (levels - 1)).countP
    (fun i => F64.lt (F64.ofInt (2 * (i + 1 : Nat) - levels)) v)

/-- The Gray label an estimate of one axis decides (R266). -/
def axisLabel (c : Scheme) (v : F64) : Nat := gray (level v c.levels)

/-- Decided bit `t` of a symbol (R266): the first half of its bits from the I axis, the rest from the
Q axis, each label's most significant bit first. -/
def decidedBit (c : Scheme) (e : Estimate) (t : Nat) : Bool :=
  match c with
  | .bpsk => decide (level e.x 2 = 1)
  | .qpsk | .qam16 | .qam64 =>
    let h := c.halfBits
    if t < h then (axisLabel c e.x).testBit (h - 1 - t)
    else (axisLabel c e.y).testBit (h - 1 - (t - h))

/-- Recovered bit `i`: bit i mod k of symbol i div k (R266). -/
def recoveredBit (s : State) (i : Nat) : Bool :=
  decidedBit s.res.latScheme (estimate s (i / s.res.latScheme.bitsPerSymbol))
    (i % s.res.latScheme.bitsPerSymbol)

/-- Whether some window of the run is degenerate (R264). -/
def anyDegenerate (s : State) : Bool :=
  (List.range s.res.symLen.toNat).any (fun j => (estimate s j).degenerate)

/-- ERRCNT: the information bits recovered wrongly, padding excluded (R267). -/
def errorCount (s : State) : Nat :=
  (List.range s.res.bitsLen.toNat).countP (fun i => s.bit .bits i != recoveredBit s i)

/-- The body of SLICE (R260). The buffers it writes are none of those it reads, so every value is
computed from the state before it. -/
def bodySlice (s : State) : Result :=
  if s.status.rxV = false then .raise .rxNotReady s
  else
    let count := s.res.symLen.toNat
    let t := ((s.fill .estI count (fun j => (estimate s j).x)).fill .estQ count
      (fun j => (estimate s j).y)).fillBits .rxbits
      (count * s.res.latScheme.bitsPerSymbol) (recoveredBit s)
    .ok { t with
      res := { t.res with errCnt := BitVec.ofNat 64 (errorCount s) }
      status := t.status.validSlice (anyDegenerate s) }

/-- SLICE (R260). -/
def execSlice (s : State) : Host.Outcome State Fault Refusal := perform bodySlice s

end Sys2Proof.Machine
end

