-- ==== Sys2Proof/Machine/Synth.lean ====
section
/-! DEFINITION. SYNTH: the rectangular pulse-shaping filter, the complex oscillator and the I-Q
modulator (42_synth.md). -/

namespace Sys2Proof.Machine

/-- t_n = f64(n) ⊘ fs (R202). -/
def sampleTime (fs : F64) (n : Nat) : F64 := F64.div (F64.ofNat n) fs

/-- θ_n = W ⊗ t_n with W = TWO_PI ⊗ fc (R205, R206). -/
def phase (fs fc : F64) (n : Nat) : F64 := F64.mul (F64.mul F64.twoPi fc) (sampleTime fs n)

/-- The in-phase carrier c_n = COS(θ_n) (R207). -/
def carrierI (N : Numerics) (fs fc : F64) (n : Nat) : F64 := N.cos (phase fs fc n)

/-- The quadrature carrier u_n = -SIN(θ_n) (R207). -/
def carrierQ (N : Numerics) (fs fc : F64) (n : Nat) : F64 := F64.neg (N.sin (phase fs fc n))

/-- The transmitted sample of a symbol's coordinates on the two carriers (R208). -/
def modulate (i q c u : F64) : F64 := F64.add (F64.mul i c) (F64.mul q u)

/-- TX[n]: symbol `n div P` held for its P samples (R203), modulated (R208). -/
def txSample (N : Numerics) (s : State) (sps : Nat) (n : Nat) : F64 :=
  modulate (s.entry .symI (n / sps)) (s.entry .symQ (n / sps))
    (carrierI N s.cfg.fs s.cfg.fc n) (carrierQ N s.cfg.fs s.cfg.fc n)

/-- The body of SYNTH (R200): the NOT_READY check comes first. -/
def bodySynth (N : Numerics) (s : State) : Result :=
  if s.status.symV = false then .raise .symNotReady s
  else
    match checkSynth s.params s.samplesPerSymbol s.cfg.fs s.cfg.fc s.res.latScheme
      s.res.symLen.toNat with
    | some e => .raise e s
    | none =>
      let sps := s.samplesPerSymbol.toNat
      let len := s.res.symLen.toNat * sps
      let t := (((s.fill .time len (sampleTime s.cfg.fs)).fill .carI len
        (carrierI N s.cfg.fs s.cfg.fc)).fill .carQ len
        (carrierQ N s.cfg.fs s.cfg.fc)).fill .tx len (txSample N s sps)
      .ok { t with
        res := { t.res with
          sampLen := BitVec.ofNat 64 len
          latSps := BitVec.ofNat 64 sps
          latFc := s.cfg.fc
          latFs := s.cfg.fs }
        status := t.status.validSynth }

/-- SYNTH (R200). -/
def execSynth (s : State) : Host.Outcome State Fault Refusal :=
  perform (bodySynth Config.numerics) s

end Sys2Proof.Machine
end

