-- ==== Sys2Proof/Machine/Control.lean ====
section
/-! DEFINITION. The control commands NOP, CLEAR and RUN, and an illegal command word (46_control.md). -/

namespace Sys2Proof.Machine

/-- The body of NOP: nothing (R314). -/
def bodyNop (s : State) : Result := .ok s

/-- NOP (R314). -/
def execNop (s : State) : Host.Outcome State Fault Refusal := perform bodyNop s

/-- The body of CLEAR (R315): flags, lengths, latches and results; the configuration, the arrays and
the buffers stay. -/
def bodyClear (s : State) : Result :=
  .ok { s with status := s.status.cleared, res := ResultRegs.reset }

/-- CLEAR (R315). -/
def execClear (s : State) : Host.Outcome State Fault Refusal := perform bodyClear s

/-- `run_checks()`: every parameter error of the run, before any write (R317). -/
def runChecks (s : State) : Option CmdError :=
  match Scheme.ofCode s.cfg.scheme with
  | none => some .scheme
  | some c =>
    match checkBitCount s.params s.bitCount with
    | some e => some e
    | none =>
      match checkSynth s.params s.samplesPerSymbol s.cfg.fs s.cfg.fc c
        (symbolCount c s.bitCount.toNat) with
      | some e => some e
      | none => checkNoise s.noiseMode s.cfg.noiseLevel

/-- The body of RUN (R316): the checks, then the five bodies. CHANNEL's strict error ends it before
SLICE, with the writes made so far (R318). -/
def bodyRun (N : Numerics) (s : State) : Result :=
  match runChecks s with
  | some e => .raise e s
  | none =>
    ((((bodyGenBits N s).andThen bodyMap).andThen (bodySynth N)).andThen (bodyChannel N)).andThen
      bodySlice

/-- RUN (R316). -/
def execRun (s : State) : Host.Outcome State Fault Refusal := perform (bodyRun Config.numerics) s

/-- The command error of a word that does not decode (R124, R125). -/
def illegalError : DecodeError → CmdError
  | .reservedBits => .reservedBits
  | .undefinedOpcode => .undefinedOpcode

/-- The SEQUENCER step of an illegal command word: ILLEGAL_COMMAND, nothing but STATUS changed (R312,
R334). -/
def execIllegal (e : DecodeError) (s : State) : Host.Outcome State Fault Refusal :=
  perform (Result.raise (illegalError e)) s

end Sys2Proof.Machine
end

