-- ==== Sys2Proof/Machine/Dispatch.lean ====
section
/-! DEFINITION. The dispatch of a decoded command to its meaning, one arm per instruction
(46_control.md R312). -/

namespace Sys2Proof.Machine

def exec (i : Instr) (s : State) : Host.Outcome State Fault Refusal :=
  match i with
  | .nop => Sys2Proof.Machine.execNop s
  | .clear => Sys2Proof.Machine.execClear s
  | .genBits => Sys2Proof.Machine.execGenBits s
  | .map => Sys2Proof.Machine.execMap s
  | .synth => Sys2Proof.Machine.execSynth s
  | .channel => Sys2Proof.Machine.execChannel s
  | .slice => Sys2Proof.Machine.execSlice s
  | .ber => Sys2Proof.Machine.execBer s
  | .run => Sys2Proof.Machine.execRun s

end Sys2Proof.Machine
end

