-- ==== Sys2Proof/Machine/Step.lean ====
section
/-! DEFINITION. One step of the whole block (00_scope.md R29, 20_memory.md R100): an access of the
HOST, the SEQUENCER's atomic performance of the pending command (46_control.md R312), or the reset
input. -/

namespace Sys2Proof.Machine

/-- The SEQUENCER's step: the pending word decoded and performed; nothing when none is pending
(R312). -/
def sequencerStep (s : State) : Host.Outcome State Fault Refusal :=
  match s.pending with
  | none => .next s
  | some w =>
    match decode w with
    | .ok i => exec i s
    | .error e => execIllegal e s

/-- One step of the given mover. -/
def agentStep (a : Agent) (s : State) : Host.Outcome State Fault Refusal :=
  match a with
  | .host => .next (hostStep s)
  | .sequencer => sequencerStep s
  | .reset => .next (resetBlock s)

/-- The mover when the interleaving is used up: the SEQUENCER while a command is pending (R385), else
the host. -/
def defaultAgent (s : State) : Agent := if s.busy then .sequencer else .host

/-- One step: the next mover of the interleaving, or the default one, moves. -/
def step (s : State) : Host.Outcome State Fault Refusal :=
  match s.sched with
  | a :: rest => agentStep a { s with sched := rest }
  | [] => agentStep (defaultAgent s) s

/-- The state in which the very next step performs the command word of the low `nbits` bits of `w`:
the word accepted (R310), and the SEQUENCER the next to move. -/
def State.withFetchWord (s : State) (nbits w : Nat) : State :=
  { accept (tableWord nbits w) s with sched := .sequencer :: s.sched }

end Sys2Proof.Machine
end

