-- ==== Sys2Proof/Machine/HostAsm.lean ====
section
/-! DEFINITION. The host assembly of programs and test vectors (30_encoding.md R127, R128, R129): lines
and their expansion into host operations. -/

namespace Sys2Proof.Machine

/-- `<loc>` (R128). -/
inductive Loc where
  /-- a register of R41 by name -/
  | reg (r : Reg)
  /-- entry `i` of an array or buffer; a word index for the packed ones -/
  | entry (r : Region) (i : Nat)
  /-- a literal address -/
  | literal (a : Addr)
deriving DecidableEq, Repr

/-- The byte address of a location (R128). -/
def Loc.addr : Loc → Addr
  | .reg r => BitVec.ofNat 24 r.offset
  | .entry r i => BitVec.ofNat 24 (r.entryAddr i)
  | .literal a => a

/-- `<value>` (R128). -/
inductive Value where
  /-- a hex literal, zero-extended to 64 bits -/
  | hex (w : Word)
  /-- a decimal integer, two's complement in 64 bits -/
  | dec (n : Int)
  /-- `f:` and the decimal `± p / q` (q a power of ten): the binary64 pattern nearest it -/
  | f (neg : Bool) (p q : Nat)
  /-- `f:+inf` -/
  | posInf
  /-- `f:-inf` -/
  | negInf
  /-- `f:qnan` -/
  | qnan
deriving DecidableEq, Repr

/-- The 64-bit word of a value (R128). -/
def Value.word : Value → Word
  | .hex w => w
  | .dec n => BitVec.ofInt 64 n
  | .f neg p q => F64.ofRatio neg p q
  | .posInf => F64.posInf
  | .negInf => F64.negInf
  | .qnan => F64.qnan

/-- One line of host assembly (R128), or a pseudo-instruction (R129). -/
inductive AsmLine where
  /-- `wr <loc>, <value>` -/
  | wr (l : Loc) (v : Value)
  /-- `rd <loc>` -/
  | rd (l : Loc)
  /-- `cmd <MNEMONIC>` -/
  | cmd (i : Instr)
  /-- `wait` -/
  | wait
  /-- `clr <mask>` -/
  | clr (mask : Word)
  /-- `clr all` -/
  | clrAll
  /-- `wrf <loc>, <decimal>` -/
  | wrf (l : Loc) (neg : Bool) (p q : Nat)
  /-- `wrbits <bit string>`, the leftmost bit first -/
  | wrbits (bits : List Bool)
deriving DecidableEq, Repr

/-- `wr <loc>, <word>` as one access. -/
def writeOp (l : Loc) (w : Word) : HostOp := .write l.addr .full w

/-- The expansion of a line into host operations (R128, R129). -/
def AsmLine.expand : AsmLine → List HostOp
  | .wr l v => [writeOp l v.word]
  | .rd l => [.read l.addr .full]
  | .cmd i => [writeOp (.reg .cmd) (encode i)]
  | .wait => [.wait]
  | .clr mask => [writeOp (.reg .status) mask]
  | .clrAll => [writeOp (.reg .status) 0x000000000000003E#64]
  | .wrf l neg p q => [writeOp l (F64.ofRatio neg p q)]
  | .wrbits bits =>
    (List.range (ceilDiv bits.length 64)).map (fun w =>
      writeOp (.entry .hbits w) (packBits bits.length (fun i => bits.getD i false) w))

/-- A hexadecimal digit in capitals. -/
def hexDigit (d : Nat) : Char := if d < 10 then Char.ofNat (48 + d) else Char.ofNat (55 + d)

/-- A number as `0x` and `n` hexadecimal digits. -/
def hexText (n v : Nat) : String :=
  "0x" ++ String.ofList ((List.range n).map (fun i => hexDigit (v / 16 ^ (n - 1 - i) % 16)))

/-- The one-line form of a host access (R127): none for the operations that are no single access, and
for a narrow one, which the form cannot write. -/
def accessText : HostOp → Option String
  | .read a .full => some ("R " ++ hexText 6 a.toNat)
  | .write a .full v => some ("W " ++ hexText 6 a.toNat ++ " " ++ hexText 16 v.toNat)
  | .read _ .narrow | .write _ .narrow _ | .wait | .awaitIrq => none

/-- A program's host operations, line after line. -/
def assemble (lines : List AsmLine) : List HostOp := lines.flatMap AsmLine.expand

/-- The host program loaded from outside, to be run from the state it is given. -/
def State.withProgram (s : State) (lines : List AsmLine) : State :=
  { s with hostProg := assemble lines }

end Sys2Proof.Machine
end

