-- ==== Sys2Proof/Machine/System.lean ====
section
/-! DEFINITION. Several blocks in one system (20_memory.md R108): each has its own state, and nothing
is shared between them. -/

namespace Sys2Proof.Machine

/-- The blocks of one system (R108): each with its own registers, buffers and seed, its own
capacities, and what its host has still to do with it. -/
structure System where
  blocks : List State
deriving DecidableEq, Repr

/-- A system of blocks with the given capacities, every block in its reset state. Each has its own
number, so its own free values. -/
def System.reset (params : List Params) : System where
  blocks := params.zipIdx.map (fun pk => { State.resetOf pk.1 with unitNo := pk.2 })

/-- One step of block `k`: that block's step, every other block left as it is (R108). A number that
no block has moves nothing. -/
def System.step (k : Nat) (y : System) : Host.Outcome System Fault Refusal :=
  match y.blocks[k]? with
  | none => .next y
  | some s =>
    match Machine.step s with
    | .next t => .next { blocks := y.blocks.set k t }
    | .fault r => .fault r
    | .refused r => .refused r

/-- Steps of the blocks named by a list, in its order: one interleaving of the blocks. -/
def System.run : List Nat → System → Host.Outcome System Fault Refusal
  | [], y => .next y
  | k :: ks, y =>
    match y.step k with
    | .next z => System.run ks z
    | .fault r => .fault r
    | .refused r => .refused r

end Sys2Proof.Machine
end

