-- ==== Sys2Proof/Safety.lean ====
section
/-! DEFINITION. What counts as a run that is over and clean (70_reset_and_hazards.md R376, R387), the
invariants of the block: facts of every state a run from reset reaches, in the terms claims use; and
the premises of a claim about a host program (R376). -/

namespace Sys2Proof.Machine

/-- The host program's run is over: the host has finished its last access and no command is pending
(R387). -/
def State.runOver (s : State) : Bool := s.hostProg.isEmpty && !s.busy

/-- "No error recorded": ERR = 0, HAZ = 0 and BUSERR = 0 (R376, R387). -/
def State.noErrorRecorded (s : State) : Bool :=
  !s.status.err && !s.status.haz && !s.status.busErr

/-- The premise of a claim about recovered bits: no degenerate window (R387). -/
def State.noDegenerateWindow (s : State) : Bool := !s.status.degen

/-- Whether a byte address lies within the capacity of an array or window (R94). -/
def mappedByte (p : Params) (a : Nat) : Bool :=
  Region.all.any (fun r => decide (r.base ≤ a) && decide (a < r.entryAddr (r.capacity p)))

/-- The memory is in canonical form, the capacities are legal, and only bytes of mapped entries are
listed (R9 to R11, R94). -/
structure State.MemInv (s : State) : Prop where
  legal : s.params.legal = true
  canonical : Memory.wf s.mem
  mapped : ∀ c ∈ s.mem, mappedByte s.params c.1 = true

/-- The (ERRCODE, ERRINFO) pairs the table of R336 allows: none, or those of one error. -/
def errorPair (code info : BitVec 8) : Prop :=
  (code = 0 ∧ info = 0) ∨ ∃ e : CmdError, code = e.code ∧ info = e.info

/-- STATUS agrees with the SEQUENCER: while a command is pending DONE, ERRCODE and ERRINFO are 0 and
LASTOP is its opcode (R310); and ERRCODE and ERRINFO are a row of R336. -/
structure State.StatusInv (s : State) : Prop where
  pending : ∀ w, s.pending = some w →
    s.status.done = false ∧ s.status.errCode = 0 ∧ s.status.errInfo = 0 ∧
      s.status.lastOp = w.setWidth 8
  errors : errorPair s.status.errCode s.status.errInfo

/-- Entries 0 to n-1 of a buffer are written since reset (R68). -/
def State.filled (s : State) (r : Region) (n : Nat) : Prop := ∀ j, j < n → s.written r j = true

/-- What each VALID flag promises (R67, R338): the length registers agree with each other and with
the capacities, and every entry below them is written since reset. -/
structure State.ValidInv (s : State) : Prop where
  bits : s.status.bitsV = true →
    1 ≤ s.res.bitsLen.toNat ∧ s.res.bitsLen.toNat ≤ s.params.nMax ∧
      s.filled .bits (ceilDiv s.res.bitsLen.toNat 64)
  sym : s.status.symV = true →
    s.status.bitsV = true ∧
      s.res.symLen.toNat = symbolCount s.res.latScheme s.res.bitsLen.toNat ∧
      s.res.npad.toNat
        = s.res.symLen.toNat * s.res.latScheme.bitsPerSymbol - s.res.bitsLen.toNat ∧
      s.filled .symI s.res.symLen.toNat ∧ s.filled .symQ s.res.symLen.toNat
  wave : s.status.waveV = true →
    s.status.symV = true ∧ 1 ≤ s.res.latSps.toNat ∧ s.res.latSps.toNat ≤ s.params.spsMax ∧
      s.res.sampLen.toNat = s.res.symLen.toNat * s.res.latSps.toNat ∧
      s.filled .time s.res.sampLen.toNat ∧ s.filled .carI s.res.sampLen.toNat ∧
      s.filled .carQ s.res.sampLen.toNat ∧ s.filled .tx s.res.sampLen.toNat
  rx : s.status.rxV = true →
    s.status.waveV = true ∧
      s.filled .noise s.res.sampLen.toNat ∧ s.filled .rx s.res.sampLen.toNat ∧
      s.filled .demodI s.res.sampLen.toNat ∧ s.filled .demodQ s.res.sampLen.toNat
  est : s.status.estV = true →
    s.status.rxV = true ∧ s.res.errCnt.toNat ≤ s.res.bitsLen.toNat ∧
      s.filled .estI s.res.symLen.toNat ∧ s.filled .estQ s.res.symLen.toNat ∧
      s.filled .rxbits (ceilDiv (s.res.symLen.toNat * s.res.latScheme.bitsPerSymbol) 64)
  ber : s.status.berV = true →
    1 ≤ s.res.berLen.toNat ∧ s.res.berLen.toNat ≤ s.params.berMax

/-- The invariant of the block. -/
structure State.Inv (s : State) : Prop where
  mem : s.MemInv
  status : s.StatusInv
  valid : s.ValidInv

/-! ### The premises at launch (R376) -/

/-- The VALID flags and the sticky bits of STATUS (R45, R67, R343), of which a host program may state
what it assumes (R376). -/
inductive StatusFlag where
  | bitsV | symV | waveV | rxV | estV | berV
  | err | haz | busErr | degen
deriving DecidableEq, Repr

/-- The value of a flag. -/
def Status.flag (st : Status) : StatusFlag → Bool
  | .bitsV => st.bitsV
  | .symV => st.symV
  | .waveV => st.waveV
  | .rxV => st.rxV
  | .estV => st.estV
  | .berV => st.berV
  | .err => st.err
  | .haz => st.haz
  | .busErr => st.busErr
  | .degen => st.degen

/-- STATUS has the values a host program states that it assumes. -/
def Status.agrees (st : Status) (assumed : List (StatusFlag × Bool)) : Prop :=
  ∀ fb ∈ assumed, st.flag fb.1 = fb.2

/-- The block is in its reset state (R371), whatever the host's side holds: reset changes nothing. -/
def State.inReset (s : State) : Prop := s.params.legal = true ∧ resetBlock s = s

/-- The host's program starts with a wait for BUSY = 0 (R129, R376). -/
def State.waitsFirst (s : State) : Prop := ∃ rest, s.hostProg = .wait :: rest

/-- The state in which a wait for BUSY = 0 finds the block: the pending command performed, if there is
one (R312, R385). -/
def State.settled (s : State) : State :=
  match sequencerStep s with
  | .next t => t
  | .fault _ | .refused _ => s

/-- The two ways R376 (a) lets a host program be launched. -/
inductive Launch where
  /-- on a block in its reset state -/
  | reset
  /-- on a block as it stands, with a first wait for BUSY = 0, under the stated values of VALID flags
  and sticky bits -/
  | wait (assumed : List (StatusFlag × Bool))
deriving DecidableEq, Repr

/-- The launch premise (a) of R376. The flags a waiting program assumes are those it finds when its
wait has ended (DEDUCED, log entry 24); a block as it stands meets the invariant of every reachable
state. Premises (b) and (c) are built into `hostStep` and `Agent`: the accesses of `hostProg` reach
the block one at a time in its order, and nobody else accesses it. -/
def State.atLaunch (l : Launch) (s : State) : Prop :=
  match l with
  | .reset => s.inReset
  | .wait assumed => s.Inv ∧ s.waitsFirst ∧ s.settled.status.agrees assumed

/-- A claim about a host program (R376): for every launch under its premise, every interleaving and
every run that is over (R387) with no error recorded, it holds of the state at launch and the state
at the end. -/
def ProgramClaim (prog : List HostOp) (l : Launch) (claim : State → State → Prop) : Prop :=
  ∀ (s t : State) (k : Nat), s.hostProg = prog → s.atLaunch l →
    Host.Core.run Sys2Proof.core k s = .next t → t.runOver = true → t.noErrorRecorded = true →
    claim s t

end Sys2Proof.Machine
end

