-- ==== Sys2Proof/Certificates/Slice0/Obligations.lean ====
section
/-! DEFINITION. The statements about the block, each from the spec's rules, and the few notions they
share. -/

namespace Sys2Proof.Claims

open Sys2Proof.Machine

/-- Byte `a` lies in one of entries 0 to n-1 of a listed window: the bytes a command stores to. -/
def Stored (ws : List (Region × Nat)) (a : Nat) : Prop :=
  ∃ w ∈ ws, w.1.entryAddr 0 ≤ a ∧ a < w.1.entryAddr w.2

/-- Every byte outside the listed windows' entries reads after as it read before. -/
def OnlyStored (s t : State) (ws : List (Region × Nat)) : Prop :=
  ∀ a, ¬ Stored ws a → Memory.read t.mem a = Memory.read s.mem a

/-- Entry `j` of `r`, for every `j` below `n`, was written and holds `f j`. -/
def Holds (t : State) (r : Region) (n : Nat) (f : Nat → Word) : Prop :=
  ∀ j, j < n → readWord t.mem (r.entryAddr j) = some (f j)

/-- STATUS after a completion without an error, from the flags the body left (R313). -/
def doneOk (st : Status) : Status := { st with errCode := 0, errInfo := 0, done := true }

/-- STATUS after a completion with an error (R313, R340). -/
def doneErr (code info : BitVec 8) (st : Status) : Status :=
  { st with errCode := code, errInfo := info, err := true, done := true }

/-- A command that ends with an error at its checks: nothing but STATUS and BUSY changed (R339). -/
def FailsWith (i : Instr) (s : State) (code info : BitVec 8) : Prop :=
  exec i s = .next { s with pending := none, status := doneErr code info s.status }

/-- The first check of a list that fails: the pair of ERRCODE and ERRINFO it reports (R337). -/
def firstFailing : List (Bool × BitVec 8 × BitVec 8) → Option (BitVec 8 × BitVec 8)
  | [] => none
  | (fails, pair) :: rest => if fails then some pair else firstFailing rest

/-- The checks 0x02 to 0x07 of `check_synth(P, fs, fc, c, S)`, in order, each with the condition
under which it fails (R201). -/
def synthChecks (p : Params) (sps : Int) (fs fc : F64) (c : Scheme) (symbols : Nat) :
    List (Bool × BitVec 8 × BitVec 8) :=
  let last := F64.ofInt (symbols * sps - 1)
  let w := F64.mul F64.twoPi fc
  [(!(decide (1 ≤ sps) && decide (sps ≤ p.spsMax)), 1, 0x02),
   (decide (sps = 1) && decide (c ≠ .bpsk), 1, 0x03),
   (!(F64.isFinite fs && F64.lt F64.zero fs), 1, 0x04),
   (!(F64.isFinite fc && F64.lt F64.zero fc), 1, 0x05),
   (F64.le (F64.mul fs F64.half) fc, 1, 0x06),
   (!F64.isFinite w || !F64.isFinite (F64.div last fs) || !F64.isFinite (F64.mul w (F64.div last fs)),
    1, 0x07)]

/-- The check 0x08 of `check_noise(mode, x)` (R232). -/
def noiseCheck (mode : Bool) (x : F64) : Bool × BitVec 8 × BitVec 8 :=
  (if mode then !(F64.isFinite x && F64.le F64.negThreeThousand x && F64.le x F64.threeThousand)
    else !(F64.isFinite x && F64.le F64.zero x), 1, 0x08)

/-- The checks of each command before its first write, in the order of the table of R338, each with
the condition under which it fails and the ERRCODE and ERRINFO it reports (R336). -/
def checks (i : Instr) (s : State) : List (Bool × BitVec 8 × BitVec 8) :=
  let badCount := !(decide (1 ≤ s.cfg.nbits.toInt) && decide (s.cfg.nbits.toInt ≤ s.params.nMax))
  let badScheme := decide (4 ≤ s.cfg.scheme.toNat)
  match i with
  | .nop | .clear => []
  | .genBits => [(badCount, 1, 0x01)]
  | .map => [(badScheme, 2, 0x10), (!s.status.bitsV, 5, 0x20)]
  | .synth => (!s.status.symV, 5, 0x21) ::
      synthChecks s.params s.cfg.sps.toInt s.cfg.fs s.cfg.fc s.res.latScheme s.res.symLen.toNat
  | .channel => [(!s.status.waveV, 5, 0x22), noiseCheck (s.cfg.ctrl.getLsbD 3) s.cfg.noiseLevel]
  | .slice => [(!s.status.rxV, 5, 0x23)]
  | .ber =>
    [(badScheme, 2, 0x10),
     (!(decide (1 ≤ s.cfg.berCount.toInt) && decide (s.cfg.berCount.toInt ≤ s.params.berMax)), 1, 0x09),
     (!((List.range s.cfg.berCount.toInt.toNat).all (fun j => F64.isFinite (s.entry .snrIn j))), 1, 0x0A)]
  | .run =>
    match Scheme.ofCode s.cfg.scheme with
    | none => [(badScheme, 2, 0x10)]
    | some c =>
      (badScheme, 2, 0x10) :: (badCount, 1, 0x01) ::
        synthChecks s.params s.cfg.sps.toInt s.cfg.fs s.cfg.fc c
          (ceilDiv s.cfg.nbits.toInt.toNat c.bitsPerSymbol)
        ++ [noiseCheck (s.cfg.ctrl.getLsbD 3) s.cfg.noiseLevel]

/-- Every check of a command passes: the condition under which it performs its effect. -/
def Passes (i : Instr) (s : State) : Prop := firstFailing (checks i s) = none

/-- The SEQUENCER moves next: it heads the interleaving, or the interleaving is used up. -/
def SequencerNext (s : State) : Prop := s.sched = [] ∨ ∃ rest, s.sched = .sequencer :: rest

/-- The state with the interleaving advanced by one. -/
def advance (s : State) : State := { s with sched := s.sched.tail }

/-- The number `q` rounded to binary64, to nearest with ties to even, with the overflow of IEEE 754
(R23); the sign of a zero result of a non-zero number is the number's. -/
structure CorrectlyRounded (f : F64) (q : ℝ) : Prop where
  nearest : |q| < 2 ^ 1024 - 2 ^ 970 → F64.isFinite f = true ∧ ∀ g : F64, F64.isFinite g = true →
    |(F64.toRat f : ℝ) - q| ≤ |(F64.toRat g : ℝ) - q| ∧
      (|(F64.toRat f : ℝ) - q| = |(F64.toRat g : ℝ) - q| →
        F64.toRat g = F64.toRat f ∨ F64.mag f % 2 = 0)
  overflow : 2 ^ 1024 - 2 ^ 970 ≤ |q| → f = if q < 0 then F64.negInf else F64.posInf
  sign : q ≠ 0 → (F64.neg? f = true ↔ q < 0)

/-- `w` is performed next: pending, and the SEQUENCER the next to move. -/
def Performs (s : State) (w : Word) : Prop := s.pending = some w ∧ SequencerNext s

/-- The host's next operation is performed next. -/
def HostDoes (s : State) (op : HostOp) : Prop :=
  (∃ rest, s.hostProg = op :: rest) ∧
    ((s.sched = [] ∧ s.pending = none) ∨ ∃ rest, s.sched = .host :: rest)

/-- The reset input acts next. -/
def ResetNext (s : State) : Prop := ∃ rest, s.sched = .reset :: rest

/-- The command, other than RUN, that writes a window (R60, R66). -/
def writer : Region → Option Instr
  | .hbits | .snrIn => none
  | .berOut => some .ber
  | .bits => some .genBits
  | .symI | .symQ => some .map
  | .time | .carI | .carQ | .tx => some .synth
  | .noise | .rx | .demodI | .demodQ => some .channel
  | .estI | .estQ | .rxbits => some .slice

/-- The windows RUN writes: all but the BER arrays and the host's (R316). -/
def writtenByRun (r : Region) : Bool :=
  match writer r with
  | some .ber | none => false
  | _ => true

end Sys2Proof.Claims

open Sys2Proof Sys2Proof.Machine Sys2Proof.Claims

/-! ### Numerics (00_scope.md section 6) -/

/-- The finite results of ⊕, ⊖, ⊗ and ⊘ are the exact results correctly rounded (R23). -/
def Obligations.FiniteArithmeticIsCorrectlyRounded : Prop :=
  ∀ a b : F64, F64.isFinite a = true → F64.isFinite b = true →
    CorrectlyRounded (F64.add a b) ((F64.toRat a : ℝ) + F64.toRat b) ∧
    CorrectlyRounded (F64.sub a b) ((F64.toRat a : ℝ) - F64.toRat b) ∧
    CorrectlyRounded (F64.mul a b) ((F64.toRat a : ℝ) * F64.toRat b) ∧
    (F64.isZero b = false → CorrectlyRounded (F64.div a b) ((F64.toRat a : ℝ) / F64.toRat b))

/-- SQRT of a finite number that is not below zero is its root correctly rounded (R23). -/
def Obligations.SqrtIsCorrectlyRounded : Prop :=
  ∀ a : F64, F64.isFinite a = true → F64.le F64.zero a = true →
    CorrectlyRounded (F64.sqrt a) (Real.sqrt (F64.toRat a))

/-- The IEEE rules of ⊕, ⊖, ⊗, ⊘ and SQRT for NaN, the infinities of both signs, division by zero,
and the signs of exact-zero results (R23); FiniteArithmeticIsCorrectlyRounded and
SqrtIsCorrectlyRounded give every other case. That each NaN result is the one default NaN is the
model's choice (93_implementation_defined.md section 2, log entry 4). -/
def Obligations.ArithmeticSpecialValues : Prop :=
  let inf := fun sign => F64.pack sign F64.infMag
  let zero := fun sign => F64.pack sign 0
  let nan := Config.defaultNaN
  F64.isNaN nan = true ∧ inf false = F64.posInf ∧ inf true = F64.negInf ∧
  zero false = F64.zero ∧ zero true = F64.negZero ∧
  -- a NaN operand
  (∀ a b : F64, F64.isNaN a = true ∨ F64.isNaN b = true →
    F64.add a b = nan ∧ F64.sub a b = nan ∧ F64.mul a b = nan ∧ F64.div a b = nan) ∧
  (∀ a : F64, F64.isNaN a = true → F64.sqrt a = nan) ∧
  -- sums and differences
  (∀ (a : F64) (i : Bool), F64.isFinite a = true →
    F64.add a (inf i) = inf i ∧ F64.add (inf i) a = inf i ∧
      F64.sub a (inf i) = inf (!i) ∧ F64.sub (inf i) a = inf i) ∧
  (∀ i j : Bool, F64.add (inf i) (inf j) = (if i = j then inf i else nan) ∧
    F64.sub (inf i) (inf j) = if i = j then nan else inf i) ∧
  (∀ i j : Bool, F64.add (zero i) (zero j) = zero (i && j) ∧
    F64.sub (zero i) (zero j) = zero (i && !j)) ∧
  (∀ a : F64, F64.isFinite a = true → F64.isZero a = false →
    F64.add a (F64.neg a) = F64.zero ∧ F64.sub a a = F64.zero) ∧
  -- products
  (∀ (a : F64) (i : Bool), F64.isNaN a = false → F64.isZero a = false →
    F64.mul (inf i) a = inf (i != F64.neg? a) ∧ F64.mul a (inf i) = inf (F64.neg? a != i)) ∧
  (∀ i j : Bool, F64.mul (inf i) (zero j) = nan ∧ F64.mul (zero j) (inf i) = nan) ∧
  (∀ (a : F64) (i : Bool), F64.isFinite a = true →
    F64.mul (zero i) a = zero (i != F64.neg? a) ∧ F64.mul a (zero i) = zero (F64.neg? a != i)) ∧
  -- quotients
  (∀ (a : F64) (i : Bool), F64.isFinite a = true →
    F64.div a (inf i) = zero (F64.neg? a != i) ∧ F64.div (inf i) a = inf (i != F64.neg? a)) ∧
  (∀ i j : Bool, F64.div (inf i) (inf j) = nan ∧ F64.div (zero i) (zero j) = nan) ∧
  (∀ (a : F64) (i : Bool), F64.isFinite a = true → F64.isZero a = false →
    F64.div a (zero i) = inf (F64.neg? a != i) ∧ F64.div (zero i) a = zero (i != F64.neg? a)) ∧
  -- roots
  (∀ i : Bool, F64.sqrt (zero i) = zero i) ∧ F64.sqrt F64.posInf = F64.posInf ∧
  (∀ a : F64, F64.isNaN a = false → F64.lt a F64.zero = true → F64.sqrt a = nan)

/-- A sum is sequential from the lowest index upward, starting from +0.0 (R24). -/
def Obligations.SumsAreSequential : Prop :=
  ∀ f : Nat → F64, F64.sum 0 f = F64.zero ∧ ∀ n, F64.sum (n + 1) f = F64.add (F64.sum n f) (f n)

/-- Comparisons are the IEEE ordered ones (R25): `<`, `<=` and `==` on NaN, zeros, finite numbers and
infinities of both signs, in both directions; `>` and `>=` are `<` and `<=` with the operands
exchanged. -/
def Obligations.ComparisonsAreOrdered : Prop :=
  (∀ a b : F64, F64.isNaN a = true ∨ F64.isNaN b = true →
    F64.lt a b = false ∧ F64.le a b = false ∧ F64.eq a b = false) ∧
  F64.eq F64.zero F64.negZero = true ∧
  (∀ a b : F64, F64.isFinite a = true → F64.isFinite b = true →
    (F64.lt a b = true ↔ F64.toRat a < F64.toRat b) ∧
      (F64.le a b = true ↔ F64.toRat a ≤ F64.toRat b) ∧
      (F64.eq a b = true ↔ F64.toRat a = F64.toRat b)) ∧
  (∀ a : F64, F64.isNaN a = false →
    (F64.lt F64.negInf a = true ↔ a ≠ F64.negInf) ∧ F64.lt a F64.negInf = false ∧
      F64.le F64.negInf a = true ∧ (F64.le a F64.negInf = true ↔ a = F64.negInf) ∧
      (F64.eq a F64.negInf = true ↔ a = F64.negInf) ∧
      (F64.eq F64.negInf a = true ↔ a = F64.negInf) ∧
    (F64.lt a F64.posInf = true ↔ a ≠ F64.posInf) ∧ F64.lt F64.posInf a = false ∧
      F64.le a F64.posInf = true ∧ (F64.le F64.posInf a = true ↔ a = F64.posInf) ∧
      (F64.eq a F64.posInf = true ↔ a = F64.posInf) ∧
      (F64.eq F64.posInf a = true ↔ a = F64.posInf)) ∧
  (∀ a : F64, F64.isFinite a = true ↔ ¬ (F64.isInf a = true ∨ F64.isNaN a = true)) ∧
  ∀ a : F64, F64.isInf a = true ↔ a = F64.posInf ∨ a = F64.negInf

/-- f64(n) is exact for every integer of magnitude up to 2^53, and f64(0) is +0.0 (R26). -/
def Obligations.IntegerConversionIsExact : Prop :=
  (∀ n : Int, n.natAbs ≤ 2 ^ 53 →
    F64.isFinite (F64.ofInt n) = true ∧ F64.toRat (F64.ofInt n) = n) ∧
  F64.ofInt 0 = F64.zero ∧ ∀ n : Nat, F64.ofNat n = F64.ofInt n

/-- The named constants are the values of their defining expressions (R28). -/
def Obligations.NamedConstants : Prop :=
  F64.scale = F64.div F64.one (F64.sqrt F64.two) ∧ F64.scale = 0x3FE6A09E667F3BCC#64 ∧
  F64.twoPi = F64.mul F64.two F64.pi64 ∧ F64.twoPi = 0x401921FB54442D18#64 ∧
  F64.c712 = F64.div (F64.ofNat 7) (F64.ofNat 12) ∧ F64.c712 = 0x3FE2AAAAAAAAAAAB#64

/-- `gray(m) = m xor (m div 2)`, `ginv` inverts it on labels of b bits, and neighbouring Gray codes
differ in one bit (R21). -/
def Obligations.GrayCodeInverse : Prop :=
  (∀ m, gray m = Nat.xor m (m / 2)) ∧
  (∀ b g, g < 2 ^ b → ginv b g < 2 ^ b ∧ gray (ginv b g) = g) ∧
  (∀ b m, m < 2 ^ b → gray m < 2 ^ b ∧ ginv b (gray m) = m) ∧
  ∀ m, ∃ k, gray m ^^^ gray (m + 1) = 2 ^ k

/-! ### Encoding and the command lifecycle (30_encoding.md, 46_control.md) -/

/-- Every word decodes as the opcode map says: to an instruction exactly when it is that
instruction's word, to the reserved-bits error exactly when RSVD is not 0, and to the
undefined-opcode error exactly when RSVD is 0 and OPCODE is none of the nine (R121, R124, R125).
The last clause is the model's choice, not a rule's: its decoder of byte strings (log entry 21,
DESIGN CHOICE) reads the eight bytes of an encoded word back and leaves what follows them. -/
def Obligations.DecodeAgreesWithEncode : Prop :=
  (∀ w i, decode w = .ok i ↔ w = encode i) ∧
  (∀ w, decode w = .error .reservedBits ↔ w.extractLsb' 8 56 ≠ 0) ∧
  (∀ w, decode w = .error .undefinedOpcode ↔
    w.extractLsb' 8 56 = 0 ∧ ∀ i, w.extractLsb' 0 8 ≠ (encode i).extractLsb' 0 8) ∧
  ∀ i rest, decodeBytes (bytesOfWord (encode i) ++ rest) = .ok (i, rest)

/-- The nine words of the opcode map, written out (R121), and three illegal ones (section 2.1 of
95_test_vectors.md). -/
def Obligations.DecodeTheNineWords : Prop :=
  decode 0x0000000000000000#64 = .ok .nop ∧ decode 0x0000000000000001#64 = .ok .clear ∧
  decode 0x0000000000000010#64 = .ok .genBits ∧ decode 0x0000000000000020#64 = .ok .map ∧
  decode 0x0000000000000030#64 = .ok .synth ∧ decode 0x0000000000000040#64 = .ok .channel ∧
  decode 0x0000000000000050#64 = .ok .slice ∧ decode 0x0000000000000060#64 = .ok .ber ∧
  decode 0x0000000000000070#64 = .ok .run ∧
  decode 0x0000000000000100#64 = .error .reservedBits ∧
  decode 0x00000000000001FF#64 = .error .reservedBits ∧
  decode 0x0000000000000080#64 = .error .undefinedOpcode

/-- A step in which the SEQUENCER moves and the pending word decodes to an instruction is that
instruction's execution, with nothing added but the interleaving advanced; the instruction's body,
then completion, is that one step (R312). -/
def Obligations.StepRunsTheDecodedInstruction : Prop :=
  ∀ (s : State) (w : Word) (i : Instr),
    Performs s w → decode w = .ok i → step s = exec i (advance s)

/-- An illegal command word ends with ILLEGAL_COMMAND, 0x40 before 0x41, and changes nothing but
STATUS (R312, R334). -/
def Obligations.IllegalCommandWords : Prop :=
  ∀ (s : State) (w : Word), Performs s w →
    (w.extractLsb' 8 56 ≠ 0 →
      step s = .next { advance s with
        pending := none, status := doneErr 4 0x40 s.status }) ∧
    (w.extractLsb' 8 56 = 0 → (∀ i, w ≠ encode i) →
      step s = .next { advance s with
        pending := none, status := doneErr 4 0x41 s.status })

/-- Acceptance: a write to CMD while no command is pending, whatever its value (R310). -/
def Obligations.CommandAcceptance : Prop :=
  ∀ (s : State) (v : Word), s.pending = none →
    hostWrite 0x000020#24 .full v s = { s with
      pending := some v
      status := { s.status with
        done := false, errCode := 0, errInfo := 0, lastOp := v.extractLsb' 0 8 } }

/-- Completion: every command, whatever the state, ends idle with DONE = 1 and either no error and
ERR as the command left it, or one row of the error table and ERR = 1; the opcode noted at
acceptance stays (R313, R340, R385). -/
def Obligations.EveryCommandCompletes : Prop :=
  ∀ (i : Instr) (s : State), ∃ t, exec i s = .next t ∧ t.pending = none ∧ t.status.done = true ∧
    t.status.lastOp = s.status.lastOp ∧
    ((t.status.errCode = 0 ∧ t.status.errInfo = 0 ∧
        t.status.err = (s.status.err && decide (i ≠ .clear))) ∨
      (t.status.err = true ∧
        ∃ e : CmdError, t.status.errCode = e.code ∧ t.status.errInfo = e.info))

/-- No step is stuck: every step of every state answers a next state
(93_implementation_defined.md section 2). And the blocks of a system share nothing (R108): after any
interleaving of their steps each block is where its own steps alone take it. How a system of blocks
is held and stepped is the model's choice (log entry 23). -/
def Obligations.EveryStepAnswersNext : Prop :=
  (∀ s : State, ∃ t, step s = .next t) ∧
  ∀ (y : System) (ks : List Nat), ∃ z, y.run ks = .next z ∧
    z.blocks.length = y.blocks.length ∧
    ∀ (k : Nat) (s : State), y.blocks[k]? = some s →
      ∃ t, Host.Core.run Sys2Proof.core (ks.count k) s = .next t ∧ z.blocks[k]? = some t

/-- A command reports the first of its checks that fails, in the order of the table, and then
changes nothing but STATUS (R338, R337). -/
def Obligations.ChecksReportInOrder : Prop :=
  ∀ (i : Instr) (s : State) (code info : BitVec 8),
    firstFailing (checks i s) = some (code, info) → FailsWith i s code info

/-- A command whose checks all pass completes without an error, but for a strict ratio under
CTRL.STRICT_SNR = 1 (R338, R335). -/
def Obligations.PassingCommandsSucceed : Prop :=
  ∀ (i : Instr) (s : State), Passes i s → ∃ t, exec i s = .next t ∧
    (t.status.errCode = 0 ∨
      (t.status.errCode = 3 ∧ s.cfg.ctrl.getLsbD 1 = true ∧ (i = .channel ∨ i = .run)))

/-- Errors are precise: after any error but the strict ratio, everything other than STATUS holds its
value from before the command, and in STATUS only the completion fields change (R339). -/
def Obligations.ErrorsArePrecise : Prop :=
  ∀ (i : Instr) (s t : State), exec i s = .next t → t.status.errCode ≠ 0 → t.status.errCode ≠ 3 →
    t = { s with
      pending := none, status := doneErr t.status.errCode t.status.errInfo s.status }

/-! ### The commands -/

/-- NOP does nothing but complete (R314). -/
def Obligations.NopResult : Prop :=
  ∀ s : State, exec .nop s = .next { s with pending := none, status := doneOk s.status }

/-- CLEAR clears the VALID flags, the sticky bits, the lengths, the latches and the results, and
nothing else (R315). -/
def Obligations.ClearResult : Prop :=
  ∀ s : State, exec .clear s = .next { s with
    pending := none
    status := { done := true, err := false, haz := false, busErr := false, degen := false,
                bitsV := false, symV := false, waveV := false, rxV := false, estV := false,
                berV := false, errCode := 0, errInfo := 0, lastOp := s.status.lastOp }
    res := { snrMeas := F64.zero, bitsLen := 0, symLen := 0, sampLen := 0, npad := 0, errCnt := 0,
             latScheme := .bpsk, latSps := 0, latFc := F64.zero, latFs := F64.zero,
             noisePwr := F64.zero, varTx := F64.zero, varNoise := F64.zero, berLen := 0 } }

/-- GEN_BITS: a bit count outside 1..N_MAX is the error 0x01; otherwise bit i is the stream's or the
host pattern's, the last word is zero-filled, the length and the VALID flags are set, and nothing
else changes (R151). -/
def Obligations.GenBitsResult : Prop :=
  ∀ s : State, Memory.wf s.mem →
    (¬ (1 ≤ s.cfg.nbits.toInt ∧ s.cfg.nbits.toInt ≤ s.params.nMax) →
      FailsWith .genBits s 1 0x01) ∧
    (1 ≤ s.cfg.nbits.toInt → s.cfg.nbits.toInt ≤ s.params.nMax →
      ∃ t, exec .genBits s = .next t ∧
        (∀ i, i < s.cfg.nbits.toInt.toNat →
          t.bit .bits i = if s.cfg.ctrl.getLsbD 2 then s.bit .hbits i
            else Config.numerics.bitRng s.cfg.seed i) ∧
        (∀ i, s.cfg.nbits.toInt.toNat ≤ i → i < 64 * ceilDiv s.cfg.nbits.toInt.toNat 64 →
          t.bit .bits i = false) ∧
        (∀ w, w < ceilDiv s.cfg.nbits.toInt.toNat 64 → t.written .bits w = true) ∧
        OnlyStored s t [(.bits, ceilDiv s.cfg.nbits.toInt.toNat 64)] ∧
        t = { s with
          mem := t.mem
          pending := none
          res := { s.res with bitsLen := s.cfg.nbits }
          status := doneOk { s.status with
            bitsV := true, symV := false, waveV := false, rxV := false, estV := false } })

/-- Reproducibility of the bit source: the bits depend on BITSRC and on SEED or the pattern alone,
and a longer request begins with the same bits (R150, R152). -/
def Obligations.BitSourceIsReproducible : Prop :=
  ∀ s s' t t' : State, Memory.wf s.mem → Memory.wf s'.mem →
    Passes .genBits s → Passes .genBits s' → s.cfg.nbits.toInt ≤ s'.cfg.nbits.toInt →
    s.cfg.ctrl.getLsbD 2 = s'.cfg.ctrl.getLsbD 2 →
    (s.cfg.ctrl.getLsbD 2 = false → s.cfg.seed = s'.cfg.seed) →
    (s.cfg.ctrl.getLsbD 2 = true →
      ∀ i, i < s.cfg.nbits.toInt.toNat → s.bit .hbits i = s'.bit .hbits i) →
    exec .genBits s = .next t → exec .genBits s' = .next t' →
    ∀ i, i < s.cfg.nbits.toInt.toNat → t.bit .bits i = t'.bit .bits i

/-- MAP: symbol j is the point of group j of the padded sequence; S = ceil(N/k), NPAD = S*k - N; the
scheme is latched, and nothing else changes (R171, R172). -/
def Obligations.MapResult : Prop :=
  ∀ (s : State) (c : Scheme), s.Inv → Scheme.ofCode s.cfg.scheme = some c → s.status.bitsV = true →
    let n := s.res.bitsLen.toNat
    let k := c.bitsPerSymbol
    let count := ceilDiv n k
    let group := fun j t => decide (j * k + t < n) && s.bit .bits (j * k + t)
    ∃ t, exec .map s = .next t ∧
      Holds t .symI count (fun j => (point c (group j)).1) ∧
      Holds t .symQ count (fun j => (point c (group j)).2) ∧
      OnlyStored s t [(.symI, count), (.symQ, count)] ∧
      t.res.symLen.toNat = count ∧ t.res.npad.toNat = count * k - n ∧
      t = { s with
        mem := t.mem
        pending := none
        res := { s.res with symLen := t.res.symLen, npad := t.res.npad, latScheme := c }
        status := doneOk { s.status with
          symV := true, waveV := false, rxV := false, estV := false } }

/-- The constellation of every scheme, by its label: BPSK and QPSK antipodal, and an axis of 16-QAM
or 64-QAM at the odd integer 2*m - (A - 1) for the level index m whose Gray code is the label read
with its first bit the most significant (R173 to R176). -/
def Obligations.ConstellationPoints : Prop :=
  (∀ g, point .bpsk g = (if g 0 then F64.one else F64.negOne, F64.zero)) ∧
  (∀ g, point .qpsk g
    = (if g 0 then F64.scale else F64.negScale, if g 1 then F64.scale else F64.negScale)) ∧
  (∀ g m n, m < 4 → n < 4 →
    gray m = 2 * (g 0).toNat + (g 1).toNat → gray n = 2 * (g 2).toNat + (g 3).toNat →
    point .qam16 g = (F64.ofInt (2 * m - 3), F64.ofInt (2 * n - 3))) ∧
  (∀ g m n, m < 8 → n < 8 →
    gray m = 4 * (g 0).toNat + 2 * (g 1).toNat + (g 2).toNat →
    gray n = 4 * (g 3).toNat + 2 * (g 4).toNat + (g 5).toNat →
    point .qam64 g = (F64.ofInt (2 * m - 7), F64.ofInt (2 * n - 7)))

/-- The Gray property: two groups of 16-QAM or 64-QAM whose points are equal in one coordinate and
2 apart in the other differ in exactly one bit (R180). -/
def Obligations.GrayNeighbours : Prop :=
  ∀ (c : Scheme) (g h : Nat → Bool), c = .qam16 ∨ c = .qam64 →
    (((point c g).2 = (point c h).2 ∧
        F64.toRat (point c h).1 - F64.toRat (point c g).1 = 2) ∨
      ((point c g).1 = (point c h).1 ∧
        F64.toRat (point c h).2 - F64.toRat (point c g).2 = 2)) →
    (List.range c.bitsPerSymbol).countP (fun t => g t != h t) = 1

/-- Deciding an exact constellation point gives back the bits that were mapped to it: SLICE undoes
MAP (R265, R266). -/
def Obligations.DecisionUndoesMapping : Prop :=
  ∀ (c : Scheme) (g : Nat → Bool) (d : Bool) (t : Nat), t < c.bitsPerSymbol →
    decidedBit c { x := (point c g).1, y := (point c g).2, degenerate := d } t = g t

/-- SYNTH: TIME, the carriers and TX of every sample below L = SYM_LEN * SPS; the latches; and
nothing else changes (R200, R202 to R209). -/
def Obligations.SynthResult : Prop :=
  ∀ s : State, s.Inv → Passes .synth s →
    let sps := s.cfg.sps.toInt.toNat
    let len := s.res.symLen.toNat * sps
    let time := fun n => F64.div (F64.ofNat n) s.cfg.fs
    let theta := fun n => F64.mul (F64.mul F64.twoPi s.cfg.fc) (time n)
    let c := fun n => Config.numerics.cos (theta n)
    let u := fun n => F64.neg (Config.numerics.sin (theta n))
    ∃ t, exec .synth s = .next t ∧
      Holds t .time len time ∧ Holds t .carI len c ∧ Holds t .carQ len u ∧
      Holds t .tx len (fun n => F64.add (F64.mul (s.entry .symI (n / sps)) (c n))
        (F64.mul (s.entry .symQ (n / sps)) (u n))) ∧
      OnlyStored s t [(.time, len), (.carI, len), (.carQ, len), (.tx, len)] ∧
      t.res.sampLen.toNat = len ∧
      t = { s with
        mem := t.mem
        pending := none
        res := { s.res with
          sampLen := t.res.sampLen, latSps := s.cfg.sps, latFc := s.cfg.fc, latFs := s.cfg.fs }
        status := doneOk { s.status with waveV := true, rxV := false, estV := false } }

/-- Every transmitted sample is finite and at most 14 in magnitude (R208), and every phase is finite
and not below +0.0, the first +0.0 (R206): after a SYNTH whose checks pass on symbols that are
constellation points, as MAP leaves them, and after a RUN whose checks pass. The bound comes from the
modulator: it holds of any constellation point at any finite phase. -/
def Obligations.TransmittedSamplesAreBounded : Prop :=
  (∀ (c : Scheme) (g : Nat → Bool) (x : F64), F64.isFinite x = true →
    let tx := modulate (point c g).1 (point c g).2 (Config.numerics.cos x)
      (F64.neg (Config.numerics.sin x))
    F64.isFinite tx = true ∧ |F64.toRat tx| ≤ 14) ∧
  ∀ (i : Instr) (s t : State), s.Inv → Passes i s → exec i s = .next t →
    (i = .synth ∧ ∀ j, j < s.res.symLen.toNat →
        ∃ c g, s.entry .symI j = (point c g).1 ∧ s.entry .symQ j = (point c g).2) ∨ i = .run →
    phase s.cfg.fs s.cfg.fc 0 = F64.zero ∧
    ∀ n, n < t.res.sampLen.toNat →
      F64.isFinite (phase s.cfg.fs s.cfg.fc n) = true ∧
      F64.le F64.zero (phase s.cfg.fs s.cfg.fc n) = true ∧
      F64.isFinite (t.entry .tx n) = true ∧ |F64.toRat (t.entry .tx n)| ≤ 14

/-- CHANNEL: noise, received samples and demodulator products of every sample below SAMP_LEN, the
noise power and the variances, and then the realised SNR; under a strict ratio a zero variance is
the error 0x30 or 0x31 with SNR_MEAS = QNAN and every other write made; nothing else changes (R231,
R233 to R240). -/
def Obligations.ChannelResult : Prop :=
  ∀ s : State, s.Inv → Passes .channel s →
    let len := s.res.sampLen.toNat
    let mean := fun x => F64.div (F64.sum len x) (F64.ofNat len)
    let var := fun x => F64.div
      (F64.sum len (fun n => F64.mul (F64.sub (x n) (mean x)) (F64.sub (x n) (mean x))))
      (F64.ofNat len)
    let vtx := var (s.entry .tx)
    let pn := if s.cfg.ctrl.getLsbD 3
      then F64.div vtx (Config.numerics.pow10 (F64.div s.cfg.noiseLevel F64.ten))
      else s.cfg.noiseLevel
    let w := fun n => F64.mul (F64.sqrt pn) (Config.numerics.gaussRng s.cfg.seed n)
    let r := fun n => F64.add (s.entry .tx n) (w n)
    let vn := var w
    let strict := s.cfg.ctrl.getLsbD 1
    let flags := { s.status with rxV := true, estV := false }
    ∃ t, exec .channel s = .next t ∧
      Holds t .noise len w ∧ Holds t .rx len r ∧
      Holds t .demodI len (fun n => F64.mul (r n) (s.entry .carI n)) ∧
      Holds t .demodQ len (fun n => F64.mul (r n) (s.entry .carQ n)) ∧
      OnlyStored s t [(.noise, len), (.rx, len), (.demodI, len), (.demodQ, len)] ∧
      t.res = { s.res with noisePwr := pn, varTx := vtx, varNoise := vn, snrMeas := t.res.snrMeas } ∧
      t = { s with mem := t.mem, pending := none, res := t.res, status := t.status } ∧
      (if strict = true ∧ F64.eq vn F64.zero = true then
          t.status = doneErr 3 0x30 flags ∧ t.res.snrMeas = F64.qnan
        else if strict = true ∧ F64.eq vtx F64.zero = true then
          t.status = doneErr 3 0x31 flags ∧ t.res.snrMeas = F64.qnan
        else t.status = doneOk flags ∧
          t.res.snrMeas =
            if F64.eq vn F64.zero = true then F64.posInf
            else if F64.eq vtx F64.zero = true then F64.negInf
            else F64.mul F64.ten (Config.numerics.log10 (F64.div vtx vn)))

/-- A noise power of zero, of either sign, gives a realised noise variance of zero, and then SNR_MEAS
= +inf, or the strict error 0x30, whatever the random stream (R231, R239, R240). -/
def Obligations.NoiselessChannelReportsInfinity : Prop :=
  ∀ s t : State, s.Inv → s.status.waveV = true → s.cfg.ctrl.getLsbD 3 = false →
    F64.isZero s.cfg.noiseLevel = true → exec .channel s = .next t →
    F64.eq t.res.varNoise F64.zero = true ∧
    (∀ n, n < s.res.sampLen.toNat → F64.isZero (t.entry .noise n) = true) ∧
    (s.cfg.ctrl.getLsbD 1 = false → t.res.snrMeas = F64.posInf ∧ t.status.errCode = 0) ∧
    (s.cfg.ctrl.getLsbD 1 = true →
      t.res.snrMeas = F64.qnan ∧ t.status.errCode = 3 ∧ t.status.errInfo = 0x30)

/-- SLICE: the estimates of every symbol, the decided bits packed and zero-filled, the error count
over the information bits, DEGEN and EST_V, and nothing else changes (R260 to R267). -/
def Obligations.SliceResult : Prop :=
  ∀ s : State, s.Inv → s.status.rxV = true →
    let count := s.res.symLen.toNat
    let k := s.res.latScheme.bitsPerSymbol
    let sps := s.res.latSps.toNat
    let sum := fun j f => F64.sum sps (fun t => f (j * sps + t))
    let ci := s.entry .carI
    let cq := s.entry .carQ
    let h11 := fun j => sum j (fun n => F64.mul (ci n) (ci n))
    let h22 := fun j => sum j (fun n => F64.mul (cq n) (cq n))
    let h12 := fun j => sum j (fun n => F64.mul (ci n) (cq n))
    let ai := fun j => sum j (s.entry .demodI)
    let aq := fun j => sum j (s.entry .demodQ)
    let det := fun j => F64.sub (F64.mul (h11 j) (h22 j)) (F64.mul (h12 j) (h12 j))
    let est := fun j => (
      if s.res.latScheme = .bpsk then
        if F64.lt F64.zero (h11 j) then
          { x := F64.div (ai j) (h11 j), y := F64.zero, degenerate := false }
        else { x := F64.zero, y := F64.zero, degenerate := true }
      else if F64.lt F64.zero (det j) ∧ F64.isFinite (det j) then
        { x := F64.div (F64.sub (F64.mul (h22 j) (ai j)) (F64.mul (h12 j) (aq j))) (det j)
          y := F64.div (F64.sub (F64.mul (h11 j) (aq j)) (F64.mul (h12 j) (ai j))) (det j)
          degenerate := false }
      else { x := F64.zero, y := F64.zero, degenerate := true } : Estimate)
    ∃ t, exec .slice s = .next t ∧
      Holds t .estI count (fun j => (est j).x) ∧ Holds t .estQ count (fun j => (est j).y) ∧
      (s.res.latScheme = .bpsk → ∀ j, j < count →
        t.bit .rxbits j = decide (level (est j).x 2 = 1)) ∧
      (s.res.latScheme ≠ .bpsk → ∀ j h, j < count → h < k / 2 →
        t.bit .rxbits (j * k + h)
          = (gray (level (est j).x s.res.latScheme.levels)).testBit (k / 2 - 1 - h) ∧
        t.bit .rxbits (j * k + k / 2 + h)
          = (gray (level (est j).y s.res.latScheme.levels)).testBit (k / 2 - 1 - h)) ∧
      (∀ i, count * k ≤ i → i < 64 * ceilDiv (count * k) 64 → t.bit .rxbits i = false) ∧
      OnlyStored s t [(.estI, count), (.estQ, count), (.rxbits, ceilDiv (count * k) 64)] ∧
      t.res.errCnt.toNat
        = (List.range s.res.bitsLen.toNat).countP (fun i => t.bit .bits i != t.bit .rxbits i) ∧
      t = { s with
        mem := t.mem
        pending := none
        res := { s.res with errCnt := t.res.errCnt }
        status := doneOk { s.status with
          estV := true
          degen := s.status.degen || (List.range count).any (fun j => (est j).degenerate) } }

/-- The axis decision: level i or above exactly when the estimate is above threshold 2*i - A; a tie
takes the lower level, a NaN and -inf level 0, +inf the top level (R265). -/
def Obligations.DecisionThresholds : Prop :=
  ∀ c : Scheme, let a := c.levels
    (∀ v : F64, level v a < a) ∧
    (∀ (v : F64) (i : Nat), F64.isFinite v = true → 1 ≤ i → i < a →
      (i ≤ level v a ↔ (2 * (i : ℚ) - a : ℚ) < F64.toRat v)) ∧
    (∀ v : F64, F64.isNaN v = true → level v a = 0) ∧
    level F64.posInf a = a - 1 ∧ level F64.negInf a = 0

/-- The noiseless round trip of BPSK: a RUN with a zero noise power whose checks pass recovers every
bit, ERRCNT = 0, unless some window is degenerate (R268). -/
def Obligations.NoiselessBpskRoundTrip : Prop :=
  ∀ s t : State, s.Inv → s.cfg.scheme = 0 → s.cfg.ctrl.getLsbD 1 = false →
    s.cfg.ctrl.getLsbD 3 = false → F64.isZero s.cfg.noiseLevel = true → Passes .run s →
    exec .run s = .next t → t.status.degen = false →
    t.res.errCnt = 0 ∧
      ∀ i, i < t.res.bitsLen.toNat → t.bit .rxbits i = t.bit .bits i

/-- BER: point j is the formula of the scheme at POW10(SNR_IN[j] ⊘ 10.0), unclamped; BER_LEN and BER_V
are set, and nothing else changes (R290 to R296). -/
def Obligations.BerResult : Prop :=
  ∀ (s : State) (c : Scheme), s.Inv → Scheme.ofCode s.cfg.scheme = some c → Passes .ber s →
    let count := s.cfg.berCount.toInt.toNat
    let snr := fun j => Config.numerics.pow10 (F64.div (s.entry .snrIn j) F64.ten)
    let erfc := Config.numerics.erfc
    ∃ t, exec .ber s = .next t ∧
      Holds t .berOut count (fun j =>
        match c with
        | .bpsk | .qpsk => F64.mul F64.half (erfc (F64.sqrt (snr j)))
        | .qam16 => F64.mul F64.threeEighths (erfc (F64.sqrt (F64.mul F64.fourFifths (snr j))))
        | .qam64 => F64.mul F64.c712 (erfc (F64.sqrt (F64.div (snr j) F64.fortyTwo)))) ∧
      OnlyStored s t [(.berOut, count)] ∧
      t = { s with
        mem := t.mem
        pending := none
        res := { s.res with berLen := s.cfg.berCount }
        status := doneOk { s.status with berV := true } }

/-- The BER curves: non-increasing in the SNR for every scheme, and 16-QAM's at most 64-QAM's at
every SNR, for all conforming numerics (R298; R299, its right-hand inequality). -/
def Obligations.BerCurves : Prop :=
  ∀ N : Numerics, N.Laws →
    (∀ (c : Scheme) (a b : F64), F64.isFinite a = true → F64.isFinite b = true →
      F64.le a b = true →
      F64.le (berOf N c (linearSnr N b)) (berOf N c (linearSnr N a)) = true) ∧
    ∀ db : F64, F64.isFinite db = true →
      F64.le (berOf N .qam16 (linearSnr N db)) (berOf N .qam64 (linearSnr N db)) = true

/-- RUN whose checks pass performs the five commands one after another: where CHANNEL meets no strict
error, as it never does with CTRL.STRICT_SNR = 0, RUN completes and leaves the state SLICE leaves
(R316). -/
def Obligations.RunEqualsTheFiveCommands : Prop :=
  ∀ s : State, Passes .run s → ∃ t1 t2 t3 t4 t5,
    exec .genBits s = .next t1 ∧ exec .map t1 = .next t2 ∧ exec .synth t2 = .next t3 ∧
    exec .channel t3 = .next t4 ∧ exec .slice t4 = .next t5 ∧
    (t4.status.errCode = 0 →
      exec .run s = .next t5 ∧ t5.status.errCode = 0 ∧ t5.status.bitsV = true ∧
        t5.status.symV = true ∧ t5.status.waveV = true ∧ t5.status.rxV = true ∧
        t5.status.estV = true ∧ t5.status.done = true ∧ t5.pending = none) ∧
    (s.cfg.ctrl.getLsbD 1 = false → t4.status.errCode = 0)

/-- A strict error inside RUN ends it with CHANNEL's state: the writes so far stand, and SLICE is not
performed (R318). -/
def Obligations.RunStopsAtTheStrictError : Prop :=
  ∀ s t1 t2 t3 t4 : State, Passes .run s →
    exec .genBits s = .next t1 → exec .map t1 = .next t2 → exec .synth t2 = .next t3 →
    exec .channel t3 = .next t4 → t4.status.errCode ≠ 0 →
    exec .run s = .next t4 ∧ t4.status.errCode = 3 ∧ t4.res.snrMeas = F64.qnan ∧
      (t4.status.errInfo = 0x30 ∨ t4.status.errInfo = 0x31) ∧
      t4.status.rxV = true ∧ t4.status.estV = false ∧ t4.res.errCnt = s.res.errCnt ∧
      (s.MemInv → ∀ (r : Region) (j : Nat), r = .estI ∨ r = .estQ ∨ r = .rxbits →
        j < r.capacity s.params →
        readWord t4.mem (r.entryAddr j) = readWord s.mem (r.entryAddr j))

/-- Two RUNs whose checks pass on equal configurations (BER_COUNT, which RUN does not read, apart),
and on equal pattern bits below NBITS where CTRL.BITSRC = 1, leave equal errors, equal length, latched
and result registers, equal VALID flags of the chain and equal buffer entries below the lengths,
whatever else the two states held (95_test_vectors.md section 1.1, R70). ERRCNT, the estimates and
the recovered bits are SLICE's, so a RUN that a strict error ends before SLICE does not write them
(R318). -/
def Obligations.RunIsReproducible : Prop :=
  ∀ s s' t t' : State, s.Inv → s'.Inv → Passes .run s → Passes .run s' →
    s'.cfg = { s.cfg with berCount := s'.cfg.berCount } →
    (s.cfg.ctrl.getLsbD 2 = true →
      ∀ i, i < s.cfg.nbits.toInt.toNat → s.bit .hbits i = s'.bit .hbits i) →
    exec .run s = .next t → exec .run s' = .next t' →
    t.status.errCode = t'.status.errCode ∧ t.status.errInfo = t'.status.errInfo ∧
    t.status.bitsV = t'.status.bitsV ∧ t.status.symV = t'.status.symV ∧
    t.status.waveV = t'.status.waveV ∧ t.status.rxV = t'.status.rxV ∧
    t.status.estV = t'.status.estV ∧
    t'.res = { t.res with errCnt := t'.res.errCnt, berLen := t'.res.berLen } ∧
    (∀ w, w < ceilDiv t.res.bitsLen.toNat 64 → t.entry .bits w = t'.entry .bits w) ∧
    (∀ r j, r = .symI ∨ r = .symQ → j < t.res.symLen.toNat → t.entry r j = t'.entry r j) ∧
    (∀ r n, writer r = some .synth ∨ writer r = some .channel → n < t.res.sampLen.toNat →
      t.entry r n = t'.entry r n) ∧
    (t.status.errCode = 0 →
      t.res.errCnt = t'.res.errCnt ∧
      (∀ r j, r = .estI ∨ r = .estQ → j < t.res.symLen.toNat → t.entry r j = t'.entry r j) ∧
      (∀ w, w < ceilDiv (t.res.symLen.toNat * t.res.latScheme.bitsPerSymbol) 64 →
        t.entry .rxbits w = t'.entry .rxbits w))

/-- CHANNEL and SLICE read the latched values, never SCHEME, SPS, FC, FS or NBITS as they now stand: a
reconfiguration between commands changes nothing of their results (R55, R384). -/
def Obligations.ReconfigurationKeepsTheRun : Prop :=
  ∀ (s t : State) (scheme : BitVec 3) (sps fc fs nbits : Word),
    (exec .slice s = .next t →
      exec .slice { s with cfg := { s.cfg with scheme, sps, fc, fs, nbits } }
        = .next { t with cfg := { t.cfg with scheme, sps, fc, fs, nbits } }) ∧
    (exec .channel s = .next t →
      exec .channel { s with cfg := { s.cfg with scheme, sps, fc, fs, nbits } }
        = .next { t with cfg := { t.cfg with scheme, sps, fc, fs, nbits } })

/-! ### The host bus (20_memory.md) -/

/-- The address map: the 27 registers at their offsets, the entries of the arrays and windows at
base + 8*j below their capacities, and nothing at any other aligned address (R94). -/
def Obligations.AddressMap : Prop :=
  ∀ p : Params, p.legal = true →
    (∀ r : Reg, decodeAddr p r.offset = .reg r) ∧
    (∀ (r : Region) (j : Nat), j < r.capacity p →
      decodeAddr p (r.entryAddr j) = .cell r j ∧ r.entryAddr j < 2 ^ 24) ∧
    (∀ a, a % 8 = 0 → (∀ r : Reg, a ≠ r.offset) →
      (∀ (r : Region) (j : Nat), j < r.capacity p → a ≠ r.entryAddr j) →
      decodeAddr p a = .unmapped)

/-- A narrow, misaligned or unmapped access reads 0 or writes nothing, and sets BUSERR, even while a
command is pending (R92, R95). -/
def Obligations.UnservedAccesses : Prop :=
  ∀ (s : State) (a : Addr) (width : Width) (v : Word),
    (width = .narrow ∨ a.toNat % 8 ≠ 0 ∨ decodeAddr s.params a.toNat = .unmapped) →
    hostRead a width s = (0, { s with status := { s.status with busErr := true } }) ∧
    hostWrite a width v s = { s with status := { s.status with busErr := true } }

/-- No read has a side effect but BUSERR, which it never clears, and the count of draws (R97), the
latter a field of the model's own (log entries 8 and 9). -/
def Obligations.ReadsHaveNoSideEffect : Prop :=
  ∀ (s : State) (a : Addr) (width : Width),
    (hostRead a width s).2 = { s with
      status := { s.status with busErr := (hostRead a width s).2.status.busErr }
      draws := (hostRead a width s).2.draws } ∧
    (s.status.busErr = true → (hostRead a width s).2.status.busErr = true) ∧
    (decodeAddr s.params a.toNat ≠ .unmapped → a.toNat % 8 = 0 → width = .full →
      (hostRead a width s).2.status.busErr = s.status.busErr)

/-- Reads while no command is pending: a register gives its value, an entry written since reset its
value, both changing no state; an entry never written gives the next draw (R68, R97, R100). That a
draw is the next value of an opaque sequence is the model's choice (log entry 9). -/
def Obligations.IdleReads : Prop :=
  ∀ s : State, s.params.legal = true → s.pending = none →
    (∀ r : Reg, hostRead (BitVec.ofNat 24 r.offset) .full s = (s.readReg r, s)) ∧
    (∀ (r : Region) (j : Nat) (v : Word), j < r.capacity s.params →
      readWord s.mem (r.entryAddr j) = some v →
      hostRead (BitVec.ofNat 24 (r.entryAddr j)) .full s = (v, s)) ∧
    (∀ (r : Region) (j : Nat), j < r.capacity s.params → s.written r j = false →
      hostRead (BitVec.ofNat 24 (r.entryAddr j)) .full s
        = (Config.draw s.unitNo s.draws, { s with draws := s.draws + 1 }))

/-- Reads while a command is pending: STATUS gives BUSY = 1, DONE = 0 and a draw in its other bits;
the configuration registers and arrays give their values; every other mapped address gives a fresh
draw; an unmapped one still reads 0 with BUSERR (R103). The model's choices in it: a draw is the next
value of an opaque sequence (log entry 9), the reserved bits of STATUS are draws too (log entry 10),
and so is a read of CMD (log entry 11). -/
def Obligations.BusyReads : Prop :=
  ∀ (s : State) (w : Word), s.params.legal = true → s.pending = some w →
    (let r := hostRead 0x000018#24 .full s
     r.1.getLsbD 0 = true ∧ r.1.getLsbD 1 = false ∧
       (∀ i, 2 ≤ i → r.1.getLsbD i = (Config.draw s.unitNo s.draws).getLsbD i) ∧
       r.2 = { s with draws := s.draws + 1 }) ∧
    (∀ r : Reg, r.steadyWhileBusy = true →
      hostRead (BitVec.ofNat 24 r.offset) .full s = (s.readReg r, s)) ∧
    (∀ r : Reg, r.steadyWhileBusy = false → r ≠ .status →
      hostRead (BitVec.ofNat 24 r.offset) .full s
        = (Config.draw s.unitNo s.draws, { s with draws := s.draws + 1 })) ∧
    (∀ (r : Region) (j : Nat) (v : Word), r = .hbits ∨ r = .snrIn → j < r.capacity s.params →
      readWord s.mem (r.entryAddr j) = some v →
      hostRead (BitVec.ofNat 24 (r.entryAddr j)) .full s = (v, s)) ∧
    (∀ (r : Region) (j : Nat), r ≠ .hbits → r ≠ .snrIn → j < r.capacity s.params →
      hostRead (BitVec.ofNat 24 (r.entryAddr j)) .full s
        = (Config.draw s.unitNo s.draws, { s with draws := s.draws + 1 })) ∧
    (∀ a : Addr, decodeAddr s.params a.toNat = .unmapped →
      hostRead a .full s = (0, { s with status := { s.status with busErr := true } }))

/-- A write to any mapped, aligned address while a command is pending is dropped and sets HAZ; the
pending command, the configuration and every buffer stay (R104, R311, R381). -/
def Obligations.BusyWritesAreDropped : Prop :=
  ∀ (s : State) (w v : Word) (a : Addr), s.pending = some w → a.toNat % 8 = 0 →
    decodeAddr s.params a.toNat ≠ .unmapped →
    hostWrite a .full v s = { s with status := { s.status with haz := true } }

/-- Whatever the host does while a command is pending, the command executes on the capacities, the
configuration, the registers and the memory it was accepted with (R101, R104, R105). -/
def Obligations.HostCannotDisturbAPendingCommand : Prop :=
  ∀ (s : State) (w : Word), s.pending = some w →
    (hostStep s).pending = some w ∧ (hostStep s).params = s.params ∧ (hostStep s).cfg = s.cfg ∧
    (hostStep s).res = s.res ∧ (hostStep s).mem = s.mem ∧
    (hostStep s).status = { s.status with
      haz := (hostStep s).status.haz, busErr := (hostStep s).status.busErr }

/-- A write to a configuration register stores the value with the reserved bits discarded, reads back
so, and changes no other register and no memory (R44, R48 to R54, R58, R98). -/
def Obligations.ConfigurationWrites : Prop :=
  ∀ (s : State) (v : Word), s.pending = none →
    (∀ r : Reg, r ≠ .cmd → r ≠ .status →
      let t := hostWrite (BitVec.ofNat 24 r.offset) .full v s
      (∀ r' : Reg, r' ≠ r → t.readReg r' = s.readReg r') ∧
        t = { s with cfg := t.cfg } ∧
        (r = .ctrl → t.readReg r = v &&& 0xF) ∧ (r = .scheme → t.readReg r = v &&& 0x7) ∧
        (r = .nbits ∨ r = .sps ∨ r = .fc ∨ r = .fs ∨ r = .noiseLevel ∨ r = .seed ∨ r = .berCount →
          t.readReg r = v))

/-- A write to an entry of HBITS or SNR_IN stores the value in that entry, byte lane i holding bits
[8*i+7 : 8*i], and changes nothing else (R59, R66, R93). -/
def Obligations.ArrayWrites : Prop :=
  ∀ (s : State) (r : Region) (j : Nat) (v : Word), s.MemInv → s.pending = none →
    r = .hbits ∨ r = .snrIn → j < r.capacity s.params →
    let t := hostWrite (BitVec.ofNat 24 (r.entryAddr j)) .full v s
    t.entry r j = v ∧ t.written r j = true ∧
    (∀ i, i < 8 → Memory.read t.mem (r.entryAddr j + i) = some (v.extractLsb' (8 * i) 8)) ∧
    (∀ a, a < r.entryAddr j ∨ r.entryAddr j + 8 ≤ a →
      Memory.read t.mem a = Memory.read s.mem a) ∧
    t = { s with mem := t.mem }

/-- A write to a read-only register, to BER_OUT or to a buffer entry while no command is pending is
ignored, and no flag is set; the reserved bits of CTRL and SCHEME are discarded (R96). -/
def Obligations.ReadOnlyWritesAreIgnored : Prop :=
  ∀ (s : State) (v : Word), s.params.legal = true → s.pending = none →
    (∀ r : Reg, r ∈ [Reg.id, .param, .snrMeas, .bitsLen, .symLen, .sampLen, .npad, .errCnt,
        .latScheme, .latSps, .latFc, .latFs, .noisePwr, .varTx, .varNoise, .berLen] →
      hostWrite (BitVec.ofNat 24 r.offset) .full v s = s) ∧
    (∀ (r : Region) (j : Nat), r ≠ .hbits → r ≠ .snrIn → j < r.capacity s.params →
      hostWrite (BitVec.ofNat 24 (r.entryAddr j)) .full v s = s) ∧
    (hostWrite 0x000010#24 .full v s).readReg .ctrl = v &&& 0xF ∧
    (hostWrite 0x000028#24 .full v s).readReg .scheme = v &&& 0x7

/-! ### STATUS, the interrupt and reset -/

/-- The layout of STATUS (R45). -/
def Obligations.StatusLayout : Prop :=
  ∀ s : State, let w := s.readReg .status
    w.getLsbD 0 = s.pending.isSome ∧ w.getLsbD 1 = s.status.done ∧ w.getLsbD 2 = s.status.err ∧
    w.getLsbD 3 = s.status.haz ∧ w.getLsbD 4 = s.status.busErr ∧ w.getLsbD 5 = s.status.degen ∧
    w.extractLsb' 6 2 = 0 ∧ w.getLsbD 8 = s.status.bitsV ∧ w.getLsbD 9 = s.status.symV ∧
    w.getLsbD 10 = s.status.waveV ∧ w.getLsbD 11 = s.status.rxV ∧ w.getLsbD 12 = s.status.estV ∧
    w.getLsbD 13 = s.status.berV ∧ w.extractLsb' 14 2 = 0 ∧
    w.extractLsb' 16 8 = s.status.errCode ∧ w.extractLsb' 24 8 = s.status.errInfo ∧
    w.extractLsb' 32 8 = s.status.lastOp ∧ w.extractLsb' 40 24 = 0

/-- The write-1-to-clear of STATUS (R46): bit i of 1..5 is cleared exactly where the written bit is 1,
and nothing else changes; a write while a command is pending clears nothing and sets HAZ. -/
def Obligations.StatusWriteOneToClear : Prop :=
  ∀ (s : State) (v : Word),
    (s.pending = none →
      hostWrite 0x000018#24 .full v s = { s with status := { s.status with
        done := s.status.done && !v.getLsbD 1
        err := s.status.err && !v.getLsbD 2
        haz := s.status.haz && !v.getLsbD 3
        busErr := s.status.busErr && !v.getLsbD 4
        degen := s.status.degen && !v.getLsbD 5 } }) ∧
    (s.pending ≠ none →
      hostWrite 0x000018#24 .full v s = { s with status := { s.status with haz := true } })

/-- The interrupt output: the level CTRL.IRQ_EN and DONE; IRQ_EN after any completion; 0 after an
acceptance, after DONE is cleared, after IRQ_EN = 0 is written, and after reset (R72, R344, R345). -/
def Obligations.InterruptLevel : Prop :=
  (∀ s : State, s.irq = (s.cfg.ctrl.getLsbD 0 && s.status.done)) ∧
  (∀ (i : Instr) (s t : State), exec i s = .next t → t.irq = s.cfg.ctrl.getLsbD 0) ∧
  (∀ (s : State) (v : Word), s.pending = none →
    (hostWrite 0x000020#24 .full v s).irq = false ∧
    (v.getLsbD 1 = true → (hostWrite 0x000018#24 .full v s).irq = false) ∧
    (v.getLsbD 0 = false → (hostWrite 0x000010#24 .full v s).irq = false) ∧
    (v.getLsbD 0 = true → (hostWrite 0x000010#24 .full v s).irq = s.status.done)) ∧
  ∀ s : State, (resetBlock s).irq = false

/-- The state after reset, by what the host can read: ID and PARAM, every other register 0, the
register arrays 0, no buffer entry written, no command pending, IRQ 0 (R371, R372). -/
def Obligations.ResetValues : Prop :=
  State.reset = State.resetOf { nMax := 1024, spsMax := 64, berMax := 64 } ∧
  State.reset.readReg .param = 0x0000004000400400#64 ∧
  ∀ p : Params, p.legal = true → let s := State.resetOf p
    s.params = p ∧ s.pending = none ∧ s.irq = false ∧
    (∀ r : Reg, r ≠ .id → r ≠ .param → s.readReg r = 0) ∧
    s.readReg .id = 0x434D4F4400070000#64 ∧
    ((s.readReg .param).extractLsb' 0 16).toNat = p.nMax ∧
    ((s.readReg .param).extractLsb' 16 16).toNat = p.spsMax ∧
    ((s.readReg .param).extractLsb' 32 16).toNat = p.berMax ∧
    (s.readReg .param).extractLsb' 48 16 = 0 ∧
    (∀ (r : Region) (j : Nat), r = .hbits ∨ r = .snrIn ∨ r = .berOut → j < r.capacity p →
      readWord s.mem (r.entryAddr j) = some 0) ∧
    (∀ (r : Region) (j : Nat), r ≠ .hbits → r ≠ .snrIn → r ≠ .berOut → s.written r j = false)

/-- The reset input puts the whole block into its reset state in one step, a pending command
abandoned, from any state (R370, R371, R373). That the fields of the host's side and the block's
number stay is the model's choice, not a rule's (log entries 8, 17 and 23). -/
def Obligations.ResetInput : Prop :=
  ∀ (s : State) (rest : List Agent), s.sched = .reset :: rest →
    step s = .next { State.resetOf s.params with
      hostProg := s.hostProg, sched := rest, readLog := s.readLog, draws := s.draws,
      unitNo := s.unitNo }

/-- The sticky flags ERR, HAZ, BUSERR and DEGEN are cleared only by a write of 1 to STATUS, by CLEAR
and by reset (R343). -/
def Obligations.StickyFlagsClearOnlyBy : Prop :=
  ∀ s t : State, step s = .next t → ¬ ResetNext s → ¬ Performs s (encode .clear) →
    (∀ bit flag, (bit, flag) ∈ [(2, Status.err), (3, Status.haz), (4, Status.busErr),
        (5, Status.degen)] →
      flag s.status = true →
      (∀ v : Word, v.getLsbD bit = true → ¬ HostDoes s (.write 0x000018#24 .full v)) →
      flag t.status = true)

/-- Every array and window is changed only by the command it belongs to, by RUN where it is a buffer
of the chain, by the host where it is HBITS or SNR_IN, and by reset (R60, R61, R66). -/
def Obligations.BuffersChangeOnlyByTheirCommand : Prop :=
  ∀ (s t : State) (r : Region) (j : Nat), s.Inv → j < r.capacity s.params →
    step s = .next t → ¬ ResetNext s →
    (∀ i, writer r = some i → ¬ Performs s (encode i)) →
    (writtenByRun r = true → ¬ Performs s (encode .run)) →
    (∀ v, r = .hbits ∨ r = .snrIn →
      ¬ HostDoes s (.write (BitVec.ofNat 24 (r.entryAddr j)) .full v)) →
    readWord t.mem (r.entryAddr j) = readWord s.mem (r.entryAddr j)

/-- With the interleaving used up a pending command is performed at once, so a host waiting for
BUSY = 0 goes on within two steps (R385, R380). -/
def Obligations.WaitEnds : Prop :=
  ∀ (s : State) (rest : List HostOp), s.sched = [] →
    s.hostProg = .wait :: rest →
    ∃ k t, k ≤ 2 ∧ Host.Core.run Sys2Proof.core k s = .next t ∧ t.pending = none ∧
      t.hostProg = rest ∧
      (s.pending.isSome = true → t.status.done = true) ∧
      ∃ v, t.readLog = (0x000018#24, v) :: s.readLog ∧ v.getLsbD 0 = false

/-! ### Invariants -/

/-- The reset state of every legal block meets the invariant (R371), whatever the host's side holds, and
so does every state at which a host program may be launched (R376): in the reset state, or with a
first wait. That a block on which a program is launched with a wait meets the invariant, as every
reachable state does, is the model's premise (log entry 24). -/
def Obligations.InvariantAtReset : Prop :=
  (∀ p : Params, p.legal = true → (State.resetOf p).Inv) ∧
  ∀ (l : Launch) (s : State), s.atLaunch l → s.Inv

/-- The memory's canonical form is kept by every step of every state. -/
def Obligations.CanonicalMemoryIsKept : Prop :=
  ∀ s t : State, Memory.wf s.mem → step s = .next t → Memory.wf t.mem

/-- Every step keeps the invariant: the canonical memory within the address map, STATUS in agreement
with the SEQUENCER and the error table, and what each VALID flag promises, so that no command reads
an entry not written since reset (R67, R68, R310, R336, R338). -/
def Obligations.InvariantIsKept : Prop := ∀ s t : State, s.Inv → step s = .next t → t.Inv
end

