-- ==== Sys2Proof/Laws/Binary64.lean ====
section
/-! SUPPORT. The order of binary64 patterns: the rational a pattern denotes is a strictly increasing
function of its order key, so comparisons of patterns are comparisons of numbers. -/

namespace Sys2Proof

/-- The value of a magnitude pattern. -/
def magVal (m : Nat) : ℚ :=
  (if m / 2 ^ 52 = 0 then (m % 2 ^ 52 : Nat) else (2 ^ 52 + m % 2 ^ 52 : Nat) : ℚ)
    * (2 : ℚ) ^ (((max (m / 2 ^ 52) 1 : Nat) : ℤ) - 1075)

theorem magVal_zero : magVal 0 = 0 := by simp [magVal]

/-- Neighbouring magnitudes differ by one unit in the last place. -/
theorem magVal_succ_sub (m : Nat) :
    magVal (m + 1) - magVal m = (2 : ℚ) ^ (((max (m / 2 ^ 52) 1 : Nat) : ℤ) - 1075) := by
  unfold magVal
  by_cases hF : m % 2 ^ 52 = 2 ^ 52 - 1
  · have h1 : (m + 1) / 2 ^ 52 = m / 2 ^ 52 + 1 := by omega
    have h2 : (m + 1) % 2 ^ 52 = 0 := by omega
    rw [h1, h2, hF]
    by_cases hE : m / 2 ^ 52 = 0
    · rw [hE, show max (0 + 1) 1 = max 0 1 from rfl]
      generalize (2 : ℚ) ^ (((max 0 1 : Nat) : ℤ) - 1075) = u
      norm_num; ring
    · have h3 : max (m / 2 ^ 52 + 1) 1 = m / 2 ^ 52 + 1 := by omega
      have h4 : max (m / 2 ^ 52) 1 = m / 2 ^ 52 := by omega
      rw [h3, h4, if_neg (by omega), if_neg hE]
      have h5 : (((m / 2 ^ 52 + 1 : Nat) : ℤ) - 1075) = ((m / 2 ^ 52 : Nat) : ℤ) - 1075 + 1 := by
        push_cast; ring
      rw [h5, zpow_add_one₀ (by norm_num)]
      push_cast; ring
  · have h1 : (m + 1) / 2 ^ 52 = m / 2 ^ 52 := by omega
    have h2 : (m + 1) % 2 ^ 52 = m % 2 ^ 52 + 1 := by omega
    rw [h1, h2]
    by_cases hE : m / 2 ^ 52 = 0
    · rw [if_pos hE, if_pos hE]; push_cast; ring
    · rw [if_neg hE, if_neg hE]; push_cast; ring

theorem magVal_strictMono : StrictMono magVal :=
  strictMono_nat_of_lt_succ fun m => by
    have h := magVal_succ_sub m
    have : (0 : ℚ) < (2 : ℚ) ^ (((max (m / 2 ^ 52) 1 : Nat) : ℤ) - 1075) := by positivity
    linarith

/-- The value of an order key. -/
def keyVal (k : ℤ) : ℚ := if k < 0 then -magVal k.natAbs else magVal k.natAbs

theorem magVal_pos {m : Nat} (h : 0 < m) : 0 < magVal m := by
  simpa [magVal_zero] using magVal_strictMono h

theorem magVal_nonneg (m : Nat) : 0 ≤ magVal m := by
  simpa [magVal_zero] using magVal_strictMono.monotone (Nat.zero_le m)

theorem keyVal_strictMono : StrictMono keyVal := by
  intro a b h
  unfold keyVal
  split <;> split
  · have : magVal b.natAbs < magVal a.natAbs := magVal_strictMono (by omega)
    linarith
  · have h1 := magVal_pos (m := a.natAbs) (by omega)
    have h2 := magVal_nonneg b.natAbs
    linarith
  · omega
  · exact magVal_strictMono (by omega)

theorem F64.mag_lt (x : F64) : F64.mag x < 2 ^ 63 := Nat.mod_lt _ (by norm_num)

theorem F64.toNat_eq (x : F64) : x.toNat = (if F64.neg? x then 2 ^ 63 else 0) + F64.mag x := by
  have := x.isLt
  simp only [F64.neg?, F64.mag, decide_eq_true_eq]
  split <;> omega

theorem F64.pack_neg_mag (x : F64) : F64.pack (F64.neg? x) (F64.mag x) = x := by
  apply BitVec.eq_of_toNat_eq
  rw [F64.pack, BitVec.toNat_ofNat, ← F64.toNat_eq, Nat.mod_eq_of_lt x.isLt]

theorem F64.toNat_pack (n : Bool) {m : Nat} (h : m < 2 ^ 63) :
    (F64.pack n m).toNat = (if n then 2 ^ 63 else 0) + m := by
  rw [F64.pack, BitVec.toNat_ofNat, Nat.mod_eq_of_lt]
  split <;> omega

@[simp] theorem F64.mag_pack (n : Bool) {m : Nat} (h : m < 2 ^ 63) : F64.mag (F64.pack n m) = m := by
  rw [F64.mag, F64.toNat_pack n h]; split <;> omega

@[simp] theorem F64.neg?_pack (n : Bool) {m : Nat} (h : m < 2 ^ 63) :
    F64.neg? (F64.pack n m) = n := by
  rw [F64.neg?, F64.toNat_pack n h]
  cases n <;> simp; omega

/-- The number a pattern denotes is the value of its order key. -/
theorem F64.toRat_eq (x : F64) : F64.toRat x = keyVal (F64.key x) := by
  have hmag : (F64.sig x : ℚ) * (2 : ℚ) ^ (F64.exp2 x) = magVal (F64.mag x) := by
    have : x.toNat % 2 ^ 52 = F64.mag x % 2 ^ 52 := by unfold F64.mag; omega
    simp only [F64.sig, F64.exp2, magVal, F64.expo, F64.frac, this]
    split <;> rfl
  rw [F64.toRat, mul_assoc, hmag, keyVal, F64.key]
  by_cases hn : F64.neg? x = true
  · by_cases hz : F64.mag x = 0
    · simp [hn, hz, magVal_zero]
    · simp [hn, Nat.pos_of_ne_zero hz]
  · simp [hn]

theorem F64.toRat_lt_iff (x y : F64) : F64.toRat x < F64.toRat y ↔ F64.key x < F64.key y := by
  rw [F64.toRat_eq, F64.toRat_eq, keyVal_strictMono.lt_iff_lt]

theorem F64.toRat_le_iff (x y : F64) : F64.toRat x ≤ F64.toRat y ↔ F64.key x ≤ F64.key y := by
  rw [F64.toRat_eq, F64.toRat_eq, keyVal_strictMono.le_iff_le]

theorem F64.toRat_eq_iff (x y : F64) : F64.toRat x = F64.toRat y ↔ F64.key x = F64.key y := by
  rw [F64.toRat_eq, F64.toRat_eq, keyVal_strictMono.injective.eq_iff]

theorem F64.finite_not_nan {x : F64} (h : F64.isFinite x = true) : F64.isNaN x = false := by
  have h' : F64.mag x < F64.infMag := of_decide_eq_true h
  exact decide_eq_false (Nat.not_lt.mpr h'.le)

/-- On finite numbers `<=` of patterns is `≤` of numbers (R25). -/
theorem F64.le_iff {x y : F64} (hx : F64.isFinite x = true) (hy : F64.isFinite y = true) :
    F64.le x y = true ↔ F64.toRat x ≤ F64.toRat y := by
  simp [F64.le, F64.finite_not_nan hx, F64.finite_not_nan hy, F64.toRat_le_iff]

/-- On finite numbers `<` of patterns is `<` of numbers (R25). -/
theorem F64.lt_iff {x y : F64} (hx : F64.isFinite x = true) (hy : F64.isFinite y = true) :
    F64.lt x y = true ↔ F64.toRat x < F64.toRat y := by
  simp [F64.lt, F64.finite_not_nan hx, F64.finite_not_nan hy, F64.toRat_lt_iff]

/-- The default NaN is a NaN, whatever its sign and payload. -/
theorem defaultNaN_isNaN : F64.isNaN Config.defaultNaN = true := by
  have h : F64.infMag + 2 ^ 51 + Config.nanPayload.toNat < 2 ^ 63 := by
    have := Config.nanPayload.isLt
    simp only [F64.infMag]; omega
  rw [Config.defaultNaN, F64.isNaN, F64.mag_pack _ h, decide_eq_true_eq, Nat.add_assoc]
  exact Nat.lt_add_of_pos_right (Nat.lt_of_lt_of_le (by norm_num) (Nat.le_add_right _ _))

end Sys2Proof
end

