-- ==== Sys2Proof/Laws/Memory.lean ====
section
/-! SUPPORT. The laws of the byte memory: what a read gives after a store, and that every store keeps
the canonical form. -/

namespace Sys2Proof.Machine

/-- Addresses strictly rising. -/
abbrev Rising (m : List Host.Cell) : Prop := m.Pairwise (fun c d => c.1 < d.1)

theorem find_append_of_lt {a : Nat} {l : List Host.Cell} (h : ∀ d ∈ l, d.1 < a)
    (r : List Host.Cell) : Memory.find a (l ++ r) = Memory.find a r := by
  induction l with
  | nil => rfl
  | cons c t ih =>
    have hc : c.1 < a := h c (by simp)
    simp [Memory.find, hc, ih fun d hd => h d (by simp [hd])]

theorem find_of_gt {a : Nat} {r : List Host.Cell} (h : ∀ d ∈ r, a < d.1) :
    Memory.find a r = none := by
  cases r with
  | nil => rfl
  | cons c t =>
    have hc : a < c.1 := h c (by simp)
    simp [Memory.find, Nat.not_lt.mpr hc.le, Nat.ne_of_gt hc]

theorem find_append_of_gt {a : Nat} (l : List Host.Cell) {r : List Host.Cell}
    (h : ∀ d ∈ r, a < d.1) : Memory.find a (l ++ r) = Memory.find a l := by
  induction l with
  | nil => simpa [Memory.find] using find_of_gt h
  | cons c t ih => simp [Memory.find, ih]

theorem mem_dropWhile_lt {m : List Host.Cell} (hm : Rising m) (k : Nat) :
    ∀ d ∈ m.dropWhile (fun d => decide (d.1 < k)), k ≤ d.1 := by
  induction m with
  | nil => simp
  | cons c t ih =>
    obtain ⟨h1, h2⟩ := List.pairwise_cons.mp hm
    intro d hd
    rw [List.dropWhile_cons] at hd
    split at hd
    · exact ih h2 d hd
    · next hc =>
      have hc' : k ≤ c.1 := by simpa using hc
      rcases List.mem_cons.mp hd with rfl | hd
      · exact hc'
      · exact hc'.trans (h1 d hd).le

theorem mem_dropWhile_le {m : List Host.Cell} (hm : Rising m) (k : Nat) :
    ∀ d ∈ m.dropWhile (fun d => decide (d.1 ≤ k)), k < d.1 := by
  induction m with
  | nil => simp
  | cons c t ih =>
    obtain ⟨h1, h2⟩ := List.pairwise_cons.mp hm
    intro d hd
    rw [List.dropWhile_cons] at hd
    split at hd
    · exact ih h2 d hd
    · next hc =>
      have hc' : k < c.1 := by simpa using hc
      rcases List.mem_cons.mp hd with rfl | hd
      · exact hc'
      · exact hc'.trans (h1 d hd)

theorem mem_takeWhile_pred {p : Host.Cell → Bool} {m : List Host.Cell} :
    ∀ d ∈ m.takeWhile p, p d = true := fun _ hd => List.mem_takeWhile_imp hd

theorem find_dropWhile_lt {m : List Host.Cell} {a k : Nat} (h : k ≤ a) :
    Memory.find a (m.dropWhile (fun d => decide (d.1 < k))) = Memory.find a m := by
  conv => rhs; rw [← List.takeWhile_append_dropWhile (p := fun d => decide (d.1 < k)) (l := m)]
  rw [find_append_of_lt]
  intro d hd
  exact lt_of_lt_of_le (of_decide_eq_true (mem_takeWhile_pred d hd)) h

theorem find_dropWhile_le {m : List Host.Cell} {a k : Nat} (h : k < a) :
    Memory.find a (m.dropWhile (fun d => decide (d.1 ≤ k))) = Memory.find a m := by
  conv => rhs; rw [← List.takeWhile_append_dropWhile (p := fun d => decide (d.1 ≤ k)) (l := m)]
  rw [find_append_of_lt]
  intro d hd
  exact lt_of_le_of_lt (of_decide_eq_true (mem_takeWhile_pred d hd)) h

theorem find_takeWhile_lt {m : List Host.Cell} (hm : Rising m) {a k : Nat} (h : a < k) :
    Memory.find a (m.takeWhile (fun d => decide (d.1 < k))) = Memory.find a m := by
  conv => rhs; rw [← List.takeWhile_append_dropWhile (p := fun d => decide (d.1 < k)) (l := m)]
  rw [find_append_of_gt]
  exact fun d hd => lt_of_lt_of_le h (mem_dropWhile_lt hm k d hd)

/-- Every cell of the result was stored or was there before. -/
theorem mem_overlay {cs : List Host.Cell} :
    ∀ {m : List Host.Cell} {d : Host.Cell}, d ∈ Memory.overlay cs m → d ∈ cs ∨ d ∈ m := by
  induction cs with
  | nil => intro m d hd; exact .inr hd
  | cons c cs ih =>
    intro m d hd
    simp only [Memory.overlay, List.mem_append] at hd
    rcases hd with (hd | hd) | hd
    · exact .inr (List.takeWhile_sublist _ |>.mem hd)
    · split at hd
      · simp at hd
      · exact .inl (by simp_all)
    · rcases ih hd with h | h
      · exact .inl (by simp [h])
      · exact .inr (List.dropWhile_sublist _ |>.mem h)

/-- A store keeps the canonical form. -/
theorem overlay_wf {cs : List Host.Cell} :
    ∀ {m : List Host.Cell}, Rising cs → Memory.wf m → Memory.wf (Memory.overlay cs m) := by
  induction cs with
  | nil => intro m _ hm; exact hm
  | cons c cs ih =>
    intro m hcs hm
    obtain ⟨hc, hcs'⟩ := List.pairwise_cons.mp hcs
    have hR : Memory.wf (m.dropWhile (fun d => decide (d.1 ≤ c.1))) :=
      ⟨hm.1.sublist (List.dropWhile_sublist _), fun d hd => hm.2 d (List.dropWhile_sublist _ |>.mem hd)⟩
    have ih' := ih hcs' hR
    have hgt : ∀ d ∈ Memory.overlay cs (m.dropWhile (fun d => decide (d.1 ≤ c.1))), c.1 < d.1 := by
      intro d hd
      rcases mem_overlay hd with h | h
      · exact hc d h
      · exact mem_dropWhile_le hm.1 c.1 d h
    have hlt : ∀ d ∈ m.takeWhile (fun d => decide (d.1 < c.1)), d.1 < c.1 :=
      fun d hd => of_decide_eq_true (mem_takeWhile_pred d hd)
    refine ⟨?_, ?_⟩
    · rw [Memory.overlay, List.append_assoc, List.pairwise_append]
      refine ⟨hm.1.sublist (List.takeWhile_sublist _), ?_, ?_⟩
      · split
        · exact ih'.1
        · exact List.pairwise_cons.mpr ⟨hgt, ih'.1⟩
      · intro d hd e he
        have h1 := hlt d hd
        rcases List.mem_append.mp he with he | he
        · split at he
          · simp at he
          · simp_all
        · exact h1.trans (hgt e he)
    · intro d hd
      simp only [Memory.overlay, List.mem_append] at hd
      rcases hd with (hd | hd) | hd
      · exact hm.2 d (List.takeWhile_sublist _ |>.mem hd)
      · split at hd
        · simp at hd
        · next hne => simp only [List.mem_singleton] at hd; exact hd ▸ hne
      · exact ih'.2 d hd

/-- A read after a store: the stored byte where one was stored, else what was there before. -/
theorem read_overlay {cs : List Host.Cell} :
    ∀ {m : List Host.Cell}, Rising cs → Rising m → ∀ a,
      Memory.read (Memory.overlay cs m) a
        = match Memory.find a cs with
          | some b => some b
          | none => Memory.read m a := by
  induction cs with
  | nil => intro m _ _ a; rfl
  | cons c cs ih =>
    intro m hcs hm a
    obtain ⟨hc, hcs'⟩ := List.pairwise_cons.mp hcs
    have hgt : ∀ d ∈ Memory.overlay cs (m.dropWhile (fun d => decide (d.1 ≤ c.1))), c.1 < d.1 := by
      intro d hd
      rcases mem_overlay hd with h | h
      · exact hc d h
      · exact mem_dropWhile_le hm c.1 d h
    have hlt : ∀ d ∈ m.takeWhile (fun d => decide (d.1 < c.1)), d.1 < c.1 :=
      fun d hd => of_decide_eq_true (mem_takeWhile_pred d hd)
    rcases Nat.lt_trichotomy a c.1 with h | h | h
    · have hf : Memory.find a (Memory.overlay (c :: cs) m) = Memory.find a m := by
        rw [Memory.overlay, List.append_assoc, find_append_of_gt, find_takeWhile_lt hm h]
        intro d hd
        rcases List.mem_append.mp hd with hd | hd
        · split at hd
          · simp at hd
          · simp_all
        · exact h.trans (hgt d hd)
      have hn : Memory.find a (c :: cs) = none := by
        simp [Memory.find, Nat.not_lt.mpr h.le, Nat.ne_of_gt h]
      simp [Memory.read, hf, hn]
    · subst h
      have hn : Memory.find c.1 (c :: cs) = some c.2 := by simp [Memory.find]
      rw [hn, Memory.read, Memory.overlay, List.append_assoc, find_append_of_lt hlt]
      split
      · next b hb =>
        split at hb
        · rw [List.nil_append, find_of_gt hgt] at hb; exact absurd hb (by simp)
        · simpa [Memory.find] using hb.symm
      · next hb =>
        split at hb
        · assumption
        · simp [Memory.find] at hb
    · have hn : Memory.find a (c :: cs) = Memory.find a cs := by simp [Memory.find, h]
      have hf : Memory.find a (Memory.overlay (c :: cs) m)
          = Memory.find a (Memory.overlay cs (m.dropWhile (fun d => decide (d.1 ≤ c.1)))) := by
        rw [Memory.overlay, find_append_of_lt]
        intro d hd
        rcases List.mem_append.mp hd with hd | hd
        · exact (hlt d hd).trans h
        · split at hd
          · simp at hd
          · simp_all
      have ih' := ih hcs' (hm.sublist (List.dropWhile_sublist (fun d => decide (d.1 ≤ c.1)))) a
      rw [hn, Memory.read, hf]
      rw [Memory.read] at ih'
      rw [ih', Memory.read, find_dropWhile_le h]
      rfl

/-! ### Blocks of words -/

theorem find_run (base : Nat) (g : Nat → Byte) (n a : Nat) :
    Memory.find a ((List.range n).map (fun t => (base + t, g t)))
      = if base ≤ a ∧ a < base + n then some (g (a - base)) else none := by
  induction n with
  | zero => simp [Memory.find]
  | succ n ih =>
    rw [List.range_succ, List.map_append]
    rcases Nat.lt_or_ge a (base + n) with h | h
    · rw [find_append_of_gt _ (by simpa using h), ih]
      by_cases hb : base ≤ a
      · rw [if_pos ⟨hb, h⟩, if_pos ⟨hb, by omega⟩]
      · rw [if_neg (by omega), if_neg (by omega)]
    · rw [find_append_of_lt (by simp only [List.mem_map, List.mem_range]; rintro d ⟨t, ht, rfl⟩; omega)]
      by_cases he : a = base + n
      · subst he; simp [Memory.find]
      · rw [if_neg (by omega)]
        simp [Memory.find, show base + n < a by omega]

theorem blockCells_rising (base n : Nat) (f : Nat → Word) : Rising (blockCells base n f) := by
  rw [blockCells, Rising, List.pairwise_map]
  exact List.pairwise_lt_range.imp (by intro a b h; simpa using h)

/-- Every block store keeps the canonical form. -/
theorem writeBlock_wf {m : List Host.Cell} (h : Memory.wf m) (base n : Nat) (f : Nat → Word) :
    Memory.wf (writeBlock m base n f) := overlay_wf (blockCells_rising base n f) h

/-- One byte read after a block store: the stored lane inside the block, unchanged outside. -/
theorem read_writeBlock {m : List Host.Cell} (h : Memory.wf m) (base n : Nat) (f : Nat → Word)
    (a : Nat) :
    Memory.read (writeBlock m base n f) a
      = if base ≤ a ∧ a < base + 8 * n then some (lane (f ((a - base) / 8)) ((a - base) % 8))
        else Memory.read m a := by
  rw [writeBlock, read_overlay (blockCells_rising base n f) h.1, blockCells,
    find_run base (fun t => lane (f (t / 8)) (t % 8))]
  split <;> simp_all

/-- The lanes of a word make up the word again (R93). -/
theorem ofLanes_lane (v : Word) :
    ofLanes (lane v 0) (lane v 1) (lane v 2) (lane v 3) (lane v 4) (lane v 5) (lane v 6) (lane v 7)
      = v := by
  apply BitVec.eq_of_getLsbD_eq
  intro i hi
  simp only [ofLanes, lane, BitVec.getLsbD_append, BitVec.getLsbD_extractLsb']
  repeat' split
  all_goals rw [decide_eq_true (by omega), Bool.true_and]; congr 1; omega

/-- A word read, byte by byte. -/
theorem readWord_eq (m : List Host.Cell) (a : Nat) :
    readWord m a = (do
      let b0 ← Memory.read m a
      let b1 ← Memory.read m (a + 1)
      let b2 ← Memory.read m (a + 2)
      let b3 ← Memory.read m (a + 3)
      let b4 ← Memory.read m (a + 4)
      let b5 ← Memory.read m (a + 5)
      let b6 ← Memory.read m (a + 6)
      let b7 ← Memory.read m (a + 7)
      return ofLanes b0 b1 b2 b3 b4 b5 b6 b7) := by
  have h : ∀ k, Memory.read (m.dropWhile (fun d => decide (d.1 < a))) (a + k)
      = Memory.read m (a + k) := fun k => by
    rw [Memory.read, Memory.read, find_dropWhile_lt (Nat.le_add_right a k)]
  have h0 := h 0
  rw [Nat.add_zero] at h0
  simp only [readWord, h, h0]

/-- Two memories whose bytes agree over a word read the same word. -/
theorem readWord_congr {m m' : List Host.Cell} {a : Nat}
    (h : ∀ k, k < 8 → Memory.read m (a + k) = Memory.read m' (a + k)) :
    readWord m a = readWord m' a := by
  have h0 := h 0 (by omega)
  rw [Nat.add_zero] at h0
  rw [readWord_eq, readWord_eq, h0, h 1 (by omega), h 2 (by omega), h 3 (by omega), h 4 (by omega),
    h 5 (by omega), h 6 (by omega), h 7 (by omega)]

/-- A word of a stored block reads back as it was stored. -/
theorem readWord_writeBlock_in {m : List Host.Cell} (h : Memory.wf m) (base n : Nat)
    (f : Nat → Word) {j : Nat} (hj : j < n) :
    readWord (writeBlock m base n f) (base + 8 * j) = some (f j) := by
  have hb : ∀ k, k < 8 →
      Memory.read (writeBlock m base n f) (base + 8 * j + k) = some (lane (f j) k) := by
    intro k hk
    rw [read_writeBlock h, if_pos ⟨by omega, by omega⟩]
    rw [show (base + 8 * j + k - base) / 8 = j by omega, show (base + 8 * j + k - base) % 8 = k by omega]
  have h0 := hb 0 (by omega)
  rw [Nat.add_zero] at h0
  rw [readWord_eq, h0, hb 1 (by omega), hb 2 (by omega), hb 3 (by omega), hb 4 (by omega),
    hb 5 (by omega), hb 6 (by omega), hb 7 (by omega)]
  simp [ofLanes_lane]

/-- A word outside a stored block reads as before. -/
theorem readWord_writeBlock_out {m : List Host.Cell} (h : Memory.wf m) (base n : Nat)
    (f : Nat → Word) {a : Nat} (ha : a + 8 ≤ base ∨ base + 8 * n ≤ a) :
    readWord (writeBlock m base n f) a = readWord m a := by
  refine readWord_congr fun k hk => ?_
  rw [read_writeBlock h, if_neg (by omega)]

end Sys2Proof.Machine
end

