-- ==== Sys2Proof/Laws/State.lean ====
section
/-! SUPPORT. What each named update of the state does to each field: one lemma per field, true by
rfl, so that no later proof unfolds a record update. -/

namespace Sys2Proof.Machine

@[simp] theorem fill_params (s : State) (r : Region) (n : Nat) (f : Nat → Word) :
    (s.fill r n f).params = s.params := rfl
@[simp] theorem fill_cfg (s : State) (r : Region) (n : Nat) (f : Nat → Word) :
    (s.fill r n f).cfg = s.cfg := rfl
@[simp] theorem fill_status (s : State) (r : Region) (n : Nat) (f : Nat → Word) :
    (s.fill r n f).status = s.status := rfl
@[simp] theorem fill_res (s : State) (r : Region) (n : Nat) (f : Nat → Word) :
    (s.fill r n f).res = s.res := rfl
@[simp] theorem fill_mem (s : State) (r : Region) (n : Nat) (f : Nat → Word) :
    (s.fill r n f).mem = writeBlock s.mem r.base n f := rfl
@[simp] theorem fill_pending (s : State) (r : Region) (n : Nat) (f : Nat → Word) :
    (s.fill r n f).pending = s.pending := rfl
@[simp] theorem fill_hostProg (s : State) (r : Region) (n : Nat) (f : Nat → Word) :
    (s.fill r n f).hostProg = s.hostProg := rfl
@[simp] theorem fill_sched (s : State) (r : Region) (n : Nat) (f : Nat → Word) :
    (s.fill r n f).sched = s.sched := rfl
@[simp] theorem fill_readLog (s : State) (r : Region) (n : Nat) (f : Nat → Word) :
    (s.fill r n f).readLog = s.readLog := rfl
@[simp] theorem fill_draws (s : State) (r : Region) (n : Nat) (f : Nat → Word) :
    (s.fill r n f).draws = s.draws := rfl
@[simp] theorem fill_unitNo (s : State) (r : Region) (n : Nat) (f : Nat → Word) :
    (s.fill r n f).unitNo = s.unitNo := rfl

@[simp] theorem fillBits_params (s : State) (r : Region) (n : Nat) (b : Nat → Bool) :
    (s.fillBits r n b).params = s.params := rfl
@[simp] theorem fillBits_cfg (s : State) (r : Region) (n : Nat) (b : Nat → Bool) :
    (s.fillBits r n b).cfg = s.cfg := rfl
@[simp] theorem fillBits_status (s : State) (r : Region) (n : Nat) (b : Nat → Bool) :
    (s.fillBits r n b).status = s.status := rfl
@[simp] theorem fillBits_res (s : State) (r : Region) (n : Nat) (b : Nat → Bool) :
    (s.fillBits r n b).res = s.res := rfl
@[simp] theorem fillBits_mem (s : State) (r : Region) (n : Nat) (b : Nat → Bool) :
    (s.fillBits r n b).mem = writeBlock s.mem r.base (ceilDiv n 64) (packBits n b) := rfl
@[simp] theorem fillBits_pending (s : State) (r : Region) (n : Nat) (b : Nat → Bool) :
    (s.fillBits r n b).pending = s.pending := rfl
@[simp] theorem fillBits_hostProg (s : State) (r : Region) (n : Nat) (b : Nat → Bool) :
    (s.fillBits r n b).hostProg = s.hostProg := rfl
@[simp] theorem fillBits_sched (s : State) (r : Region) (n : Nat) (b : Nat → Bool) :
    (s.fillBits r n b).sched = s.sched := rfl
@[simp] theorem fillBits_readLog (s : State) (r : Region) (n : Nat) (b : Nat → Bool) :
    (s.fillBits r n b).readLog = s.readLog := rfl
@[simp] theorem fillBits_draws (s : State) (r : Region) (n : Nat) (b : Nat → Bool) :
    (s.fillBits r n b).draws = s.draws := rfl
@[simp] theorem fillBits_unitNo (s : State) (r : Region) (n : Nat) (b : Nat → Bool) :
    (s.fillBits r n b).unitNo = s.unitNo := rfl

@[simp] theorem setEntry_params (s : State) (r : Region) (j : Nat) (v : Word) :
    (s.setEntry r j v).params = s.params := rfl
@[simp] theorem setEntry_cfg (s : State) (r : Region) (j : Nat) (v : Word) :
    (s.setEntry r j v).cfg = s.cfg := rfl
@[simp] theorem setEntry_status (s : State) (r : Region) (j : Nat) (v : Word) :
    (s.setEntry r j v).status = s.status := rfl
@[simp] theorem setEntry_res (s : State) (r : Region) (j : Nat) (v : Word) :
    (s.setEntry r j v).res = s.res := rfl
@[simp] theorem setEntry_mem (s : State) (r : Region) (j : Nat) (v : Word) :
    (s.setEntry r j v).mem = writeBlock s.mem (r.entryAddr j) 1 (fun _ => v) := rfl
@[simp] theorem setEntry_pending (s : State) (r : Region) (j : Nat) (v : Word) :
    (s.setEntry r j v).pending = s.pending := rfl
@[simp] theorem setEntry_hostProg (s : State) (r : Region) (j : Nat) (v : Word) :
    (s.setEntry r j v).hostProg = s.hostProg := rfl
@[simp] theorem setEntry_sched (s : State) (r : Region) (j : Nat) (v : Word) :
    (s.setEntry r j v).sched = s.sched := rfl
@[simp] theorem setEntry_readLog (s : State) (r : Region) (j : Nat) (v : Word) :
    (s.setEntry r j v).readLog = s.readLog := rfl
@[simp] theorem setEntry_draws (s : State) (r : Region) (j : Nat) (v : Word) :
    (s.setEntry r j v).draws = s.draws := rfl
@[simp] theorem setEntry_unitNo (s : State) (r : Region) (j : Nat) (v : Word) :
    (s.setEntry r j v).unitNo = s.unitNo := rfl

@[simp] theorem takeError_params (e : CmdError) (s : State) :
    (takeError e s).params = s.params := rfl
@[simp] theorem takeError_cfg (e : CmdError) (s : State) : (takeError e s).cfg = s.cfg := rfl
@[simp] theorem takeError_status (e : CmdError) (s : State) :
    (takeError e s).status = { s.status with errCode := e.code, errInfo := e.info, err := true, done := true } := rfl
@[simp] theorem takeError_res (e : CmdError) (s : State) : (takeError e s).res = s.res := rfl
@[simp] theorem takeError_mem (e : CmdError) (s : State) : (takeError e s).mem = s.mem := rfl
@[simp] theorem takeError_pending (e : CmdError) (s : State) : (takeError e s).pending = none := rfl
@[simp] theorem takeError_hostProg (e : CmdError) (s : State) :
    (takeError e s).hostProg = s.hostProg := rfl
@[simp] theorem takeError_sched (e : CmdError) (s : State) : (takeError e s).sched = s.sched := rfl
@[simp] theorem takeError_readLog (e : CmdError) (s : State) :
    (takeError e s).readLog = s.readLog := rfl
@[simp] theorem takeError_draws (e : CmdError) (s : State) : (takeError e s).draws = s.draws := rfl
@[simp] theorem takeError_unitNo (e : CmdError) (s : State) : (takeError e s).unitNo = s.unitNo := rfl

@[simp] theorem completeOk_params (s : State) : (completeOk s).params = s.params := rfl
@[simp] theorem completeOk_cfg (s : State) : (completeOk s).cfg = s.cfg := rfl
@[simp] theorem completeOk_status (s : State) :
    (completeOk s).status = { s.status with errCode := 0, errInfo := 0, done := true } := rfl
@[simp] theorem completeOk_res (s : State) : (completeOk s).res = s.res := rfl
@[simp] theorem completeOk_mem (s : State) : (completeOk s).mem = s.mem := rfl
@[simp] theorem completeOk_pending (s : State) : (completeOk s).pending = none := rfl
@[simp] theorem completeOk_hostProg (s : State) : (completeOk s).hostProg = s.hostProg := rfl
@[simp] theorem completeOk_sched (s : State) : (completeOk s).sched = s.sched := rfl
@[simp] theorem completeOk_readLog (s : State) : (completeOk s).readLog = s.readLog := rfl
@[simp] theorem completeOk_draws (s : State) : (completeOk s).draws = s.draws := rfl
@[simp] theorem completeOk_unitNo (s : State) : (completeOk s).unitNo = s.unitNo := rfl

@[simp] theorem accept_params (v : Word) (s : State) : (accept v s).params = s.params := rfl
@[simp] theorem accept_cfg (v : Word) (s : State) : (accept v s).cfg = s.cfg := rfl
@[simp] theorem accept_status (v : Word) (s : State) :
    (accept v s).status = { s.status with done := false, errCode := 0, errInfo := 0, lastOp := v.setWidth 8 } := rfl
@[simp] theorem accept_res (v : Word) (s : State) : (accept v s).res = s.res := rfl
@[simp] theorem accept_mem (v : Word) (s : State) : (accept v s).mem = s.mem := rfl
@[simp] theorem accept_pending (v : Word) (s : State) : (accept v s).pending = some v := rfl
@[simp] theorem accept_hostProg (v : Word) (s : State) : (accept v s).hostProg = s.hostProg := rfl
@[simp] theorem accept_sched (v : Word) (s : State) : (accept v s).sched = s.sched := rfl
@[simp] theorem accept_readLog (v : Word) (s : State) : (accept v s).readLog = s.readLog := rfl
@[simp] theorem accept_draws (v : Word) (s : State) : (accept v s).draws = s.draws := rfl
@[simp] theorem accept_unitNo (v : Word) (s : State) : (accept v s).unitNo = s.unitNo := rfl

@[simp] theorem acknowledge_params (v : Word) (s : State) :
    (acknowledge v s).params = s.params := rfl
@[simp] theorem acknowledge_cfg (v : Word) (s : State) : (acknowledge v s).cfg = s.cfg := rfl
@[simp] theorem acknowledge_status (v : Word) (s : State) :
    (acknowledge v s).status = s.status.writeOneToClear v := rfl
@[simp] theorem acknowledge_res (v : Word) (s : State) : (acknowledge v s).res = s.res := rfl
@[simp] theorem acknowledge_mem (v : Word) (s : State) : (acknowledge v s).mem = s.mem := rfl
@[simp] theorem acknowledge_pending (v : Word) (s : State) :
    (acknowledge v s).pending = s.pending := rfl
@[simp] theorem acknowledge_hostProg (v : Word) (s : State) :
    (acknowledge v s).hostProg = s.hostProg := rfl
@[simp] theorem acknowledge_sched (v : Word) (s : State) : (acknowledge v s).sched = s.sched := rfl
@[simp] theorem acknowledge_readLog (v : Word) (s : State) :
    (acknowledge v s).readLog = s.readLog := rfl
@[simp] theorem acknowledge_draws (v : Word) (s : State) : (acknowledge v s).draws = s.draws := rfl
@[simp] theorem acknowledge_unitNo (v : Word) (s : State) : (acknowledge v s).unitNo = s.unitNo := rfl

@[simp] theorem resetBlock_params (s : State) : (resetBlock s).params = s.params := rfl
@[simp] theorem resetBlock_cfg (s : State) : (resetBlock s).cfg = ConfigRegs.reset := rfl
@[simp] theorem resetBlock_status (s : State) : (resetBlock s).status = Status.reset := rfl
@[simp] theorem resetBlock_res (s : State) : (resetBlock s).res = ResultRegs.reset := rfl
@[simp] theorem resetBlock_mem (s : State) : (resetBlock s).mem = [] := rfl
@[simp] theorem resetBlock_pending (s : State) : (resetBlock s).pending = none := rfl
@[simp] theorem resetBlock_hostProg (s : State) : (resetBlock s).hostProg = s.hostProg := rfl
@[simp] theorem resetBlock_sched (s : State) : (resetBlock s).sched = s.sched := rfl
@[simp] theorem resetBlock_readLog (s : State) : (resetBlock s).readLog = s.readLog := rfl
@[simp] theorem resetBlock_draws (s : State) : (resetBlock s).draws = s.draws := rfl
@[simp] theorem resetBlock_unitNo (s : State) : (resetBlock s).unitNo = s.unitNo := rfl

@[simp] theorem setBusErr_params (s : State) : s.setBusErr.params = s.params := rfl
@[simp] theorem setBusErr_cfg (s : State) : s.setBusErr.cfg = s.cfg := rfl
@[simp] theorem setBusErr_status (s : State) :
    s.setBusErr.status = { s.status with busErr := true } := rfl
@[simp] theorem setBusErr_res (s : State) : s.setBusErr.res = s.res := rfl
@[simp] theorem setBusErr_mem (s : State) : s.setBusErr.mem = s.mem := rfl
@[simp] theorem setBusErr_pending (s : State) : s.setBusErr.pending = s.pending := rfl
@[simp] theorem setBusErr_hostProg (s : State) : s.setBusErr.hostProg = s.hostProg := rfl
@[simp] theorem setBusErr_sched (s : State) : s.setBusErr.sched = s.sched := rfl
@[simp] theorem setBusErr_readLog (s : State) : s.setBusErr.readLog = s.readLog := rfl
@[simp] theorem setBusErr_draws (s : State) : s.setBusErr.draws = s.draws := rfl
@[simp] theorem setBusErr_unitNo (s : State) : s.setBusErr.unitNo = s.unitNo := rfl

@[simp] theorem setHaz_params (s : State) : s.setHaz.params = s.params := rfl
@[simp] theorem setHaz_cfg (s : State) : s.setHaz.cfg = s.cfg := rfl
@[simp] theorem setHaz_status (s : State) : s.setHaz.status = { s.status with haz := true } := rfl
@[simp] theorem setHaz_res (s : State) : s.setHaz.res = s.res := rfl
@[simp] theorem setHaz_mem (s : State) : s.setHaz.mem = s.mem := rfl
@[simp] theorem setHaz_pending (s : State) : s.setHaz.pending = s.pending := rfl
@[simp] theorem setHaz_hostProg (s : State) : s.setHaz.hostProg = s.hostProg := rfl
@[simp] theorem setHaz_sched (s : State) : s.setHaz.sched = s.sched := rfl
@[simp] theorem setHaz_readLog (s : State) : s.setHaz.readLog = s.readLog := rfl
@[simp] theorem setHaz_draws (s : State) : s.setHaz.draws = s.draws := rfl
@[simp] theorem setHaz_unitNo (s : State) : s.setHaz.unitNo = s.unitNo := rfl

@[simp] theorem takeDraw_params (s : State) : s.takeDraw.2.params = s.params := rfl
@[simp] theorem takeDraw_cfg (s : State) : s.takeDraw.2.cfg = s.cfg := rfl
@[simp] theorem takeDraw_status (s : State) : s.takeDraw.2.status = s.status := rfl
@[simp] theorem takeDraw_res (s : State) : s.takeDraw.2.res = s.res := rfl
@[simp] theorem takeDraw_mem (s : State) : s.takeDraw.2.mem = s.mem := rfl
@[simp] theorem takeDraw_pending (s : State) : s.takeDraw.2.pending = s.pending := rfl
@[simp] theorem takeDraw_hostProg (s : State) : s.takeDraw.2.hostProg = s.hostProg := rfl
@[simp] theorem takeDraw_sched (s : State) : s.takeDraw.2.sched = s.sched := rfl
@[simp] theorem takeDraw_readLog (s : State) : s.takeDraw.2.readLog = s.readLog := rfl
@[simp] theorem takeDraw_draws (s : State) : s.takeDraw.2.draws = s.draws + 1 := rfl
@[simp] theorem takeDraw_unitNo (s : State) : s.takeDraw.2.unitNo = s.unitNo := rfl

@[simp] theorem logRead_params (a : Addr) (r : Word × State) :
    (logRead a r).params = r.2.params := rfl
@[simp] theorem logRead_cfg (a : Addr) (r : Word × State) : (logRead a r).cfg = r.2.cfg := rfl
@[simp] theorem logRead_status (a : Addr) (r : Word × State) :
    (logRead a r).status = r.2.status := rfl
@[simp] theorem logRead_res (a : Addr) (r : Word × State) : (logRead a r).res = r.2.res := rfl
@[simp] theorem logRead_mem (a : Addr) (r : Word × State) : (logRead a r).mem = r.2.mem := rfl
@[simp] theorem logRead_pending (a : Addr) (r : Word × State) :
    (logRead a r).pending = r.2.pending := rfl
@[simp] theorem logRead_hostProg (a : Addr) (r : Word × State) :
    (logRead a r).hostProg = r.2.hostProg := rfl
@[simp] theorem logRead_sched (a : Addr) (r : Word × State) : (logRead a r).sched = r.2.sched := rfl
@[simp] theorem logRead_readLog (a : Addr) (r : Word × State) :
    (logRead a r).readLog = (a, r.1) :: r.2.readLog := rfl
@[simp] theorem logRead_draws (a : Addr) (r : Word × State) : (logRead a r).draws = r.2.draws := rfl
@[simp] theorem logRead_unitNo (a : Addr) (r : Word × State) : (logRead a r).unitNo = r.2.unitNo := rfl

@[simp] theorem validGenBits_done (st : Status) : st.validGenBits.done = st.done := rfl
@[simp] theorem validGenBits_err (st : Status) : st.validGenBits.err = st.err := rfl
@[simp] theorem validGenBits_haz (st : Status) : st.validGenBits.haz = st.haz := rfl
@[simp] theorem validGenBits_busErr (st : Status) : st.validGenBits.busErr = st.busErr := rfl
@[simp] theorem validGenBits_degen (st : Status) : st.validGenBits.degen = st.degen := rfl
@[simp] theorem validGenBits_bitsV (st : Status) : st.validGenBits.bitsV = true := rfl
@[simp] theorem validGenBits_symV (st : Status) : st.validGenBits.symV = false := rfl
@[simp] theorem validGenBits_waveV (st : Status) : st.validGenBits.waveV = false := rfl
@[simp] theorem validGenBits_rxV (st : Status) : st.validGenBits.rxV = false := rfl
@[simp] theorem validGenBits_estV (st : Status) : st.validGenBits.estV = false := rfl
@[simp] theorem validGenBits_berV (st : Status) : st.validGenBits.berV = st.berV := rfl
@[simp] theorem validGenBits_errCode (st : Status) : st.validGenBits.errCode = st.errCode := rfl
@[simp] theorem validGenBits_errInfo (st : Status) : st.validGenBits.errInfo = st.errInfo := rfl
@[simp] theorem validGenBits_lastOp (st : Status) : st.validGenBits.lastOp = st.lastOp := rfl

@[simp] theorem validMap_done (st : Status) : st.validMap.done = st.done := rfl
@[simp] theorem validMap_err (st : Status) : st.validMap.err = st.err := rfl
@[simp] theorem validMap_haz (st : Status) : st.validMap.haz = st.haz := rfl
@[simp] theorem validMap_busErr (st : Status) : st.validMap.busErr = st.busErr := rfl
@[simp] theorem validMap_degen (st : Status) : st.validMap.degen = st.degen := rfl
@[simp] theorem validMap_bitsV (st : Status) : st.validMap.bitsV = st.bitsV := rfl
@[simp] theorem validMap_symV (st : Status) : st.validMap.symV = true := rfl
@[simp] theorem validMap_waveV (st : Status) : st.validMap.waveV = false := rfl
@[simp] theorem validMap_rxV (st : Status) : st.validMap.rxV = false := rfl
@[simp] theorem validMap_estV (st : Status) : st.validMap.estV = false := rfl
@[simp] theorem validMap_berV (st : Status) : st.validMap.berV = st.berV := rfl
@[simp] theorem validMap_errCode (st : Status) : st.validMap.errCode = st.errCode := rfl
@[simp] theorem validMap_errInfo (st : Status) : st.validMap.errInfo = st.errInfo := rfl
@[simp] theorem validMap_lastOp (st : Status) : st.validMap.lastOp = st.lastOp := rfl

@[simp] theorem validSynth_done (st : Status) : st.validSynth.done = st.done := rfl
@[simp] theorem validSynth_err (st : Status) : st.validSynth.err = st.err := rfl
@[simp] theorem validSynth_haz (st : Status) : st.validSynth.haz = st.haz := rfl
@[simp] theorem validSynth_busErr (st : Status) : st.validSynth.busErr = st.busErr := rfl
@[simp] theorem validSynth_degen (st : Status) : st.validSynth.degen = st.degen := rfl
@[simp] theorem validSynth_bitsV (st : Status) : st.validSynth.bitsV = st.bitsV := rfl
@[simp] theorem validSynth_symV (st : Status) : st.validSynth.symV = st.symV := rfl
@[simp] theorem validSynth_waveV (st : Status) : st.validSynth.waveV = true := rfl
@[simp] theorem validSynth_rxV (st : Status) : st.validSynth.rxV = false := rfl
@[simp] theorem validSynth_estV (st : Status) : st.validSynth.estV = false := rfl
@[simp] theorem validSynth_berV (st : Status) : st.validSynth.berV = st.berV := rfl
@[simp] theorem validSynth_errCode (st : Status) : st.validSynth.errCode = st.errCode := rfl
@[simp] theorem validSynth_errInfo (st : Status) : st.validSynth.errInfo = st.errInfo := rfl
@[simp] theorem validSynth_lastOp (st : Status) : st.validSynth.lastOp = st.lastOp := rfl

@[simp] theorem validChannel_done (st : Status) : st.validChannel.done = st.done := rfl
@[simp] theorem validChannel_err (st : Status) : st.validChannel.err = st.err := rfl
@[simp] theorem validChannel_haz (st : Status) : st.validChannel.haz = st.haz := rfl
@[simp] theorem validChannel_busErr (st : Status) : st.validChannel.busErr = st.busErr := rfl
@[simp] theorem validChannel_degen (st : Status) : st.validChannel.degen = st.degen := rfl
@[simp] theorem validChannel_bitsV (st : Status) : st.validChannel.bitsV = st.bitsV := rfl
@[simp] theorem validChannel_symV (st : Status) : st.validChannel.symV = st.symV := rfl
@[simp] theorem validChannel_waveV (st : Status) : st.validChannel.waveV = st.waveV := rfl
@[simp] theorem validChannel_rxV (st : Status) : st.validChannel.rxV = true := rfl
@[simp] theorem validChannel_estV (st : Status) : st.validChannel.estV = false := rfl
@[simp] theorem validChannel_berV (st : Status) : st.validChannel.berV = st.berV := rfl
@[simp] theorem validChannel_errCode (st : Status) : st.validChannel.errCode = st.errCode := rfl
@[simp] theorem validChannel_errInfo (st : Status) : st.validChannel.errInfo = st.errInfo := rfl
@[simp] theorem validChannel_lastOp (st : Status) : st.validChannel.lastOp = st.lastOp := rfl

@[simp] theorem validSlice_done (st : Status) (d : Bool) : (st.validSlice d).done = st.done := rfl
@[simp] theorem validSlice_err (st : Status) (d : Bool) : (st.validSlice d).err = st.err := rfl
@[simp] theorem validSlice_haz (st : Status) (d : Bool) : (st.validSlice d).haz = st.haz := rfl
@[simp] theorem validSlice_busErr (st : Status) (d : Bool) : (st.validSlice d).busErr = st.busErr := rfl
@[simp] theorem validSlice_degen (st : Status) (d : Bool) : (st.validSlice d).degen = (st.degen || d) := rfl
@[simp] theorem validSlice_bitsV (st : Status) (d : Bool) : (st.validSlice d).bitsV = st.bitsV := rfl
@[simp] theorem validSlice_symV (st : Status) (d : Bool) : (st.validSlice d).symV = st.symV := rfl
@[simp] theorem validSlice_waveV (st : Status) (d : Bool) : (st.validSlice d).waveV = st.waveV := rfl
@[simp] theorem validSlice_rxV (st : Status) (d : Bool) : (st.validSlice d).rxV = st.rxV := rfl
@[simp] theorem validSlice_estV (st : Status) (d : Bool) : (st.validSlice d).estV = true := rfl
@[simp] theorem validSlice_berV (st : Status) (d : Bool) : (st.validSlice d).berV = st.berV := rfl
@[simp] theorem validSlice_errCode (st : Status) (d : Bool) : (st.validSlice d).errCode = st.errCode := rfl
@[simp] theorem validSlice_errInfo (st : Status) (d : Bool) : (st.validSlice d).errInfo = st.errInfo := rfl
@[simp] theorem validSlice_lastOp (st : Status) (d : Bool) : (st.validSlice d).lastOp = st.lastOp := rfl

@[simp] theorem validBer_done (st : Status) : st.validBer.done = st.done := rfl
@[simp] theorem validBer_err (st : Status) : st.validBer.err = st.err := rfl
@[simp] theorem validBer_haz (st : Status) : st.validBer.haz = st.haz := rfl
@[simp] theorem validBer_busErr (st : Status) : st.validBer.busErr = st.busErr := rfl
@[simp] theorem validBer_degen (st : Status) : st.validBer.degen = st.degen := rfl
@[simp] theorem validBer_bitsV (st : Status) : st.validBer.bitsV = st.bitsV := rfl
@[simp] theorem validBer_symV (st : Status) : st.validBer.symV = st.symV := rfl
@[simp] theorem validBer_waveV (st : Status) : st.validBer.waveV = st.waveV := rfl
@[simp] theorem validBer_rxV (st : Status) : st.validBer.rxV = st.rxV := rfl
@[simp] theorem validBer_estV (st : Status) : st.validBer.estV = st.estV := rfl
@[simp] theorem validBer_berV (st : Status) : st.validBer.berV = true := rfl
@[simp] theorem validBer_errCode (st : Status) : st.validBer.errCode = st.errCode := rfl
@[simp] theorem validBer_errInfo (st : Status) : st.validBer.errInfo = st.errInfo := rfl
@[simp] theorem validBer_lastOp (st : Status) : st.validBer.lastOp = st.lastOp := rfl

@[simp] theorem cleared_done (st : Status) : st.cleared.done = st.done := rfl
@[simp] theorem cleared_err (st : Status) : st.cleared.err = false := rfl
@[simp] theorem cleared_haz (st : Status) : st.cleared.haz = false := rfl
@[simp] theorem cleared_busErr (st : Status) : st.cleared.busErr = false := rfl
@[simp] theorem cleared_degen (st : Status) : st.cleared.degen = false := rfl
@[simp] theorem cleared_bitsV (st : Status) : st.cleared.bitsV = false := rfl
@[simp] theorem cleared_symV (st : Status) : st.cleared.symV = false := rfl
@[simp] theorem cleared_waveV (st : Status) : st.cleared.waveV = false := rfl
@[simp] theorem cleared_rxV (st : Status) : st.cleared.rxV = false := rfl
@[simp] theorem cleared_estV (st : Status) : st.cleared.estV = false := rfl
@[simp] theorem cleared_berV (st : Status) : st.cleared.berV = false := rfl
@[simp] theorem cleared_errCode (st : Status) : st.cleared.errCode = st.errCode := rfl
@[simp] theorem cleared_errInfo (st : Status) : st.cleared.errInfo = st.errInfo := rfl
@[simp] theorem cleared_lastOp (st : Status) : st.cleared.lastOp = st.lastOp := rfl

@[simp] theorem writeOneToClear_done (st : Status) (v : Word) : (st.writeOneToClear v).done = (st.done && !v.getLsbD 1) := rfl
@[simp] theorem writeOneToClear_err (st : Status) (v : Word) : (st.writeOneToClear v).err = (st.err && !v.getLsbD 2) := rfl
@[simp] theorem writeOneToClear_haz (st : Status) (v : Word) : (st.writeOneToClear v).haz = (st.haz && !v.getLsbD 3) := rfl
@[simp] theorem writeOneToClear_busErr (st : Status) (v : Word) : (st.writeOneToClear v).busErr = (st.busErr && !v.getLsbD 4) := rfl
@[simp] theorem writeOneToClear_degen (st : Status) (v : Word) : (st.writeOneToClear v).degen = (st.degen && !v.getLsbD 5) := rfl
@[simp] theorem writeOneToClear_bitsV (st : Status) (v : Word) : (st.writeOneToClear v).bitsV = st.bitsV := rfl
@[simp] theorem writeOneToClear_symV (st : Status) (v : Word) : (st.writeOneToClear v).symV = st.symV := rfl
@[simp] theorem writeOneToClear_waveV (st : Status) (v : Word) : (st.writeOneToClear v).waveV = st.waveV := rfl
@[simp] theorem writeOneToClear_rxV (st : Status) (v : Word) : (st.writeOneToClear v).rxV = st.rxV := rfl
@[simp] theorem writeOneToClear_estV (st : Status) (v : Word) : (st.writeOneToClear v).estV = st.estV := rfl
@[simp] theorem writeOneToClear_berV (st : Status) (v : Word) : (st.writeOneToClear v).berV = st.berV := rfl
@[simp] theorem writeOneToClear_errCode (st : Status) (v : Word) : (st.writeOneToClear v).errCode = st.errCode := rfl
@[simp] theorem writeOneToClear_errInfo (st : Status) (v : Word) : (st.writeOneToClear v).errInfo = st.errInfo := rfl
@[simp] theorem writeOneToClear_lastOp (st : Status) (v : Word) : (st.writeOneToClear v).lastOp = st.lastOp := rfl

end Sys2Proof.Machine
end

