-- ==== Sys2Proof/Laws/Ops.lean ====
section
/-! SUPPORT. The laws of the named operations: entries and bits after a fill, the windows of the
address map, completion, and what one step can do. -/

namespace Sys2Proof.Machine

/-! ### Windows -/

/-- The bytes of the range the map gives an array or a window (R94). -/
def Region.span : Region → Nat
  | .hbits | .snrIn | .berOut => 0x1000
  | .bits | .symI | .symQ | .time | .carI | .carQ | .tx => 0x100000
  | .noise | .rx | .demodI | .demodQ | .estI | .estQ | .rxbits => 0x100000

theorem regions_disjoint {r r' : Region} (h : r ≠ r') :
    r.base + r.span ≤ r'.base ∨ r'.base + r'.span ≤ r.base := by
  cases r <;> cases r' <;> first | exact absurd rfl h | decide

/-- The bounds a legal block's capacities meet. -/
theorem legal_bounds {p : Params} (h : p.legal = true) :
    p.nMax % 64 = 0 ∧ 128 ≤ p.nMax ∧ p.nMax ≤ 32768 ∧ p.nMax * p.spsMax ≤ 131072 ∧
      20 ≤ p.spsMax ∧ 3 ≤ p.berMax ∧ p.berMax ≤ 512 := by
  simp only [Params.legal, Bool.and_eq_true, decide_eq_true_eq] at h
  tauto

theorem legal_spsMax {p : Params} (h : p.legal = true) : p.spsMax ≤ 1024 := by
  obtain ⟨-, h1, -, h2, -⟩ := legal_bounds h
  have := (Nat.mul_le_mul_right p.spsMax h1).trans h2
  omega

/-- Every capacity fits its range (R94). -/
theorem capacity_span {p : Params} (h : p.legal = true) (r : Region) :
    8 * r.capacity p ≤ r.span := by
  obtain ⟨h0, h1, h2, h3, h4, h5, h6⟩ := legal_bounds h
  cases r <;> simp only [Region.capacity, Region.span, Params.bitW, Params.rxBW, Params.symCap,
    Params.lMax] <;> omega

/-! ### Entries and bits after a fill -/

section
variable {s : State}

theorem fill_wf (h : Memory.wf s.mem) (r : Region) (n : Nat) (f : Nat → Word) :
    Memory.wf (s.fill r n f).mem := writeBlock_wf h _ _ _

theorem setEntry_wf (h : Memory.wf s.mem) (r : Region) (j : Nat) (v : Word) :
    Memory.wf (s.setEntry r j v).mem := writeBlock_wf h _ _ _

theorem readWord_fill_in (h : Memory.wf s.mem) (r : Region) {n j : Nat} (f : Nat → Word)
    (hj : j < n) : readWord (s.fill r n f).mem (r.entryAddr j) = some (f j) :=
  readWord_writeBlock_in h _ _ _ hj

theorem readWord_fill_above (h : Memory.wf s.mem) (r : Region) {n j : Nat} (f : Nat → Word)
    (hj : n ≤ j) : readWord (s.fill r n f).mem (r.entryAddr j) = readWord s.mem (r.entryAddr j) :=
  readWord_writeBlock_out h _ _ _ (by unfold Region.entryAddr; omega)

theorem readWord_fill_other (h : Memory.wf s.mem) {r r' : Region} (hr : r ≠ r') {n j : Nat}
    (f : Nat → Word) (hn : 8 * n ≤ r.span) (hj : 8 * (j + 1) ≤ r'.span) :
    readWord (s.fill r n f).mem (r'.entryAddr j) = readWord s.mem (r'.entryAddr j) := by
  refine readWord_writeBlock_out h _ _ _ ?_
  have := regions_disjoint hr
  unfold Region.entryAddr
  omega

/-- Entry `j` below the count holds the value the fill gave it. -/
theorem entry_fill_in (h : Memory.wf s.mem) (r : Region) {n j : Nat} (f : Nat → Word)
    (hj : j < n) : (s.fill r n f).entry r j = f j := by
  rw [State.entry, readWord_fill_in h r f hj]

/-- An entry at the count or above it is untouched. -/
theorem entry_fill_above (h : Memory.wf s.mem) (r : Region) {n j : Nat} (f : Nat → Word)
    (hj : n ≤ j) : (s.fill r n f).entry r j = s.entry r j := by
  rw [State.entry, State.entry, readWord_fill_above h r f hj, fill_unitNo]

/-- The other arrays and windows are untouched. -/
theorem entry_fill_other (h : Memory.wf s.mem) {r r' : Region} (hr : r ≠ r') {n j : Nat}
    (f : Nat → Word) (hn : 8 * n ≤ r.span) (hj : 8 * (j + 1) ≤ r'.span) :
    (s.fill r n f).entry r' j = s.entry r' j := by
  rw [State.entry, State.entry, readWord_fill_other h hr f hn hj, fill_unitNo]

theorem testBit_foldr (g : Nat → Bool) (n : Nat) :
    ∀ k i, ((List.range' k n).foldr (fun t acc => 2 * acc + (g t).toNat) 0).testBit i
      = (decide (i < n) && g (k + i)) := by
  induction n with
  | zero => intro k i; simp
  | succ n ih =>
    intro k i
    rw [List.range'_succ, List.foldr_cons]
    generalize hr : (List.range' (k + 1) n).foldr (fun t acc => 2 * acc + (g t).toNat) 0 = acc
    have ih' := ih (k + 1)
    rw [hr] at ih'
    cases i with
    | zero =>
      rw [Nat.testBit_zero]
      cases g k <;> simp
    | succ i =>
      rw [Nat.testBit_succ]
      have hd : (2 * acc + (g k).toNat) / 2 = acc := by
        have : (g k).toNat < 2 := Bool.toNat_lt _
        omega
      rw [hd, ih', show k + 1 + i = k + (i + 1) by omega]
      congr 1
      simp

/-- Bit `t` of word `w` of a packed sequence of `n` bits (R17). -/
theorem packBits_bit (n : Nat) (bit : Nat → Bool) (w t : Nat) :
    (packBits n bit w).getLsbD t
      = (decide (t < 64) && (decide (64 * w + t < n) && bit (64 * w + t))) := by
  rw [packBits, BitVec.getLsbD_ofNat, List.range_eq_range',
    testBit_foldr (fun t => decide (64 * w + t < n) && bit (64 * w + t))]
  cases decide (t < 64) <;> simp

/-- Bit `i` below the count holds the bit the fill gave it. -/
theorem bit_fillBits (h : Memory.wf s.mem) (r : Region) {n i : Nat} (bit : Nat → Bool)
    (hi : i < n) : (s.fillBits r n bit).bit r i = bit i := by
  rw [State.bit, State.fillBits, entry_fill_in h r _ (by unfold ceilDiv; omega), packBits_bit]
  have : 64 * (i / 64) + i % 64 = i := by omega
  rw [this, decide_eq_true hi, decide_eq_true (by omega)]
  simp

end

/-! ### Completion -/

@[simp] theorem andThen_ok (s : State) (f : State → Result) : (Result.ok s).andThen f = f s := rfl
@[simp] theorem andThen_raise (e : CmdError) (s : State) (f : State → Result) :
    (Result.raise e s).andThen f = .raise e s := rfl
@[simp] theorem complete_ok (s : State) : complete (.ok s) = completeOk s := rfl
@[simp] theorem complete_raise (e : CmdError) (s : State) : complete (.raise e s) = takeError e s := rfl
@[simp] theorem perform_eq (body : State → Result) (s : State) :
    perform body s = .next (complete (body s)) := rfl

/-- Everything completion can do (R313): the state the body left, with `pending` emptied and STATUS's
DONE, ERRCODE, ERRINFO and (on an error) ERR written. -/
theorem complete_cases (r : Result) :
    (r.error = none ∧ complete r = completeOk r.state) ∨
      ∃ e, r.error = some e ∧ complete r = takeError e r.state := by
  cases h : r.error with
  | none => exact .inl ⟨rfl, by rw [complete, h]⟩
  | some e => exact .inr ⟨e, rfl, by rw [complete, h]⟩

/-- After a completion the block is idle. -/
@[simp] theorem complete_pending (r : Result) : (complete r).pending = none := by
  rcases complete_cases r with ⟨-, h⟩ | ⟨e, -, h⟩ <;> rw [h] <;> rfl

/-! ### One step -/

/-- The body of an instruction (R312, R121). -/
def bodyOf (i : Instr) : State → Result :=
  match i with
  | .nop => bodyNop
  | .clear => bodyClear
  | .genBits => bodyGenBits Config.numerics
  | .map => bodyMap
  | .synth => bodySynth Config.numerics
  | .channel => bodyChannel Config.numerics
  | .slice => bodySlice
  | .ber => bodyBer Config.numerics
  | .run => bodyRun Config.numerics

/-- Every instruction is its body, then completion. -/
theorem exec_eq (i : Instr) (s : State) : exec i s = .next (complete (bodyOf i s)) := by
  cases i <;> rfl

/-- Everything a SEQUENCER step can do (R312). -/
theorem sequencerStep_cases (s : State) :
    (s.pending = none ∧ sequencerStep s = .next s) ∨
      (∃ w i, s.pending = some w ∧ decode w = .ok i ∧
        sequencerStep s = .next (complete (bodyOf i s))) ∨
      ∃ w e, s.pending = some w ∧ decode w = .error e ∧
        sequencerStep s = .next (takeError (illegalError e) s) := by
  unfold sequencerStep
  cases hp : s.pending with
  | none => exact .inl ⟨rfl, rfl⟩
  | some w =>
    cases hd : decode w with
    | ok i => exact .inr (.inl ⟨w, i, rfl, hd, by simp only [hd]; exact exec_eq i s⟩)
    | error e => exact .inr (.inr ⟨w, e, rfl, hd, by simp only [hd]; rfl⟩)

/-- Everything a step can do: an agent moves, from the state with the interleaving advanced. -/
theorem step_cases (s : State) :
    ∃ a u, step s = agentStep a u ∧ (u = s ∨ ∃ rest, s.sched = a :: rest ∧ u = { s with sched := rest }) := by
  cases h : s.sched with
  | nil => exact ⟨defaultAgent s, s, by unfold step; simp only [h], .inl rfl⟩
  | cons a rest => exact ⟨a, { s with sched := rest }, by unfold step; simp only [h], .inr ⟨rest, rfl, rfl⟩⟩

end Sys2Proof.Machine
end

