-- ==== Sys2Proof/Laws/Bus.lean ====
section
/-! SUPPORT. The laws of the address map, of host accesses and of host steps: what each can do, said
once. -/

namespace Sys2Proof.Machine

/-! ### The address map -/

theorem mem_all_reg (r : Reg) : r ∈ Reg.all := by cases r <;> decide

theorem mem_all_region (r : Region) : r ∈ Region.all := by cases r <;> decide

theorem offset_injective {r r' : Reg} (h : r.offset = r'.offset) : r = r' := by
  cases r <;> cases r' <;> first | rfl | exact absurd h (by decide)

theorem offset_lt (r : Reg) : r.offset < 0x1000 := by cases r <;> decide

theorem base_ge (r : Region) : 0x1000 ≤ r.base := by cases r <;> decide

theorem base_span_le (r : Region) : r.base + r.span ≤ 2 ^ 24 := by cases r <;> decide

/-- An entry below capacity lies in its window's range, so within the host address space. -/
theorem entryAddr_bounds {p : Params} (h : p.legal = true) {r : Region} {j : Nat}
    (hj : j < r.capacity p) : r.base ≤ r.entryAddr j ∧ r.entryAddr j + 8 ≤ r.base + r.span := by
  have := capacity_span h r
  unfold Region.entryAddr
  omega

/-- What the map can answer for an address (R94): a register at its offset, an entry within capacity
that the address lies in, or nothing. -/
theorem decodeAddr_cases (p : Params) (a : Nat) :
    (∃ r : Reg, decodeAddr p a = .reg r ∧ a = r.offset) ∨
      (∃ r j, decodeAddr p a = .cell r j ∧ j < r.capacity p ∧ r.entryAddr j ≤ a ∧
        a < r.entryAddr j + 8) ∨
      decodeAddr p a = .unmapped := by
  unfold decodeAddr
  cases h : Reg.all.find? (fun r => r.offset == a) with
  | some r =>
    have := List.find?_some h
    exact .inl ⟨r, rfl, (eq_of_beq this).symm⟩
  | none =>
    simp only
    cases h' : Region.all.find?
        (fun r => decide (r.base ≤ a) && decide (a < r.entryAddr (r.capacity p))) with
    | none => exact .inr (.inr rfl)
    | some r =>
      have hr := List.find?_some h'
      simp only [Bool.and_eq_true, decide_eq_true_eq] at hr
      obtain ⟨h1, h2⟩ := hr
      unfold Region.entryAddr at h2
      refine .inr (.inl ⟨r, _, rfl, ?_, ?_, ?_⟩) <;> (try unfold Region.entryAddr) <;> omega

/-! ### Host accesses -/

section
variable (a : Addr) (width : Width) (v : Word) (s : State)

/-- Everything a host read can do to the state (R97): nothing, BUSERR, or one more draw. -/
theorem hostRead_cases :
    (hostRead a width s).2 = s ∨ hostRead a width s = (0, s.setBusErr) ∨
      (hostRead a width s).2 = { s with draws := s.draws + 1 } := by
  unfold hostRead
  split
  · exact .inr (.inl rfl)
  · split
    · split
      · exact .inr (.inr rfl)
      · exact .inr (.inr rfl)
    · exact .inl rfl
  · split
    · exact .inr (.inr rfl)
    · split
      · exact .inl rfl
      · exact .inr (.inr rfl)

/-- Everything a host write can do: BUSERR for an access that is not served; HAZ while a command is
pending; otherwise a register write, an entry of HBITS or SNR_IN, or nothing (R95, R96, R98, R104). -/
theorem hostWrite_cases :
    hostWrite a width v s = s.setBusErr ∨
      (s.busy = true ∧ hostWrite a width v s = s.setHaz) ∨
      (s.busy = false ∧ ∃ r : Reg, a.toNat = r.offset ∧ width = .full ∧
        hostWrite a width v s = s.writeReg r v) ∨
      (s.busy = false ∧ ∃ (r : Region) (j : Nat), r.isConfig = true ∧ j < r.capacity s.params ∧
        a.toNat = r.entryAddr j ∧ width = .full ∧ hostWrite a width v s = s.setEntry r j v) ∨
      (s.busy = false ∧ hostWrite a width v s = s) := by
  cases width with
  | narrow => exact .inl rfl
  | full =>
    by_cases hal : a.toNat % 8 = 0
    · have ht : accessTarget s.params a .full = decodeAddr s.params a.toNat := if_pos hal
      unfold hostWrite
      rw [ht]
      rcases decodeAddr_cases s.params a.toNat with ⟨r, h, hr⟩ | ⟨r, j, h, hj, h1, h2⟩ | h <;> rw [h]
      · cases hb : s.busy
        · exact .inr (.inr (.inl ⟨rfl, r, hr, rfl, if_neg Bool.false_ne_true⟩))
        · exact .inr (.inl ⟨rfl, if_pos rfl⟩)
      · cases hb : s.busy
        · cases hc : r.isConfig
          · refine .inr (.inr (.inr (.inr ⟨rfl, ?_⟩)))
            simp [hc]
          · have hbase : r.base % 8 = 0 := by cases r <;> rfl
            have he : a.toNat = r.entryAddr j := by
              unfold Region.entryAddr at h1 h2 ⊢
              omega
            refine .inr (.inr (.inr (.inl ⟨rfl, r, j, hc, hj, he, rfl, ?_⟩)))
            simp [hc]
        · exact .inr (.inl ⟨rfl, if_pos rfl⟩)
      · exact .inl rfl
    · have ht : accessTarget s.params a .full = .unmapped := if_neg hal
      unfold hostWrite
      rw [ht]
      exact .inl rfl

/-- Everything a register write can do (R41, R46, R310): a configuration register, the W1C write, the
acceptance of a command, or nothing. -/
theorem writeReg_cases (r : Reg) :
    (∃ cfg, s.writeReg r v = { s with cfg := cfg }) ∨ (r = .status ∧ s.writeReg r v = acknowledge v s) ∨
      (r = .cmd ∧ s.writeReg r v = accept v s) ∨ s.writeReg r v = s := by
  cases r <;> first
    | exact .inr (.inr (.inr rfl))
    | exact .inr (.inl ⟨rfl, rfl⟩)
    | exact .inr (.inr (.inl ⟨rfl, rfl⟩))
    | exact .inl ⟨_, rfl⟩

end

/-- Everything a host step can do (R29): nothing, or its next operation, after which either that
operation is done or it is tried again. -/
theorem hostStep_cases (s : State) :
    hostStep s = s ∨ ∃ op rest, s.hostProg = op :: rest ∧
      ((∃ a width, (op = .read a width ∨ (op = .wait ∧ a = statusAddr ∧ width = .full)) ∧
          (hostStep s = logRead a (hostRead a width s) ∨
            hostStep s = { logRead a (hostRead a width s) with hostProg := rest })) ∨
        (∃ a width v, op = .write a width v ∧
          hostStep s = { hostWrite a width v s with hostProg := rest }) ∨
        (op = .awaitIrq ∧ hostStep s = { s with hostProg := rest })) := by
  unfold hostStep
  cases h : s.hostProg with
  | nil => exact .inl rfl
  | cons op rest =>
    cases op with
    | read a width => exact .inr ⟨_, rest, rfl, .inl ⟨a, width, .inl rfl, .inr rfl⟩⟩
    | write a width v => exact .inr ⟨_, rest, rfl, .inr (.inl ⟨a, width, v, rfl, rfl⟩)⟩
    | wait =>
      refine .inr ⟨_, rest, rfl, .inl ⟨statusAddr, .full, .inr ⟨rfl, rfl, rfl⟩, ?_⟩⟩
      show (if _ then _ else _) = _ ∨ (if _ then _ else _) = _
      split
      · exact .inl rfl
      · exact .inr rfl
    | awaitIrq =>
      cases hi : s.irq
      · exact .inl (if_neg (by rw [hi]; exact Bool.false_ne_true))
      · exact .inr ⟨_, rest, rfl, .inr (.inr ⟨rfl, if_pos hi⟩)⟩

end Sys2Proof.Machine
end

