-- ==== Sys2Proof/Laws/Commands.lean ====
section
/-! SUPPORT. The laws of the command bodies: what each body leaves when its checks pass, said once, and
the small facts about operands and lengths that go with them. -/

namespace Sys2Proof.Machine

/-! ### Operands -/

/-- A signed register that is not negative, as a natural number (R123). -/
theorem toNat_toInt {x : Word} (h : 0 ≤ x.toInt) : x.toInt.toNat = x.toNat := by
  rw [BitVec.toInt_eq_toNat_cond] at h ⊢
  split at h <;> omega

/-- A signed register that is not negative is the word of its value. -/
theorem ofNat_toInt {x : Word} (h : 0 ≤ x.toInt) : BitVec.ofNat 64 x.toInt.toNat = x := by
  rw [toNat_toInt h, BitVec.ofNat_toNat, BitVec.setWidth_eq]

/-- A count below 2^64 is held exactly by a register. -/
theorem toNat_ofNat64 {n : Nat} (h : n < 2 ^ 64) : (BitVec.ofNat 64 n).toNat = n := by
  rw [BitVec.toNat_ofNat]
  exact Nat.mod_eq_of_lt h

/-- No more symbols than bits (R172, R12). -/
theorem symbolCount_le (c : Scheme) (n : Nat) : symbolCount c n ≤ n := by
  cases c <;> simp only [symbolCount, ceilDiv, Scheme.bitsPerSymbol] <;> omega

/-- The symbols carry every bit and at most five padding bits (R172, R12). -/
theorem symbolCount_bits (c : Scheme) (n : Nat) :
    n ≤ symbolCount c n * c.bitsPerSymbol ∧ symbolCount c n * c.bitsPerSymbol ≤ n + 5 := by
  cases c <;> simp only [symbolCount, ceilDiv, Scheme.bitsPerSymbol] <;> omega

theorem checkBitCount_none {p : Params} {n : Int} :
    checkBitCount p n = none ↔ 1 ≤ n ∧ n ≤ p.nMax := by
  unfold checkBitCount
  split <;> simp_all

theorem checkPointCount_none {p : Params} {k : Int} :
    checkPointCount p k = none ↔ 1 ≤ k ∧ k ≤ p.berMax := by
  unfold checkPointCount
  split <;> simp_all

/-- A passed check_synth bounds the samples per symbol (R201). -/
theorem checkSynth_none {p : Params} {sps : Int} {fs fc : F64} {c : Scheme} {n : Nat}
    (h : checkSynth p sps fs fc c n = none) : 1 ≤ sps ∧ sps ≤ p.spsMax := by
  unfold checkSynth at h
  split at h
  · cases h
  · rename_i h'
    exact not_not.1 h'

/-- What check_synth can report (R201). -/
theorem checkSynth_code {p : Params} {sps : Int} {fs fc : F64} {c : Scheme} {n : Nat} {e : CmdError}
    (h : checkSynth p sps fs fc c n = some e) : e.code = 1 := by
  unfold checkSynth at h
  repeat' split at h
  all_goals cases h <;> rfl

/-- What check_noise can report (R232). -/
theorem checkNoise_some {mode : Bool} {x : F64} {e : CmdError} (h : checkNoise mode x = some e) :
    e = .noiseLevel := by
  have aux : ∀ b : Bool, (if b = true then none else some CmdError.noiseLevel) = some e →
      e = .noiseLevel := by
    intro b hb
    cases b
    · exact (Option.some.inj hb).symm
    · cases hb
  exact aux _ h

/-! ### Bodies whose checks pass -/

section
variable {s : State} {N : Numerics}

/-- The state GEN_BITS leaves (R151). -/
theorem bodyGenBits_ok (h : checkBitCount s.params s.bitCount = none) :
    bodyGenBits N s = .ok { s.fillBits .bits s.bitCount.toNat (sourceBit N s) with
      res := { s.res with bitsLen := BitVec.ofNat 64 s.bitCount.toNat }
      status := s.status.validGenBits } := by
  unfold bodyGenBits
  rw [h]
  rfl

/-- The state MAP leaves (R171). -/
theorem bodyMap_ok {c : Scheme} (hc : Scheme.ofCode s.cfg.scheme = some c)
    (hb : s.status.bitsV = true) :
    bodyMap s = .ok
      { (s.fill .symI (symbolCount c s.res.bitsLen.toNat) (fun j => (symbolPoint s c j).1)).fill .symQ
          (symbolCount c s.res.bitsLen.toNat) (fun j => (symbolPoint s c j).2) with
        res := { s.res with
          symLen := BitVec.ofNat 64 (symbolCount c s.res.bitsLen.toNat)
          npad := BitVec.ofNat 64
            (symbolCount c s.res.bitsLen.toNat * c.bitsPerSymbol - s.res.bitsLen.toNat)
          latScheme := c }
        status := s.status.validMap } := by
  unfold bodyMap
  rw [hc]
  simp only
  rw [if_neg (by rw [hb]; exact Bool.noConfusion)]
  rfl

/-- The state SYNTH leaves (R200). -/
theorem bodySynth_ok (hv : s.status.symV = true)
    (h : checkSynth s.params s.samplesPerSymbol s.cfg.fs s.cfg.fc s.res.latScheme
      s.res.symLen.toNat = none) :
    bodySynth N s =
      (let len := s.res.symLen.toNat * s.samplesPerSymbol.toNat
      .ok { (((s.fill .time len (sampleTime s.cfg.fs)).fill .carI len
          (carrierI N s.cfg.fs s.cfg.fc)).fill .carQ len
          (carrierQ N s.cfg.fs s.cfg.fc)).fill .tx len (txSample N s s.samplesPerSymbol.toNat) with
        res := { s.res with
          sampLen := BitVec.ofNat 64 len
          latSps := BitVec.ofNat 64 s.samplesPerSymbol.toNat
          latFc := s.cfg.fc
          latFs := s.cfg.fs }
        status := s.status.validSynth }) := by
  unfold bodySynth
  rw [if_neg (by rw [hv]; exact Bool.noConfusion), h]
  rfl

/-- CHANNEL's writes, then its report (R231). -/
theorem bodyChannel_ok (hv : s.status.waveV = true)
    (h : checkNoise s.noiseMode s.cfg.noiseLevel = none) :
    bodyChannel N s =
      (let vtx := variance (s.entry .tx) s.res.sampLen.toNat
      let t := channelWrites N vtx (noisePower N s.noiseMode s.cfg.noiseLevel vtx) s
      reportSnr N vtx t.res.varNoise s.strictSnr t) := by
  unfold bodyChannel
  rw [if_neg (by rw [hv]; exact Bool.noConfusion), h]

/-- What the SNR report can do (R239, R240): SNR_MEAS written, and an error only under a strict
ratio. -/
theorem reportSnr_cases (N : Numerics) (vtx vn : F64) (strict : Bool) (s : State) :
    (reportSnr N vtx vn strict s = .ok { s with res := { s.res with snrMeas := snrDb N vtx vn } }) ∨
      (strict = true ∧ ∃ e, (e = .strictNoise ∨ e = .strictSignal) ∧
        reportSnr N vtx vn strict s = .raise e { s with res := { s.res with snrMeas := F64.qnan } }) := by
  unfold reportSnr
  cases strict
  · exact .inl rfl
  · split
    · exact .inr ⟨rfl, _, .inl rfl, rfl⟩
    · split
      · exact .inr ⟨rfl, _, .inr rfl, rfl⟩
      · exact .inl rfl

/-- The state SLICE leaves (R260). -/
theorem bodySlice_ok (hv : s.status.rxV = true) :
    bodySlice s =
      .ok { ((s.fill .estI s.res.symLen.toNat (fun j => (estimate s j).x)).fill .estQ
          s.res.symLen.toNat (fun j => (estimate s j).y)).fillBits .rxbits
          (s.res.symLen.toNat * s.res.latScheme.bitsPerSymbol) (recoveredBit s) with
        res := { s.res with errCnt := BitVec.ofNat 64 (errorCount s) }
        status := s.status.validSlice (anyDegenerate s) } := by
  unfold bodySlice
  rw [if_neg (by rw [hv]; exact Bool.noConfusion)]
  rfl

/-- The state BER leaves (R290). -/
theorem bodyBer_ok {c : Scheme} (hc : Scheme.ofCode s.cfg.scheme = some c)
    (hk : checkPointCount s.params s.pointCount = none)
    (hf : pointsFinite s s.pointCount.toNat = true) :
    bodyBer N s =
      .ok { s.fill .berOut s.pointCount.toNat (fun j => berOf N c (linearSnr N (s.entry .snrIn j))) with
        res := { s.res with berLen := BitVec.ofNat 64 s.pointCount.toNat }
        status := s.status.validBer } := by
  unfold bodyBer
  rw [hc]
  simp only
  rw [hk]
  simp only
  rw [if_neg (by rw [hf]; exact Bool.noConfusion)]
  rfl

/-- RUN whose checks pass is its five bodies (R316). -/
theorem bodyRun_ok (h : runChecks s = none) :
    bodyRun N s = ((((bodyGenBits N s).andThen bodyMap).andThen (bodySynth N)).andThen
      (bodyChannel N)).andThen bodySlice := by
  unfold bodyRun
  rw [h]

end

/-! ### Bytes outside a fill -/

/-- A byte outside the entries a fill writes reads as before. -/
theorem read_fill_out {s : State} (h : Memory.wf s.mem) (r : Region) (n : Nat) (f : Nat → Word)
    {a : Nat} (ha : ¬(r.entryAddr 0 ≤ a ∧ a < r.entryAddr n)) :
    Memory.read (s.fill r n f).mem a = Memory.read s.mem a := by
  have hb := read_writeBlock h r.base n f a
  rw [if_neg (by simpa [Region.entryAddr] using ha)] at hb
  exact hb

end Sys2Proof.Machine
end

