-- ==== Sys2Proof/Laws/Launch.lean ====
section
/-! SUPPORT. The laws of the launch premises (70_reset_and_hazards.md R376): what a block in its reset
state holds, and the state a first wait finds. -/

namespace Sys2Proof.Machine

/-- After the reset input the block is in its reset state, however many draws and reads came before
(R370, R371). -/
theorem resetBlock_inReset {s : State} (h : s.params.legal = true) : (resetBlock s).inReset :=
  ⟨h, rfl⟩

/-- A legal block right after power-on is in its reset state. -/
theorem resetOf_inReset {p : Params} (h : p.legal = true) : (State.resetOf p).inReset := ⟨h, rfl⟩

section
variable {s : State}

theorem inReset_pending (h : s.inReset) : s.pending = none := h.2 ▸ rfl
theorem inReset_status (h : s.inReset) : s.status = Status.reset := h.2 ▸ rfl
theorem inReset_cfg (h : s.inReset) : s.cfg = ConfigRegs.reset := h.2 ▸ rfl
theorem inReset_res (h : s.inReset) : s.res = ResultRegs.reset := h.2 ▸ rfl
theorem inReset_mem (h : s.inReset) : s.mem = [] := h.2 ▸ rfl

/-- Loading a host program leaves the block in its reset state. -/
theorem inReset_hostProg (h : s.inReset) (prog : List HostOp) :
    State.inReset { s with hostProg := prog } := by
  refine ⟨h.1, ?_⟩
  conv_rhs => rw [← h.2]
  rfl

end

/-- A block with no command pending is settled. -/
theorem settled_of_idle {s : State} (h : s.pending = none) : s.settled = s := by
  unfold State.settled sequencerStep
  rw [h]

/-- Everything the settled state can be: the block as it stands, or with its pending word performed or
rejected. -/
theorem settled_cases (s : State) :
    (s.pending = none ∧ s.settled = s) ∨
      (∃ w i, s.pending = some w ∧ decode w = .ok i ∧ s.settled = complete (bodyOf i s)) ∨
      ∃ w e, s.pending = some w ∧ decode w = .error e ∧ s.settled = takeError (illegalError e) s := by
  unfold State.settled
  rcases sequencerStep_cases s with ⟨h, h'⟩ | ⟨w, i, h, hd, h'⟩ | ⟨w, e, h, hd, h'⟩ <;> rw [h']
  · exact .inl ⟨h, rfl⟩
  · exact .inr (.inl ⟨w, i, h, hd, rfl⟩)
  · exact .inr (.inr ⟨w, e, h, hd, rfl⟩)

/-- A settled block is idle, so a wait goes on. -/
@[simp] theorem settled_pending (s : State) : s.settled.pending = none := by
  rcases settled_cases s with ⟨h, h'⟩ | ⟨w, i, -, -, h'⟩ | ⟨w, e, -, -, h'⟩ <;> rw [h']
  · exact h
  · exact complete_pending _
  · rfl

end Sys2Proof.Machine
end

