-- ==== Sys2Proof/Laws/Numerics.lean ====
section
/-! SUPPORT. The laws of the numerics parameters (00_scope.md R27): the one-argument laws hold of
`Config.numerics`; imposing them changes no conforming functions; and conforming functions exist. -/

namespace Sys2Proof

theorem F64.key_of_isZero {x : F64} (h : F64.isZero x = true) : F64.key x = 0 := by
  have : F64.mag x = 0 := of_decide_eq_true h
  simp [F64.key, this]

theorem F64.isZero_iff_key (x : F64) : F64.isZero x = true ↔ F64.key x = 0 := by
  simp only [F64.isZero, F64.key, decide_eq_true_eq]
  split <;> omega

theorem F64.eq_of_key {x y : F64} (h : F64.key x = F64.key y) (h0 : F64.key x ≠ 0) : x = y := by
  have hn : F64.neg? x = F64.neg? y ∧ F64.mag x = F64.mag y := by
    unfold F64.key at h h0
    cases hx : F64.neg? x <;> cases hy : F64.neg? y <;> simp [hx, hy] at h h0 ⊢ <;> omega
  rw [← F64.pack_neg_mag x, ← F64.pack_neg_mag y, hn.1, hn.2]

/-! ### Imposing the one-argument laws -/

theorem numerics_cos_zero : Config.numerics.cos F64.zero = F64.one := by
  simp [Config.numerics, Numerics.enforce]

theorem numerics_sin_zero : Config.numerics.sin F64.zero = F64.zero := by
  simp [Config.numerics, Numerics.enforce]

theorem numerics_cos_range (x : F64) (h : F64.isFinite x = true) :
    F64.le F64.negOne (Config.numerics.cos x) = true ∧
      F64.le (Config.numerics.cos x) F64.one = true := by
  simp only [Config.numerics, Numerics.enforce, h, Bool.true_and]
  split
  · decide
  · split
    · decide
    · simp_all

theorem numerics_sin_range (x : F64) (h : F64.isFinite x = true) :
    F64.le F64.negOne (Config.numerics.sin x) = true ∧
      F64.le (Config.numerics.sin x) F64.one = true := by
  simp only [Config.numerics, Numerics.enforce, h, Bool.true_and]
  split
  · decide
  · split
    · decide
    · simp_all

theorem numerics_log10_zero (x : F64) (h : F64.isZero x = true) :
    Config.numerics.log10 x = F64.negInf := by
  simp [Config.numerics, Numerics.enforce, h]

theorem numerics_log10_posInf : Config.numerics.log10 F64.posInf = F64.posInf := by
  simp [Config.numerics, Numerics.enforce, show F64.isZero F64.posInf = false by decide]

theorem numerics_log10_nan (x : F64) (h : F64.isNaN x = true) :
    Config.numerics.log10 x = F64.qnan := by
  have h0 : F64.isZero x = false := by
    simp only [F64.isNaN, F64.isZero, decide_eq_true_eq, decide_eq_false_iff_not] at h ⊢
    exact fun hz => absurd (hz ▸ h) (by decide)
  have h1 : x ≠ F64.posInf := fun hx => absurd (hx ▸ h) (by decide)
  simp [Config.numerics, Numerics.enforce, h, h0, h1]

theorem numerics_pow10_sign (x : F64) (h : F64.isNaN x = false) :
    F64.neg? (Config.numerics.pow10 x) = false ∧ F64.isNaN (Config.numerics.pow10 x) = false := by
  simp only [Config.numerics, Numerics.enforce, h, Bool.false_eq_true, if_false]
  split
  · decide
  · split
    · decide
    · simp_all

theorem numerics_erfc_zero : Config.numerics.erfc F64.zero = F64.one := by
  simp [Config.numerics, Numerics.enforce]

theorem numerics_erfc_posInf : Config.numerics.erfc F64.posInf = F64.zero := by
  simp [Config.numerics, Numerics.enforce, show F64.posInf ≠ F64.zero by decide]

theorem numerics_erfc_range (x : F64) (h : F64.le F64.zero x = true) :
    F64.le F64.zero (Config.numerics.erfc x) = true ∧
      F64.le (Config.numerics.erfc x) F64.one = true := by
  simp only [Config.numerics, Numerics.enforce, h, Bool.true_and]
  split
  · decide
  · split
    · decide
    · split
      · decide
      · simp_all

theorem numerics_gauss_finite (seed : Word) (n : Nat) :
    F64.isFinite (Config.numerics.gaussRng seed n) = true := by
  simp only [Config.numerics, Numerics.enforce]
  split
  · assumption
  · decide

/-- Functions that meet the laws of R27 and R230 are left unchanged, so no conforming block is shut
out of the model. -/
theorem enforce_eq_self (N : Numerics) (h : N.Laws) : N.enforce = N := by
  have hlog : ∀ x, F64.isZero x = false → x ≠ F64.posInf → F64.isNaN x = false →
      F64.lt x F64.zero = false → F64.isFinite (N.log10 x) = true := by
    intro x h0 hi hn hl
    have hfin : F64.isFinite x = true ∧ F64.lt F64.zero x = true := by
      have hk0 : F64.key x ≠ 0 := fun hk => by simp [(F64.isZero_iff_key x).mpr hk] at h0
      have hzn : F64.isNaN F64.zero = false := by decide
      have hzk : F64.key F64.zero = 0 := by decide
      have hpos : 0 < F64.key x := by
        simp [F64.lt, hn, hzn, hzk] at hl; omega
      refine ⟨?_, by simp [F64.lt, hn, hzn, hzk, hpos]⟩
      have hle : F64.mag x ≤ F64.infMag := by
        simpa [F64.isNaN] using hn
      have hne : F64.mag x ≠ F64.infMag := by
        intro hm
        refine hi (F64.eq_of_key ?_ hk0)
        have : F64.neg? x = false := by
          cases hb : F64.neg? x
          · rfl
          · simp [F64.key, hb] at hpos; omega
        simp only [F64.key, this, hm]; decide
      exact decide_eq_true (Nat.lt_of_le_of_ne hle hne)
    exact (h.log10_faithful x hfin.1 hfin.2).1
  obtain ⟨cos, sin, log10, pow10, erfc, bitRng, gaussRng⟩ := N
  simp only [Numerics.enforce, Numerics.mk.injEq]
  refine ⟨?_, ?_, ?_, ?_, ?_, trivial, ?_⟩ <;> funext x
  · split
    · next hx => exact hx ▸ h.cos_zero.symm
    · split
      · next hc =>
        have hf := (Bool.and_eq_true _ _ ▸ hc).1
        have hr := (h.cos_faithful x hf).2
        simp_all
      · rfl
  · split
    · next hx => exact hx ▸ h.sin_zero.symm
    · split
      · next hc =>
        have hf := (Bool.and_eq_true _ _ ▸ hc).1
        have hr := (h.sin_faithful x hf).2
        simp_all
      · rfl
  · split
    · next hx => exact (h.log10_zero x hx).symm
    · next h0 =>
      split
      · next hx => exact hx ▸ h.log10_posInf.symm
      · next hi =>
        split
        · next hn => exact (h.log10_nan x (by simpa using hn)).symm
        · next hn =>
          split
          · next hx => exact hx ▸ h.log10_one.symm
          · simp only [Bool.or_eq_true, not_or, Bool.not_eq_true] at hn h0
            exact if_pos (hlog x h0 hi hn.1 hn.2)
  · split
    · next hx => exact (h.pow10_nan x hx).symm
    · next hn =>
      split
      · next hx => exact (h.pow10_zero x hx).symm
      · have := h.pow10_sign x (by simpa using hn)
        simp_all
  · split
    · next hx => exact hx ▸ h.erfc_zero.symm
    · split
      · next hx => exact hx ▸ h.erfc_posInf.symm
      · split
        · next hc =>
          have hf := (Bool.and_eq_true _ _ ▸ hc).1
          have hr := h.erfc_range x hf
          simp_all
        · rfl
  · funext n; exact if_pos (h.gauss_finite x n)

/-! ### Conforming functions exist

Rounding a real number down to a binary64 number meets every law. -/

/-- The finite pattern with a given order key, +0.0 for the key 0. -/
def ofKey (k : ℤ) : F64 := F64.pack (decide (k < 0)) k.natAbs

theorem infMag_lt : F64.infMag < 2 ^ 63 := by decide

theorem key_ofKey {k : ℤ} (h : k.natAbs ≤ F64.infMag) : F64.key (ofKey k) = k := by
  have h' : k.natAbs < 2 ^ 63 := lt_of_le_of_lt h infMag_lt
  rw [ofKey, F64.key, F64.neg?_pack _ h', F64.mag_pack _ h']
  by_cases hk : k < 0
  · rw [decide_eq_true hk, if_pos rfl]; omega
  · rw [decide_eq_false hk, if_neg Bool.false_ne_true]; omega

theorem finite_ofKey {k : ℤ} (h : k.natAbs < F64.infMag) : F64.isFinite (ofKey k) = true := by
  rw [ofKey, F64.isFinite, F64.mag_pack _ (lt_trans h infMag_lt), decide_eq_true h]

theorem finite_iff_key (x : F64) : F64.isFinite x = true ↔ (F64.key x).natAbs < F64.infMag := by
  rw [F64.isFinite, decide_eq_true_eq]
  have : (F64.key x).natAbs = F64.mag x := by unfold F64.key; split <;> simp
  rw [this]

/-- The keys of finite numbers not above `y`. -/
def Below (y : ℝ) (k : ℤ) : Prop := k.natAbs < F64.infMag ∧ (keyVal k : ℝ) ≤ y

open Classical in
/-- The key of the greatest finite number not above `y`. -/
noncomputable def downKey (y : ℝ) : ℤ :=
  if h : ∃ k, Below y k ∧ ∀ j, Below y j → j ≤ k then h.choose else 0

/-- The greatest finite number not above `y`. -/
noncomputable def down (y : ℝ) : F64 := ofKey (downKey y)

theorem downKey_spec {y : ℝ} {k : ℤ} (h : Below y k) :
    Below y (downKey y) ∧ ∀ j, Below y j → j ≤ downKey y := by
  have hex : ∃ k, Below y k ∧ ∀ j, Below y j → j ≤ k :=
    Int.exists_greatest_of_bdd ⟨F64.infMag, fun z hz => by have := hz.1; omega⟩ ⟨k, h⟩
  rw [downKey, dif_pos hex]
  exact hex.choose_spec

theorem below_of_le {y : ℝ} {x : F64} (hx : F64.isFinite x = true) (h : (F64.toRat x : ℝ) ≤ y) :
    Below y (F64.key x) := ⟨(finite_iff_key x).mp hx, by rwa [← F64.toRat_eq]⟩

section
variable {y : ℝ} {b : F64}

theorem down_finite (hb : F64.isFinite b = true) (h : (F64.toRat b : ℝ) ≤ y) :
    F64.isFinite (down y) = true := finite_ofKey (downKey_spec (below_of_le hb h)).1.1

theorem key_down (hb : F64.isFinite b = true) (h : (F64.toRat b : ℝ) ≤ y) :
    F64.key (down y) = downKey y := key_ofKey (downKey_spec (below_of_le hb h)).1.1.le

theorem down_le (hb : F64.isFinite b = true) (h : (F64.toRat b : ℝ) ≤ y) :
    (F64.toRat (down y) : ℝ) ≤ y := by
  rw [F64.toRat_eq, key_down hb h]; exact (downKey_spec (below_of_le hb h)).1.2

theorem le_down {x : F64} (hx : F64.isFinite x = true) (h : (F64.toRat x : ℝ) ≤ y) :
    F64.key x ≤ F64.key (down y) := by
  rw [key_down hx h]; exact (downKey_spec (below_of_le hx h)).2 _ (below_of_le hx h)

theorem down_faithful (hb : F64.isFinite b = true) (h : (F64.toRat b : ℝ) ≤ y) :
    Faithful (down y) y := by
  refine ⟨down_finite hb h, fun g hg => ⟨fun h1 h2 => ?_, fun h1 h2 => ?_⟩⟩
  · have h3 : F64.key g ≤ F64.key (down y) := le_down hg h2
    have h4 : F64.toRat (down y) ≤ F64.toRat g := by exact_mod_cast h1
    exact le_antisymm ((F64.toRat_le_iff _ _).mpr h3) h4
  · have h5 := down_le hb h
    exact_mod_cast le_antisymm h2 (h5.trans h1)

end

theorem down_mono {y z : ℝ} {b : F64} (hb : F64.isFinite b = true) (h : (F64.toRat b : ℝ) ≤ y)
    (hyz : y ≤ z) : F64.key (down y) ≤ F64.key (down z) :=
  le_down (down_finite hb h) ((down_le hb h).trans hyz)

/-- Rounding down leaves a binary64 number as it is, but for the sign of a zero. -/
theorem down_key_self {x : F64} (hx : F64.isFinite x = true) :
    F64.key (down (F64.toRat x : ℝ)) = F64.key x := by
  refine le_antisymm ?_ (le_down hx le_rfl)
  rw [← F64.toRat_le_iff]
  exact_mod_cast down_le hx (le_refl (F64.toRat x : ℝ))

theorem down_not_negZero (y : ℝ) (h : F64.key (down y) = 0) : down y = F64.zero := by
  have h0 : downKey y = 0 := by
    by_cases hex : ∃ k, Below y k ∧ ∀ j, Below y j → j ≤ k
    · have hb := (downKey_spec hex.choose_spec.1).1
      rwa [down, key_ofKey hb.1.le] at h
    · rw [downKey, dif_neg hex]
  rw [down, h0]; rfl

theorem toRat_one : F64.toRat F64.one = 1 := by
  rw [F64.toRat_eq, show F64.key F64.one = 1023 * 2 ^ 52 from by decide, keyVal]
  rw [if_neg (by norm_num), magVal]; norm_num
theorem toRat_negOne : F64.toRat F64.negOne = -1 := by
  rw [F64.toRat_eq, show F64.key F64.negOne = -(1023 * 2 ^ 52) from by decide, keyVal]
  rw [if_pos (by norm_num), magVal]; norm_num
theorem toRat_zero : F64.toRat F64.zero = 0 := by
  rw [F64.toRat_eq, show F64.key F64.zero = 0 from by decide]; simp [keyVal, magVal_zero]

theorem one_finite : F64.isFinite F64.one = true := by decide
theorem negOne_finite : F64.isFinite F64.negOne = true := by decide
theorem zero_finite : F64.isFinite F64.zero = true := by decide

theorem down_one : down 1 = F64.one := by
  have h : F64.key (down 1) = F64.key F64.one := by
    simpa [toRat_one] using down_key_self one_finite
  exact F64.eq_of_key h (by rw [h]; decide)

theorem down_zero : down 0 = F64.zero := by
  have h : F64.key (down 0) = F64.key F64.zero := by
    simpa [toRat_zero] using down_key_self zero_finite
  exact down_not_negZero 0 (h.trans (by decide))

/-- A number in [-1, 1] rounds down into [-1.0, 1.0]. -/
theorem down_unit {y : ℝ} (h1 : -1 ≤ y) (h2 : y ≤ 1) :
    Faithful (down y) y ∧ F64.le F64.negOne (down y) = true ∧ F64.le (down y) F64.one = true := by
  have hb : (F64.toRat F64.negOne : ℝ) ≤ y := by rw [toRat_negOne]; push_cast; exact h1
  have hf := down_finite negOne_finite hb
  refine ⟨down_faithful negOne_finite hb, ?_, ?_⟩
  · rw [F64.le_iff negOne_finite hf, F64.toRat_le_iff]; exact le_down negOne_finite hb
  · rw [F64.le_iff hf one_finite, toRat_one]
    exact_mod_cast (down_le negOne_finite hb).trans h2

/-! ### The real complementary error function -/

/-- erfc(x) = 2/√π ∫ over (x, ∞) of exp(-t²). -/
noncomputable def erfcReal (x : ℝ) : ℝ :=
  2 / Real.sqrt Real.pi * ∫ t in Set.Ioi x, Real.exp (-t ^ 2)

theorem gaussian_integrableOn (s : Set ℝ) :
    MeasureTheory.IntegrableOn (fun t : ℝ => Real.exp (-t ^ 2)) s := by
  have h := integrable_exp_neg_mul_sq (b := 1) one_pos
  simp only [neg_mul, one_mul] at h
  exact h.integrableOn

theorem erfcReal_anti : Antitone erfcReal := by
  intro x y h
  refine mul_le_mul_of_nonneg_left ?_ (by positivity)
  exact MeasureTheory.setIntegral_mono_set (gaussian_integrableOn _)
    (Filter.Eventually.of_forall fun t => (Real.exp_pos _).le)
    (Filter.Eventually.of_forall fun t (ht : y < t) => lt_of_le_of_lt h ht)

theorem erfcReal_zero : erfcReal 0 = 1 := by
  have h := integral_gaussian_Ioi 1
  simp only [neg_mul, one_mul, div_one] at h
  rw [erfcReal, h]
  have : Real.sqrt Real.pi ≠ 0 := (Real.sqrt_pos.mpr Real.pi_pos).ne'
  field_simp

theorem erfcReal_nonneg (x : ℝ) : 0 ≤ erfcReal x :=
  mul_nonneg (by positivity) (MeasureTheory.integral_nonneg fun t => (Real.exp_pos _).le)

/-! ### The witness -/

theorem le_of_key {a b : F64} (ha : F64.isNaN a = false) (hb : F64.isNaN b = false)
    (h : F64.key a ≤ F64.key b) : F64.le a b = true := by simp [F64.le, ha, hb, h]

theorem key_of_le {a b : F64} (h : F64.le a b = true) : F64.key a ≤ F64.key b := by
  simp only [F64.le, Bool.and_eq_true, decide_eq_true_eq] at h; exact h.2

theorem not_nan_of_le {a b : F64} (h : F64.le a b = true) :
    F64.isNaN a = false ∧ F64.isNaN b = false := by
  simp only [F64.le, Bool.and_eq_true, Bool.not_eq_true'] at h; exact h.1

/-- A pattern that is no NaN is an infinity or a finite number. -/
theorem not_nan_cases {x : F64} (h : F64.isNaN x = false) :
    x = F64.negInf ∨ F64.isFinite x = true ∨ x = F64.posInf := by
  by_cases hf : F64.isFinite x = true
  · exact .inr (.inl hf)
  · have hm : F64.mag x = F64.infMag := by
      have h1 : ¬ F64.infMag < F64.mag x := of_decide_eq_false h
      have h2 : ¬ F64.mag x < F64.infMag := fun hlt => hf (decide_eq_true hlt)
      omega
    cases hn : F64.neg? x
    · right; right; rw [← F64.pack_neg_mag x, hn, hm]; decide
    · left; rw [← F64.pack_neg_mag x, hn, hm]; decide

theorem key_bounds_of_finite {x : F64} (h : F64.isFinite x = true) :
    F64.key F64.negInf < F64.key x ∧ F64.key x < F64.key F64.posInf := by
  have h1 := (finite_iff_key x).mp h
  have h2 : F64.key F64.negInf = -(F64.infMag : ℤ) := by decide
  have h3 : F64.key F64.posInf = (F64.infMag : ℤ) := by decide
  omega

/-- The overflow threshold of POW10. -/
noncomputable def overflowAt : ℝ := (2 : ℝ) ^ 1024 - 2 ^ 970

open Classical in
/-- Every function rounded down: conforming numerics. -/
noncomputable def idealNumerics : Numerics where
  cos x := down (Real.cos (F64.toRat x))
  sin x := down (Real.sin (F64.toRat x))
  log10 x :=
    if F64.isZero x then F64.negInf
    else if x = F64.posInf then F64.posInf
    else if F64.isNaN x || F64.lt x F64.zero then F64.qnan
    else down (Real.logb 10 (F64.toRat x))
  pow10 x :=
    if F64.isNaN x then F64.qnan
    else if x = F64.posInf then F64.posInf
    else if x = F64.negInf then F64.zero
    else if overflowAt ≤ (10 : ℝ) ^ (F64.toRat x : ℝ) then F64.posInf
    else down ((10 : ℝ) ^ (F64.toRat x : ℝ))
  erfc x := if x = F64.posInf then F64.zero else down (erfcReal (F64.toRat x))
  bitRng _ _ := false
  gaussRng _ _ := F64.zero

/-- -2048.0 -/
def farBelow : F64 := 0xC0A0000000000000#64

theorem toRat_farBelow : F64.toRat farBelow = -2048 := by
  rw [F64.toRat_eq, show F64.key farBelow = -(1034 * 2 ^ 52) from by decide, keyVal]
  rw [if_pos (by norm_num), magVal]; norm_num

theorem farBelow_finite : F64.isFinite farBelow = true := by decide

theorem cast_two_zpow (k : ℤ) : (((2 : ℚ) ^ k : ℚ) : ℝ) = (2 : ℝ) ^ k := by
  rw [Rat.cast_zpow, Rat.cast_ofNat]

theorem farBelow_le_log {x : F64} (h : 0 < F64.key x) :
    (F64.toRat farBelow : ℝ) ≤ Real.logb 10 (F64.toRat x) := by
  have h1 : keyVal 1 ≤ F64.toRat x := by
    rw [F64.toRat_eq]; exact keyVal_strictMono.monotone h
  have h2 : keyVal 1 = (2 : ℚ) ^ (-1074 : ℤ) := by
    rw [keyVal, if_neg (by norm_num), magVal]; norm_num
  have h3 : ((2 : ℝ) ^ (-1074 : ℤ)) ≤ (F64.toRat x : ℝ) := by
    rw [h2, ← Rat.cast_le (K := ℝ), cast_two_zpow] at h1; exact h1
  have hpos : (0 : ℝ) < (F64.toRat x : ℝ) := lt_of_lt_of_le (by positivity) h3
  rw [toRat_farBelow, Real.le_logb_iff_rpow_le (by norm_num) hpos]
  refine le_trans ?_ h3
  have h4 : ((-2048 : ℚ) : ℝ) = ((-2048 : ℤ) : ℝ) := by norm_num
  rw [h4, Real.rpow_intCast]
  calc (10 : ℝ) ^ (-2048 : ℤ) ≤ (2 : ℝ) ^ (-2048 : ℤ) := by
        rw [zpow_neg, zpow_neg]
        exact inv_anti₀ (by positivity) (zpow_le_zpow_left₀ (by norm_num) (by norm_num) (by norm_num))
    _ ≤ (2 : ℝ) ^ (-1074 : ℤ) := zpow_le_zpow_right₀ (by norm_num) (by norm_num)

theorem isZero_not_nan {x : F64} (h : F64.isZero x = true) : F64.isNaN x = false := by
  have hm : F64.mag x = 0 := of_decide_eq_true h
  rw [F64.isNaN, hm]; decide

theorem isZero_finite {x : F64} (h : F64.isZero x = true) : F64.isFinite x = true := by
  have hm : F64.mag x = 0 := of_decide_eq_true h
  rw [F64.isFinite, hm]; decide

theorem toRat_of_isZero {x : F64} (h : F64.isZero x = true) : F64.toRat x = 0 := by
  rw [F64.toRat_eq, F64.key_of_isZero h]; simp [keyVal, magVal_zero]

theorem finite_ne_posInf {x : F64} (h : F64.isFinite x = true) : x ≠ F64.posInf :=
  fun hx => absurd (hx ▸ h) (by decide)
theorem finite_ne_negInf {x : F64} (h : F64.isFinite x = true) : x ≠ F64.negInf :=
  fun hx => absurd (hx ▸ h) (by decide)

theorem ideal_log10_pos {x : F64} (hf : F64.isFinite x = true) (hk : 0 < F64.key x) :
    idealNumerics.log10 x = down (Real.logb 10 (F64.toRat x)) := by
  have h0 : ¬ F64.isZero x = true := fun h => by rw [F64.isZero_iff_key] at h; omega
  have hl : F64.lt x F64.zero = false := by
    have : F64.key F64.zero = 0 := by decide
    simp [F64.lt, this, hk.le]
  simp [idealNumerics, h0, finite_ne_posInf hf, F64.finite_not_nan hf, hl]

theorem ideal_log10_zero {x : F64} (h : F64.isZero x = true) :
    idealNumerics.log10 x = F64.negInf := by simp [idealNumerics, h]

theorem ideal_log10_posInf : idealNumerics.log10 F64.posInf = F64.posInf := by
  simp [idealNumerics, show F64.isZero F64.posInf = false by decide]

theorem ideal_log10_finite {x : F64} (hf : F64.isFinite x = true) (hk : 0 < F64.key x) :
    F64.isFinite (idealNumerics.log10 x) = true := by
  rw [ideal_log10_pos hf hk]; exact down_finite farBelow_finite (farBelow_le_log hk)

/-- A pattern that compares `+0.0 <=` is a zero, a positive finite number or +inf. -/
theorem nonneg_cases {x : F64} (h : F64.le F64.zero x = true) :
    F64.isZero x = true ∨ (F64.isFinite x = true ∧ 0 < F64.key x) ∨ x = F64.posInf := by
  have hk : 0 ≤ F64.key x := by simpa [show F64.key F64.zero = 0 by decide] using key_of_le h
  rcases not_nan_cases (not_nan_of_le h).2 with rfl | hf | rfl
  · exact absurd hk (by decide)
  · rcases eq_or_lt_of_le hk with h0 | h0
    · exact .inl ((F64.isZero_iff_key x).mpr h0.symm)
    · exact .inr (.inl ⟨hf, h0⟩)
  · exact .inr (.inr rfl)

theorem toRat_pos {x : F64} (h : 0 < F64.key x) : (0 : ℝ) < F64.toRat x := by
  have : F64.toRat F64.zero < F64.toRat x := by
    rw [F64.toRat_lt_iff]; simpa [show F64.key F64.zero = 0 by decide] using h
  rw [toRat_zero] at this; exact_mod_cast this

theorem ideal_log10_mono (x y : F64) (hx : F64.le F64.zero x = true) (hxy : F64.le x y = true) :
    F64.le (idealNumerics.log10 x) (idealNumerics.log10 y) = true := by
  have hy : F64.le F64.zero y = true :=
    le_of_key (by decide) (not_nan_of_le hxy).2 ((key_of_le hx).trans (key_of_le hxy))
  have hk := key_of_le hxy
  have hni : F64.isNaN F64.negInf = false := by decide
  have hpi : F64.isNaN F64.posInf = false := by decide
  rcases nonneg_cases hy with h0 | ⟨hyf, hyk⟩ | rfl
  · have hx0 : F64.isZero x = true := by
      rw [F64.isZero_iff_key]
      have h1 := F64.key_of_isZero h0
      have h2 := key_of_le hx
      rw [show F64.key F64.zero = 0 by decide] at h2
      omega
    rw [ideal_log10_zero h0, ideal_log10_zero hx0]; decide
  · have hyfin := ideal_log10_finite hyf hyk
    rcases nonneg_cases hx with h0 | ⟨hxf, hxk⟩ | rfl
    · rw [ideal_log10_zero h0]
      exact le_of_key hni (F64.finite_not_nan hyfin) (key_bounds_of_finite hyfin).1.le
    · rw [ideal_log10_pos hxf hxk] at *
      rw [ideal_log10_pos hyf hyk] at *
      refine le_of_key (F64.finite_not_nan (down_finite farBelow_finite (farBelow_le_log hxk)))
        (F64.finite_not_nan hyfin) (down_mono farBelow_finite (farBelow_le_log hxk) ?_)
      refine Real.logb_le_logb_of_le (by norm_num) (toRat_pos hxk) ?_
      exact_mod_cast (F64.toRat_le_iff x y).mpr hk
    · exact absurd hk (not_le.mpr (key_bounds_of_finite hyf).2)
  · rw [ideal_log10_posInf]
    rcases nonneg_cases hx with h0 | ⟨hxf, hxk⟩ | rfl
    · rw [ideal_log10_zero h0]; decide
    · have hxfin := ideal_log10_finite hxf hxk
      exact le_of_key (F64.finite_not_nan hxfin) hpi (key_bounds_of_finite hxfin).2.le
    · rw [ideal_log10_posInf]; decide

theorem ten_rpow_pos (x : ℝ) : (0 : ℝ) < (10 : ℝ) ^ x := Real.rpow_pos_of_pos (by norm_num) x

theorem zero_le_pow (x : ℝ) : (F64.toRat F64.zero : ℝ) ≤ (10 : ℝ) ^ x := by
  rw [toRat_zero]; exact_mod_cast (ten_rpow_pos x).le

theorem ideal_pow10_finite {x : F64} (hf : F64.isFinite x = true) :
    idealNumerics.pow10 x = if overflowAt ≤ (10 : ℝ) ^ (F64.toRat x : ℝ) then F64.posInf
      else down ((10 : ℝ) ^ (F64.toRat x : ℝ)) := by
  simp [idealNumerics, F64.finite_not_nan hf, finite_ne_posInf hf, finite_ne_negInf hf]

theorem ideal_pow10_posInf : idealNumerics.pow10 F64.posInf = F64.posInf := by
  simp [idealNumerics, show F64.isNaN F64.posInf = false by decide]

theorem ideal_pow10_negInf : idealNumerics.pow10 F64.negInf = F64.zero := by
  simp [idealNumerics, show F64.isNaN F64.negInf = false by decide,
    show F64.negInf ≠ F64.posInf by decide]

theorem down_nonneg {y : ℝ} (h : (F64.toRat F64.zero : ℝ) ≤ y) :
    F64.neg? (down y) = false ∧ F64.isNaN (down y) = false ∧ 0 ≤ F64.key (down y) := by
  have hk : 0 ≤ F64.key (down y) := by
    simpa [show F64.key F64.zero = 0 by decide] using le_down zero_finite h
  refine ⟨?_, F64.finite_not_nan (down_finite zero_finite h), hk⟩
  have hd := key_down zero_finite h
  rw [hd] at hk
  have hb := (downKey_spec (below_of_le zero_finite h)).1.1
  rw [down, ofKey, F64.neg?_pack _ (hb.trans infMag_lt)]
  exact decide_eq_false (not_lt.mpr hk)

theorem one_lt_overflowAt : 1 < overflowAt := by
  have h : (2 : ℝ) ^ 1024 = 2 ^ 970 * 2 ^ 54 := by rw [← pow_add]
  have h1 : (1 : ℝ) ≤ 2 ^ 970 := one_le_pow₀ (by norm_num)
  rw [overflowAt, h]
  generalize (2 : ℝ) ^ 970 = t at h1
  norm_num
  linarith

theorem ideal_pow10_sign (x : F64) (h : F64.isNaN x = false) :
    F64.neg? (idealNumerics.pow10 x) = false ∧ F64.isNaN (idealNumerics.pow10 x) = false := by
  rcases not_nan_cases h with rfl | hf | rfl
  · rw [ideal_pow10_negInf]; decide
  · rw [ideal_pow10_finite hf]
    split
    · decide
    · exact ⟨(down_nonneg (zero_le_pow _)).1, (down_nonneg (zero_le_pow _)).2.1⟩
  · rw [ideal_pow10_posInf]; decide

theorem key_nonneg_of_sign {x : F64} (h : F64.neg? x = false) : 0 ≤ F64.key x := by
  simp [F64.key, h]

theorem ideal_pow10_mono (x y : F64) (hxy : F64.le x y = true) :
    F64.le (idealNumerics.pow10 x) (idealNumerics.pow10 y) = true := by
  have hk := key_of_le hxy
  obtain ⟨hx, hy⟩ := not_nan_of_le hxy
  refine le_of_key (ideal_pow10_sign x hx).2 (ideal_pow10_sign y hy).2 ?_
  have hy0 := key_nonneg_of_sign (ideal_pow10_sign y hy).1
  have hp : F64.key F64.posInf = F64.infMag := by decide
  have htop : F64.key (idealNumerics.pow10 x) ≤ F64.key F64.posInf := by
    rcases not_nan_cases (ideal_pow10_sign x hx).2 with h | h | h
    · rw [h]; decide
    · exact (key_bounds_of_finite h).2.le
    · rw [h]
  rcases not_nan_cases hx with rfl | hxf | rfl
  · rw [ideal_pow10_negInf]; simpa [show F64.key F64.zero = 0 by decide] using hy0
  · rcases not_nan_cases hy with rfl | hyf | rfl
    · exact absurd hk (not_le.mpr (key_bounds_of_finite hxf).1)
    · have hle : (10 : ℝ) ^ (F64.toRat x : ℝ) ≤ (10 : ℝ) ^ (F64.toRat y : ℝ) :=
        Real.rpow_le_rpow_of_exponent_le (by norm_num)
          (by exact_mod_cast (F64.toRat_le_iff x y).mpr hk)
      by_cases ho : overflowAt ≤ (10 : ℝ) ^ (F64.toRat y : ℝ)
      · rwa [ideal_pow10_finite hyf, if_pos ho]
      · rw [ideal_pow10_finite hyf, if_neg ho, ideal_pow10_finite hxf,
          if_neg (fun h => ho (h.trans hle))]
        exact down_mono zero_finite (zero_le_pow _) hle
    · rwa [ideal_pow10_posInf]
  · rcases not_nan_cases hy with rfl | hyf | rfl
    · exact absurd hk (by decide)
    · exact absurd hk (not_le.mpr (key_bounds_of_finite hyf).2)
    · exact le_rfl

theorem toRat_minNormal : F64.toRat F64.minNormal = (2 : ℚ) ^ (-1022 : ℤ) := by
  rw [F64.toRat_eq, show F64.key F64.minNormal = 2 ^ 52 from by decide, keyVal]
  rw [if_neg (by norm_num), magVal]
  norm_num
  rw [show (4503599627370496 : ℚ) = 2 ^ 52 by norm_num]
  rw [show (2 : ℚ) ^ 1074 = 2 ^ 1022 * 2 ^ 52 by rw [← pow_add]]
  field_simp

/-- Rounding a number of [0, 1] down moves it by less than 1.2e-7 (by at most 2 ^ -53). -/
theorem down_close {y : ℝ} (h0 : 0 ≤ y) (h1 : y ≤ 1) :
    |(F64.toRat (down y) : ℝ) - y| ≤ 1.2e-7 := by
  have hb : (F64.toRat F64.zero : ℝ) ≤ y := by rw [toRat_zero]; exact_mod_cast h0
  have hle := down_le zero_finite hb
  obtain ⟨-, -, hk0⟩ := down_nonneg hb
  have hkey := key_down zero_finite hb
  have hspec := downKey_spec (below_of_le zero_finite hb)
  have hk1 : F64.key (down y) ≤ 1023 * 2 ^ 52 := by
    have : F64.toRat (down y) ≤ F64.toRat F64.one := by
      rw [toRat_one]; exact_mod_cast hle.trans h1
    rw [F64.toRat_le_iff, show F64.key F64.one = 1023 * 2 ^ 52 from by decide] at this
    exact this
  rw [abs_sub_comm, abs_of_nonneg (sub_nonneg.mpr hle)]
  rcases eq_or_lt_of_le hk1 with hk | hk
  · have : F64.toRat (down y) = 1 := by
      rw [← toRat_one, F64.toRat_eq_iff, hk]; decide
    rw [this]; push_cast; linarith
  · obtain ⟨m, hm⟩ := Int.eq_ofNat_of_zero_le hk0
    have hnext : y < (keyVal (F64.key (down y) + 1) : ℝ) := by
      by_contra hc
      have hB : Below y (F64.key (down y) + 1) := by
        refine ⟨?_, not_lt.mp hc⟩
        have : F64.infMag = 0x7FF0000000000000 := rfl
        omega
      have := hspec.2 _ hB
      omega
    have hstep : keyVal (F64.key (down y) + 1) - F64.toRat (down y)
        = (2 : ℚ) ^ (((max (m / 2 ^ 52) 1 : Nat) : ℤ) - 1075) := by
      rw [F64.toRat_eq, hm, ← magVal_succ_sub m]
      simp only [keyVal]
      rw [if_neg (by omega), if_neg (by omega)]
      rfl
    have hsmall : (2 : ℚ) ^ (((max (m / 2 ^ 52) 1 : Nat) : ℤ) - 1075) ≤ (2 : ℚ) ^ (-53 : ℤ) := by
      refine zpow_le_zpow_right₀ (by norm_num) ?_
      have : m / 2 ^ 52 < 1023 := by omega
      omega
    have hfin : keyVal (F64.key (down y) + 1) - F64.toRat (down y) ≤ 1.2e-7 := by
      rw [hstep]; refine hsmall.trans ?_; norm_num
    have hfin' : (keyVal (F64.key (down y) + 1) : ℝ) - F64.toRat (down y) ≤ 1.2e-7 := by
      have := (Rat.cast_le (K := ℝ)).mpr hfin
      push_cast at this
      exact this
    linarith

/-- Conforming numerics functions and random streams exist. -/
theorem idealNumerics_lawful : idealNumerics.Laws where
  cos_faithful x _ := down_unit (Real.neg_one_le_cos _) (Real.cos_le_one _)
  cos_zero := by simp [idealNumerics, toRat_zero, down_one]
  sin_faithful x _ := down_unit (Real.neg_one_le_sin _) (Real.sin_le_one _)
  sin_zero := by simp [idealNumerics, toRat_zero, down_zero]
  log10_zero _ h := ideal_log10_zero h
  log10_posInf := ideal_log10_posInf
  log10_nan x h := by
    have hz : F64.isZero x = false := by
      rcases h with h | h
      · by_contra hc; simp [isZero_not_nan (by simpa using hc)] at h
      · by_contra hc
        have := F64.key_of_isZero (x := x) (by simpa using hc)
        simp [F64.lt, this, show F64.key F64.zero = 0 by decide] at h
    have hp : x ≠ F64.posInf := by
      rintro rfl; revert h; decide
    have hor : (F64.isNaN x || F64.lt x F64.zero) = true := by simpa using h
    show (if F64.isZero x = true then _ else _) = _
    rw [if_neg (by simp [hz]), if_neg hp, if_pos hor]
  log10_one := by
    rw [ideal_log10_pos one_finite (by decide), toRat_one]; simp [down_zero]
  log10_faithful x hf hl := by
    have hk : 0 < F64.key x := by
      simp only [F64.lt, Bool.and_eq_true, decide_eq_true_eq] at hl
      simpa [show F64.key F64.zero = 0 by decide] using hl.2
    rw [ideal_log10_pos hf hk]
    exact down_faithful farBelow_finite (farBelow_le_log hk)
  log10_mono := ideal_log10_mono
  pow10_nan x h := by simp [idealNumerics, h]
  pow10_zero x h := by
    rw [ideal_pow10_finite (isZero_finite h), toRat_of_isZero h]
    simp [not_le.mpr one_lt_overflowAt, down_one]
  pow10_faithful x hf _ ho := by
    rw [ideal_pow10_finite hf, if_neg (not_le.mpr (show _ < overflowAt from ho))]
    exact down_faithful zero_finite (zero_le_pow _)
  pow10_overflow x hf ho := by rw [ideal_pow10_finite hf]; exact if_pos ho
  pow10_tiny x hf ht := by
    have hm : F64.isFinite F64.minNormal = true := by decide
    have ho : ¬ overflowAt ≤ (10 : ℝ) ^ (F64.toRat x : ℝ) := by
      refine not_le.mpr (ht.trans (lt_of_le_of_lt ?_ one_lt_overflowAt))
      exact zpow_le_one_of_nonpos₀ (by norm_num) (by norm_num)
    rw [ideal_pow10_finite hf, if_neg ho, F64.le_iff (down_finite zero_finite (zero_le_pow _)) hm,
      toRat_minNormal]
    have := (down_le zero_finite (zero_le_pow (F64.toRat x : ℝ))).trans ht.le
    rwa [← cast_two_zpow, Rat.cast_le] at this
  pow10_sign := ideal_pow10_sign
  pow10_mono := ideal_pow10_mono
  erfc_close x hf hx := by
    have hk : (0 : ℝ) ≤ F64.toRat x := by
      have := (F64.le_iff zero_finite hf).mp hx
      rw [toRat_zero] at this; exact_mod_cast this
    have h1 : erfcReal (F64.toRat x) ≤ 1 := erfcReal_zero ▸ erfcReal_anti hk
    simp only [idealNumerics, if_neg (finite_ne_posInf hf)]
    exact down_close (erfcReal_nonneg _) h1
  erfc_range x hx := by
    simp only [idealNumerics]
    split
    · decide
    · next hp =>
      have hf : F64.isFinite x = true := by
        rcases nonneg_cases hx with h | h | h
        · exact isZero_finite h
        · exact h.1
        · exact absurd h hp
      have hk : (0 : ℝ) ≤ F64.toRat x := by
        have := (F64.le_iff zero_finite hf).mp hx
        rw [toRat_zero] at this; exact_mod_cast this
      have h1 : erfcReal (F64.toRat x) ≤ 1 := erfcReal_zero ▸ erfcReal_anti hk
      have h0 := erfcReal_nonneg (F64.toRat x : ℝ)
      have hb : (F64.toRat F64.zero : ℝ) ≤ erfcReal (F64.toRat x) := by
        rw [toRat_zero]; exact_mod_cast h0
      refine ⟨le_of_key (by decide) (down_nonneg hb).2.1 ?_, (down_unit (by linarith) h1).2.2⟩
      simpa [show F64.key F64.zero = 0 by decide] using (down_nonneg hb).2.2
  erfc_zero := by
    simp [idealNumerics, show F64.zero ≠ F64.posInf by decide, toRat_zero, erfcReal_zero, down_one]
  erfc_posInf := by simp [idealNumerics]
  erfc_anti x y hx hxy := by
    have hk := key_of_le hxy
    have hy : F64.le F64.zero y = true :=
      le_of_key (by decide) (not_nan_of_le hxy).2 ((key_of_le hx).trans hk)
    have hb : ∀ z : F64, (F64.toRat F64.zero : ℝ) ≤ erfcReal (F64.toRat z) := fun z => by
      rw [toRat_zero]; exact_mod_cast erfcReal_nonneg _
    simp only [idealNumerics]
    by_cases hyp : y = F64.posInf
    · rw [if_pos hyp]
      split
      · decide
      · refine le_of_key (by decide) (down_nonneg (hb x)).2.1 ?_
        simpa [show F64.key F64.zero = 0 by decide] using (down_nonneg (hb x)).2.2
    · have hxp : x ≠ F64.posInf := by
        rintro rfl
        rcases not_nan_cases (not_nan_of_le hxy).2 with rfl | hf | h
        · exact absurd hk (by decide)
        · exact absurd hk (not_le.mpr (key_bounds_of_finite hf).2)
        · exact hyp h
      rw [if_neg hyp, if_neg hxp]
      refine le_of_key (down_nonneg (hb y)).2.1 (down_nonneg (hb x)).2.1 ?_
      refine down_mono zero_finite (hb y) (erfcReal_anti ?_)
      exact_mod_cast (F64.toRat_le_iff x y).mpr hk
  gauss_finite _ _ := by simp only [idealNumerics]; decide

end Sys2Proof
end

