-- ==== Sys2Proof/Laws/PerInstr.lean ====
section
/-! SUPPORT. Per-instruction facts of the syntax, one lemma per constructor (30_encoding.md R120,
R121). -/

namespace Sys2Proof.Laws.EncodesLegalWord

/-- A well-formed instruction's word has RSVD = 0 and one of the nine opcodes, so it fits in its low
byte. -/
def Statement (i : Instr) : Prop :=
  i.wellFormed = true → wordWellFormed (encode i) = true ∧ (encode i).toNat < 256

theorem nop : Statement .nop := fun _ => by decide
theorem clear : Statement .clear := fun _ => by decide
theorem genBits : Statement .genBits := fun _ => by decide
theorem map : Statement .map := fun _ => by decide
theorem synth : Statement .synth := fun _ => by decide
theorem channel : Statement .channel := fun _ => by decide
theorem slice : Statement .slice := fun _ => by decide
theorem ber : Statement .ber := fun _ => by decide
theorem run : Statement .run := fun _ => by decide

end Sys2Proof.Laws.EncodesLegalWord
end

