-- ==== Sys2Proof/Laws/System.lean ====
section
/-! SUPPORT. The laws of a system of blocks: what a step of one block can do to the system, and that a
block keeps its number. -/

namespace Sys2Proof.Machine

/-- A host access keeps the block's number. -/
@[simp] theorem hostRead_unitNo (a : Addr) (width : Width) (s : State) :
    (hostRead a width s).2.unitNo = s.unitNo := by
  rcases hostRead_cases a width s with h | h | h
  · rw [h]
  · rw [h]; rfl
  · rw [h]

@[simp] theorem writeReg_unitNo (r : Reg) (v : Word) (s : State) :
    (s.writeReg r v).unitNo = s.unitNo := by
  rcases writeReg_cases v s r with ⟨c, h⟩ | ⟨-, h⟩ | ⟨-, h⟩ | h <;> rw [h] <;> rfl

@[simp] theorem hostWrite_unitNo (a : Addr) (width : Width) (v : Word) (s : State) :
    (hostWrite a width v s).unitNo = s.unitNo := by
  rcases hostWrite_cases a width v s with
    h | ⟨-, h⟩ | ⟨-, r, -, -, h⟩ | ⟨-, r, j, -, -, -, -, h⟩ | ⟨-, h⟩ <;> rw [h]
  · rfl
  · rfl
  · exact writeReg_unitNo r v s
  · rfl

@[simp] theorem hostStep_unitNo (s : State) : (hostStep s).unitNo = s.unitNo := by
  rcases hostStep_cases s with h | ⟨op, rest, -, ⟨a, w, -, h | h⟩ | ⟨a, w, v, -, h⟩ | ⟨-, h⟩⟩ <;>
    rw [h]
  · exact hostRead_unitNo a w s
  · exact hostRead_unitNo a w s
  · exact hostWrite_unitNo a w v s

/-! ### Commands and steps keep the block's number -/

theorem andThen_unitNo {r : Result} {f : State → Result} {n : Nat} (hr : r.state.unitNo = n)
    (hf : ∀ s, (f s).state.unitNo = s.unitNo) : (r.andThen f).state.unitNo = n := by
  unfold Result.andThen
  cases r.error with
  | none => exact (hf _).trans hr
  | some e => exact hr

section
variable (N : Numerics) (s : State)

theorem bodyGenBits_unitNo : (bodyGenBits N s).state.unitNo = s.unitNo := by
  unfold bodyGenBits; split <;> rfl

theorem bodyMap_unitNo : (bodyMap s).state.unitNo = s.unitNo := by
  unfold bodyMap
  split
  · rfl
  · split <;> rfl

theorem bodySynth_unitNo : (bodySynth N s).state.unitNo = s.unitNo := by
  unfold bodySynth
  split
  · rfl
  · split <;> rfl

theorem reportSnr_unitNo (vtx vn : F64) (strict : Bool) :
    (reportSnr N vtx vn strict s).state.unitNo = s.unitNo := by
  rcases reportSnr_cases N vtx vn strict s with h | ⟨-, e, -, h⟩ <;> rw [h] <;> rfl

theorem bodyChannel_unitNo : (bodyChannel N s).state.unitNo = s.unitNo := by
  unfold bodyChannel
  split
  · rfl
  · split
    · rfl
    · exact reportSnr_unitNo N _ _ _ _

theorem bodySlice_unitNo : (bodySlice s).state.unitNo = s.unitNo := by
  unfold bodySlice; split <;> rfl

theorem bodyBer_unitNo : (bodyBer N s).state.unitNo = s.unitNo := by
  unfold bodyBer
  split
  · rfl
  · split
    · rfl
    · dsimp only
      split <;> rfl

theorem bodyRun_unitNo : (bodyRun N s).state.unitNo = s.unitNo := by
  unfold bodyRun
  split
  · rfl
  · exact andThen_unitNo (andThen_unitNo (andThen_unitNo (andThen_unitNo
      (bodyGenBits_unitNo N s) bodyMap_unitNo) (bodySynth_unitNo N)) (bodyChannel_unitNo N))
      bodySlice_unitNo

end

theorem bodyOf_unitNo (i : Instr) (s : State) : (bodyOf i s).state.unitNo = s.unitNo := by
  cases i with
  | nop => rfl
  | clear => rfl
  | genBits => exact bodyGenBits_unitNo _ s
  | map => exact bodyMap_unitNo s
  | synth => exact bodySynth_unitNo _ s
  | channel => exact bodyChannel_unitNo _ s
  | slice => exact bodySlice_unitNo s
  | ber => exact bodyBer_unitNo _ s
  | run => exact bodyRun_unitNo _ s

theorem complete_unitNo (r : Result) : (complete r).unitNo = r.state.unitNo := by
  rcases complete_cases r with ⟨-, h⟩ | ⟨e, -, h⟩ <;> rw [h] <;> rfl

theorem sequencerStep_unitNo {s t : State} (h : sequencerStep s = .next t) :
    t.unitNo = s.unitNo := by
  rcases sequencerStep_cases s with ⟨-, h'⟩ | ⟨w, i, -, -, h'⟩ | ⟨w, e, -, -, h'⟩ <;>
    rw [h'] at h <;> cases h
  · rfl
  · exact (complete_unitNo _).trans (bodyOf_unitNo i s)
  · rfl

/-- No step changes the block's number, so two blocks' free values never meet (R108). -/
theorem step_unitNo {s t : State} (h : step s = .next t) : t.unitNo = s.unitNo := by
  obtain ⟨a, u, ha, hu⟩ := step_cases s
  have hn : u.unitNo = s.unitNo := by
    rcases hu with rfl | ⟨rest, -, rfl⟩ <;> rfl
  rw [ha] at h
  rw [← hn]
  cases a with
  | host => cases h; exact hostStep_unitNo u
  | sequencer => exact sequencerStep_unitNo h
  | reset => cases h; rfl

/-! ### Steps of a system -/

/-- What a step of block `k` can do to the system (R108): nothing where there is no such block; else
that block's own step, or its own stop, with every other block left as it is. -/
theorem system_step_cases (k : Nat) (y : System) :
    (y.blocks[k]? = none ∧ y.step k = .next y) ∨
      ∃ s, y.blocks[k]? = some s ∧
        ((∃ t, step s = .next t ∧ y.step k = .next { blocks := y.blocks.set k t }) ∨
          (∃ r, step s = .fault r ∧ y.step k = .fault r) ∨
          ∃ r, step s = .refused r ∧ y.step k = .refused r) := by
  unfold System.step
  cases h : y.blocks[k]? with
  | none => exact .inl ⟨rfl, rfl⟩
  | some s =>
    refine .inr ⟨s, rfl, ?_⟩
    cases hs : step s with
    | next t => exact .inl ⟨t, rfl, by simp only [hs]⟩
    | fault r => exact .inr (.inl ⟨r, rfl, by simp only [hs]⟩)
    | refused r => exact .inr (.inr ⟨r, rfl, by simp only [hs]⟩)

/-- A step of block `k` leaves every other block as it is (R108). -/
theorem system_step_other {k j : Nat} {y z : System} (h : y.step k = .next z) (hj : j ≠ k) :
    z.blocks[j]? = y.blocks[j]? := by
  rcases system_step_cases k y with ⟨-, h'⟩ | ⟨s, -, ⟨t, -, h'⟩ | ⟨r, -, h'⟩ | ⟨r, -, h'⟩⟩ <;>
    rw [h'] at h <;> cases h
  · rfl
  · exact List.getElem?_set_ne hj.symm

end Sys2Proof.Machine
end

