-- ==== Sys2Proof/Tests/Slice0.lean ====
section
/-! SUPPORT. The model's own tests. Expected values come from spec/: the encodings of 30_encoding.md,
the worked vectors of 95_test_vectors.md, and hand calculation from the rules named. -/

namespace Sys2Proof.Tests

open Sys2Proof Sys2Proof.Machine

set_option Elab.async false

/-! ### WellFormed: one ill-formed term for each check (R9 to R11, R120, R121) -/

theorem test_params_default : Config.defaultParams.legal = true := by decide
theorem test_params_nmax_multiple :
    Params.legal { nMax := 129, spsMax := 64, berMax := 64 } = false := by decide
theorem test_params_nmax_low :
    Params.legal { nMax := 64, spsMax := 64, berMax := 64 } = false := by decide
theorem test_params_nmax_high :
    Params.legal { nMax := 32832, spsMax := 0, berMax := 64 } = false := by decide
theorem test_params_product :
    Params.legal { nMax := 6592, spsMax := 20, berMax := 64 } = false := by decide
theorem test_params_sps_low :
    Params.legal { nMax := 128, spsMax := 19, berMax := 64 } = false := by decide
theorem test_params_ber_low :
    Params.legal { nMax := 128, spsMax := 20, berMax := 2 } = false := by decide
theorem test_params_ber_high :
    Params.legal { nMax := 128, spsMax := 20, berMax := 513 } = false := by decide
theorem test_params_boundaries :
    Params.legal { nMax := 128, spsMax := 1024, berMax := 512 } = true ∧
      Params.legal { nMax := 6528, spsMax := 20, berMax := 3 } = true := by decide
theorem test_word_reserved_bit :
    reservedZero 0x0000000000000100#64 = false ∧ reservedZero 0x8000000000000000#64 = false ∧
      wordWellFormed 0x0000000000000100#64 = false := by decide
theorem test_word_opcode :
    opcodeDefined 0x0000000000000080#64 = false ∧ wordWellFormed 0x0000000000000002#64 = false := by
  decide

/-! ### Decoding: the opcode map of R121 written out bit by bit -/

theorem test_decode_nop : decode 0b00000000#64 = .ok .nop := by rfl
theorem test_decode_clear : decode 0b00000001#64 = .ok .clear := by rfl
theorem test_decode_genBits : decode 0b00010000#64 = .ok .genBits := by rfl
theorem test_decode_map : decode 0b00100000#64 = .ok .map := by rfl
theorem test_decode_synth : decode 0b00110000#64 = .ok .synth := by rfl
theorem test_decode_channel : decode 0b01000000#64 = .ok .channel := by rfl
theorem test_decode_slice : decode 0b01010000#64 = .ok .slice := by rfl
theorem test_decode_ber : decode 0b01100000#64 = .ok .ber := by rfl
theorem test_decode_run : decode 0b01110000#64 = .ok .run := by rfl
/-- EN3 to EN7 of section 2.1. -/
theorem test_decode_illegal :
    decode 0x100#64 = .error .reservedBits ∧ decode 0x1FF#64 = .error .reservedBits ∧
      decode 0x02#64 = .error .undefinedOpcode ∧ decode 0x80#64 = .error .undefinedOpcode ∧
      decode 0xFF#64 = .error .undefinedOpcode := ⟨rfl, rfl, rfl, rfl, rfl⟩
theorem test_decode_table_word :
    decodeTableWord 64 0x70 = some .run ∧ decodeTableWord 64 0x100 = none := by decide
theorem test_decode_bytes_short : decodeBytes [0, 0, 0, 0, 0, 0, 0] = .error .truncated := by rfl

/-! ### Arithmetic: the constants and vectors of R28 and section 2.3 to 2.6 -/

theorem test_f64_quotients :
    F64.div F64.one (F64.sqrt F64.two) = 0x3FE6A09E667F3BCC#64 ∧
      F64.div 0x401C000000000000#64 0x4028000000000000#64 = 0x3FE2AAAAAAAAAAAB#64 := by decide +kernel
theorem test_f64_overflow_and_subnormal :
    F64.div (F64.ofNat 31) 0x0031FA182C40C60D#64 = F64.posInf ∧
      F64.mul F64.half 0x0000000000000001#64 = F64.zero ∧
      F64.mul F64.half 0x0000000000000003#64 = 0x0000000000000002#64 := by decide +kernel
theorem test_f64_ofRatio :
    F64.ofRatio false 8 10 = F64.fourFifths ∧ F64.ofRatio true 30 10 = 0xC008000000000000#64 ∧
      F64.ofRatio false 1 (10 ^ 300) = 0x01A56E1FC2F8F359#64 := by decide +kernel

/-! ### A small block under test -/

/-- The values the numerics take in vectors SY1, CH2 and BER1, and plain ones elsewhere. -/
def stub : Numerics where
  cos x := if x = 0x3FE921FB54442D18#64 then 0x3FE6A09E667F3BCD#64 else F64.one
  sin x := if x = 0x3FE921FB54442D18#64 then 0x3FE6A09E667F3BCC#64 else F64.zero
  log10 _ := 0xBFF110B79F6F3B8D#64
  pow10 _ := F64.one
  erfc _ := F64.one
  bitRng _ i := decide (i % 2 = 0)
  gaussRng _ n := if n = 0 then F64.one else F64.negOne

/-- The reset block with a configuration and a memory. -/
def under (cfg : ConfigRegs) (mem : List Host.Cell) : State :=
  { State.reset with cfg := cfg, mem := mem }

/-- BITSRC = 1 and a bit count. -/
def pattern (n : Nat) : ConfigRegs := { ConfigRegs.reset with ctrl := 4, nbits := BitVec.ofNat 64 n }

/-- One array or buffer holding the listed words. -/
def words (r : Region) (ws : List Word) : List Host.Cell :=
  writeBlock [] r.base ws.length (fun j => ws.getD j 0)

/-- The status word a command leaves when issued in a state, LASTOP as acceptance notes it. -/
def statusAfter (i : Instr) (s : State) : Word :=
  match step (s.withFetchWord 64 (encode i).toNat) with
  | .next t => t.statusWord
  | _ => 0

/-! ### Commands: section 2 of 95_test_vectors.md -/

/-- EN1 and the note on NOP and sticky bits (section 2.8). -/
theorem test_nop_status :
    statusAfter .nop State.reset = 0x0000000000000002#64 ∧
      statusAfter .nop State.reset.setBusErr = 0x0000000000000012#64 := by decide +kernel
/-- EN2, from a state with flags and results set. -/
theorem test_clear_status :
    statusAfter .clear { State.reset.setBusErr with
        res := { ResultRegs.reset with latSps := 5 }
        status := { Status.reset with bitsV := true, err := true, degen := true } }
      = 0x0000000100000002#64 := by decide +kernel
/-- GB3: two words, the last one zero-filled. -/
theorem test_genBits_two_words :
    let t := (bodyGenBits stub (under (pattern 65)
      (words .hbits [0x0123456789ABCDEF, 0xFFFF]))).state
    t.entry .bits 0 = 0x0123456789ABCDEF#64 ∧ t.entry .bits 1 = 1 ∧ t.res.bitsLen = 65 := by decide +kernel
/-- GB4, GB6. -/
theorem test_genBits_range :
    statusAfter .genBits (under (pattern 0) []) = 0x0000001001010006#64 ∧
      statusAfter .genBits (under (pattern 1025) []) = 0x0000001001010006#64 := by decide +kernel
/-- The state of MP3 to MP5 before MAP: `n` bits of a pattern, and a scheme. -/
def mapped (scheme : BitVec 3) (n : Nat) (pat : Word) : State :=
  let s := under { pattern n with scheme := scheme } (words .bits [pat])
  { s with
    res := { s.res with bitsLen := BitVec.ofNat 64 n }
    status := { s.status with bitsV := true } }
/-- MP3: 16-QAM with two padding bits. -/
theorem test_map_qam16 :
    let t := (bodyMap (mapped 2 10 0x1E9#64)).state
    t.entry .symI 0 = 0x4008000000000000#64 ∧ t.entry .symQ 0 = F64.negOne ∧
      t.entry .symI 2 = 0x4008000000000000#64 ∧ t.entry .symQ 2 = 0xC008000000000000#64 ∧
      t.res.symLen = 3 ∧ t.res.npad = 2 := by decide +kernel
/-- MP9: the scheme check comes first; and MP5: 64-QAM, five padding bits. -/
theorem test_map_qam64 :
    statusAfter .map (under { pattern 4 with scheme := 7 } []) = 0x0000002010020006#64 ∧
      (let t := (bodyMap (mapped 3 1 1#64)).state
       t.entry .symI 0 = 0x401C000000000000#64 ∧ t.entry .symQ 0 = 0xC01C000000000000#64 ∧
         t.res.npad = 5) := by decide +kernel
/-- SY1 before SYNTH: one BPSK symbol +1, SPS = 2, FS = 8.0, FC = 1.0. -/
def symbolReady : State :=
  let s := under { pattern 1 with sps := 2, fs := 0x4020000000000000#64, fc := F64.one }
    (words .bits [1] ++ words .symI [F64.one] ++ words .symQ [F64.zero])
  { s with
    res := { s.res with bitsLen := 1, symLen := 1 }
    status := { s.status with bitsV := true, symV := true } }
/-- SY1. -/
theorem test_synth_sy1 :
    let t := (bodySynth stub symbolReady).state
    t.entry .time 1 = 0x3FC0000000000000#64 ∧ t.entry .carI 0 = F64.one ∧
      t.entry .carQ 0 = F64.negZero ∧ t.entry .carQ 1 = 0xBFE6A09E667F3BCC#64 ∧
      t.entry .tx 1 = 0x3FE6A09E667F3BCD#64 ∧ t.res.sampLen = 2 := by decide +kernel
/-- SY13 and SY6: the order of the checks, and FC = FS / 2. -/
theorem test_synth_checks :
    statusAfter .synth State.reset = 0x0000003021050006#64 ∧
      checkSynth Config.defaultParams 8 0x4020000000000000#64 0x4010000000000000#64 .bpsk 4
        = some .nyquist ∧
      checkSynth Config.defaultParams 8 0x4020000000000000#64 0x400FFFFFFFFFFFFF#64 .bpsk 4
        = none := by decide +kernel
/-- SY1's waveform, with NOISE_LEVEL = 0.25 (CH2). -/
def waveReady : State :=
  let t := (bodySynth stub symbolReady).state
  { t with cfg := { t.cfg with noiseLevel := 0x3FD0000000000000#64 } }
/-- CH2. -/
theorem test_channel_ch2 :
    let t := (bodyChannel stub waveReady).state
    t.entry .rx 0 = 0x3FF8000000000000#64 ∧ t.entry .rx 1 = 0x3FCA827999FCEF34#64 ∧
      t.entry .demodQ 0 = F64.negZero ∧ t.res.varTx = 0x3F95F619980C4335#64 ∧
      t.res.varNoise = 0x3FD0000000000000#64 ∧ t.res.snrMeas = 0xC02554E5874B0A70#64 := by decide +kernel
/-- CH7: the two edges of mode 1 and the signed zero of mode 0. -/
theorem test_channel_checks :
    checkNoise true 0x40A7710000000000#64 = some .noiseLevel ∧
      checkNoise true F64.threeThousand = none ∧ checkNoise false F64.negZero = none ∧
      checkNoise false F64.negOne = some .noiseLevel := by decide +kernel
/-- The SLICE after CH2: bit 1, no error. -/
theorem test_slice_ch2 :
    let t := (bodySlice (bodyChannel stub waveReady).state).state
    t.entry .estQ 0 = F64.zero ∧ t.entry .rxbits 0 = 1 ∧ t.res.errCnt = 0 ∧
      t.status.estV = true ∧ t.status.degen = false := by decide +kernel
/-- SL9: ties and the special values. -/
theorem test_slice_levels :
    level F64.negZero 2 = 0 ∧ level 0x0000000000000001#64 2 = 1 ∧ level F64.qnan 2 = 0 ∧
      level F64.two 4 = 2 ∧ level 0x4000000000000001#64 4 = 3 ∧ gray 3 = 2 ∧
      level 0x4018000000000000#64 8 = 6 ∧ level 0xC01799999999999A#64 8 = 1 ∧
      level F64.posInf 8 = 7 := by decide +kernel
/-- BER1's first row, where ERFC is 1.0. -/
theorem test_ber_first_row :
    berOf stub .qpsk F64.one = F64.half ∧ berOf stub .qam16 F64.one = F64.threeEighths ∧
      berOf stub .qam64 F64.one = 0x3FE2AAAAAAAAAAAB#64 := by decide +kernel
/-- BER5 and BER6. -/
theorem test_ber_checks :
    statusAfter .ber (under { ConfigRegs.reset with scheme := 1, berCount := 2 }
        (words .snrIn [F64.zero, F64.posInf])) = 0x000000600A010006#64 ∧
      statusAfter .ber (under { ConfigRegs.reset with scheme := 5 } []) = 0x0000006010020006#64 := by
  decide +kernel
/-- PR1 to PR3: the order of RUN's checks. -/
theorem test_run_priority :
    statusAfter .run (under { ConfigRegs.reset with scheme := 4 } []) = 0x0000007010020006#64 ∧
      statusAfter .run (under { pattern 4 with noiseLevel := F64.negOne } [])
        = 0x0000007002010006#64 := by decide +kernel
/-- SL2: BPSK, one bit, RUN recovers it. -/
theorem test_run_sl2 :
    let t := (bodyRun stub (under { symbolReady.cfg with noiseLevel := F64.zero }
      (words .hbits [1]))).state
    t.entry .rxbits 0 = 1 ∧ t.res.errCnt = 0 ∧ t.entry .estI 0 = F64.one ∧
      t.res.snrMeas = F64.posInf := by decide +kernel

/-! ### The bus: section 2.9 -/

/-- BU1 to BU4, BU8. -/
theorem test_bus_reads :
    (hostRead 0x000000#24 .full State.reset).1 = 0x434D4F4400070000#64 ∧
      (hostRead 0x000008#24 .full State.reset).1 = 0x0000004000400400#64 ∧
      hostRead 0x0000D8#24 .full State.reset = (0, State.reset.setBusErr) ∧
      hostRead 0x000004#24 .full State.reset = (0, State.reset.setBusErr) ∧
      hostRead 0x000020#24 .full State.reset = (0, State.reset) := by decide +kernel
/-- BU9 to BU16. -/
theorem test_bus_edges :
    decodeAddr Config.defaultParams 0x001080 = .unmapped ∧
      decodeAddr Config.defaultParams 0x100080 = .unmapped ∧
      decodeAddr Config.defaultParams 0xE00080 = .cell .rxbits 16 ∧
      decodeAddr Config.defaultParams 0x77FFF8 = .cell .tx 65535 ∧
      decodeAddr Config.defaultParams 0x780000 = .unmapped ∧
      decodeAddr Config.defaultParams 0x202000 = .unmapped ∧
      decodeAddr Config.defaultParams 0xF00000 = .unmapped ∧
      decodeAddr Config.defaultParams 0x002200 = .unmapped := by decide +kernel
/-- BU5 to BU7, BU17, BU18. -/
theorem test_bus_writes :
    hostWrite 0x000000#24 .full 5 State.reset = State.reset ∧
      hostWrite 0x003000#24 .full 5 State.reset = State.reset ∧
      hostWrite 0x100000#24 .full 5 State.reset = State.reset ∧
      (hostWrite 0x000010#24 .full 0xFFFFFFFFFFFFFFFF#64 State.reset).readReg .ctrl = 0xF ∧
      (hostWrite 0x000028#24 .full 0xFF State.reset).readReg .scheme = 7 := by decide +kernel
/-- HZ1 and HZ2. -/
theorem test_bus_hazards :
    let s := hostWrite 0x000020#24 .full 0x10 State.reset
    (hostRead 0x000018#24 .full s).1.getLsbD 0 = true ∧
      (hostRead 0x000018#24 .full s).1.getLsbD 1 = false ∧
      hostWrite 0x000030#24 .full 5 s = s.setHaz := by
  refine ⟨?_, ?_, by decide +kernel⟩
  · show (busyStatus (Config.draw 0 0)).getLsbD 0 = true
    simp [busyStatus]
  · show (busyStatus (Config.draw 0 0)).getLsbD 1 = false
    simp [busyStatus]
/-- P1's first lines in host assembly. -/
theorem test_assemble :
    assemble [.wr (.reg .ctrl) (.hex 4), .wrf (.reg .fs) false 8000 1, .wrbits [true, false, false, true],
        .cmd .genBits, .wait]
      = [.write 0x000010#24 .full 4, .write 0x000048#24 .full 0x40BF400000000000#64,
          .write 0x001000#24 .full 9, .write 0x000020#24 .full 0x10, .wait] := by decide +kernel

/-- The example of R127. -/
theorem test_access_text :
    accessText (writeOp (.reg .cmd) 0x70) = some "W 0x000020 0x0000000000000070" ∧
      accessText (.read 0xE00080#24 .full) = some "R 0xE00080" := by decide +kernel

/-! ### Witnesses: for each statement with hypotheses, states and operands that meet them all -/

open Sys2Proof.Claims

/-- A configuration whose RUN passes every check: one pattern bit, BPSK, one sample per symbol, FS =
1000.0, FC = 100.0, noise power 0, one SNR point. -/
def demoCfg : ConfigRegs :=
  { pattern 1 with
    sps := 1, fs := 0x408F400000000000#64, fc := 0x4059000000000000#64, berCount := 1 }

/-- Entry 0 of every buffer written, with 1. -/
def demoMem : List Host.Cell :=
  (Region.all.drop 3).foldl (fun m r => writeBlock m r.base 1 (fun _ => F64.one)) []

/-- A block after a run of one information bit under a scheme and a BER of one point. -/
def demoOf (c : Scheme) (cfg : ConfigRegs) : State :=
  { under cfg demoMem with
    status := { Status.reset with
      bitsV := true, symV := true, waveV := true, rxV := true, estV := true, berV := true }
    res := { ResultRegs.reset with
      bitsLen := 1, symLen := 1, sampLen := 1, latSps := 1, berLen := 1, latScheme := c
      npad := BitVec.ofNat 64 (c.bitsPerSymbol - 1) } }

/-- The same, of a BPSK run. -/
def demo (cfg : ConfigRegs) : State := demoOf .bpsk cfg

theorem demoMem_wf : Memory.wf demoMem := by decide +kernel

theorem demoMem_mapped : ∀ c ∈ demoMem, mappedByte Config.defaultParams c.1 = true := by
  decide +kernel

theorem demoMem_written : ∀ r ∈ Region.all, (readWord demoMem (r.entryAddr 0)).isSome = true := by
  decide +kernel

theorem demo_filled (c : Scheme) (cfg : ConfigRegs) (r : Region) (h : r ∈ Region.all) :
    (demoOf c cfg).filled r 1 := by
  intro j hj
  obtain rfl : j = 0 := by omega
  exact demoMem_written r h

theorem demoOf_inv (c : Scheme) (cfg : ConfigRegs) : (demoOf c cfg).Inv where
  mem := ⟨(by decide : Config.defaultParams.legal = true), demoMem_wf, demoMem_mapped⟩
  status := ⟨fun _ h => (by cases h), .inl ⟨rfl, rfl⟩⟩
  valid := by
    have f := demo_filled c cfg
    have h1 : (1 : Nat) ≤ 1 := Nat.le_refl 1
    have hn : (1 : Nat) ≤ 1024 := by decide
    have hp : (1 : Nat) ≤ 64 := by decide
    have h0 : (0 : Nat) ≤ 1 := by decide
    have hc : ceilDiv 1 64 = 1 := by decide
    have hk : ceilDiv (1 * c.bitsPerSymbol) 64 = 1 := by cases c <;> decide
    have hs : 1 = symbolCount c 1 := by cases c <;> decide
    have hd : (BitVec.ofNat 64 (c.bitsPerSymbol - 1)).toNat = 1 * c.bitsPerSymbol - 1 := by
      cases c <;> decide
    have fb : (demoOf c cfg).filled .bits (ceilDiv 1 64) := hc ▸ f .bits (by decide)
    have fr : (demoOf c cfg).filled .rxbits (ceilDiv (1 * c.bitsPerSymbol) 64) := by
      rw [hk]
      exact f .rxbits (by decide)
    exact
      { bits := fun _ => ⟨h1, hn, fb⟩
        sym := fun _ => ⟨rfl, hs, hd, f .symI (by decide), f .symQ (by decide)⟩
        wave := fun _ => ⟨rfl, h1, hp, rfl, f .time (by decide), f .carI (by decide),
          f .carQ (by decide), f .tx (by decide)⟩
        rx := fun _ => ⟨rfl, f .noise (by decide), f .rx (by decide), f .demodI (by decide),
          f .demodQ (by decide)⟩
        est := fun _ => ⟨rfl, h0, f .estI (by decide), f .estQ (by decide), fr⟩
        ber := fun _ => ⟨h1, hp⟩ }

theorem demo_inv (cfg : ConfigRegs) : (demo cfg).Inv := demoOf_inv .bpsk cfg

/-- The state an instruction leaves. -/
def after (i : Instr) (s : State) : State := complete (bodyOf i s)

theorem exec_after (i : Instr) (s : State) : exec i s = .next (after i s) := exec_eq i s

theorem demo_passes_run : Passes .run (demo demoCfg) := by
  unfold Passes
  decide +kernel

theorem witness_FiniteArithmeticIsCorrectlyRounded :
    F64.isFinite 0x7FEFFFFFFFFFFFFF#64 = true ∧ F64.isFinite F64.two = true ∧
      F64.isZero F64.two = false := by decide

theorem witness_SqrtIsCorrectlyRounded :
    (F64.isFinite F64.two = true ∧ F64.le F64.zero F64.two = true) ∧
      F64.isFinite F64.negZero = true ∧ F64.le F64.zero F64.negZero = true := by decide

theorem witness_ArithmeticSpecialValues :
    F64.isNaN F64.qnan = true ∧ F64.isFinite F64.negZero = true ∧
      (F64.isFinite F64.one = true ∧ F64.isZero F64.one = false) ∧
      (F64.isNaN F64.negInf = false ∧ F64.isZero F64.negInf = false) ∧
      F64.lt F64.negInf F64.zero = true := by decide

theorem witness_ComparisonsAreOrdered :
    F64.isNaN F64.qnan = true ∧ (F64.isFinite F64.negZero = true ∧ F64.isFinite F64.one = true) ∧
      F64.isNaN F64.negInf = false ∧ F64.isNaN F64.posInf = false := by
  decide

theorem witness_IntegerConversionIsExact : (-(2 ^ 53) : Int).natAbs ≤ 2 ^ 53 := by decide

theorem witness_GrayCodeInverse : 7 < 2 ^ 3 ∧ 0 < 2 ^ 0 := by decide

/-- The SEQUENCER next by the interleaving, and by default. -/
theorem witness_StepRunsTheDecodedInstruction :
    (Performs (State.reset.withFetchWord 64 0x70) 0x70#64 ∧ decode 0x70#64 = .ok .run) ∧
      Performs { State.reset with pending := some 0#64 } 0#64 ∧ decode 0#64 = .ok .nop :=
  ⟨⟨⟨rfl, .inr ⟨[], rfl⟩⟩, rfl⟩, ⟨rfl, .inl rfl⟩, rfl⟩

/-- Two blocks, of different capacities, and a number no block has. -/
theorem witness_EveryStepAnswersNext :
    let y := System.reset [Config.defaultParams, { Config.defaultParams with spsMax := 20 }]
    y.blocks[0]? = some State.reset ∧
      y.blocks[1]? = some { State.resetOf { Config.defaultParams with spsMax := 20 } with unitNo := 1 } ∧
      y.blocks[2]? = none := ⟨rfl, rfl, rfl⟩

theorem witness_IllegalCommandWords :
    (Performs (State.reset.withFetchWord 64 0x1FF) 0x1FF#64 ∧ (0x1FF#64).extractLsb' 8 56 ≠ 0) ∧
      Performs (State.reset.withFetchWord 64 0x71) 0x71#64 ∧ (0x71#64).extractLsb' 8 56 = 0 ∧
      ∀ i, 0x71#64 ≠ encode i :=
  ⟨⟨⟨rfl, .inr ⟨[], rfl⟩⟩, by decide⟩, ⟨rfl, .inr ⟨[], rfl⟩⟩, by decide,
    fun i => by cases i <;> decide⟩

theorem witness_CommandAcceptance : State.reset.pending = none := rfl

/-- One failing check of each instruction that has any, the first and the last of its list. -/
theorem witness_ChecksReportInOrder :
    firstFailing (checks .genBits State.reset) = some (1, 0x01) ∧
      firstFailing (checks .map (under { demoCfg with scheme := 4 } [])) = some (2, 0x10) ∧
      firstFailing (checks .map State.reset) = some (5, 0x20) ∧
      firstFailing (checks .synth State.reset) = some (5, 0x21) ∧
      firstFailing (checks .synth (demo { demoCfg with fc := 0x408F400000000000#64 })) = some (1, 0x06) ∧
      firstFailing (checks .channel State.reset) = some (5, 0x22) ∧
      firstFailing (checks .channel (demo { demoCfg with noiseLevel := F64.posInf })) = some (1, 0x08) ∧
      firstFailing (checks .slice State.reset) = some (5, 0x23) ∧
      firstFailing (checks .ber State.reset) = some (1, 0x09) ∧
      firstFailing (checks .run (demo { demoCfg with noiseLevel := F64.negOne })) = some (1, 0x08) := by
  decide +kernel

theorem witness_PassingCommandsSucceed :
    Passes .run (demo demoCfg) ∧ Passes .clear State.reset ∧ Passes .genBits (demo demoCfg) ∧
      Passes .map (demo demoCfg) ∧ Passes .slice (demo demoCfg) := by
  unfold Passes
  decide +kernel

theorem witness_ErrorsArePrecise :
    exec .genBits State.reset = .next (after .genBits State.reset) ∧
      (after .genBits State.reset).status.errCode = 1 :=
  ⟨exec_after _ _, by decide +kernel⟩

/-- Bit counts 0, 1, N_MAX and N_MAX + 1. -/
theorem witness_GenBitsResult :
    Memory.wf State.reset.mem ∧
      ¬ (1 ≤ (pattern 0).nbits.toInt ∧ (pattern 0).nbits.toInt ≤ Config.defaultParams.nMax) ∧
      ¬ (1 ≤ (pattern 1025).nbits.toInt ∧ (pattern 1025).nbits.toInt ≤ Config.defaultParams.nMax) ∧
      1 ≤ (pattern 1).nbits.toInt ∧ (pattern 1024).nbits.toInt ≤ Config.defaultParams.nMax := by
  decide +kernel

/-- Equal patterns, and equal seeds, under a shorter and a longer request. -/
theorem witness_BitSourceIsReproducible :
    let s (c : BitVec 4) (n : Nat) : State := under { pattern n with ctrl := c } []
    (Memory.wf State.reset.mem ∧ Passes .genBits (s 4 4) ∧ Passes .genBits (s 4 14) ∧
      (∀ i, i < 4 → (s 4 4).bit .hbits i = (s 4 14).bit .hbits i)) ∧
      Passes .genBits (s 0 4) ∧ Passes .genBits (s 0 14) ∧ (s 0 4).cfg.seed = (s 0 14).cfg.seed := by
  unfold Passes
  decide +kernel

theorem witness_MapResult (c : Scheme) :
    ∃ s : State, s.Inv ∧ Scheme.ofCode s.cfg.scheme = some c ∧ s.status.bitsV = true :=
  ⟨demo { demoCfg with scheme := c.code }, demo_inv _, by cases c <;> rfl, rfl⟩

theorem witness_ConstellationPoints :
    gray 2 = 2 * (true).toNat + (true).toNat ∧ gray 5 = 4 * (true).toNat + 2 * (true).toNat + (true).toNat := by
  decide

theorem witness_GrayNeighbours :
    let g : Nat → Bool := fun _ => false
    let h : Nat → Bool := fun t => decide (t = 3)
    point .qam16 g = (F64.ofInt (-3), F64.ofInt (-3)) ∧
      point .qam16 h = (F64.ofInt (-3), F64.ofInt (-1)) := by decide +kernel

theorem witness_DecisionUndoesMapping : 5 < Scheme.qam64.bitsPerSymbol ∧ 0 < Scheme.bpsk.bitsPerSymbol := by
  decide

theorem witness_SynthResult : (demo demoCfg).Inv ∧ Passes .synth (demo demoCfg) :=
  ⟨demo_inv _, by unfold Passes; decide +kernel⟩

/-- The demo's one symbol is the 16-QAM point (1.0, 1.0). -/
theorem witness_TransmittedSamplesAreBounded :
    F64.isFinite F64.one = true ∧
      (let s := demo demoCfg
      s.Inv ∧ Passes .synth s ∧ exec .synth s = .next (after .synth s) ∧
        (∀ j, j < s.res.symLen.toNat →
          ∃ c g, s.entry .symI j = (point c g).1 ∧ s.entry .symQ j = (point c g).2) ∧
        Passes .run s ∧ exec .run s = .next (after .run s)) := by
  refine ⟨by decide, demo_inv _, by unfold Passes; decide +kernel, exec_after _ _, ?_,
    demo_passes_run, exec_after _ _⟩
  intro j hj
  obtain rfl : j = 0 := by
    have : j < 1 := hj
    omega
  exact ⟨.qam16, fun _ => true, by decide +kernel, by decide +kernel⟩

/-- Under each of the two settings of CTRL.NOISE_MODE, at the edges of the check. -/
theorem witness_ChannelResult :
    (demo demoCfg).Inv ∧ Passes .channel (demo demoCfg) ∧
      Passes .channel (demo { demoCfg with ctrl := 0xA, noiseLevel := F64.negThreeThousand }) :=
  ⟨demo_inv _, by unfold Passes; decide +kernel, by unfold Passes; decide +kernel⟩

/-- With CTRL.STRICT_SNR = 0 and = 1, the noise power +0.0 and -0.0. -/
theorem witness_NoiselessChannelReportsInfinity :
    ((demo demoCfg).Inv ∧ (demo demoCfg).status.waveV = true ∧
      demoCfg.ctrl.getLsbD 3 = false ∧ F64.isZero demoCfg.noiseLevel = true ∧
      exec .channel (demo demoCfg) = .next (after .channel (demo demoCfg)) ∧
      demoCfg.ctrl.getLsbD 1 = false) ∧
    (let c : ConfigRegs := { demoCfg with ctrl := 2, noiseLevel := F64.negZero }
     (demo c).Inv ∧ F64.isZero c.noiseLevel = true ∧ c.ctrl.getLsbD 3 = false ∧
       c.ctrl.getLsbD 1 = true) :=
  ⟨⟨demo_inv _, rfl, rfl, rfl, exec_after _ _, rfl⟩, demo_inv _, rfl, rfl, rfl⟩

/-- BPSK, and the two axes of 64-QAM. -/
theorem witness_SliceResult :
    ((demo demoCfg).Inv ∧ (demo demoCfg).status.rxV = true ∧
      (demo demoCfg).res.latScheme = .bpsk ∧ 0 < (demo demoCfg).res.symLen.toNat) ∧
    ((demoOf .qam64 demoCfg).Inv ∧ (demoOf .qam64 demoCfg).status.rxV = true ∧
      (demoOf .qam64 demoCfg).res.latScheme ≠ .bpsk ∧
      2 < (demoOf .qam64 demoCfg).res.latScheme.bitsPerSymbol / 2) :=
  ⟨⟨demo_inv _, rfl, rfl, by decide⟩, demoOf_inv _ _, rfl, by decide, by decide⟩

theorem witness_DecisionThresholds :
    F64.isFinite F64.two = true ∧ 1 < Scheme.bpsk.levels ∧ 7 < Scheme.qam64.levels ∧
      F64.isNaN F64.qnan = true := by decide

theorem witness_BerResult (c : Scheme) :
    ∃ s : State, s.Inv ∧ Scheme.ofCode s.cfg.scheme = some c ∧ Passes .ber s :=
  ⟨demo { demoCfg with scheme := c.code }, demo_inv _, by cases c <;> rfl,
    by unfold Passes; cases c <;> decide +kernel⟩

theorem witness_BerCurves :
    ∃ N : Numerics, N.Laws ∧ F64.isFinite F64.negOne = true ∧ F64.isFinite F64.one = true ∧
      F64.le F64.negOne F64.one = true :=
  ⟨idealNumerics, idealNumerics_lawful, by decide, by decide, by decide⟩

theorem witness_RunEqualsTheFiveCommands : Passes .run (demo demoCfg) ∧ demoCfg.ctrl.getLsbD 1 = false :=
  ⟨demo_passes_run, rfl⟩

/-- With the host's pattern, from two states that hold different buffers and BER_COUNTs. -/
theorem witness_RunIsReproducible :
    let s := demo demoCfg
    let s' := under { demoCfg with berCount := 0 } []
    s.Inv ∧ s'.Inv ∧ Passes .run s ∧ Passes .run s' ∧
      s'.cfg = { s.cfg with berCount := s'.cfg.berCount } ∧ s.cfg.ctrl.getLsbD 2 = true ∧
      (∀ i, i < s.cfg.nbits.toInt.toNat → s.bit .hbits i = s'.bit .hbits i) ∧
      exec .run s = .next (after .run s) ∧ exec .run s' = .next (after .run s') := by
  refine ⟨demo_inv _, ⟨⟨by decide, by decide, by decide⟩, ⟨fun _ h => (by cases h), .inl ⟨rfl, rfl⟩⟩,
    ⟨fun h => Bool.noConfusion h, fun h => Bool.noConfusion h, fun h => Bool.noConfusion h,
      fun h => Bool.noConfusion h, fun h => Bool.noConfusion h, fun h => Bool.noConfusion h⟩⟩,
    demo_passes_run, by unfold Passes; decide +kernel, rfl, by decide, by decide +kernel,
    exec_after _ _, exec_after _ _⟩

theorem witness_ReconfigurationKeepsTheRun :
    exec .slice (demo demoCfg) = .next (after .slice (demo demoCfg)) ∧
      exec .channel (demo demoCfg) = .next (after .channel (demo demoCfg)) :=
  ⟨exec_after _ _, exec_after _ _⟩

/-- The first and last entries of the smallest and largest windows, and the byte past each. -/
theorem witness_AddressMap :
    Config.defaultParams.legal = true ∧ 15 < Region.hbits.capacity Config.defaultParams ∧
      65535 < Region.tx.capacity Config.defaultParams ∧
      16 < Region.rxbits.capacity Config.defaultParams ∧
      (0x0000D8 % 8 = 0 ∧ ∀ r ∈ Reg.all, 0x0000D8 ≠ r.offset) := by decide +kernel

theorem witness_UnservedAccesses :
    (0x000004#24).toNat % 8 ≠ 0 ∧ decodeAddr State.reset.params (0x0000D8#24).toNat = .unmapped ∧
      Width.narrow = .narrow := by decide +kernel

theorem witness_ReadsHaveNoSideEffect :
    State.reset.setBusErr.status.busErr = true ∧
      decodeAddr State.reset.params (0x000018#24).toNat ≠ .unmapped ∧ (0x000018#24).toNat % 8 = 0 := by
  decide +kernel

/-- An array entry never written reads its reset value; buffer entries written and not written. -/
theorem witness_IdleReads :
    State.reset.params.legal = true ∧ State.reset.pending = none ∧
      0 < Region.hbits.capacity State.reset.params ∧
      readWord State.reset.mem (Region.hbits.entryAddr 0) = some 0 ∧
      (1023 < Region.symI.capacity State.reset.params ∧ State.reset.written .symI 1023 = false) ∧
      readWord (demo demoCfg).mem (Region.symI.entryAddr 0) = some F64.one := by decide +kernel

/-- A command pending: both kinds of register, and both kinds of entry. -/
theorem witness_BusyReads :
    let s := accept 0x10#64 State.reset
    s.params.legal = true ∧ s.pending = some 0x10#64 ∧ Reg.ctrl.steadyWhileBusy = true ∧
      (Reg.bitsLen.steadyWhileBusy = false ∧ Reg.bitsLen ≠ .status) ∧
      (0 < Region.snrIn.capacity s.params ∧ readWord s.mem (Region.snrIn.entryAddr 0) = some 0) ∧
      (Region.berOut ≠ .hbits ∧ Region.berOut ≠ .snrIn ∧ 63 < Region.berOut.capacity s.params) ∧
      decodeAddr s.params (0x002200#24).toNat = .unmapped := by
  decide +kernel

theorem witness_BusyWritesAreDropped :
    let s := accept 0x10#64 State.reset
    s.pending = some 0x10#64 ∧ (0x000030#24).toNat % 8 = 0 ∧
      decodeAddr s.params (0x000030#24).toNat ≠ .unmapped ∧
      decodeAddr s.params (0x100000#24).toNat ≠ .unmapped := by decide +kernel

theorem witness_HostCannotDisturbAPendingCommand :
    (accept 0x10#64 State.reset).pending = some 0x10#64 := rfl

theorem witness_ConfigurationWrites : State.reset.pending = none ∧ Reg.ctrl ≠ .cmd ∧ Reg.ctrl ≠ .status := by
  decide

/-- The last entry of each array. -/
theorem witness_ArrayWrites :
    (demo demoCfg).MemInv ∧ (demo demoCfg).pending = none ∧
      15 < Region.hbits.capacity (demo demoCfg).params ∧
      63 < Region.snrIn.capacity (demo demoCfg).params :=
  ⟨(demo_inv _).mem, rfl, by decide, by decide⟩

theorem witness_ReadOnlyWritesAreIgnored :
    State.reset.params.legal = true ∧ State.reset.pending = none ∧
      (Region.rxbits ≠ .hbits ∧ Region.rxbits ≠ .snrIn ∧
        16 < Region.rxbits.capacity State.reset.params) := by decide +kernel

theorem witness_StatusWriteOneToClear :
    State.reset.pending = none ∧ (accept 0x10#64 State.reset).pending ≠ none := by decide

theorem witness_InterruptLevel :
    exec .nop State.reset = .next (after .nop State.reset) ∧ State.reset.pending = none ∧
      (0x3E#64).getLsbD 1 = true ∧ (0#64).getLsbD 0 = false ∧ (1#64).getLsbD 0 = true :=
  ⟨rfl, rfl, rfl, rfl, rfl⟩

theorem witness_ResetValues :
    Config.defaultParams.legal = true ∧ Reg.berLen ≠ .id ∧ Reg.berLen ≠ .param ∧
      15 < Region.hbits.capacity Config.defaultParams := by decide +kernel

theorem witness_ResetInput :
    ({ accept 0x70#64 State.reset with sched := [.reset, .host] } : State).sched = .reset :: [.host] := rfl

/-- The SEQUENCER performing a NOP with BUSERR set, and a host write that names no flag. -/
theorem witness_StickyFlagsClearOnlyBy :
    (let s : State := { State.reset.setBusErr with pending := some 0#64 }
     step s = .next (after .nop s) ∧ ¬ ResetNext s ∧ ¬ Performs s (encode .clear) ∧
       s.status.busErr = true ∧
       ∀ v : Word, v.getLsbD 4 = true → ¬ HostDoes s (.write 0x000018#24 .full v)) := by
  refine ⟨rfl, ?_, ?_, rfl, ?_⟩
  · rintro ⟨r, h⟩; cases h
  · rintro ⟨h, -⟩
    exact absurd (Option.some.inj h) (by decide)
  · rintro v - ⟨⟨r, h⟩, -⟩; cases h

/-- A host write to another entry, and a step of a command the window does not belong to. -/
theorem witness_BuffersChangeOnlyByTheirCommand :
    (let s : State := { demo demoCfg with
        hostProg := [.write 0x001000#24 .full 5], sched := [.host] }
     s.Inv ∧ 1 < Region.hbits.capacity s.params ∧ (∃ t, step s = .next t) ∧ ¬ ResetNext s ∧
       ∀ v, ¬ HostDoes s (.write (BitVec.ofNat 24 (Region.hbits.entryAddr 1)) .full v)) ∧
    (let s : State := { demo demoCfg with pending := some (encode .run), sched := [.sequencer] }
     0 < Region.berOut.capacity s.params ∧ writer .berOut = some .ber ∧
       ¬ Performs s (encode .ber) ∧ writtenByRun .berOut = false ∧ ∃ t, step s = .next t) := by
  refine ⟨⟨⟨⟨(demo_inv demoCfg).mem.legal, demoMem_wf, demoMem_mapped⟩,
      ⟨(demo_inv demoCfg).status.pending, (demo_inv demoCfg).status.errors⟩,
      ⟨(demo_inv demoCfg).valid.bits, (demo_inv demoCfg).valid.sym, (demo_inv demoCfg).valid.wave, (demo_inv demoCfg).valid.rx,
        (demo_inv demoCfg).valid.est, (demo_inv demoCfg).valid.ber⟩⟩, by decide, ⟨_, rfl⟩, ?_, ?_⟩,
    by decide, rfl, ?_, rfl, ⟨_, rfl⟩⟩
  · rintro ⟨r, h⟩; simp at h
  · rintro v ⟨⟨r, h⟩, -⟩; simp [Region.entryAddr, Region.base] at h
  · rintro ⟨h, -⟩; exact absurd (Option.some.inj h) (by decide)

/-- A pending command and none. -/
theorem witness_WaitEnds :
    (let s : State := { accept 0x10#64 State.reset with hostProg := [.wait] }
     s.sched = [] ∧ s.hostProg = .wait :: [] ∧ s.pending.isSome = true) ∧
    ({ State.reset with hostProg := [.wait] } : State).sched = [] := ⟨⟨rfl, rfl, rfl⟩, rfl⟩

/-- The two launches: after a reset input that came late, and with a first wait, on an idle block and
on one with a NOP pending, under the flags each finds. -/
theorem witness_InvariantAtReset :
    Config.defaultParams.legal = true ∧
      (resetBlock { demo demoCfg with draws := 7 }).atLaunch .reset ∧
      State.atLaunch (.wait [(.estV, true), (.degen, false)])
        { demo demoCfg with hostProg := [.wait] } ∧
      State.atLaunch (.wait [(.bitsV, true), (.err, false)])
        { demo demoCfg with hostProg := [.wait], pending := some 0 } := by
  have h := demo_inv demoCfg
  have hm : State.MemInv { demo demoCfg with hostProg := [.wait] } :=
    ⟨h.mem.legal, h.mem.canonical, h.mem.mapped⟩
  have hv : State.ValidInv { demo demoCfg with hostProg := [.wait] } :=
    ⟨h.valid.bits, h.valid.sym, h.valid.wave, h.valid.rx, h.valid.est, h.valid.ber⟩
  refine ⟨by decide, ⟨by decide, rfl⟩, ⟨⟨hm, ⟨h.status.pending, h.status.errors⟩, hv⟩, ⟨[], rfl⟩, ?_⟩,
    ⟨⟨⟨hm.legal, hm.canonical, hm.mapped⟩, ⟨?_, h.status.errors⟩,
      ⟨hv.bits, hv.sym, hv.wave, hv.rx, hv.est, hv.ber⟩⟩, ⟨[], rfl⟩, ?_⟩⟩
  · intro fb hfb
    fin_cases hfb <;> rfl
  · rintro w ⟨⟩
    exact ⟨rfl, rfl, rfl, rfl⟩
  · intro fb hfb
    fin_cases hfb <;> rfl

theorem witness_CanonicalMemoryIsKept :
    Memory.wf (demo demoCfg).mem ∧ ∃ t, step (demo demoCfg) = .next t := ⟨demoMem_wf, _, rfl⟩

theorem witness_InvariantIsKept : (demo demoCfg).Inv ∧ ∃ t, step (demo demoCfg) = .next t :=
  ⟨demo_inv _, _, rfl⟩

/-! The two witnesses that run RUN: its carriers are COS(+0.0) = 1.0 and -SIN(+0.0) = -0.0, and its
noise a zero, whatever the uninterpreted functions are. -/

theorem zero_mul_finite {g : F64} (h : F64.isFinite g = true) :
    F64.mul F64.zero g = F64.zero ∨ F64.mul F64.zero g = F64.negZero := by
  have hf : F64.mag g < F64.infMag := of_decide_eq_true h
  have h1 : F64.isNaN g = false := F64.finite_not_nan h
  have h2 : F64.isInf g = false := decide_eq_false (by omega)
  have hn : F64.neg? F64.zero = false := rfl
  have hs : F64.sig F64.zero = 0 := rfl
  have hz : F64.isNaN F64.zero = false := rfl
  have hi : F64.isInf F64.zero = false := rfl
  simp only [F64.mul, h1, h2, hn, hs, hz, hi, Nat.zero_mul, F64.round]
  cases F64.neg? g
  · exact .inl rfl
  · exact .inr rfl

theorem witness_NoiselessBpskRoundTrip :
    let s := demo demoCfg
    s.Inv ∧ s.cfg.scheme = 0 ∧ s.cfg.ctrl.getLsbD 1 = false ∧ s.cfg.ctrl.getLsbD 3 = false ∧
      F64.isZero s.cfg.noiseLevel = true ∧ Passes .run s ∧ exec .run s = .next (after .run s) ∧
      (after .run s).status.degen = false :=
  ⟨demo_inv _, rfl, rfl, rfl, rfl, demo_passes_run, exec_after _ _, by decide +kernel⟩

/-- The variance of one sample that is a zero is +0.0. -/
theorem variance_one_zero {x : Nat → F64} (h : x 0 = F64.zero ∨ x 0 = F64.negZero) :
    variance x 1 = F64.zero := by
  have hr : List.range 1 = [0] := rfl
  simp only [variance, F64.sum, hr, List.foldl_cons, List.foldl_nil]
  rcases h with h | h <;> rw [h] <;> decide +kernel

/-- A strict CHANNEL on one sample with a zero noise power ends with the error 0x30. -/
theorem strict_channel_error {s : State} (hw : s.status.waveV = true) (hm : s.noiseMode = false)
    (hx : s.cfg.noiseLevel = F64.zero) (hs : s.strictSnr = true) (hl : s.res.sampLen.toNat = 1) :
    (bodyChannel Config.numerics s).error = some .strictNoise := by
  have hc : checkNoise false F64.zero = none := by decide
  have hq : F64.sqrt F64.zero = F64.zero := by decide
  have hv : variance (noiseSample Config.numerics F64.zero s.cfg.seed) 1 = F64.zero := by
    apply variance_one_zero
    unfold noiseSample
    rw [hq]
    exact zero_mul_finite (numerics_gauss_finite _ _)
  have he : F64.eq F64.zero F64.zero = true := by decide
  simp only [bodyChannel, hw, hm, hx, hs, hl, hc, channelWrites, noisePower, reportSnr,
    Bool.false_eq_true, Bool.true_eq_false, if_false, hv, he, Bool.and_true, if_true]
  rfl

theorem witness_RunStopsAtTheStrictError :
    let s := demo { demoCfg with ctrl := 0x6 }
    let t1 := after .genBits s
    let t2 := after .map t1
    let t3 := after .synth t2
    let t4 := after .channel t3
    Passes .run s ∧ exec .genBits s = .next t1 ∧ exec .map t1 = .next t2 ∧
      exec .synth t2 = .next t3 ∧ exec .channel t3 = .next t4 ∧ t4.status.errCode ≠ 0 ∧
      s.MemInv ∧ 16 < Region.rxbits.capacity s.params := by
  refine ⟨by unfold Passes; decide +kernel, exec_after _ _, exec_after _ _, exec_after _ _,
    exec_after _ _, ?_, (demo_inv _).mem, by decide⟩
  show (complete (bodyChannel Config.numerics _)).status.errCode ≠ 0
  rcases complete_cases (bodyChannel Config.numerics
    (after .synth (after .map (after .genBits (demo { demoCfg with ctrl := 0x6 }))))) with ⟨h, -⟩ | ⟨e, -, h⟩
  · rw [strict_channel_error (by decide +kernel) (by decide +kernel) (by decide +kernel)
      (by decide +kernel) (by decide +kernel)] at h
    cases h
  · rw [h]
    show e.code ≠ 0
    cases e <;> decide

end Sys2Proof.Tests
end

section
/-! PROOF. The Gray code (00_scope.md R21): `gray` is linear over xor and commutes with halving, and
`ginv` undoes it one bit at a time. -/

namespace Sys2Proof.Machine

theorem gray_xor (x y : Nat) : gray (x ^^^ y) = gray x ^^^ gray y := by
  simp only [gray, Nat.xor_div_two]
  ac_rfl

theorem gray_div_two (m : Nat) : gray m / 2 = gray (m / 2) := Nat.xor_div_two

theorem gray_mod_two (m : Nat) : gray m % 2 = (m + m / 2) % 2 := Nat.xor_mod_two_eq

theorem gray_lt_two_pow {b m : Nat} (h : m < 2 ^ b) : gray m < 2 ^ b :=
  Nat.xor_lt_two_pow h (lt_of_le_of_lt (Nat.div_le_self m 2) h)

theorem div_two_lt_two_pow {b g : Nat} (h : g < 2 ^ (b + 1)) : g / 2 < 2 ^ b := by
  rw [Nat.pow_succ] at h; omega

theorem ginv_lt_two_pow : ∀ {b g : Nat}, g < 2 ^ b → ginv b g < 2 ^ b
  | 0, _, _ => Nat.one_pos
  | b + 1, g, h => by
    have hrest : ginv b (g / 2) < 2 ^ (b + 1) :=
      (ginv_lt_two_pow (div_two_lt_two_pow h)).trans (Nat.pow_lt_pow_succ (by norm_num))
    exact Nat.xor_lt_two_pow h hrest

theorem gray_ginv : ∀ {b g : Nat}, g < 2 ^ b → gray (ginv b g) = g
  | 0, g, h => by rw [Nat.lt_one_iff.mp h]; rfl
  | b + 1, g, h =>
    calc gray (ginv (b + 1) g) = gray g ^^^ gray (ginv b (g / 2)) := gray_xor _ _
      _ = (g ^^^ g / 2) ^^^ g / 2 := by rw [gray_ginv (div_two_lt_two_pow h), gray]
      _ = g := Nat.xor_xor_cancel_right _ _

theorem ginv_gray : ∀ {b m : Nat}, m < 2 ^ b → ginv b (gray m) = m
  | 0, m, h => (Nat.lt_one_iff.mp h).symm
  | b + 1, m, h =>
    calc ginv (b + 1) (gray m) = gray m ^^^ ginv b (gray m / 2) := rfl
      _ = (m ^^^ m / 2) ^^^ m / 2 := by
        rw [gray_div_two, ginv_gray (div_two_lt_two_pow h), gray]
      _ = m := Nat.xor_xor_cancel_right _ _

/-- Counting up from an even number flips the last bit of the code; from an odd one it flips, one
place higher, the bit that counting up from its half flips. -/
theorem gray_xor_gray_succ (m : Nat) : ∃ k, gray m ^^^ gray (m + 1) = 2 ^ k := by
  induction m using Nat.strong_induction_on with
  | _ m ih =>
    have hmod : (gray m ^^^ gray (m + 1)) % 2 = (m + 1) % 2 := by
      have hhalves : m / 2 + (m + 1) / 2 = m := by omega
      rw [Nat.xor_mod_two_eq, Nat.add_mod, gray_mod_two, gray_mod_two, ← Nat.add_mod]
      omega
    have hdiv : (gray m ^^^ gray (m + 1)) / 2 = gray (m / 2) ^^^ gray ((m + 1) / 2) := by
      rw [Nat.xor_div_two, gray_div_two, gray_div_two]
    obtain heven | hodd := Nat.mod_two_eq_zero_or_one m
    · rw [show (m + 1) / 2 = m / 2 by omega, Nat.xor_self] at hdiv
      exact ⟨0, by omega⟩
    · obtain ⟨k, hk⟩ := ih (m / 2) (by omega)
      rw [show (m + 1) / 2 = m / 2 + 1 by omega, hk] at hdiv
      exact ⟨k + 1, by rw [Nat.pow_succ]; omega⟩

/-- Settles O8, by linearity of `gray` over xor and induction on the number of bits. -/
theorem grayCodeInverse : Obligations.GrayCodeInverse :=
  ⟨fun _ => rfl, fun _ _ h => ⟨ginv_lt_two_pow h, gray_ginv h⟩,
    fun _ _ h => ⟨gray_lt_two_pow h, ginv_gray h⟩, gray_xor_gray_succ⟩

end Sys2Proof.Machine
end

section
/-! PROOF. Sums (00_scope.md R24) and the named constants (00_scope.md R28). -/

namespace Sys2Proof

theorem F64.sum_zero (f : Nat → F64) : F64.sum 0 f = F64.zero := rfl

theorem F64.sum_succ (n : Nat) (f : Nat → F64) :
    F64.sum (n + 1) f = F64.add (F64.sum n f) (f n) := by
  simp only [F64.sum, List.range_succ, List.foldl_append, List.foldl_cons, List.foldl_nil]

/-- Settles O4: a fold over `0 .. n` ends with the term of index `n`. -/
theorem sumsAreSequential : Obligations.SumsAreSequential :=
  fun f => ⟨F64.sum_zero f, fun n => F64.sum_succ n f⟩

theorem sqrt_two : F64.sqrt F64.two = 0x3FF6A09E667F3BCD#64 := by decide +kernel

/-- Settles O7: each defining expression is evaluated; the root of 2.0 by itself, in the kernel. -/
theorem namedConstants : Obligations.NamedConstants := by
  refine ⟨?_, rfl, ?_, rfl, ?_, rfl⟩
  · rw [sqrt_two]; decide
  · decide
  · decide

end Sys2Proof
end

section
/-! PROOF. Comparisons (00_scope.md R25): away from NaN they are those of the order keys, and the
keys of the infinities bound all others. -/

namespace Sys2Proof

section NaN
variable {a b : F64} (h : F64.isNaN a = true ∨ F64.isNaN b = true)
include h

theorem F64.lt_of_isNaN : F64.lt a b = false := by
  rcases h with h | h <;> simp [F64.lt, h]

theorem F64.le_of_isNaN : F64.le a b = false := by
  rcases h with h | h <;> simp [F64.le, h]

theorem F64.eq_of_isNaN : F64.eq a b = false := by
  rcases h with h | h <;> simp [F64.eq, h]

end NaN

section NotNaN
variable {a b : F64} (ha : F64.isNaN a = false) (hb : F64.isNaN b = false)
include ha hb

theorem F64.lt_iff_key : F64.lt a b = true ↔ F64.key a < F64.key b := by simp [F64.lt, ha, hb]

theorem F64.le_iff_key : F64.le a b = true ↔ F64.key a ≤ F64.key b := by simp [F64.le, ha, hb]

theorem F64.eq_iff_key : F64.eq a b = true ↔ F64.key a = F64.key b := by simp [F64.eq, ha, hb]

end NotNaN

/-- On finite numbers `==` of patterns is equality of numbers. -/
theorem F64.eq_iff {a b : F64} (ha : F64.isFinite a = true) (hb : F64.isFinite b = true) :
    F64.eq a b = true ↔ F64.toRat a = F64.toRat b := by
  rw [F64.eq_iff_key (F64.finite_not_nan ha) (F64.finite_not_nan hb), F64.toRat_eq_iff]

theorem key_bounds_of_not_nan {a : F64} (h : F64.isNaN a = false) :
    F64.key F64.negInf ≤ F64.key a ∧ F64.key a ≤ F64.key F64.posInf := by
  rcases not_nan_cases h with rfl | hf | rfl
  · decide
  · exact ⟨(key_bounds_of_finite hf).1.le, (key_bounds_of_finite hf).2.le⟩
  · decide

theorem key_eq_negInf_iff (a : F64) : F64.key a = F64.key F64.negInf ↔ a = F64.negInf :=
  ⟨fun h => (F64.eq_of_key h.symm (by decide)).symm, fun h => h ▸ rfl⟩

theorem key_eq_posInf_iff (a : F64) : F64.key a = F64.key F64.posInf ↔ a = F64.posInf :=
  ⟨fun h => (F64.eq_of_key h.symm (by decide)).symm, fun h => h ▸ rfl⟩

section NotNaN
variable {a : F64} (h : F64.isNaN a = false)
include h

/-- -inf lies below everything else and is equal to itself alone. -/
theorem negInf_comparisons :
    (F64.lt F64.negInf a = true ↔ a ≠ F64.negInf) ∧ F64.lt a F64.negInf = false ∧
      F64.le F64.negInf a = true ∧ (F64.le a F64.negInf = true ↔ a = F64.negInf) ∧
      (F64.eq a F64.negInf = true ↔ a = F64.negInf) ∧
      (F64.eq F64.negInf a = true ↔ a = F64.negInf) := by
  have hn : F64.isNaN F64.negInf = false := by decide
  obtain ⟨hlo, -⟩ := key_bounds_of_not_nan h
  rw [← Bool.not_eq_true, F64.lt_iff_key hn h, F64.lt_iff_key h hn, F64.le_iff_key hn h,
    F64.le_iff_key h hn, F64.eq_iff_key h hn, F64.eq_iff_key hn h, Ne, ← key_eq_negInf_iff a]
  omega

/-- +inf lies above everything else and is equal to itself alone. -/
theorem posInf_comparisons :
    (F64.lt a F64.posInf = true ↔ a ≠ F64.posInf) ∧ F64.lt F64.posInf a = false ∧
      F64.le a F64.posInf = true ∧ (F64.le F64.posInf a = true ↔ a = F64.posInf) ∧
      (F64.eq a F64.posInf = true ↔ a = F64.posInf) ∧
      (F64.eq F64.posInf a = true ↔ a = F64.posInf) := by
  have hp : F64.isNaN F64.posInf = false := by decide
  obtain ⟨-, hhi⟩ := key_bounds_of_not_nan h
  rw [← Bool.not_eq_true, F64.lt_iff_key h hp, F64.lt_iff_key hp h, F64.le_iff_key h hp,
    F64.le_iff_key hp h, F64.eq_iff_key h hp, F64.eq_iff_key hp h, Ne, ← key_eq_posInf_iff a]
  omega

end NotNaN

theorem F64.isFinite_iff (a : F64) :
    F64.isFinite a = true ↔ ¬ (F64.isInf a = true ∨ F64.isNaN a = true) := by
  simp only [F64.isFinite, F64.isInf, F64.isNaN, decide_eq_true_eq]
  omega

theorem F64.isInf_iff (a : F64) : F64.isInf a = true ↔ a = F64.posInf ∨ a = F64.negInf := by
  constructor
  · intro h
    have hm : F64.mag a = F64.infMag := of_decide_eq_true h
    rw [← F64.pack_neg_mag a, hm]
    cases F64.neg? a <;> decide
  · rintro (rfl | rfl) <;> decide

/-- Settles O5: comparisons are those of the order keys, which the infinities bound. -/
theorem comparisonsAreOrdered : Obligations.ComparisonsAreOrdered := by
  refine ⟨fun a b h => ⟨F64.lt_of_isNaN h, F64.le_of_isNaN h, F64.eq_of_isNaN h⟩, by decide,
    fun a b ha hb => ⟨F64.lt_iff ha hb, F64.le_iff ha hb, F64.eq_iff ha hb⟩, fun a h => ?_,
    F64.isFinite_iff, F64.isInf_iff⟩
  obtain ⟨h1, h2, h3, h4, h5, h6⟩ := negInf_comparisons h
  exact ⟨h1, h2, h3, h4, h5, h6, posInf_comparisons h⟩

end Sys2Proof
end

section
/-! PROOF. The IEEE rules of the five operations for NaN, infinities and zeros (00_scope.md R23). -/

namespace Sys2Proof

/-! ### Classes of the infinities, of the zeros and of finite patterns -/

section
variable (i : Bool)

@[simp] theorem F64.isNaN_pack_inf : F64.isNaN (F64.pack i F64.infMag) = false := by
  cases i <;> decide
@[simp] theorem F64.isInf_pack_inf : F64.isInf (F64.pack i F64.infMag) = true := by
  cases i <;> decide
@[simp] theorem F64.isZero_pack_inf : F64.isZero (F64.pack i F64.infMag) = false := by
  cases i <;> decide
@[simp] theorem F64.neg?_pack_inf : F64.neg? (F64.pack i F64.infMag) = i := by
  cases i <;> decide
@[simp] theorem F64.isNaN_pack_zero : F64.isNaN (F64.pack i 0) = false := by cases i <;> decide
@[simp] theorem F64.isInf_pack_zero : F64.isInf (F64.pack i 0) = false := by cases i <;> decide
@[simp] theorem F64.isZero_pack_zero : F64.isZero (F64.pack i 0) = true := by cases i <;> decide
@[simp] theorem F64.neg?_pack_zero : F64.neg? (F64.pack i 0) = i := by cases i <;> decide
@[simp] theorem F64.sig_pack_zero : F64.sig (F64.pack i 0) = 0 := by cases i <;> decide

end

theorem F64.isInf_of_finite {a : F64} (h : F64.isFinite a = true) : F64.isInf a = false := by
  have hlt : F64.mag a < F64.infMag := of_decide_eq_true h
  exact decide_eq_false hlt.ne

/-! ### Negation -/

@[simp] theorem F64.mag_neg (a : F64) : F64.mag (F64.neg a) = F64.mag a := by
  rw [F64.mag, F64.neg, BitVec.toNat_xor, Nat.xor_mod_two_pow]
  exact Nat.xor_zero _

theorem F64.neg?_eq_msb (a : F64) : F64.neg? a = a.msb := (BitVec.msb_eq_decide a).symm

@[simp] theorem F64.neg?_neg (a : F64) : F64.neg? (F64.neg a) = !F64.neg? a := by
  rw [F64.neg?_eq_msb, F64.neg?_eq_msb, F64.neg, BitVec.msb_xor]
  exact Bool.xor_true _

theorem F64.neg_eq_pack (a : F64) : F64.neg a = F64.pack (!F64.neg? a) (F64.mag a) := by
  rw [← F64.neg?_neg, ← F64.mag_neg, F64.pack_neg_mag]

@[simp] theorem F64.isNaN_neg (a : F64) : F64.isNaN (F64.neg a) = F64.isNaN a := by
  simp [F64.isNaN]
@[simp] theorem F64.isInf_neg (a : F64) : F64.isInf (F64.neg a) = F64.isInf a := by
  simp [F64.isInf]
@[simp] theorem F64.isFinite_neg (a : F64) : F64.isFinite (F64.neg a) = F64.isFinite a := by
  simp [F64.isFinite]
@[simp] theorem F64.key_neg (a : F64) : F64.key (F64.neg a) = -F64.key a := by
  cases h : F64.neg? a <;> simp [F64.key, h]
@[simp] theorem F64.exp2_neg (a : F64) : F64.exp2 (F64.neg a) = F64.exp2 a := by
  simp [F64.exp2, F64.expo]

theorem F64.frac_eq_mag_mod (a : F64) : F64.frac a = F64.mag a % 2 ^ 52 := by
  unfold F64.frac F64.mag; omega

@[simp] theorem F64.sig_neg (a : F64) : F64.sig (F64.neg a) = F64.sig a := by
  simp [F64.sig, F64.expo, F64.frac_eq_mag_mod]

@[simp] theorem F64.scaled_neg (a : F64) (e : Int) :
    F64.scaled (F64.neg a) e = -F64.scaled a e := by
  cases h : F64.neg? a <;> simp [F64.scaled, h]

@[simp] theorem F64.neg_pack_inf (i : Bool) :
    F64.neg (F64.pack i F64.infMag) = F64.pack (!i) F64.infMag := by cases i <;> decide
@[simp] theorem F64.neg_pack_zero (i : Bool) : F64.neg (F64.pack i 0) = F64.pack (!i) 0 := by
  cases i <;> decide

/-! ### A NaN operand -/

section
variable {a b : F64} (h : F64.isNaN a = true ∨ F64.isNaN b = true)
include h

theorem F64.add_of_isNaN : F64.add a b = Config.defaultNaN :=
  if_pos ((Bool.or_eq_true _ _).mpr h)

theorem F64.sub_of_isNaN : F64.sub a b = Config.defaultNaN :=
  F64.add_of_isNaN (by rwa [F64.isNaN_neg])

theorem F64.mul_of_isNaN : F64.mul a b = Config.defaultNaN :=
  if_pos ((Bool.or_eq_true _ _).mpr h)

theorem F64.div_of_isNaN : F64.div a b = Config.defaultNaN :=
  if_pos ((Bool.or_eq_true _ _).mpr h)

end

theorem F64.sqrt_of_isNaN {a : F64} (h : F64.isNaN a = true) : F64.sqrt a = Config.defaultNaN :=
  if_pos h

/-! ### Sums and differences -/

section
variable {a : F64} (h : F64.isFinite a = true) (i : Bool)
include h

theorem F64.add_inf_right : F64.add a (F64.pack i F64.infMag) = F64.pack i F64.infMag := by
  simp [F64.add, F64.finite_not_nan h, F64.isInf_of_finite h]

theorem F64.add_inf_left : F64.add (F64.pack i F64.infMag) a = F64.pack i F64.infMag := by
  simp [F64.add, F64.finite_not_nan h, F64.isInf_of_finite h]

theorem F64.sub_inf_right : F64.sub a (F64.pack i F64.infMag) = F64.pack (!i) F64.infMag := by
  rw [F64.sub, F64.neg_pack_inf, F64.add_inf_right h]

theorem F64.sub_inf_left : F64.sub (F64.pack i F64.infMag) a = F64.pack i F64.infMag :=
  F64.add_inf_left (by rwa [F64.isFinite_neg]) i

end

theorem F64.add_inf_inf (i j : Bool) :
    F64.add (F64.pack i F64.infMag) (F64.pack j F64.infMag)
      = if i = j then F64.pack i F64.infMag else Config.defaultNaN := by
  cases i <;> cases j <;> simp [F64.add]

theorem F64.sub_inf_inf (i j : Bool) :
    F64.sub (F64.pack i F64.infMag) (F64.pack j F64.infMag)
      = if i = j then Config.defaultNaN else F64.pack i F64.infMag := by
  rw [F64.sub, F64.neg_pack_inf, F64.add_inf_inf]
  cases i <;> cases j <;> rfl

theorem F64.add_zero_zero (i j : Bool) :
    F64.add (F64.pack i 0) (F64.pack j 0) = F64.pack (i && j) 0 := by
  simp [F64.add, F64.scaled]

theorem F64.sub_zero_zero (i j : Bool) :
    F64.sub (F64.pack i 0) (F64.pack j 0) = F64.pack (i && !j) 0 := by
  rw [F64.sub, F64.neg_pack_zero, F64.add_zero_zero]

/-- The exact sum is zero, and the signs differ. -/
theorem F64.add_neg_self {a : F64} (h : F64.isFinite a = true) :
    F64.add a (F64.neg a) = F64.zero := by
  simp [F64.add, F64.finite_not_nan h, F64.isInf_of_finite h]
  rfl

/-! ### Products -/

theorem F64.mul_inf_left {a : F64} (hn : F64.isNaN a = false) (hz : F64.isZero a = false)
    (i : Bool) : F64.mul (F64.pack i F64.infMag) a = F64.pack (i != F64.neg? a) F64.infMag := by
  simp [F64.mul, hn, hz]

theorem F64.mul_inf_right {a : F64} (hn : F64.isNaN a = false) (hz : F64.isZero a = false)
    (i : Bool) : F64.mul a (F64.pack i F64.infMag) = F64.pack (F64.neg? a != i) F64.infMag := by
  simp [F64.mul, hn, hz]

theorem F64.mul_inf_zero (i j : Bool) :
    F64.mul (F64.pack i F64.infMag) (F64.pack j 0) = Config.defaultNaN := by simp [F64.mul]

theorem F64.mul_zero_inf (i j : Bool) :
    F64.mul (F64.pack j 0) (F64.pack i F64.infMag) = Config.defaultNaN := by simp [F64.mul]

section
variable {a : F64} (h : F64.isFinite a = true) (i : Bool)
include h

theorem F64.mul_zero_left : F64.mul (F64.pack i 0) a = F64.pack (i != F64.neg? a) 0 := by
  simp [F64.mul, F64.round, F64.finite_not_nan h, F64.isInf_of_finite h]

theorem F64.mul_zero_right : F64.mul a (F64.pack i 0) = F64.pack (F64.neg? a != i) 0 := by
  simp [F64.mul, F64.round, F64.finite_not_nan h, F64.isInf_of_finite h]

/-! ### Quotients -/

theorem F64.div_inf_right : F64.div a (F64.pack i F64.infMag) = F64.pack (F64.neg? a != i) 0 := by
  simp [F64.div, F64.finite_not_nan h, F64.isInf_of_finite h]

theorem F64.div_inf_left :
    F64.div (F64.pack i F64.infMag) a = F64.pack (i != F64.neg? a) F64.infMag := by
  simp [F64.div, F64.finite_not_nan h, F64.isInf_of_finite h]

theorem F64.div_zero_right (hz : F64.isZero a = false) :
    F64.div a (F64.pack i 0) = F64.pack (F64.neg? a != i) F64.infMag := by
  simp [F64.div, F64.finite_not_nan h, F64.isInf_of_finite h, hz]

theorem F64.div_zero_left (hz : F64.isZero a = false) :
    F64.div (F64.pack i 0) a = F64.pack (i != F64.neg? a) 0 := by
  simp [F64.div, F64.roundRatio, F64.round, F64.finite_not_nan h, F64.isInf_of_finite h, hz]

end

theorem F64.div_inf_inf (i j : Bool) :
    F64.div (F64.pack i F64.infMag) (F64.pack j F64.infMag) = Config.defaultNaN := by
  simp [F64.div]

theorem F64.div_zero_zero (i j : Bool) :
    F64.div (F64.pack i 0) (F64.pack j 0) = Config.defaultNaN := by simp [F64.div]

/-! ### Roots -/

theorem F64.sqrt_zero (i : Bool) : F64.sqrt (F64.pack i 0) = F64.pack i 0 := by simp [F64.sqrt]

theorem F64.sqrt_of_lt_zero {a : F64} (hn : F64.isNaN a = false)
    (h : F64.lt a F64.zero = true) : F64.sqrt a = Config.defaultNaN := by
  have hk : F64.key a < 0 := (F64.lt_iff_key hn (by decide)).mp h
  have hz : F64.isZero a = false := by
    rw [← Bool.not_eq_true, F64.isZero_iff_key]; exact hk.ne
  have hs : F64.neg? a = true := by
    cases hs : F64.neg? a
    · exact absurd (key_nonneg_of_sign hs) (not_le.mpr hk)
    · rfl
  simp [F64.sqrt, hn, hz, hs]

/-- Settles O3, clause by clause from the rules above. -/
theorem arithmeticSpecialValues : Obligations.ArithmeticSpecialValues :=
  ⟨defaultNaN_isNaN, by decide, by decide, by decide, by decide,
    fun _ _ h => ⟨F64.add_of_isNaN h, F64.sub_of_isNaN h, F64.mul_of_isNaN h, F64.div_of_isNaN h⟩,
    fun _ h => F64.sqrt_of_isNaN h,
    fun _ i h => ⟨F64.add_inf_right h i, F64.add_inf_left h i, F64.sub_inf_right h i,
      F64.sub_inf_left h i⟩,
    fun i j => ⟨F64.add_inf_inf i j, F64.sub_inf_inf i j⟩,
    fun i j => ⟨F64.add_zero_zero i j, F64.sub_zero_zero i j⟩,
    fun _ h _ => ⟨F64.add_neg_self h, F64.add_neg_self h⟩,
    fun _ i hn hz => ⟨F64.mul_inf_left hn hz i, F64.mul_inf_right hn hz i⟩,
    fun i j => ⟨F64.mul_inf_zero i j, F64.mul_zero_inf i j⟩,
    fun _ i h => ⟨F64.mul_zero_left h i, F64.mul_zero_right h i⟩,
    fun _ i h => ⟨F64.div_inf_right h i, F64.div_inf_left h i⟩,
    fun i j => ⟨F64.div_inf_inf i j, F64.div_zero_zero i j⟩,
    fun _ i h hz => ⟨F64.div_zero_right h i hz, F64.div_zero_left h i hz⟩,
    F64.sqrt_zero, by decide, fun _ hn h => F64.sqrt_of_lt_zero hn h⟩

end Sys2Proof
end

section
/-! PROOF. Rounding to nearest with ties to even (00_scope.md R23). `NearestIn v k x` says it of any
strictly increasing sequence `v`: of the integers, where `F64.roundMag` rounds a significand, and of
the binary64 numbers by their order keys, where the result is to be judged. -/

namespace Sys2Proof

open Sys2Proof.Claims

/-! ### The nearest member of a sequence -/

/-- `v k` is the nearest to `x`: `x` lies between the midpoints on both sides of `v k`, and on one
only if `k` is even. -/
structure NearestIn (v : ℤ → ℝ) (k : ℤ) (x : ℝ) : Prop where
  lower : v (k - 1) + v k ≤ 2 * x
  upper : 2 * x ≤ v k + v (k + 1)
  tie : 2 * x = v (k - 1) + v k ∨ 2 * x = v k + v (k + 1) → k % 2 = 0

/-- `k` is the integer nearest to `x`. -/
abbrev NearestInt : ℤ → ℝ → Prop := NearestIn fun j => (j : ℝ)

/-- `k` is the order key of the binary64 number nearest to `x`. -/
abbrev NearestKey : ℤ → ℝ → Prop := NearestIn fun k => (keyVal k : ℝ)

/-- No member of the sequence is closer, and another is as close only on a midpoint. -/
theorem NearestIn.closest {v : ℤ → ℝ} (hv : StrictMono v) {k : ℤ} {x : ℝ} (h : NearestIn v k x)
    (j : ℤ) : |v k - x| ≤ |v j - x| ∧ (|v k - x| = |v j - x| → j = k ∨ k % 2 = 0) := by
  obtain ⟨hlo, hhi, htie⟩ := h
  obtain hj | rfl | hj := lt_trichotomy j k
  · have hle : v j ≤ v (k - 1) := hv.monotone (by omega)
    have hlt : v (k - 1) < v k := hv (by omega)
    rw [abs_sub_comm (v j), abs_of_nonneg (show 0 ≤ x - v j by linarith)]
    obtain ⟨ha, hb⟩ | ⟨ha, hb⟩ := abs_cases (v k - x) <;> rw [ha]
    · exact ⟨by linarith, fun _ => .inr (htie (.inl (by linarith)))⟩
    · exact ⟨by linarith, fun _ => by linarith⟩
  · exact ⟨le_rfl, fun _ => .inl rfl⟩
  · have hle : v (k + 1) ≤ v j := hv.monotone (by omega)
    have hlt : v k < v (k + 1) := hv (by omega)
    rw [abs_of_nonneg (show 0 ≤ v j - x by linarith)]
    obtain ⟨ha, hb⟩ | ⟨ha, hb⟩ := abs_cases (v k - x) <;> rw [ha]
    · exact ⟨by linarith, fun _ => by linarith⟩
    · exact ⟨by linarith, fun _ => .inr (htie (.inr (by linarith)))⟩

/-! ### Rounding to an integer -/

/-- `a` and `b` compare alike with every integer. -/
def SameCell (a b : ℝ) : Prop := ∀ j : ℤ, ((j : ℝ) ≤ a ↔ (j : ℝ) ≤ b) ∧ (a ≤ j ↔ b ≤ j)

theorem SameCell.refl (a : ℝ) : SameCell a a := fun _ => ⟨Iff.rfl, Iff.rfl⟩

theorem SameCell.eq_iff {a b : ℝ} (h : SameCell a b) (j : ℤ) : a = j ↔ b = j := by
  rw [le_antisymm_iff, le_antisymm_iff, (h j).1, (h j).2]

/-- Two numbers strictly between the same neighbouring integers. -/
theorem sameCell_of_between {a b : ℝ} {d : ℤ} (ha : d < a ∧ a < d + 1) (hb : d < b ∧ b < d + 1) :
    SameCell a b := by
  intro j
  obtain hj | hj := le_or_gt j d
  · have hj' : (j : ℝ) ≤ d := by exact_mod_cast hj
    exact ⟨iff_of_true (by linarith) (by linarith), iff_of_false (by linarith) (by linarith)⟩
  · have hj' : (d : ℝ) + 1 ≤ j := by exact_mod_cast hj
    exact ⟨iff_of_false (by linarith) (by linarith), iff_of_true (by linarith) (by linarith)⟩

theorem SameCell.div {a b : ℝ} (h : SameCell a b) {n : ℕ} (hn : 0 < n) :
    SameCell (a / n) (b / n) := by
  intro j
  have hn' : (0 : ℝ) < n := by exact_mod_cast hn
  have hj := h (j * n)
  push_cast at hj
  rwa [le_div_iff₀ hn', le_div_iff₀ hn', div_le_iff₀ hn', div_le_iff₀ hn']

/-- The nearest integer depends only on how `2 * x` compares with the integers. -/
theorem NearestInt.of_sameCell {r : ℤ} {x y : ℝ} (h : NearestInt r x)
    (hxy : SameCell (2 * x) (2 * y)) : NearestInt r y := by
  obtain ⟨hlo, hhi, htie⟩ := h
  have e1 : ((r - 1 : ℤ) : ℝ) + r = ((2 * r - 1 : ℤ) : ℝ) := by push_cast; ring
  have e2 : (r : ℝ) + ((r + 1 : ℤ) : ℝ) = ((2 * r + 1 : ℤ) : ℝ) := by push_cast; ring
  rw [e1] at hlo
  rw [e2] at hhi
  rw [e1, e2, hxy.eq_iff, hxy.eq_iff] at htie
  exact ⟨e1 ▸ (hxy _).1.mp hlo, e2 ▸ (hxy _).2.mp hhi, e1.symm ▸ e2.symm ▸ htie⟩

section
variable {f : ℕ} {u : ℝ}

/-- A fraction up to one half is rounded off, at one half where that leaves an even integer. -/
theorem nearestInt_add_fraction (h0 : 0 ≤ u) (h : 2 * u ≤ 1) (htie : 2 * u = 1 → f % 2 = 0) :
    NearestInt f (f + u) where
  lower := by push_cast; linarith
  upper := by push_cast; linarith
  tie ht := by
    push_cast at ht
    rcases ht with ht | ht
    · linarith
    · exact_mod_cast htie (by linarith)

/-- A fraction from one half is rounded up, at one half where that gives an even integer. -/
theorem nearestInt_succ_add_fraction (h1 : u < 1) (h : 1 ≤ 2 * u) (htie : 2 * u = 1 → f % 2 = 1) :
    NearestInt (f + 1 : ℕ) (f + u) where
  lower := by push_cast; linarith
  upper := by push_cast; linarith
  tie ht := by
    push_cast at ht ⊢
    rcases ht with ht | ht
    · have hodd := htie (by linarith)
      omega
    · linarith

end

theorem nearestInt_natCast (n : ℕ) : NearestInt n n := by
  simpa using nearestInt_add_fraction (f := n) le_rfl (by norm_num) (by norm_num)

/-- A quotient of natural numbers is its integer part and the fraction left over. -/
theorem natCast_div_eq_add_fraction (n : ℕ) {d : ℕ} (hd : 0 < d) :
    (n : ℝ) / d = (n / d : ℕ) + (n % d : ℕ) / d := by
  have hd' : (d : ℝ) ≠ 0 := by exact_mod_cast hd.ne'
  rw [div_eq_iff hd', add_mul, div_mul_cancel₀ _ hd']
  exact_mod_cast (Nat.div_add_mod' n d).symm

theorem fraction_lt_one (n : ℕ) {d : ℕ} (hd : 0 < d) : ((n % d : ℕ) : ℝ) / d < 1 := by
  rw [div_lt_one (by exact_mod_cast hd)]
  exact_mod_cast Nat.mod_lt n hd

theorem roundShift_nearest (m s : ℕ) :
    NearestInt (F64.roundShift m s) ((m : ℝ) / (2 ^ s : ℕ)) := by
  have hd : 0 < 2 ^ s := by positivity
  have hd' : (0 : ℝ) < (2 ^ s : ℕ) := by exact_mod_cast hd
  have hmore : 2 ^ s < 2 * (m % 2 ^ s) ↔ 1 < 2 * (((m % 2 ^ s : ℕ) : ℝ) / (2 ^ s : ℕ)) := by
    rw [← mul_div_assoc, one_lt_div hd']; exact_mod_cast Iff.rfl
  have hhalf : 2 * (m % 2 ^ s) = 2 ^ s ↔ 2 * (((m % 2 ^ s : ℕ) : ℝ) / (2 ^ s : ℕ)) = 1 := by
    rw [← mul_div_assoc, div_eq_one_iff_eq hd'.ne']; exact_mod_cast Iff.rfl
  rw [natCast_div_eq_add_fraction m hd, F64.roundShift]
  simp only [hmore, hhalf]
  split
  · next h =>
    exact nearestInt_succ_add_fraction (fraction_lt_one m hd) (h.elim le_of_lt fun h => h.1.ge)
      fun ht => h.elim (fun h => absurd ht h.ne') fun h => h.2
  · next h =>
    rw [not_or, not_lt, not_and] at h
    exact nearestInt_add_fraction (by positivity) h.1 fun ht =>
      (Nat.mod_two_ne_one.mp (h.2 ht))

/-! ### Rounding to a binary64 number -/

/-- A significand on the grid of exponent `E` has its pattern at `E * 2 ^ 52` plus the significand,
also when it is `2 ^ 53`, the first of the next exponent. -/
theorem magVal_grid {E r : ℕ} (hlo : E = 0 ∨ 2 ^ 52 ≤ r) (hhi : r ≤ 2 ^ 53) :
    magVal (E * 2 ^ 52 + r) = r * (2 : ℚ) ^ ((E : ℤ) - 1074) := by
  obtain hsub | hnorm | hcarry : (E = 0 ∧ r < 2 ^ 52) ∨ (2 ^ 52 ≤ r ∧ r < 2 ^ 53) ∨ r = 2 ^ 53 := by
    omega
  · obtain ⟨rfl, hr⟩ := hsub
    rw [magVal, if_pos (by omega), show (0 * 2 ^ 52 + r) / 2 ^ 52 = 0 by omega,
      show (0 * 2 ^ 52 + r) % 2 ^ 52 = r by omega]
    norm_num
  · rw [magVal, show (E * 2 ^ 52 + r) / 2 ^ 52 = E + 1 by omega, if_neg (by omega),
      show 2 ^ 52 + (E * 2 ^ 52 + r) % 2 ^ 52 = r by omega,
      show ((max (E + 1) 1 : ℕ) : ℤ) - 1075 = E - 1074 by omega]
  · rw [magVal, show (E * 2 ^ 52 + r) / 2 ^ 52 = E + 2 by omega, if_neg (by omega),
      show (E * 2 ^ 52 + r) % 2 ^ 52 = 0 by omega, hcarry,
      show ((max (E + 2) 1 : ℕ) : ℤ) - 1075 = (E - 1074) + 1 by omega,
      zpow_add_one₀ (by norm_num)]
    push_cast
    ring

/-- The order key of the significand `r` on the grid of exponent `E`. -/
def gridKey (E r : ℕ) : ℤ := (E * 2 ^ 52 + r : ℕ)

/-- The step of the grid of exponent `E`. -/
noncomputable def gridStep (E : ℕ) : ℝ := 2 ^ ((E : ℤ) - 1074)

theorem gridStep_pos (E : ℕ) : 0 < gridStep E := by unfold gridStep; positivity

theorem keyVal_gridKey {E r : ℕ} (hlo : E = 0 ∨ 2 ^ 52 ≤ r) (hhi : r ≤ 2 ^ 53) :
    (keyVal (gridKey E r) : ℝ) = r * gridStep E := by
  rw [keyVal, gridKey, if_neg (by omega), Int.natAbs_natCast, magVal_grid hlo hhi, Rat.cast_mul,
    Rat.cast_natCast, cast_two_zpow, gridStep]

theorem keyVal_cast_strictMono : StrictMono (fun k : ℤ => (keyVal k : ℝ)) :=
  fun _ _ h => Rat.cast_lt.mpr (keyVal_strictMono h)

section
variable {E r : ℕ} {z : ℝ} (hr_lo : E = 0 ∨ 2 ^ 52 ≤ r) (hr_hi : r ≤ 2 ^ 53)
include hr_lo hr_hi

/-- Where `z` lies above the midpoint below `r`, its multiple of the step lies above the midpoint
below the number of `r`. The number below is that of `r - 1`, or else `r` starts the binade and
`z` is not below `r`. -/
theorem keyVal_midpoint_below (h0 : 0 < z) (hz : E = 0 ∨ 2 ^ 52 ≤ z)
    (h : (r : ℝ) - 1 + r ≤ 2 * z) :
    (keyVal (gridKey E r - 1) : ℝ) + keyVal (gridKey E r) ≤ 2 * (z * gridStep E) ∧
      (2 * (z * gridStep E) = keyVal (gridKey E r - 1) + keyVal (gridKey E r) →
        2 * z = r - 1 + r) := by
  have hstep := gridStep_pos E
  obtain hrz | hzr := le_or_gt (r : ℝ) z
  · have hlt : (keyVal (gridKey E r - 1) : ℝ) < keyVal (gridKey E r) :=
      keyVal_cast_strictMono (by omega)
    have hle : r * gridStep E ≤ z * gridStep E := mul_le_mul_of_nonneg_right hrz hstep.le
    have hval := keyVal_gridKey hr_lo hr_hi
    exact ⟨by linarith, fun _ => by linarith⟩
  · have hpos : 0 < r := by exact_mod_cast h0.trans hzr
    have hinside : E = 0 ∨ 2 ^ 52 ≤ r - 1 := hz.imp_right fun hz => by
      have : 2 ^ 52 < r := by exact_mod_cast hz.trans_lt hzr
      omega
    have hpred : gridKey E r - 1 = gridKey E (r - 1) := by unfold gridKey; omega
    rw [hpred, keyVal_gridKey hinside (by omega), Nat.cast_pred hpos, keyVal_gridKey hr_lo hr_hi,
      ← add_mul, ← mul_assoc, mul_le_mul_iff_left₀ hstep, mul_left_inj' hstep.ne']
    exact ⟨h, id⟩

/-- Where `z` lies below the midpoint above `r`, its multiple of the step lies below the midpoint
above the number of `r`. The number above is that of `r + 1`, or else `r` is past the binade's end
and `z` is not above `r`. -/
theorem keyVal_midpoint_above (hz : z ≤ 2 ^ 53) (h : 2 * z ≤ (r : ℝ) + (r + 1)) :
    2 * (z * gridStep E) ≤ keyVal (gridKey E r) + keyVal (gridKey E r + 1) ∧
      (2 * (z * gridStep E) = keyVal (gridKey E r) + keyVal (gridKey E r + 1) →
        2 * z = r + (r + 1)) := by
  have hstep := gridStep_pos E
  have hval := keyVal_gridKey hr_lo hr_hi
  obtain hlt | rfl := hr_hi.lt_or_eq
  · have hsucc : gridKey E r + 1 = gridKey E (r + 1) := by unfold gridKey; omega
    rw [hsucc, keyVal_gridKey (r := r + 1) (by omega) hlt, Nat.cast_succ, hval, ← add_mul,
      ← mul_assoc, mul_le_mul_iff_left₀ hstep, mul_left_inj' hstep.ne']
    exact ⟨h, id⟩
  · have hlt : (keyVal (gridKey E (2 ^ 53)) : ℝ) < keyVal (gridKey E (2 ^ 53) + 1) :=
      keyVal_cast_strictMono (by omega)
    have hle : z * gridStep E ≤ (2 ^ 53 : ℕ) * gridStep E :=
      mul_le_mul_of_nonneg_right (by exact_mod_cast hz) hstep.le
    exact ⟨by linarith, fun _ => by linarith⟩

end

/-- Rounding on the grid of exponent `E` is rounding to binary64. -/
theorem NearestInt.nearestKey {E r : ℕ} {z : ℝ} (h : NearestInt r z) (h0 : 0 < z)
    (hlo : E = 0 ∨ 2 ^ 52 ≤ z) (hhi : z ≤ 2 ^ 53) :
    NearestKey (gridKey E r) (z * gridStep E) := by
  obtain ⟨hlower, hupper, htie⟩ := h
  push_cast at hlower hupper htie
  have hr_hi : r ≤ 2 ^ 53 := by
    by_contra hc
    have : (2 : ℝ) ^ 53 + 1 ≤ r := by exact_mod_cast not_le.mp hc
    linarith
  have hr_lo : E = 0 ∨ 2 ^ 52 ≤ r := hlo.imp_right fun hz => by
    by_contra hc
    have : (r : ℝ) + 1 ≤ 2 ^ 52 := by exact_mod_cast not_le.mp hc
    linarith
  have hbelow := keyVal_midpoint_below hr_lo hr_hi h0 hlo hlower
  have habove := keyVal_midpoint_above hr_lo hr_hi hhi hupper
  refine ⟨hbelow.1, habove.1, fun ht => ?_⟩
  have heven := htie (ht.imp hbelow.2 habove.2)
  unfold gridKey
  omega

/-- The threshold of overflow is the midpoint of the largest finite number and the next on its
grid. -/
theorem two_mul_overflowAt :
    2 * overflowAt = keyVal (F64.infMag - 1 : ℤ) + keyVal (F64.infMag : ℤ) := by
  have hinf : (keyVal (F64.infMag : ℤ) : ℝ) = 2 ^ 53 * gridStep 2045 := by
    rw [show (F64.infMag : ℤ) = gridKey 2045 (2 ^ 53) by decide,
      keyVal_gridKey (by omega) le_rfl]
    norm_num
  have hmax : (keyVal (F64.infMag - 1 : ℤ) : ℝ) = (2 ^ 53 - 1) * gridStep 2045 := by
    rw [show (F64.infMag - 1 : ℤ) = gridKey 2045 (2 ^ 53 - 1) by decide,
      keyVal_gridKey (by omega) (by omega)]
    norm_num
  have hpow : (2 : ℝ) ^ 1024 = 2 ^ 970 * 2 ^ 54 := (pow_add 2 970 54)
  have hstep : gridStep 2045 = 2 ^ 970 * 2 := pow_succ 2 970
  rw [hmax, hinf, overflowAt, hpow, hstep]
  generalize (2 : ℝ) ^ 970 = t
  ring

/-- The key nearest to a positive number is in range exactly below the threshold of overflow: on
the threshold itself the tie goes to the even key, the infinity's. -/
theorem NearestKey.lt_infMag_iff {k : ℕ} {x : ℝ} (h : NearestKey k x) :
    k < F64.infMag ↔ x < overflowAt := by
  have hthr := two_mul_overflowAt
  obtain ⟨hlo, hhi, htie⟩ := h
  have hmono : Monotone (fun k : ℤ => (keyVal k : ℝ)) := keyVal_cast_strictMono.monotone
  constructor
  · intro hk
    have h1 : (keyVal k : ℝ) ≤ keyVal (F64.infMag - 1 : ℤ) := hmono (by omega)
    have h2 : (keyVal (k + 1 : ℤ) : ℝ) ≤ keyVal (F64.infMag : ℤ) := hmono (by omega)
    refine lt_of_le_of_ne (by linarith) fun hx => ?_
    have heven : (k : ℤ) % 2 = 0 := htie (.inr (by linarith))
    have hlast : (F64.infMag - 1 : ℤ) ≤ k :=
      keyVal_cast_strictMono.le_iff_le.mp (show (keyVal _ : ℝ) ≤ keyVal _ by linarith)
    have hodd : F64.infMag % 2 = 0 := rfl
    omega
  · intro hx
    by_contra hk
    have h1 : (keyVal (F64.infMag - 1 : ℤ) : ℝ) ≤ keyVal (k - 1 : ℤ) := hmono (by omega)
    have h2 : (keyVal (F64.infMag : ℤ) : ℝ) ≤ keyVal k := hmono (by omega)
    linarith

theorem F64.key_pack_false {m : ℕ} (h : m < 2 ^ 63) : F64.key (F64.pack false m) = m := by
  rw [F64.key, F64.neg?_pack _ h, F64.mag_pack _ h]
  rfl

theorem NearestKey.correctlyRounded {k : ℕ} {x : ℝ} (hx : 0 < x)
    (h : NearestKey k x) :
    CorrectlyRounded (F64.pack false (min k F64.infMag)) x := by
  have hrange := h.lt_infMag_iff
  have hmin : min k F64.infMag < 2 ^ 63 := lt_of_le_of_lt (min_le_right _ _) infMag_lt
  refine ⟨fun hsmall => ?_, fun hbig => ?_, fun _ => ?_⟩
  · have hk : k < F64.infMag := hrange.mpr (lt_of_le_of_lt (le_abs_self x) hsmall)
    rw [min_eq_left hk.le] at hmin ⊢
    have hkey := F64.key_pack_false hmin
    refine ⟨by rw [F64.isFinite, F64.mag_pack _ hmin]; exact decide_eq_true hk, fun g _ => ?_⟩
    rw [F64.toRat_eq_iff, F64.toRat_eq, F64.toRat_eq g, F64.mag_pack _ hmin, hkey]
    have hc := h.closest keyVal_cast_strictMono (F64.key g)
    exact ⟨hc.1, fun he => (hc.2 he).imp_right (by omega)⟩
  · rw [abs_of_pos hx] at hbig
    have hk : ¬ k < F64.infMag := fun hk => absurd (hrange.mp hk) (not_lt.mpr hbig)
    rw [min_eq_right (not_lt.mp hk), if_neg hx.not_gt]
    decide
  · rw [F64.neg?_pack _ hmin]
    simp [hx.le]

end Sys2Proof
end

section
/-! PROOF. `F64.round` is correct for the exact number it is given, and for every number that lies
like it between the midpoints of its grid: the last bit of a quotient or a root, which records
whether anything is left over, is enough to round by (00_scope.md R23). -/

namespace Sys2Proof

open Sys2Proof.Claims

/-! ### Signs -/

/-- The sign factor of a sign bit. -/
def signOf (n : Bool) : ℝ := if n then -1 else 1

@[simp] theorem signOf_false : signOf false = 1 := rfl
@[simp] theorem signOf_true : signOf true = -1 := rfl

theorem signOf_mul (m n : Bool) : signOf m * signOf n = signOf (m != n) := by
  cases m <;> cases n <;> norm_num

theorem signOf_div (m n : Bool) : signOf m / signOf n = signOf (m != n) := by
  cases m <;> cases n <;> norm_num

theorem signOf_mul_natAbs (t : ℤ) : signOf (decide (t < 0)) * (t.natAbs : ℝ) = t := by
  rw [Nat.cast_natAbs, Int.cast_abs]
  obtain ht | ht := lt_or_ge t 0
  · have ht' : (t : ℝ) < 0 := by exact_mod_cast ht
    simp [ht, abs_of_neg ht']
  · have ht' : (0 : ℝ) ≤ t := by exact_mod_cast ht
    simp [ht.not_gt, abs_of_nonneg ht']

/-- The number a pattern denotes, as a real number. -/
theorem F64.toRat_cast (a : F64) :
    (F64.toRat a : ℝ) = signOf (F64.neg? a) * F64.sig a * 2 ^ F64.exp2 a := by
  rw [F64.toRat, Rat.cast_mul, Rat.cast_mul, Rat.cast_natCast, cast_two_zpow]
  cases F64.neg? a <;> norm_num

theorem keyVal_neg (k : ℤ) : keyVal (-k) = -keyVal k := by
  obtain hk | rfl | hk := lt_trichotomy k 0
  · rw [keyVal, keyVal, if_neg (by omega), if_pos hk, Int.natAbs_neg, neg_neg]
  · simp [keyVal, magVal_zero]
  · rw [keyVal, keyVal, if_pos (by omega), if_neg (by omega), Int.natAbs_neg]

@[simp] theorem F64.toRat_neg (a : F64) : F64.toRat (F64.neg a) = -F64.toRat a := by
  rw [F64.toRat_eq, F64.toRat_eq, F64.key_neg, keyVal_neg]

/-- Rounding to nearest with ties to even is symmetric. -/
theorem Claims.CorrectlyRounded.neg {f : F64} {x : ℝ} (h : CorrectlyRounded f x) (hx : x ≠ 0) :
    CorrectlyRounded (F64.neg f) (-x) := by
  refine ⟨fun hsmall => ?_, fun hbig => ?_, fun _ => ?_⟩
  · rw [abs_neg] at hsmall
    obtain ⟨hf, hclosest⟩ := h.nearest hsmall
    have hflip (a b : ℝ) : |-a - -b| = |a - b| := by rw [neg_sub_neg, abs_sub_comm]
    refine ⟨by rwa [F64.isFinite_neg], fun g hg => ?_⟩
    have hc := hclosest (F64.neg g) (by rwa [F64.isFinite_neg])
    rw [F64.toRat_neg, Rat.cast_neg] at hc
    have hgx : |(F64.toRat g : ℝ) - -x| = |-(F64.toRat g : ℝ) - x| := by rw [← hflip, neg_neg]
    rw [F64.toRat_neg, Rat.cast_neg, F64.mag_neg, hflip, hgx]
    exact hc.imp_right fun himp he => (himp he).imp_left fun h => by rw [← h, neg_neg]
  · rw [abs_neg] at hbig
    rw [h.overflow hbig]
    obtain hlt | hgt := hx.lt_or_gt
    · rw [if_pos hlt, if_neg (by linarith)]; decide
    · rw [if_neg hgt.not_gt, if_pos (by linarith)]; decide
  · rw [F64.neg?_neg, Bool.not_eq_true', ← Bool.not_eq_true, h.sign hx, not_lt, neg_lt_zero,
      hx.symm.le_iff_lt]

theorem correctlyRounded_of_isZero {f : F64} (h : F64.isZero f = true) : CorrectlyRounded f 0 := by
  refine ⟨fun _ => ⟨isZero_finite h, fun g _ => ?_⟩, fun hbig => ?_, fun hx => absurd rfl hx⟩
  · have hm : F64.mag f = 0 := of_decide_eq_true h
    rw [toRat_of_isZero h, hm]
    simp
  · have hbig' : overflowAt ≤ 0 := abs_zero (α := ℝ) ▸ hbig
    linarith [one_lt_overflowAt]

/-! ### Numbers that round like `m * 2 ^ e` -/

/-- `x` lies like `m * 2 ^ e` between the multiples of half a unit in the last place. -/
def RoundsLike (m : ℕ) (e : ℤ) (x : ℝ) : Prop :=
  SameCell (2 * (m * 2 ^ e / 2 ^ F64.ulpExp m e)) (2 * (x / 2 ^ F64.ulpExp m e))

theorem roundsLike_self (m : ℕ) (e : ℤ) : RoundsLike m e (m * 2 ^ e) := SameCell.refl _

/-- A number `z` between `d` and `d + 1` rounds like `d` and a further bit, set when `z` is not `d`,
when `d` has more bits than a significand. -/
theorem roundsLike_sticky {d c : ℕ} {z : ℝ} (hd : 2 ^ 59 ≤ d)
    (hc : c = 0 ∧ z = d ∨ c = 1 ∧ d < z ∧ z < d + 1) (e : ℤ) :
    RoundsLike (2 * d + c) e (z * 2 ^ (e + 1)) := by
  have hlog : 60 ≤ Nat.log2 (2 * d + c) := (Nat.le_log2 (by omega)).mpr (by omega)
  obtain ⟨t, ht⟩ : ∃ t : ℕ, F64.ulpExp (2 * d + c) e = e + 2 + t :=
    ⟨(F64.ulpExp (2 * d + c) e - (e + 2)).toNat, by unfold F64.ulpExp; omega⟩
  have hcell : SameCell (d + c / 2) z := by
    obtain ⟨rfl, rfl⟩ | ⟨rfl, hz⟩ := hc
    · simpa using SameCell.refl _
    · exact sameCell_of_between (d := d) (by norm_num) (by exact_mod_cast hz)
  have h := hcell.div (n := 2 ^ t) (by positivity)
  unfold RoundsLike
  rw [ht, zpow_add₀ two_ne_zero, zpow_add₀ two_ne_zero, zpow_add₀ two_ne_zero, zpow_natCast]
  convert h using 1
  · push_cast; field_simp
  · push_cast; field_simp

/-- The significand `F64.roundMag` rounds to, on the grid of the last place. -/
def roundSig (m : ℕ) (e : ℤ) : ℕ :=
  if F64.ulpExp m e ≤ e then m * 2 ^ (e - F64.ulpExp m e).toNat
  else F64.roundShift m (F64.ulpExp m e - e).toNat

theorem roundMag_eq (m : ℕ) (e : ℤ) : F64.roundMag m e
    = min ((F64.ulpExp m e + 1074).toNat * 2 ^ 52 + roundSig m e) F64.infMag := rfl

theorem roundSig_nearest (m : ℕ) (e : ℤ) :
    NearestInt (roundSig m e) (m * 2 ^ e / 2 ^ F64.ulpExp m e) := by
  rw [mul_div_assoc, ← zpow_sub₀ two_ne_zero, roundSig]
  split
  · next h =>
    obtain ⟨s, hs⟩ := Int.eq_ofNat_of_zero_le (sub_nonneg.mpr h)
    rw [hs, Int.toNat_natCast, zpow_natCast]
    exact_mod_cast nearestInt_natCast (m * 2 ^ s)
  · next h =>
    obtain ⟨s, hs⟩ := Int.eq_ofNat_of_zero_le (sub_nonneg.mpr (not_le.mp h).le)
    rw [← neg_sub (F64.ulpExp m e) e, hs, Int.toNat_natCast, zpow_neg, zpow_natCast,
      ← div_eq_mul_inv]
    exact_mod_cast roundShift_nearest m s

theorem le_ulpExp (m : ℕ) (e : ℤ) : -1074 ≤ F64.ulpExp m e := le_max_right _ _

/-- In units of the last place, a number has at most 53 bits. -/
theorem div_ulp_le (m : ℕ) (e : ℤ) : m * 2 ^ e / 2 ^ F64.ulpExp m e ≤ (2 : ℝ) ^ 53 := by
  have hm : (m : ℝ) ≤ 2 ^ ((Nat.log2 m + 1 : ℕ) : ℤ) := by
    rw [zpow_natCast]; exact_mod_cast Nat.lt_log2_self.le
  have hexp : ((Nat.log2 m + 1 : ℕ) : ℤ) + e ≤ 53 + F64.ulpExp m e := by
    have := le_max_left (e + (Nat.log2 m + 1 : ℕ) - 53) (-1074)
    unfold F64.ulpExp
    omega
  rw [div_le_iff₀ (by positivity)]
  calc (m : ℝ) * 2 ^ e ≤ 2 ^ ((Nat.log2 m + 1 : ℕ) : ℤ) * 2 ^ e := by gcongr
    _ = 2 ^ (((Nat.log2 m + 1 : ℕ) : ℤ) + e) := (zpow_add₀ two_ne_zero _ _).symm
    _ ≤ 2 ^ (53 + F64.ulpExp m e) := zpow_le_zpow_right₀ one_le_two hexp
    _ = 2 ^ 53 * 2 ^ F64.ulpExp m e := zpow_add₀ two_ne_zero _ _

/-- In units of the last place, a number has all 53 bits, but where the grid is the finest. -/
theorem le_div_ulp {m : ℕ} (hm : 0 < m) {e : ℤ} (h : F64.ulpExp m e ≠ -1074) :
    (2 : ℝ) ^ 52 ≤ m * 2 ^ e / 2 ^ F64.ulpExp m e := by
  have hlog : (2 : ℝ) ^ (Nat.log2 m : ℤ) ≤ m := by
    rw [zpow_natCast]; exact_mod_cast Nat.log2_self_le hm.ne'
  have hexp : 52 + F64.ulpExp m e = Nat.log2 m + e := by
    unfold F64.ulpExp at h ⊢
    omega
  rw [le_div_iff₀ (by positivity)]
  calc (2 : ℝ) ^ 52 * 2 ^ F64.ulpExp m e = 2 ^ (52 + F64.ulpExp m e) :=
        (zpow_add₀ two_ne_zero 52 _).symm
    _ = 2 ^ (Nat.log2 m : ℤ) * 2 ^ e := by rw [hexp, zpow_add₀ two_ne_zero]
    _ ≤ m * 2 ^ e := by gcongr

theorem roundMag_nearest {m : ℕ} {e : ℤ} {x : ℝ} (hm : 0 < m) (hx : 0 < x)
    (h : RoundsLike m e x) : ∃ k : ℕ, F64.roundMag m e = min k F64.infMag ∧ NearestKey k x := by
  have hstep : gridStep (F64.ulpExp m e + 1074).toNat = 2 ^ F64.ulpExp m e := by
    have := le_ulpExp m e
    rw [gridStep, show (((F64.ulpExp m e + 1074).toNat : ℕ) : ℤ) - 1074 = F64.ulpExp m e by omega]
  have hhi : x / 2 ^ F64.ulpExp m e ≤ 2 ^ 53 := by
    have := (h (2 ^ 54)).2.mp (by push_cast; linarith [div_ulp_le m e])
    push_cast at this
    linarith
  have hlo : (F64.ulpExp m e + 1074).toNat = 0 ∨ 2 ^ 52 ≤ x / 2 ^ F64.ulpExp m e := by
    by_cases hmin : F64.ulpExp m e = -1074
    · exact .inl (by omega)
    · have := (h (2 ^ 53)).1.mp (by push_cast; linarith [le_div_ulp hm hmin])
      push_cast at this
      exact .inr (by linarith)
  have hnear := ((roundSig_nearest m e).of_sameCell h).nearestKey (by positivity) hlo hhi
  rw [hstep, div_mul_cancel₀ _ (by positivity)] at hnear
  exact ⟨_, roundMag_eq m e, hnear⟩

theorem round_correct {m : ℕ} {e : ℤ} {x : ℝ} (hm : 0 < m) (hx : 0 < x) (h : RoundsLike m e x)
    (neg : Bool) : CorrectlyRounded (F64.round neg m e) (signOf neg * x) := by
  obtain ⟨k, hk, hnear⟩ := roundMag_nearest hm hx h
  have hpos := hnear.correctlyRounded hx
  rw [F64.round, if_neg hm.ne', hk]
  cases neg
  · simpa using hpos
  · have hlt : min k F64.infMag < 2 ^ 63 := lt_of_le_of_lt (min_le_right _ _) infMag_lt
    have := hpos.neg hx.ne'
    rw [F64.neg_eq_pack, F64.neg?_pack _ hlt, F64.mag_pack _ hlt] at this
    simpa using this

theorem round_exact (neg : Bool) (m : ℕ) (e : ℤ) :
    CorrectlyRounded (F64.round neg m e) (signOf neg * (m * 2 ^ e)) := by
  obtain rfl | hm := Nat.eq_zero_or_pos m
  · rw [Nat.cast_zero, zero_mul, mul_zero]
    exact correctlyRounded_of_isZero (F64.isZero_pack_zero neg)
  · exact round_correct hm (by positivity) (roundsLike_self m e) neg

end Sys2Proof
end

section
/-! PROOF. The operations on finite numbers, and the conversion of integers: each is one rounding of
the exact result (00_scope.md R23, R26). -/

namespace Sys2Proof

open Sys2Proof.Claims

/-! ### Sums and differences -/

/-- On a grid no coarser than its last place, a finite number is its count of grid steps. -/
theorem F64.scaled_mul_zpow {a : F64} {e : ℤ} (h : e ≤ F64.exp2 a) :
    (F64.scaled a e : ℝ) * 2 ^ e = F64.toRat a := by
  obtain ⟨s, hs⟩ := Int.eq_ofNat_of_zero_le (sub_nonneg.mpr h)
  have hpow : (2 : ℝ) ^ F64.exp2 a = 2 ^ s * 2 ^ e := by
    rw [← zpow_natCast, ← zpow_add₀ two_ne_zero, ← hs, sub_add_cancel]
  rw [F64.toRat_cast, F64.scaled, hs, Int.toNat_natCast, hpow]
  cases F64.neg? a <;> push_cast <;> simp <;> ring

theorem F64.add_correct {a b : F64} (ha : F64.isFinite a = true) (hb : F64.isFinite b = true) :
    CorrectlyRounded (F64.add a b) ((F64.toRat a : ℝ) + F64.toRat b) := by
  let e := min (F64.exp2 a) (F64.exp2 b)
  let t := F64.scaled a e + F64.scaled b e
  have hval : (F64.toRat a : ℝ) + F64.toRat b = t * 2 ^ e := by
    rw [← F64.scaled_mul_zpow (min_le_left _ _ : e ≤ F64.exp2 a),
      ← F64.scaled_mul_zpow (min_le_right _ _ : e ≤ F64.exp2 b), ← add_mul, ← Int.cast_add]
  have hadd : F64.add a b = if t = 0 then F64.pack (F64.neg? a && F64.neg? b) 0
      else F64.round (decide (t < 0)) t.natAbs e := by
    simp [F64.add, F64.finite_not_nan ha, F64.finite_not_nan hb, F64.isInf_of_finite ha,
      F64.isInf_of_finite hb, t, e]
  rw [hadd, hval]
  split
  · next ht =>
    rw [ht, Int.cast_zero, zero_mul]
    exact correctlyRounded_of_isZero (F64.isZero_pack_zero _)
  · rw [← signOf_mul_natAbs t, mul_assoc]
    exact round_exact _ _ _

theorem F64.sub_correct {a b : F64} (ha : F64.isFinite a = true) (hb : F64.isFinite b = true) :
    CorrectlyRounded (F64.sub a b) ((F64.toRat a : ℝ) - F64.toRat b) := by
  have h := F64.add_correct ha (b := F64.neg b) (by rwa [F64.isFinite_neg])
  rwa [F64.toRat_neg, Rat.cast_neg, ← sub_eq_add_neg] at h

/-! ### Products and quotients -/

theorem F64.mul_correct {a b : F64} (ha : F64.isFinite a = true) (hb : F64.isFinite b = true) :
    CorrectlyRounded (F64.mul a b) ((F64.toRat a : ℝ) * F64.toRat b) := by
  have hmul : F64.mul a b = F64.round (F64.neg? a != F64.neg? b) (F64.sig a * F64.sig b)
      (F64.exp2 a + F64.exp2 b) := by
    simp [F64.mul, F64.finite_not_nan ha, F64.finite_not_nan hb, F64.isInf_of_finite ha,
      F64.isInf_of_finite hb]
  have hval : (F64.toRat a : ℝ) * F64.toRat b = signOf (F64.neg? a != F64.neg? b)
      * ((F64.sig a * F64.sig b : ℕ) * 2 ^ (F64.exp2 a + F64.exp2 b)) := by
    rw [F64.toRat_cast, F64.toRat_cast, ← signOf_mul, zpow_add₀ two_ne_zero]
    push_cast
    ring
  rw [hmul, hval]
  exact round_exact _ _ _

theorem div_sticky (n : ℕ) {q : ℕ} (hq : 0 < q) :
    (if n % q = 0 then 0 else 1) = 0 ∧ (n : ℝ) / q = (n / q : ℕ) ∨
      (if n % q = 0 then 0 else 1) = 1 ∧
        ((n / q : ℕ) : ℝ) < n / q ∧ (n : ℝ) / q < (n / q : ℕ) + 1 := by
  have hq' : (0 : ℝ) < q := by exact_mod_cast hq
  rw [natCast_div_eq_add_fraction n hq]
  split
  · next h => exact .inl ⟨rfl, by rw [h, Nat.cast_zero, zero_div, add_zero]⟩
  · next h =>
    have hpos : (0 : ℝ) < (n % q : ℕ) / q := div_pos (by exact_mod_cast Nat.pos_of_ne_zero h) hq'
    have hlt := fraction_lt_one n hq
    exact .inr ⟨rfl, by linarith, by linarith⟩

/-- The quotient to at least 60 bits, and the bit that records a remainder, are enough. -/
theorem roundRatio_correct (neg : Bool) (p : ℕ) {q : ℕ} (hq : 0 < q) (e : ℤ) :
    CorrectlyRounded (F64.roundRatio neg p q e) (signOf neg * (p / q * 2 ^ e)) := by
  obtain rfl | hp := Nat.eq_zero_or_pos p
  · rw [Nat.cast_zero, zero_div, zero_mul, mul_zero]
    simpa [F64.roundRatio, F64.round] using
      correctlyRounded_of_isZero (F64.isZero_pack_zero neg)
  let k := 60 + Nat.log2 q
  let n := p * 2 ^ k
  have hbits : 2 ^ 59 ≤ n / q := by
    rw [Nat.le_div_iff_mul_le hq]
    calc 2 ^ 59 * q ≤ 2 ^ 59 * 2 ^ (Nat.log2 q + 1) := by
          gcongr; exact Nat.lt_log2_self.le
      _ = 1 * 2 ^ k := by simp only [k]; ring
      _ ≤ n := Nat.mul_le_mul_right _ hp
  have hval : (p : ℝ) / q * 2 ^ e = n / q * 2 ^ (e - k - 1 + 1) := by
    rw [sub_add_cancel, zpow_sub₀ two_ne_zero, zpow_natCast]
    simp only [n]
    push_cast
    field_simp
  rw [hval]
  exact round_correct (by omega) (by positivity)
    (roundsLike_sticky hbits (div_sticky n hq) _) neg

theorem F64.sig_eq_zero_iff (a : F64) : F64.sig a = 0 ↔ F64.isZero a = true := by
  simp only [F64.sig, F64.expo, F64.frac_eq_mag_mod, F64.isZero, decide_eq_true_eq]
  split <;> omega

theorem F64.div_correct {a b : F64} (ha : F64.isFinite a = true) (hb : F64.isFinite b = true)
    (hz : F64.isZero b = false) :
    CorrectlyRounded (F64.div a b) ((F64.toRat a : ℝ) / F64.toRat b) := by
  have hdiv : F64.div a b = F64.roundRatio (F64.neg? a != F64.neg? b) (F64.sig a) (F64.sig b)
      (F64.exp2 a - F64.exp2 b) := by
    simp [F64.div, F64.finite_not_nan ha, F64.finite_not_nan hb, F64.isInf_of_finite ha,
      F64.isInf_of_finite hb, hz]
  have hsig : 0 < F64.sig b :=
    Nat.pos_of_ne_zero fun h => by simp [(F64.sig_eq_zero_iff b).mp h] at hz
  have hval : (F64.toRat a : ℝ) / F64.toRat b = signOf (F64.neg? a != F64.neg? b)
      * (F64.sig a / F64.sig b * 2 ^ (F64.exp2 a - F64.exp2 b)) := by
    rw [F64.toRat_cast, F64.toRat_cast, ← signOf_div, zpow_sub₀ two_ne_zero, mul_div_mul_comm,
      mul_div_mul_comm, mul_assoc]
  rw [hdiv, hval]
  exact roundRatio_correct _ _ hsig _

/-- Settles O1, operation by operation. -/
theorem finiteArithmeticIsCorrectlyRounded : Obligations.FiniteArithmeticIsCorrectlyRounded :=
  fun _ _ ha hb => ⟨F64.add_correct ha hb, F64.sub_correct ha hb, F64.mul_correct ha hb,
    F64.div_correct ha hb⟩

/-! ### Roots -/

/-- The bits found so far are those of the root: it lies less than the next `2 ^ k` above them. -/
theorem isqrtFrom_spec (n : ℕ) : ∀ (k r : ℕ), r * r ≤ n → n < (r + 2 ^ k) * (r + 2 ^ k) →
    F64.isqrtFrom n k r = Nat.sqrt n
  | 0, _, hlo, hhi => Nat.eq_sqrt.mpr ⟨hlo, hhi⟩
  | k + 1, r, hlo, hhi => by
    rw [F64.isqrtFrom]
    split
    · next h =>
      refine isqrtFrom_spec n k _ h ?_
      rwa [add_assoc, ← two_mul, ← pow_succ']
    · next h => exact isqrtFrom_spec n k r hlo (not_le.mp h)

theorem isqrt_eq_sqrt {n : ℕ} (h : n < 2 ^ 176) : F64.isqrt n = Nat.sqrt n :=
  isqrtFrom_spec n 88 0 (Nat.zero_le _) (by rw [zero_add, ← pow_add]; exact h)

theorem F64.sig_lt (a : F64) : F64.sig a < 2 ^ 53 := by
  unfold F64.sig F64.frac
  split <;> omega

theorem sqrt_sticky (n : ℕ) :
    (if n.sqrt * n.sqrt = n then 0 else 1) = 0 ∧ √(n : ℝ) = n.sqrt ∨
      (if n.sqrt * n.sqrt = n then 0 else 1) = 1 ∧ n.sqrt < √(n : ℝ) ∧ √(n : ℝ) < n.sqrt + 1 := by
  split
  · next h =>
    refine .inl ⟨rfl, ?_⟩
    rw [Real.sqrt_eq_iff_mul_self_eq (by positivity) (by positivity)]
    exact_mod_cast h.symm
  · next h =>
    refine .inr ⟨rfl, lt_of_le_of_ne Real.nat_sqrt_le_real_sqrt fun he => h ?_,
      Real.real_sqrt_lt_nat_sqrt_succ⟩
    have hsq : (n.sqrt : ℝ) * n.sqrt = n := by rw [he, Real.mul_self_sqrt n.cast_nonneg]
    exact_mod_cast hsq

/-- The root to at least 60 bits, and the bit that records a remainder, are enough. -/
theorem round_sqrt_correct {n : ℕ} (hn : 2 ^ 118 ≤ n) (e : ℤ) :
    CorrectlyRounded
      (F64.round false (2 * n.sqrt + (if n.sqrt * n.sqrt = n then 0 else 1)) (e - 1))
      (√(n : ℝ) * 2 ^ e) := by
  have hbits : 2 ^ 59 ≤ n.sqrt := Nat.le_sqrt.mpr hn
  have hpos : (0 : ℝ) < n := by exact_mod_cast lt_of_lt_of_le (by norm_num) hn
  have hlike := roundsLike_sticky hbits (sqrt_sticky n) (e - 1)
  rw [sub_add_cancel] at hlike
  have h := round_correct (by omega) (by positivity) hlike false
  rwa [signOf_false, one_mul] at h

/-- A positive number is a significand and an even power of two, once the significand is shifted
left by `k`; the root of the power is exact. -/
theorem F64.sqrt_correct_of_pos {a : F64} (hf : F64.isFinite a = true) (hk : 0 < F64.key a) :
    CorrectlyRounded (F64.sqrt a) (√(F64.toRat a : ℝ)) := by
  let k : ℕ := 120 + (F64.exp2 a % 2).toNat
  let n := F64.sig a * 2 ^ k
  let h := (F64.exp2 a - k) / 2
  have hz : F64.isZero a = false := by
    rw [← Bool.not_eq_true, F64.isZero_iff_key]; exact hk.ne'
  have hs : F64.neg? a = false := by
    by_contra hs
    rw [F64.key, Bool.of_not_eq_false hs, if_pos rfl] at hk
    omega
  have hsig : 0 < F64.sig a :=
    Nat.pos_of_ne_zero fun h => by simp [(F64.sig_eq_zero_iff a).mp h] at hz
  have hlarge : 2 ^ 118 ≤ n :=
    calc 2 ^ 118 ≤ 1 * 2 ^ 120 := by norm_num
      _ ≤ n := Nat.mul_le_mul hsig (Nat.pow_le_pow_right (by norm_num) (by omega))
  have hsmall : n < 2 ^ 176 :=
    calc n < 2 ^ 53 * 2 ^ k := Nat.mul_lt_mul_of_pos_right (F64.sig_lt a) (by positivity)
      _ = 2 ^ (53 + k) := (pow_add 2 53 k).symm
      _ ≤ 2 ^ 176 := Nat.pow_le_pow_right (by norm_num) (by omega)
  have hsqrt : F64.sqrt a = F64.round false
      (2 * n.sqrt + (if n.sqrt * n.sqrt = n then 0 else 1)) (h - 1) := by
    rw [← isqrt_eq_sqrt hsmall]
    simp [F64.sqrt, F64.finite_not_nan hf, F64.isInf_of_finite hf, hz, hs, n, k, h]
  have hval : (F64.toRat a : ℝ) = n * (2 ^ h * 2 ^ h) := by
    rw [F64.toRat_cast, hs, signOf_false, one_mul, show F64.exp2 a = k + (h + h) by omega,
      zpow_add₀ two_ne_zero, zpow_add₀ two_ne_zero, zpow_natCast, ← mul_assoc]
    exact_mod_cast rfl
  rw [hsqrt, hval, Real.sqrt_mul n.cast_nonneg, Real.sqrt_mul_self (by positivity)]
  exact round_sqrt_correct hlarge h

theorem F64.sqrt_correct {a : F64} (hf : F64.isFinite a = true) (h : F64.le F64.zero a = true) :
    CorrectlyRounded (F64.sqrt a) (√(F64.toRat a : ℝ)) := by
  obtain hz | ⟨-, hk⟩ | rfl := nonneg_cases h
  · rw [toRat_of_isZero hz, Rat.cast_zero, Real.sqrt_zero, F64.sqrt, isZero_not_nan hz, hz]
    exact correctlyRounded_of_isZero hz
  · exact F64.sqrt_correct_of_pos hf hk
  · exact absurd hf (by decide)

/-- Settles O2. -/
theorem sqrtIsCorrectlyRounded : Obligations.SqrtIsCorrectlyRounded :=
  fun _ hf h => F64.sqrt_correct hf h

/-! ### Integers -/

/-- A positive integer up to `2 ^ 53` has a multiple by a power of two with 53 bits, or is
`2 ^ 53`. -/
theorem exists_shift {m : ℕ} (hm : 0 < m) (h : m ≤ 2 ^ 53) :
    ∃ s ≤ 52, 2 ^ 52 ≤ m * 2 ^ s ∧ m * 2 ^ s ≤ 2 ^ 53 := by
  refine ⟨52 - Nat.log2 m, Nat.sub_le _ _, ?_, ?_⟩
  · calc 2 ^ 52 ≤ 2 ^ (Nat.log2 m + (52 - Nat.log2 m)) :=
          Nat.pow_le_pow_right (by norm_num) (by omega)
      _ = 2 ^ Nat.log2 m * 2 ^ (52 - Nat.log2 m) := pow_add _ _ _
      _ ≤ m * 2 ^ (52 - Nat.log2 m) := Nat.mul_le_mul_right _ (Nat.log2_self_le hm.ne')
  · obtain hlog | hlog := le_or_gt (Nat.log2 m) 52
    · calc m * 2 ^ (52 - Nat.log2 m) ≤ 2 ^ (Nat.log2 m + 1) * 2 ^ (52 - Nat.log2 m) :=
            Nat.mul_le_mul_right _ Nat.lt_log2_self.le
        _ = 2 ^ 53 := by rw [← pow_add]; congr 1; omega
    · rwa [show 52 - Nat.log2 m = 0 by omega, pow_zero, mul_one]

/-- An integer of at most 53 bits is a binary64 number. -/
theorem exists_finite_toRat_eq_natCast {m : ℕ} (h : m ≤ 2 ^ 53) :
    ∃ g : F64, F64.isFinite g = true ∧ F64.toRat g = m := by
  obtain rfl | hm := Nat.eq_zero_or_pos m
  · exact ⟨F64.zero, by decide, toRat_zero⟩
  obtain ⟨s, hs, hlo, hhi⟩ := exists_shift hm h
  let k := (1074 - s) * 2 ^ 52 + m * 2 ^ s
  have hk : k < F64.infMag := by
    have : F64.infMag = 2047 * 2 ^ 52 := rfl
    omega
  refine ⟨ofKey k, finite_ofKey hk, ?_⟩
  rw [F64.toRat_eq, key_ofKey (k := k) hk.le, keyVal, if_neg (by omega), Int.natAbs_natCast,
    magVal_grid (.inr hlo) hhi, show ((1074 - s : ℕ) : ℤ) - 1074 = -s by omega, zpow_neg,
    zpow_natCast]
  push_cast
  field_simp

theorem exists_finite_toRat_eq_intCast {n : ℤ} (h : n.natAbs ≤ 2 ^ 53) :
    ∃ g : F64, F64.isFinite g = true ∧ F64.toRat g = n := by
  obtain ⟨g, hg, hval⟩ := exists_finite_toRat_eq_natCast h
  rw [← Int.cast_natCast] at hval
  obtain hn | hn := Int.natAbs_eq n
  · exact ⟨g, hg, by rw [hval, ← hn]⟩
  · exact ⟨F64.neg g, by rwa [F64.isFinite_neg], by rw [F64.toRat_neg, hval, ← Int.cast_neg, ← hn]⟩

theorem abs_toRat_lt_overflowAt {g : F64} (hg : F64.isFinite g = true) :
    |(F64.toRat g : ℝ)| < overflowAt := by
  have hthr := two_mul_overflowAt
  have hkey := (finite_iff_key g).mp hg
  have hlast : (keyVal (F64.infMag - 1 : ℤ) : ℝ) < keyVal (F64.infMag : ℤ) :=
    keyVal_cast_strictMono (by omega)
  have hhi : (keyVal (F64.key g) : ℝ) ≤ keyVal (F64.infMag - 1 : ℤ) :=
    keyVal_cast_strictMono.monotone (by omega)
  have hlo : (keyVal (-(F64.infMag - 1) : ℤ) : ℝ) ≤ keyVal (F64.key g) :=
    keyVal_cast_strictMono.monotone (by omega)
  rw [keyVal_neg, Rat.cast_neg] at hlo
  rw [F64.toRat_eq, abs_lt]
  constructor <;> linarith

/-- A binary64 number rounds to itself. -/
theorem Claims.CorrectlyRounded.toRat_eq {f g : F64} (h : CorrectlyRounded f (F64.toRat g))
    (hg : F64.isFinite g = true) : F64.isFinite f = true ∧ F64.toRat f = F64.toRat g := by
  obtain ⟨hf, hclosest⟩ := h.nearest (abs_toRat_lt_overflowAt hg)
  have hdist := (hclosest g hg).1
  rw [sub_self, abs_zero, abs_nonpos_iff, sub_eq_zero] at hdist
  exact ⟨hf, by exact_mod_cast hdist⟩

theorem F64.ofInt_correct (n : ℤ) : CorrectlyRounded (F64.ofInt n) n := by
  have h := round_exact (decide (n < 0)) n.natAbs 0
  rwa [zpow_zero, mul_one, signOf_mul_natAbs] at h

theorem F64.ofInt_exact {n : ℤ} (h : n.natAbs ≤ 2 ^ 53) :
    F64.isFinite (F64.ofInt n) = true ∧ F64.toRat (F64.ofInt n) = n := by
  obtain ⟨g, hg, hval⟩ := exists_finite_toRat_eq_intCast h
  have hround := F64.ofInt_correct n
  rw [← Rat.cast_intCast, ← hval] at hround
  rw [← hval]
  exact hround.toRat_eq hg

theorem F64.ofNat_eq_ofInt (n : ℕ) : F64.ofNat n = F64.ofInt n := by
  rw [F64.ofInt, decide_eq_false (by omega), Int.natAbs_natCast, F64.ofNat]

/-- Settles O6: the conversion is correctly rounded, and integers up to `2 ^ 53` are binary64
numbers. -/
theorem integerConversionIsExact : Obligations.IntegerConversionIsExact :=
  ⟨fun _ h => F64.ofInt_exact h, by decide, F64.ofNat_eq_ofInt⟩

end Sys2Proof
end

section
/-! PROOF. Stores (20_memory.md R93, R94): what a sequence of block writes within the capacities can do
to a memory, and what a fill leaves in each window. -/

namespace Sys2Proof.Machine

open Sys2Proof.Claims

/-- `m'` is `m` after writes of consecutive entries, each within the capacity of a window in `ws`. -/
inductive Stores (p : Params) (ws : Region → Prop) (m : List Host.Cell) : List Host.Cell → Prop
  | none : Stores p ws m m
  | write {m' : List Host.Cell} {r : Region} {k n : Nat} (f : Nat → Word) (before : Stores p ws m m')
      (window : ws r) (fits : k + n ≤ r.capacity p) :
      Stores p ws m (writeBlock m' (r.entryAddr k) n f)

theorem mappedByte_of_blockCell {p : Params} {r : Region} {k n : Nat} {f : Nat → Word}
    (h : k + n ≤ r.capacity p) {c : Host.Cell} (hc : c ∈ blockCells (r.entryAddr k) n f) :
    mappedByte p c.1 = true := by
  obtain ⟨t, ht, rfl⟩ := List.mem_map.mp hc
  rw [List.mem_range] at ht
  have hlo : r.base ≤ r.entryAddr k + t := by unfold Region.entryAddr; omega
  have hhi : r.entryAddr k + t < r.entryAddr (r.capacity p) := by unfold Region.entryAddr; omega
  exact List.any_eq_true.mpr ⟨r, mem_all_region r,
    Bool.and_eq_true_iff.mpr ⟨decide_eq_true hlo, decide_eq_true hhi⟩⟩

/-- Distinct entries within capacity do not overlap. -/
theorem entries_disjoint {p : Params} (hp : p.legal = true) {r r' : Region} {j j' : Nat}
    (hj : j < r.capacity p) (hj' : j' < r'.capacity p) (h : r ≠ r' ∨ j ≠ j') :
    r.entryAddr j + 8 ≤ r'.entryAddr j' ∨ r'.entryAddr j' + 8 ≤ r.entryAddr j := by
  by_cases hr : r = r'
  · subst hr
    have hne : j ≠ j' := h.resolve_left (fun hr => hr rfl)
    unfold Region.entryAddr
    omega
  · have hdisj := regions_disjoint hr
    have hb := entryAddr_bounds hp hj
    have hb' := entryAddr_bounds hp hj'
    omega

/-- A word is written exactly when all its bytes are. -/
theorem isSome_readWord (m : List Host.Cell) (a : Nat) :
    (readWord m a).isSome = true ↔ ∀ k, k < 8 → (Memory.read m (a + k)).isSome = true := by
  have hall : (∀ k, k < 8 → (Memory.read m (a + k)).isSome = true) ↔
      ∀ k ∈ List.range 8, (Memory.read m (a + k)).isSome = true := by simp
  rw [hall, readWord_eq]
  simp [List.range_succ, Option.isSome_iff_exists, Option.bind_eq_some_iff]

namespace Stores

variable {p : Params} {ws ws' : Region → Prop} {m m' m'' : List Host.Cell}

theorem mono (h : Stores p ws m m') (hsub : ∀ r, ws r → ws' r) : Stores p ws' m m' := by
  induction h with
  | none => exact .none
  | write f _ hw hfit ih => exact .write f ih (hsub _ hw) hfit

theorem trans (h : Stores p ws m m') (h' : Stores p ws m' m'') : Stores p ws m m'' := by
  induction h' with
  | none => exact h
  | write f _ hw hfit ih => exact .write f ih hw hfit

/-- One more window filled from its first entry on. -/
theorem fill {s : State} {r : Region} {n : Nat} (h : Stores p ws m s.mem) (f : Nat → Word)
    (hw : ws r) (hn : n ≤ r.capacity p) : Stores p ws m (s.fill r n f).mem :=
  .write (k := 0) f h hw (by omega)

theorem wf (h : Stores p ws m m') (hm : Memory.wf m) : Memory.wf m' := by
  induction h with
  | none => exact hm
  | write f _ _ _ ih => exact writeBlock_wf ih _ _ f

theorem mapped (h : Stores p ws m m') (hm : ∀ c ∈ m, mappedByte p c.1 = true) :
    ∀ c ∈ m', mappedByte p c.1 = true := by
  induction h with
  | none => exact hm
  | write f _ _ hfit ih =>
    intro c hc
    obtain hc | hc := mem_overlay hc
    · exact mappedByte_of_blockCell hfit hc
    · exact ih c hc

/-- No store makes a written byte unwritten. -/
theorem isSome_read (h : Stores p ws m m') (hm : Memory.wf m) {a : Nat}
    (ha : (Memory.read m a).isSome = true) : (Memory.read m' a).isSome = true := by
  induction h with
  | none => exact ha
  | write f before _ _ ih =>
    rw [read_writeBlock (before.wf hm)]
    split
    · rfl
    · exact ih

/-- No store makes a written word unwritten. -/
theorem isSome_readWord (h : Stores p ws m m') (hm : Memory.wf m) {a : Nat}
    (ha : (readWord m a).isSome = true) : (readWord m' a).isSome = true := by
  rw [Machine.isSome_readWord] at ha ⊢
  exact fun k hk => h.isSome_read hm (ha k hk)

/-- An entry of a window outside `ws` is left as it was. -/
theorem readWord_eq (h : Stores p ws m m') (hp : p.legal = true) (hm : Memory.wf m) {r : Region}
    (hr : ¬ ws r) {j : Nat} (hj : j < r.capacity p) :
    readWord m' (r.entryAddr j) = readWord m (r.entryAddr j) := by
  induction h with
  | none => rfl
  | @write _ r' k n f before hw hfit ih =>
    rw [← ih]
    have hne : r' ≠ r := fun h => hr (h ▸ hw)
    have hspan := capacity_span hp r'
    have hbounds := entryAddr_bounds hp hj
    have hdisj := regions_disjoint hne
    refine readWord_writeBlock_out (before.wf hm) _ _ _ ?_
    unfold Region.entryAddr at hbounds ⊢
    omega

end Stores

/-! ### The memory invariant -/

section
variable {s t : State} {ws : Region → Prop} {r r' : Region} {n n' : Nat}

theorem State.MemInv.of_stores (h : s.MemInv) (hp : t.params = s.params)
    (hst : Stores s.params ws s.mem t.mem) : t.MemInv where
  legal := hp ▸ h.legal
  canonical := hst.wf h.canonical
  mapped := hp ▸ hst.mapped h.mapped

theorem State.MemInv.fill (h : s.MemInv) (f : Nat → Word) (hn : n ≤ r.capacity s.params) :
    (s.fill r n f).MemInv :=
  h.of_stores (ws := (· = r)) rfl (Stores.none.fill f rfl hn)

theorem Stores.filled (h : Stores s.params ws s.mem t.mem) (hm : s.MemInv) (hf : s.filled r n) :
    t.filled r n :=
  fun j hj => h.isSome_readWord hm.canonical (hf j hj)

end

end Sys2Proof.Machine

namespace Sys2Proof.Claims

open Sys2Proof.Machine

/-! ### What a window holds -/

variable {s t : State} {ws : Region → Prop} {r r' : Region} {n n' : Nat} {f : Nat → Word}

theorem Holds.filled (h : Holds s r n f) : s.filled r n :=
  fun j hj => by rw [State.written, h j hj]; rfl

/-- What a window outside `ws` holds stays. -/
theorem Holds.keep (hf : Holds s r n f) (h : Stores s.params ws s.mem t.mem) (hm : s.MemInv)
    (hr : ¬ ws r) (hn : n ≤ r.capacity s.params) : Holds t r n f :=
  fun j hj => (h.readWord_eq hm.legal hm.canonical hr (hj.trans_le hn)).trans (hf j hj)

theorem holds_fill (h : s.MemInv) (r : Region) (n : Nat) (f : Nat → Word) :
    Holds (s.fill r n f) r n f :=
  fun _ hj => readWord_fill_in h.canonical r f hj

/-- A fill of one window leaves what another holds. -/
theorem Holds.fill (hf : Holds s r n f) (h : s.MemInv) (hr : r ≠ r')
    (hn : n ≤ r.capacity s.params) (g : Nat → Word) (hn' : n' ≤ r'.capacity s.params) :
    Holds (s.fill r' n' g) r n f :=
  hf.keep (Stores.none.fill (ws := (· = r')) g rfl hn') h hr hn

theorem Holds.entry_eq (h : Holds s r n f) {j : Nat} (hj : j < n) :
    s.entry r j = f j := by rw [State.entry, h j hj]

end Sys2Proof.Claims
end

section
/-! PROOF. What each command body does to a block whose memory and VALID flags keep their invariants: it
fills its own windows within capacity (10_state.md R60), and its flags promise what they should (R67). -/

namespace Sys2Proof.Machine

open Sys2Proof.Claims

/-! ### Several windows filled one after another -/

/-- The entries of a window below `count`, and the values they get. -/
structure Fill where
  region : Region
  count : Nat
  value : Nat → Word

/-- Windows filled in turn. -/
def State.fillAll (s : State) (ws : List Fill) : State :=
  ws.foldl (fun t w => t.fill w.region w.count w.value) s

/-- Different windows are filled, each within its capacity. -/
structure Fits (p : Params) (ws : List Fill) : Prop where
  distinct : (ws.map Fill.region).Nodup
  within : ∀ w ∈ ws, w.count ≤ w.region.capacity p

theorem stores_fillAll {s : State} {ws : List Fill} {own : Region → Prop}
    (h : ∀ w ∈ ws, w.count ≤ w.region.capacity s.params) (hown : ∀ w ∈ ws, own w.region) :
    Stores s.params own s.mem (s.fillAll ws).mem := by
  induction ws generalizing s with
  | nil => exact .none
  | cons w ws ih =>
    obtain ⟨hw, hws⟩ := List.forall_mem_cons.mp h
    obtain ⟨ow, ows⟩ := List.forall_mem_cons.mp hown
    exact (Stores.none.fill w.value ow hw).trans (ih (s := s.fill w.region w.count w.value) hws ows)

theorem holds_fillAll {s : State} {ws : List Fill} (hm : s.MemInv) (h : Fits s.params ws) :
    ∀ w ∈ ws, Holds (s.fillAll ws) w.region w.count w.value := by
  induction ws generalizing s with
  | nil => simp
  | cons w ws ih =>
    obtain ⟨hnot, hnodup⟩ := List.nodup_cons.mp h.distinct
    obtain ⟨hw, hws⟩ := List.forall_mem_cons.mp h.within
    have hm' : (s.fill w.region w.count w.value).MemInv := hm.fill w.value hw
    refine List.forall_mem_cons.mpr ⟨?_, ih hm' ⟨hnodup, hws⟩⟩
    exact (holds_fill hm w.region w.count w.value).keep
      (stores_fillAll hws fun v hv => List.mem_map_of_mem hv) hm' hnot hw

/-- A state whose memory is that of fills: what it holds, and what it may differ in. -/
theorem fillAll_writes {s t : State} {ws : List Fill} {own : Region → Prop} (hm : s.MemInv)
    (hfit : Fits s.params ws) (hown : ∀ w ∈ ws, own w.region) (ht : t.mem = (s.fillAll ws).mem) :
    Stores s.params own s.mem t.mem ∧ ∀ w ∈ ws, Holds t w.region w.count w.value := by
  refine ⟨ht ▸ stores_fillAll hfit.within hown, fun w hw j hj => ?_⟩
  rw [ht]
  exact holds_fillAll hm hfit w hw j hj

/-! ### Lengths within the capacities -/

section
variable {p : Params} {n : Nat} (hp : p.legal = true) (hn : n ≤ p.nMax)
include hp hn

theorem bitWords_le_capacity : ceilDiv n 64 ≤ Region.bits.capacity p := by
  obtain ⟨hmod, -⟩ := legal_bounds hp
  simp only [Region.capacity, Params.bitW, ceilDiv]
  omega

theorem rxWords_le_capacity (c : Scheme) :
    ceilDiv (symbolCount c n * c.bitsPerSymbol) 64 ≤ Region.rxbits.capacity p := by
  obtain ⟨hmod, -⟩ := legal_bounds hp
  have hbits := symbolCount_bits c n
  simp only [Region.capacity, Params.rxBW, ceilDiv]
  omega

end

section
variable {s : State} (hm : s.MemInv) (hv : s.ValidInv)

include hv in
theorem bitsLen_le (h : s.status.bitsV = true) : s.res.bitsLen.toNat ≤ s.params.nMax :=
  (hv.bits h).2.1

include hv in
theorem symLen_eq (h : s.status.symV = true) :
    s.res.symLen.toNat = symbolCount s.res.latScheme s.res.bitsLen.toNat := (hv.sym h).2.1

include hv in
theorem symLen_le (h : s.status.symV = true) : s.res.symLen.toNat ≤ s.params.nMax := by
  rw [symLen_eq hv h]
  exact (symbolCount_le _ _).trans (bitsLen_le hv (hv.sym h).1)

include hv in
theorem sampLen_le (h : s.status.waveV = true) :
    s.res.sampLen.toNat ≤ s.params.nMax * s.params.spsMax := by
  obtain ⟨hsym, -, hsps, hlen, -⟩ := hv.wave h
  rw [hlen]
  exact Nat.mul_le_mul (symLen_le hv hsym) hsps

include hm hv in
theorem rxWords_le (h : s.status.symV = true) :
    ceilDiv (s.res.symLen.toNat * s.res.latScheme.bitsPerSymbol) 64
      ≤ Region.rxbits.capacity s.params := by
  rw [symLen_eq hv h]
  exact rxWords_le_capacity hm.legal (bitsLen_le hv (hv.sym h).1) _

include hm in
theorem toNat_ofNat_of_le_nMax {n : Nat} (hn : n ≤ s.params.nMax) :
    (BitVec.ofNat 64 n).toNat = n := by
  obtain ⟨-, -, hmax, -⟩ := legal_bounds hm.legal
  exact toNat_ofNat64 (by omega)

include hm in
theorem toNat_ofNat_of_le_lMax {n : Nat} (hn : n ≤ s.params.nMax * s.params.spsMax) :
    (BitVec.ofNat 64 n).toNat = n := by
  obtain ⟨-, -, -, hmax, -⟩ := legal_bounds hm.legal
  exact toNat_ofNat64 (by omega)

include hv in
/-- The samples of a SYNTH that passes its checks fit the windows (R12, R201). -/
theorem synthLen_le (hs : s.status.symV = true) {fs fc : F64} {c : Scheme} {n : Nat}
    (hc : checkSynth s.params s.samplesPerSymbol fs fc c n = none) :
    s.res.symLen.toNat * s.samplesPerSymbol.toNat ≤ s.params.nMax * s.params.spsMax := by
  obtain ⟨-, hhi⟩ := checkSynth_none hc
  exact Nat.mul_le_mul (symLen_le hv hs) (by omega)

end

/-! ### Bodies that stop at a check, and bodies that do not -/

section
variable (N : Numerics) (s : State)

theorem bodyGenBits_cases : (∃ e, bodyGenBits N s = .raise e s) ∨
    checkBitCount s.params s.bitCount = none := by
  unfold bodyGenBits
  cases h : checkBitCount s.params s.bitCount with
  | none => exact .inr rfl
  | some e => exact .inl ⟨e, rfl⟩

theorem bodyMap_cases : (∃ e, bodyMap s = .raise e s) ∨
    ∃ c, Scheme.ofCode s.cfg.scheme = some c ∧ s.status.bitsV = true := by
  unfold bodyMap
  cases hc : Scheme.ofCode s.cfg.scheme with
  | none => exact .inl ⟨_, rfl⟩
  | some c =>
    cases hb : s.status.bitsV with
    | false => exact .inl ⟨_, rfl⟩
    | true => exact .inr ⟨c, rfl, rfl⟩

theorem bodySynth_cases : (∃ e, bodySynth N s = .raise e s) ∨
    (s.status.symV = true ∧ checkSynth s.params s.samplesPerSymbol s.cfg.fs s.cfg.fc s.res.latScheme
      s.res.symLen.toNat = none) := by
  unfold bodySynth
  cases hs : s.status.symV with
  | false => exact .inl ⟨_, rfl⟩
  | true =>
    cases hc : checkSynth s.params s.samplesPerSymbol s.cfg.fs s.cfg.fc s.res.latScheme
        s.res.symLen.toNat with
    | none => exact .inr ⟨rfl, rfl⟩
    | some e => exact .inl ⟨e, rfl⟩

theorem bodyChannel_cases : (∃ e, bodyChannel N s = .raise e s) ∨
    (s.status.waveV = true ∧ checkNoise s.noiseMode s.cfg.noiseLevel = none) := by
  unfold bodyChannel
  cases hw : s.status.waveV with
  | false => exact .inl ⟨_, rfl⟩
  | true =>
    cases hc : checkNoise s.noiseMode s.cfg.noiseLevel with
    | none => exact .inr ⟨rfl, rfl⟩
    | some e => exact .inl ⟨e, rfl⟩

theorem bodySlice_cases : (∃ e, bodySlice s = .raise e s) ∨ s.status.rxV = true := by
  unfold bodySlice
  cases hr : s.status.rxV with
  | false => exact .inl ⟨_, rfl⟩
  | true => exact .inr rfl

theorem bodyBer_cases : (∃ e, bodyBer N s = .raise e s) ∨
    ∃ c, Scheme.ofCode s.cfg.scheme = some c ∧ checkPointCount s.params s.pointCount = none ∧
      pointsFinite s s.pointCount.toNat = true := by
  unfold bodyBer
  cases hc : Scheme.ofCode s.cfg.scheme with
  | none => exact .inl ⟨_, rfl⟩
  | some c =>
    cases hk : checkPointCount s.params s.pointCount with
    | some e => exact .inl ⟨e, rfl⟩
    | none =>
      cases hf : pointsFinite s s.pointCount.toNat with
      | false => exact .inl ⟨_, if_pos hf⟩
      | true => exact .inr ⟨c, rfl, rfl, rfl⟩

end

/-! ### The windows each body fills -/

@[simp] theorem ok_state (s : State) : (Result.ok s).state = s := rfl
@[simp] theorem ok_error (s : State) : (Result.ok s).error = none := rfl
@[simp] theorem raise_state (e : CmdError) (s : State) : (Result.raise e s).state = s := rfl
@[simp] theorem raise_error (e : CmdError) (s : State) : (Result.raise e s).error = some e := rfl

section
variable {s : State} {N : Numerics} (hm : s.MemInv) (hv : s.ValidInv)

include hm in
theorem bodyGenBits_writes (h : checkBitCount s.params s.bitCount = none) :
    let t := (bodyGenBits N s).state
    let n := s.bitCount.toNat
    Stores s.params (writer · = some .genBits) s.mem t.mem ∧
      Holds t .bits (ceilDiv n 64) (packBits n (sourceBit N s)) := by
  intro t n
  obtain ⟨hlo, hhi⟩ := checkBitCount_none.mp h
  have hn : ceilDiv n 64 ≤ Region.bits.capacity s.params :=
    bitWords_le_capacity hm.legal (by omega)
  have ⟨hstores, hholds⟩ := fillAll_writes (t := t) (own := (writer · = some .genBits)) hm
    (ws := [⟨.bits, ceilDiv n 64, packBits n (sourceBit N s)⟩]) ⟨by simp, by simpa using hn⟩
    (by simp [writer]) (by simp [t, n, bodyGenBits_ok h, State.fillAll])
  exact ⟨hstores, by simpa using hholds⟩

include hm hv in
theorem bodyMap_writes {c : Scheme} (hc : Scheme.ofCode s.cfg.scheme = some c)
    (hb : s.status.bitsV = true) :
    let t := (bodyMap s).state
    let count := symbolCount c s.res.bitsLen.toNat
    Stores s.params (writer · = some .map) s.mem t.mem ∧
      Holds t .symI count (fun j => (symbolPoint s c j).1) ∧
      Holds t .symQ count (fun j => (symbolPoint s c j).2) := by
  intro t count
  have hn : count ≤ s.params.nMax := (symbolCount_le _ _).trans (bitsLen_le hv hb)
  have ⟨hstores, hholds⟩ := fillAll_writes (t := t) (own := (writer · = some .map)) hm
    (ws := [⟨.symI, count, fun j => (symbolPoint s c j).1⟩,
      ⟨.symQ, count, fun j => (symbolPoint s c j).2⟩])
    ⟨by simp, by simpa using ⟨hn, hn⟩⟩ (by simp [writer]) (by simp [t, count, bodyMap_ok hc hb, State.fillAll])
  exact ⟨hstores, by simpa using hholds⟩

include hm hv in
theorem bodySynth_writes (hs : s.status.symV = true)
    (hc : checkSynth s.params s.samplesPerSymbol s.cfg.fs s.cfg.fc s.res.latScheme
      s.res.symLen.toNat = none) :
    let t := (bodySynth N s).state
    let len := s.res.symLen.toNat * s.samplesPerSymbol.toNat
    Stores s.params (writer · = some .synth) s.mem t.mem ∧
      Holds t .time len (sampleTime s.cfg.fs) ∧ Holds t .carI len (carrierI N s.cfg.fs s.cfg.fc) ∧
      Holds t .carQ len (carrierQ N s.cfg.fs s.cfg.fc) ∧
      Holds t .tx len (txSample N s s.samplesPerSymbol.toNat) := by
  intro t len
  have hn : len ≤ s.params.nMax * s.params.spsMax := synthLen_le hv hs hc
  have ⟨hstores, hholds⟩ := fillAll_writes (t := t) (own := (writer · = some .synth)) hm
    (ws := [⟨.time, len, sampleTime s.cfg.fs⟩, ⟨.carI, len, carrierI N s.cfg.fs s.cfg.fc⟩,
      ⟨.carQ, len, carrierQ N s.cfg.fs s.cfg.fc⟩,
      ⟨.tx, len, txSample N s s.samplesPerSymbol.toNat⟩])
    ⟨by simp, by simpa using ⟨hn, hn, hn, hn⟩⟩ (by simp [writer])
    (by simp [t, len, bodySynth_ok hs hc, State.fillAll])
  exact ⟨hstores, by simpa using hholds⟩

include hm hv in
theorem channelWrites_writes (hw : s.status.waveV = true) (vtx pn : F64) :
    let t := channelWrites N vtx pn s
    let len := s.res.sampLen.toNat
    let w := noiseSample N pn s.cfg.seed
    let r := fun n => F64.add (s.entry .tx n) (w n)
    Stores s.params (writer · = some .channel) s.mem t.mem ∧
      Holds t .noise len w ∧ Holds t .rx len r ∧
      Holds t .demodI len (fun n => F64.mul (r n) (s.entry .carI n)) ∧
      Holds t .demodQ len (fun n => F64.mul (r n) (s.entry .carQ n)) := by
  intro t len w r
  have hn : len ≤ s.params.nMax * s.params.spsMax := sampLen_le hv hw
  have ⟨hstores, hholds⟩ := fillAll_writes (t := t) (own := (writer · = some .channel)) hm
    (ws := [⟨.noise, len, w⟩, ⟨.rx, len, r⟩,
      ⟨.demodI, len, fun n => F64.mul (r n) (s.entry .carI n)⟩,
      ⟨.demodQ, len, fun n => F64.mul (r n) (s.entry .carQ n)⟩])
    ⟨by simp, by simpa using ⟨hn, hn, hn, hn⟩⟩ (by simp [writer])
    (by simp [t, channelWrites, State.fillAll, w, r, len])
  exact ⟨hstores, by simpa using hholds⟩

include hm hv in
theorem bodySlice_writes (hr : s.status.rxV = true) :
    let t := (bodySlice s).state
    let count := s.res.symLen.toNat
    let bits := count * s.res.latScheme.bitsPerSymbol
    Stores s.params (writer · = some .slice) s.mem t.mem ∧
      Holds t .estI count (fun j => (estimate s j).x) ∧
      Holds t .estQ count (fun j => (estimate s j).y) ∧
      Holds t .rxbits (ceilDiv bits 64) (packBits bits (recoveredBit s)) := by
  intro t count bits
  have hs : s.status.symV = true := (hv.wave (hv.rx hr).1).1
  have hn : count ≤ s.params.nMax := symLen_le hv hs
  have hbits : ceilDiv bits 64 ≤ Region.rxbits.capacity s.params := rxWords_le hm hv hs
  have ⟨hstores, hholds⟩ := fillAll_writes (t := t) (own := (writer · = some .slice)) hm
    (ws := [⟨.estI, count, fun j => (estimate s j).x⟩, ⟨.estQ, count, fun j => (estimate s j).y⟩,
      ⟨.rxbits, ceilDiv bits 64, packBits bits (recoveredBit s)⟩])
    ⟨by simp, by simpa using ⟨hn, hn, hbits⟩⟩ (by simp [writer])
    (by simp [t, count, bits, bodySlice_ok hr, State.fillAll])
  exact ⟨hstores, by simpa using hholds⟩

include hm in
theorem bodyBer_writes {c : Scheme} (hc : Scheme.ofCode s.cfg.scheme = some c)
    (hk : checkPointCount s.params s.pointCount = none)
    (hf : pointsFinite s s.pointCount.toNat = true) :
    let t := (bodyBer N s).state
    Stores s.params (writer · = some .ber) s.mem t.mem ∧
      Holds t .berOut s.pointCount.toNat (fun j => berOf N c (linearSnr N (s.entry .snrIn j))) := by
  intro t
  obtain ⟨hlo, hhi⟩ := checkPointCount_none.mp hk
  have hn : s.pointCount.toNat ≤ Region.berOut.capacity s.params := by
    simp only [Region.capacity]; omega
  have ⟨hstores, hholds⟩ := fillAll_writes (t := t) (own := (writer · = some .ber)) hm
    (ws := [⟨.berOut, s.pointCount.toNat, fun j => berOf N c (linearSnr N (s.entry .snrIn j))⟩])
    ⟨by simp, List.forall_mem_singleton.mpr hn⟩ (by simp [writer])
    (by simp [t, bodyBer_ok hc hk hf, State.fillAll])
  exact ⟨hstores, by simpa using hholds⟩

end

end Sys2Proof.Machine
end

section
/-! PROOF. The frame of a command (60_exceptions.md R339): no body touches anything but STATUS, the
read-only registers and the memory. -/

namespace Sys2Proof.Machine

/-- `t` is `s` but for STATUS, the read-only registers and the memory. -/
def SameFrame (s t : State) : Prop := t = { s with mem := t.mem, status := t.status, res := t.res }

section
variable {s t u : State}

theorem SameFrame.cfg (h : SameFrame s t) : t.cfg = s.cfg := by
  rw [SameFrame] at h
  rw [h]

theorem SameFrame.params (h : SameFrame s t) : t.params = s.params := by
  rw [SameFrame] at h
  rw [h]

theorem SameFrame.refl (s : State) : SameFrame s s := rfl

theorem SameFrame.mk (s : State) (m : List Host.Cell) (st : Status) (rs : ResultRegs) :
    SameFrame s { s with mem := m, status := st, res := rs } := rfl

theorem SameFrame.trans (h : SameFrame s t) (h' : SameFrame t u) : SameFrame s u := by
  unfold SameFrame at *
  rw [h', h]

theorem SameFrame.andThen {r : Result} {f : State → Result} (h : SameFrame s r.state)
    (hf : ∀ t, SameFrame t (f t).state) : SameFrame s (r.andThen f).state := by
  unfold Result.andThen
  cases r.error with
  | none => exact h.trans (hf r.state)
  | some e => exact h

end

section
variable (N : Numerics) (s : State)

theorem bodyGenBits_frame : SameFrame s (bodyGenBits N s).state := by
  obtain ⟨e, h⟩ | h := bodyGenBits_cases N s
  · rw [h]; exact .refl s
  · rw [bodyGenBits_ok h]; exact .mk ..

theorem bodyMap_frame : SameFrame s (bodyMap s).state := by
  obtain ⟨e, h⟩ | ⟨c, hc, hb⟩ := bodyMap_cases s
  · rw [h]; exact .refl s
  · rw [bodyMap_ok hc hb]; exact .mk ..

theorem bodySynth_frame : SameFrame s (bodySynth N s).state := by
  obtain ⟨e, h⟩ | ⟨hs, hc⟩ := bodySynth_cases N s
  · rw [h]; exact .refl s
  · simp [SameFrame, bodySynth_ok hs hc]

theorem reportSnr_frame (vtx vn : F64) (strict : Bool) :
    SameFrame s (reportSnr N vtx vn strict s).state := by
  obtain h | ⟨-, e, -, h⟩ := reportSnr_cases N vtx vn strict s
  · rw [h]; exact .mk ..
  · rw [h]; exact .mk ..

theorem channelWrites_frame (vtx pn : F64) : SameFrame s (channelWrites N vtx pn s) := .mk ..

theorem bodyChannel_frame : SameFrame s (bodyChannel N s).state := by
  obtain ⟨e, h⟩ | ⟨hw, hc⟩ := bodyChannel_cases N s
  · rw [h]; exact .refl s
  · rw [bodyChannel_ok hw hc]
    exact (channelWrites_frame N s _ _).trans (reportSnr_frame N _ _ _ _)

theorem bodySlice_frame : SameFrame s (bodySlice s).state := by
  obtain ⟨e, h⟩ | h := bodySlice_cases s
  · rw [h]; exact .refl s
  · rw [bodySlice_ok h]; exact .mk ..

theorem bodyBer_frame : SameFrame s (bodyBer N s).state := by
  obtain ⟨e, h⟩ | ⟨c, hc, hk, hf⟩ := bodyBer_cases N s
  · rw [h]; exact .refl s
  · rw [bodyBer_ok hc hk hf]; exact .mk ..

theorem bodyRun_frame : SameFrame s (bodyRun N s).state := by
  unfold bodyRun
  cases runChecks s with
  | some e => rfl
  | none =>
    exact ((((bodyGenBits_frame N s).andThen bodyMap_frame).andThen (bodySynth_frame N)).andThen
      (bodyChannel_frame N)).andThen bodySlice_frame

end

theorem bodyOf_frame (i : Instr) (s : State) : SameFrame s (bodyOf i s).state := by
  cases i with
  | nop => rfl
  | clear => rfl
  | genBits => exact bodyGenBits_frame _ s
  | map => exact bodyMap_frame s
  | synth => exact bodySynth_frame _ s
  | channel => exact bodyChannel_frame _ s
  | slice => exact bodySlice_frame s
  | ber => exact bodyBer_frame _ s
  | run => exact bodyRun_frame _ s

theorem complete_cfg (r : Result) : (complete r).cfg = r.state.cfg := by
  obtain ⟨-, h⟩ | ⟨e, -, h⟩ := complete_cases r
  · rw [h]; rfl
  · rw [h]; rfl

theorem complete_mem (r : Result) : (complete r).mem = r.state.mem := by
  obtain ⟨-, h⟩ | ⟨e, -, h⟩ := complete_cases r
  · rw [h]; rfl
  · rw [h]; rfl

theorem complete_res (r : Result) : (complete r).res = r.state.res := by
  obtain ⟨-, h⟩ | ⟨e, -, h⟩ := complete_cases r
  · rw [h]; rfl
  · rw [h]; rfl

/-- Completion writes the error fields, ERR and DONE, and nothing else of STATUS (R313, R340). -/
theorem complete_status (r : Result) : ∃ code info err, errorPair code info ∧
    (complete r).status =
      { r.state.status with errCode := code, errInfo := info, err := err, done := true } := by
  obtain ⟨-, h⟩ | ⟨e, -, h⟩ := complete_cases r
  · exact ⟨0, 0, r.state.status.err, .inl ⟨rfl, rfl⟩, by rw [h]; rfl⟩
  · exact ⟨e.code, e.info, true, .inr ⟨e, rfl, rfl⟩, by rw [h]; rfl⟩

end Sys2Proof.Machine
end

section
/-! PROOF. Every command body keeps the memory within the address map and what the VALID flags promise
(10_state.md R67, R68, 60_exceptions.md R338). -/

namespace Sys2Proof.Machine

open Sys2Proof.Claims

/-- The windows a command may write (R60, R66, R316). -/
def mayWrite (i : Instr) (r : Region) : Prop :=
  writer r = some i ∨ (i = .run ∧ writtenByRun r = true)

/-- From `s` to `t` only windows in `ws` are stored to, within the capacities, and the VALID flags of
`t` promise what they should. -/
structure Produces (ws : Region → Prop) (s t : State) : Prop where
  params : t.params = s.params
  stores : Stores s.params ws s.mem t.mem
  valid : t.ValidInv

section
variable {s t u : State} {ws ws' : Region → Prop}

theorem Produces.memInv (h : Produces ws s t) (hm : s.MemInv) : t.MemInv :=
  hm.of_stores h.params h.stores

theorem Produces.refl (hv : s.ValidInv) : Produces ws s s := ⟨rfl, .none, hv⟩

theorem Produces.trans (h : Produces ws s t) (h' : Produces ws t u) : Produces ws s u where
  params := h'.params.trans h.params
  stores := h.stores.trans (h.params ▸ h'.stores)
  valid := h'.valid

theorem Produces.mono (h : Produces ws s t) (hsub : ∀ r, ws r → ws' r) : Produces ws' s t :=
  ⟨h.params, h.stores.mono hsub, h.valid⟩

theorem Produces.andThen {r : Result} {f : State → Result} (hm : s.MemInv)
    (h : Produces ws s r.state)
    (hf : ∀ t, t.MemInv → t.ValidInv → Produces ws t (f t).state) :
    Produces ws s (r.andThen f).state := by
  unfold Result.andThen
  cases r.error with
  | none => exact h.trans (hf r.state (h.memInv hm) h.valid)
  | some e => exact h

/-- Stores leave every promise of the VALID flags kept. -/
theorem State.ValidInv.of_stores (hv : s.ValidInv) (hm : s.MemInv) {m : List Host.Cell}
    (hst : Stores s.params ws s.mem m) : State.ValidInv { s with mem := m } := by
  have keep : ∀ {r n}, s.filled r n → State.filled { s with mem := m } r n :=
    fun hf => Stores.filled (t := { s with mem := m }) hst hm hf
  refine ⟨fun h => ?_, fun h => ?_, fun h => ?_, fun h => ?_, fun h => ?_, hv.ber⟩
  · obtain ⟨hpos, hle, hbits⟩ := hv.bits h
    exact ⟨hpos, hle, keep hbits⟩
  · obtain ⟨hb, hlen, hpad, hi, hq⟩ := hv.sym h
    exact ⟨hb, hlen, hpad, keep hi, keep hq⟩
  · obtain ⟨hs, hpos, hle, hlen, ht, hi, hq, hx⟩ := hv.wave h
    exact ⟨hs, hpos, hle, hlen, keep ht, keep hi, keep hq, keep hx⟩
  · obtain ⟨hw, hn, hr, hi, hq⟩ := hv.rx h
    exact ⟨hw, keep hn, keep hr, keep hi, keep hq⟩
  · obtain ⟨hr, hcnt, hi, hq, hb⟩ := hv.est h
    exact ⟨hr, hcnt, keep hi, keep hq, keep hb⟩

end

end Sys2Proof.Machine
end

section
/-! PROOF. The invariant is kept by every body, so by every command. -/

namespace Sys2Proof.Machine

open Sys2Proof.Claims

/-! ### The flags and registers each body leaves -/

section
variable {s : State} {N : Numerics}

section
variable (h : checkBitCount s.params s.bitCount = none)
include h

theorem bodyGenBits_status : (bodyGenBits N s).state.status = s.status.validGenBits := by
  simp [bodyGenBits_ok h]

theorem bodyGenBits_res : (bodyGenBits N s).state.res =
    { s.res with bitsLen := BitVec.ofNat 64 s.bitCount.toNat } := by
  simp [bodyGenBits_ok h]

end

section
variable {c : Scheme} (hc : Scheme.ofCode s.cfg.scheme = some c) (hb : s.status.bitsV = true)
include hc hb

theorem bodyMap_status : (bodyMap s).state.status = s.status.validMap := by
  simp [bodyMap_ok hc hb]

theorem bodyMap_res : (bodyMap s).state.res =
    { s.res with
      symLen := BitVec.ofNat 64 (symbolCount c s.res.bitsLen.toNat)
      npad := BitVec.ofNat 64
        (symbolCount c s.res.bitsLen.toNat * c.bitsPerSymbol - s.res.bitsLen.toNat)
      latScheme := c } := by
  simp [bodyMap_ok hc hb]

end

section
variable (hs : s.status.symV = true) (hc : checkSynth s.params s.samplesPerSymbol s.cfg.fs s.cfg.fc
  s.res.latScheme s.res.symLen.toNat = none)
include hs hc

theorem bodySynth_status : (bodySynth N s).state.status = s.status.validSynth := by
  simp [bodySynth_ok hs hc]

theorem bodySynth_res : (bodySynth N s).state.res =
    { s.res with
      sampLen := BitVec.ofNat 64 (s.res.symLen.toNat * s.samplesPerSymbol.toNat)
      latSps := BitVec.ofNat 64 s.samplesPerSymbol.toNat
      latFc := s.cfg.fc
      latFs := s.cfg.fs } := by
  simp [bodySynth_ok hs hc]

end

section
variable (hr : s.status.rxV = true)
include hr

theorem bodySlice_status :
    (bodySlice s).state.status = s.status.validSlice (anyDegenerate s) := by
  simp [bodySlice_ok hr]

theorem bodySlice_res : (bodySlice s).state.res =
    { s.res with errCnt := BitVec.ofNat 64 (errorCount s) } := by
  simp [bodySlice_ok hr]

end

section
variable {c : Scheme} (hc : Scheme.ofCode s.cfg.scheme = some c)
  (hk : checkPointCount s.params s.pointCount = none)
  (hf : pointsFinite s s.pointCount.toNat = true)
include hc hk hf

theorem bodyBer_status : (bodyBer N s).state.status = s.status.validBer := by
  simp [bodyBer_ok hc hk hf]

theorem bodyBer_res : (bodyBer N s).state.res =
    { s.res with berLen := BitVec.ofNat 64 s.pointCount.toNat } := by
  simp [bodyBer_ok hc hk hf]

end

variable (s) in
theorem channelWrites_status (vtx pn : F64) :
    (channelWrites N vtx pn s).status = s.status.validChannel := by simp [channelWrites]

variable (s) in
theorem channelWrites_res (vtx pn : F64) : (channelWrites N vtx pn s).res =
    { s.res with
      noisePwr := pn, varTx := vtx
      varNoise := variance (noiseSample N pn s.cfg.seed) s.res.sampLen.toNat } := by
  simp [channelWrites]

theorem reportSnr_status (vtx vn : F64) (strict : Bool) :
    (reportSnr N vtx vn strict s).state.status = s.status := by
  obtain h | ⟨-, e, -, h⟩ := reportSnr_cases N vtx vn strict s
  · rw [h]; rfl
  · rw [h]; rfl

theorem reportSnr_mem (vtx vn : F64) (strict : Bool) :
    (reportSnr N vtx vn strict s).state.mem = s.mem := by
  obtain h | ⟨-, e, -, h⟩ := reportSnr_cases N vtx vn strict s
  · rw [h]; rfl
  · rw [h]; rfl

theorem reportSnr_res (vtx vn : F64) (strict : Bool) : ∃ snr,
    (reportSnr N vtx vn strict s).state.res = { s.res with snrMeas := snr } := by
  obtain h | ⟨-, e, -, h⟩ := reportSnr_cases N vtx vn strict s
  · exact ⟨_, by rw [h]; rfl⟩
  · exact ⟨_, by rw [h]; rfl⟩

end

/-! ### The promises of the VALID flags -/

section
variable {s : State} {N : Numerics}

/-- A body that leaves given flags and registers and keeps what those flags promise. -/
theorem Produces.of_body {t : State} {ws : Region → Prop} {st : Status} {rs : ResultRegs}
    (hframe : SameFrame s t) (hst : t.status = st) (hrs : t.res = rs)
    (hstores : Stores s.params ws s.mem t.mem)
    (h : State.ValidInv { s with mem := t.mem, status := st, res := rs }) : Produces ws s t := by
  refine ⟨hframe.params, hstores, ?_⟩
  rw [SameFrame, hst, hrs] at hframe
  rw [hframe]
  exact h

variable (hm : s.MemInv) (hv : s.ValidInv)
include hm hv

theorem bodyGenBits_produces : Produces (writer · = some .genBits) s (bodyGenBits N s).state := by
  obtain ⟨e, h⟩ | h := bodyGenBits_cases N s
  · rw [h]; exact .refl hv
  obtain ⟨hstores, hbits⟩ := bodyGenBits_writes (N := N) hm h
  obtain ⟨hlo, hhi⟩ := checkBitCount_none.mp h
  have hlen := toNat_ofNat_of_le_nMax hm (n := s.bitCount.toNat) (by omega)
  have hu := hv.of_stores hm hstores
  have hnew : 1 ≤ (BitVec.ofNat 64 s.bitCount.toNat).toNat ∧
      (BitVec.ofNat 64 s.bitCount.toNat).toNat ≤ s.params.nMax ∧
      State.filled (bodyGenBits N s).state .bits
        (ceilDiv (BitVec.ofNat 64 s.bitCount.toNat).toNat 64) := by
    rw [hlen]
    exact ⟨by omega, by omega, hbits.filled⟩
  exact .of_body (bodyGenBits_frame N s) (bodyGenBits_status h) (bodyGenBits_res h) hstores
    { bits := fun _ => hnew, sym := nofun, wave := nofun, rx := nofun, est := nofun, ber := hu.ber }

theorem bodyMap_produces : Produces (writer · = some .map) s (bodyMap s).state := by
  obtain ⟨e, h⟩ | ⟨c, hc, hb⟩ := bodyMap_cases s
  · rw [h]; exact .refl hv
  obtain ⟨hstores, hi, hq⟩ := bodyMap_writes hm hv hc hb
  have hu := hv.of_stores hm hstores
  let count := symbolCount c s.res.bitsLen.toNat
  have hlen : (BitVec.ofNat 64 count).toNat = count :=
    toNat_ofNat_of_le_nMax hm ((symbolCount_le c _).trans (bitsLen_le hv hb))
  have hpad : (BitVec.ofNat 64 (count * c.bitsPerSymbol - s.res.bitsLen.toNat)).toNat
      = (BitVec.ofNat 64 count).toNat * c.bitsPerSymbol - s.res.bitsLen.toNat := by
    rw [hlen]
    have hbits : count * c.bitsPerSymbol ≤ s.res.bitsLen.toNat + 5 := (symbolCount_bits c _).2
    exact toNat_ofNat64 (by omega)
  have hnew : State.filled (bodyMap s).state .symI (BitVec.ofNat 64 count).toNat ∧
      State.filled (bodyMap s).state .symQ (BitVec.ofNat 64 count).toNat := by
    rw [hlen]
    exact ⟨hi.filled, hq.filled⟩
  exact .of_body (bodyMap_frame s) (bodyMap_status hc hb) (bodyMap_res hc hb) hstores
    { bits := hu.bits, sym := fun _ => ⟨hb, hlen, hpad, hnew⟩
      wave := nofun, rx := nofun, est := nofun, ber := hu.ber }

theorem bodySynth_produces : Produces (writer · = some .synth) s (bodySynth N s).state := by
  obtain ⟨e, h⟩ | ⟨hs, hc⟩ := bodySynth_cases N s
  · rw [h]; exact .refl hv
  obtain ⟨hstores, ht, hi, hq, hx⟩ := bodySynth_writes (N := N) hm hv hs hc
  obtain ⟨hlo, hhi⟩ := checkSynth_none hc
  have hu := hv.of_stores hm hstores
  let sps := s.samplesPerSymbol.toNat
  let len := s.res.symLen.toNat * sps
  have hsps : (BitVec.ofNat 64 sps).toNat = sps :=
    toNat_ofNat64 (by have := legal_spsMax hm.legal; omega)
  have hlen : (BitVec.ofNat 64 len).toNat = len :=
    toNat_ofNat_of_le_lMax hm (synthLen_le hv hs hc)
  have hnew : 1 ≤ (BitVec.ofNat 64 sps).toNat ∧ (BitVec.ofNat 64 sps).toNat ≤ s.params.spsMax ∧
      (BitVec.ofNat 64 len).toNat = s.res.symLen.toNat * (BitVec.ofNat 64 sps).toNat ∧
      State.filled (bodySynth N s).state .time (BitVec.ofNat 64 len).toNat ∧
      State.filled (bodySynth N s).state .carI (BitVec.ofNat 64 len).toNat ∧
      State.filled (bodySynth N s).state .carQ (BitVec.ofNat 64 len).toNat ∧
      State.filled (bodySynth N s).state .tx (BitVec.ofNat 64 len).toNat := by
    rw [hsps, hlen]
    exact ⟨by omega, by omega, rfl, ht.filled, hi.filled, hq.filled, hx.filled⟩
  exact .of_body (bodySynth_frame N s) (bodySynth_status hs hc) (bodySynth_res hs hc) hstores
    { bits := hu.bits, sym := hu.sym, wave := fun _ => ⟨hs, hnew⟩
      rx := nofun, est := nofun, ber := hu.ber }

theorem channelWrites_produces (hw : s.status.waveV = true) (vtx pn : F64) :
    Produces (writer · = some .channel) s (channelWrites N vtx pn s) := by
  obtain ⟨hstores, hn, hr, hi, hq⟩ := channelWrites_writes (N := N) hm hv hw vtx pn
  have hframe := channelWrites_frame N s vtx pn
  have hstatus := channelWrites_status (N := N) s vtx pn
  have hres := channelWrites_res (N := N) s vtx pn
  generalize channelWrites N vtx pn s = t at *
  have hu := hv.of_stores hm hstores
  exact .of_body hframe hstatus hres hstores
    { bits := hu.bits, sym := hu.sym, wave := hu.wave
      rx := fun _ => ⟨hw, hn.filled, hr.filled, hi.filled, hq.filled⟩, est := nofun, ber := hu.ber }

omit hm in
/-- No flag promises anything of SNR_MEAS. -/
theorem reportSnr_produces (ws : Region → Prop) (vtx vn : F64) (strict : Bool) :
    Produces ws s (reportSnr N vtx vn strict s).state := by
  obtain ⟨snr, hsnr⟩ := reportSnr_res (N := N) (s := s) vtx vn strict
  have hmem := reportSnr_mem (N := N) (s := s) vtx vn strict
  refine .of_body (reportSnr_frame N s vtx vn strict) (reportSnr_status vtx vn strict) hsnr
    (by rw [hmem]; exact .none) ?_
  rw [hmem]
  exact ⟨hv.bits, hv.sym, hv.wave, hv.rx, hv.est, hv.ber⟩

theorem bodyChannel_produces : Produces (writer · = some .channel) s (bodyChannel N s).state := by
  obtain ⟨e, h⟩ | ⟨hw, hc⟩ := bodyChannel_cases N s
  · rw [h]; exact .refl hv
  rw [bodyChannel_ok hw hc]
  have hwrites := channelWrites_produces (N := N) hm hv hw
  exact (hwrites _ _).trans (reportSnr_produces (hwrites _ _).valid _ _ _ _)

theorem bodySlice_produces : Produces (writer · = some .slice) s (bodySlice s).state := by
  obtain ⟨e, h⟩ | hr := bodySlice_cases s
  · rw [h]; exact .refl hv
  obtain ⟨hstores, hi, hq, hb⟩ := bodySlice_writes hm hv hr
  have hu := hv.of_stores hm hstores
  have hcount : errorCount s ≤ s.res.bitsLen.toNat :=
    List.countP_le_length.trans_eq List.length_range
  have herr : (BitVec.ofNat 64 (errorCount s)).toNat ≤ s.res.bitsLen.toNat := by
    rw [toNat_ofNat64 (hcount.trans_lt s.res.bitsLen.isLt)]
    exact hcount
  exact .of_body (bodySlice_frame s) (bodySlice_status hr) (bodySlice_res hr) hstores
    { bits := hu.bits, sym := hu.sym, wave := hu.wave, rx := hu.rx
      est := fun _ => ⟨hr, herr, hi.filled, hq.filled, hb.filled⟩, ber := hu.ber }

theorem bodyBer_produces : Produces (writer · = some .ber) s (bodyBer N s).state := by
  obtain ⟨e, h⟩ | ⟨c, hc, hk, hf⟩ := bodyBer_cases N s
  · rw [h]; exact .refl hv
  obtain ⟨hstores, -⟩ := bodyBer_writes (N := N) hm hc hk hf
  obtain ⟨hlo, hhi⟩ := checkPointCount_none.mp hk
  have hu := hv.of_stores hm hstores
  have hlen : (BitVec.ofNat 64 s.pointCount.toNat).toNat = s.pointCount.toNat := by
    obtain ⟨-, -, -, -, -, -, hmax⟩ := legal_bounds hm.legal
    exact toNat_ofNat64 (by omega)
  have hnew : 1 ≤ (BitVec.ofNat 64 s.pointCount.toNat).toNat ∧
      (BitVec.ofNat 64 s.pointCount.toNat).toNat ≤ s.params.berMax := by
    rw [hlen]
    omega
  exact .of_body (bodyBer_frame N s) (bodyBer_status hc hk hf) (bodyBer_res hc hk hf) hstores
    { bits := hu.bits, sym := hu.sym, wave := hu.wave, rx := hu.rx, est := hu.est
      ber := fun _ => hnew }

end

/-- CLEAR leaves flags that promise nothing. -/
theorem bodyClear_produces (s : State) (ws : Region → Prop) : Produces ws s (bodyClear s).state where
  params := rfl
  stores := .none
  valid := ⟨nofun, nofun, nofun, nofun, nofun, nofun⟩

theorem writtenByRun_of_writer {r : Region} {i : Instr} (h : writer r = some i) (hi : i ≠ .ber) :
    writtenByRun r = true := by
  unfold writtenByRun
  rw [h]
  cases i
  case ber => exact absurd rfl hi
  all_goals rfl

theorem bodyRun_produces {s : State} {N : Numerics} (hm : s.MemInv) (hv : s.ValidInv) :
    Produces (writtenByRun · = true) s (bodyRun N s).state := by
  have own {i : Instr} (hi : i ≠ .ber) (r : Region) (h : writer r = some i) :=
    writtenByRun_of_writer h hi
  unfold bodyRun
  cases runChecks s with
  | some e => exact .refl hv
  | none =>
    have hgen := (bodyGenBits_produces (N := N) hm hv).mono (own (by decide))
    have hmap := hgen.andThen hm fun t hm hv => (bodyMap_produces hm hv).mono (own (by decide))
    have hsynth := hmap.andThen hm fun t hm hv =>
      (bodySynth_produces (N := N) hm hv).mono (own (by decide))
    have hchan := hsynth.andThen hm fun t hm hv =>
      (bodyChannel_produces (N := N) hm hv).mono (own (by decide))
    exact hchan.andThen hm fun t hm hv => (bodySlice_produces hm hv).mono (own (by decide))

/-- Every body stores to its own windows alone and leaves flags that keep their promises. -/
theorem bodyOf_produces (i : Instr) {s : State} (hm : s.MemInv) (hv : s.ValidInv) :
    Produces (mayWrite i) s (bodyOf i s).state := by
  cases i with
  | nop => exact .refl hv
  | clear => exact bodyClear_produces s _
  | genBits => exact (bodyGenBits_produces hm hv).mono fun _ => .inl
  | map => exact (bodyMap_produces hm hv).mono fun _ => .inl
  | synth => exact (bodySynth_produces hm hv).mono fun _ => .inl
  | channel => exact (bodyChannel_produces hm hv).mono fun _ => .inl
  | slice => exact (bodySlice_produces hm hv).mono fun _ => .inl
  | ber => exact (bodyBer_produces hm hv).mono fun _ => .inl
  | run => exact (bodyRun_produces hm hv).mono fun _ h => .inr ⟨rfl, h⟩

end Sys2Proof.Machine
end

section
/-! PROOF. Every step keeps the invariant (10_state.md R67, R68, 46_control.md R310, 60_exceptions.md
R336, R338). -/

namespace Sys2Proof.Machine

/-! ### What one step is -/

theorem step_of_sched_nil {s : State} (h : s.sched = []) : step s = agentStep (defaultAgent s) s := by
  unfold step
  rw [h]

theorem step_of_sched_cons {s : State} {a : Agent} {rest : List Agent} (h : s.sched = a :: rest) :
    step s = agentStep a { s with sched := rest } := by
  unfold step
  rw [h]

theorem busy_eq_false_iff {s : State} : s.busy = false ↔ s.pending = none := by
  simp [State.busy]

/-! ### The host's accesses -/

/-- Nothing the invariant speaks of but HAZ and BUSERR differs. -/
structure SameBlock (s t : State) : Prop where
  params : t.params = s.params
  mem : t.mem = s.mem
  pending : t.pending = s.pending
  res : t.res = s.res
  status : ∃ haz busErr, t.status = { s.status with haz := haz, busErr := busErr }

section
variable {s t u : State}

theorem SameBlock.refl (s : State) : SameBlock s s := ⟨rfl, rfl, rfl, rfl, _, _, rfl⟩

theorem SameBlock.trans (h : SameBlock s t) (h' : SameBlock t u) : SameBlock s u := by
  obtain ⟨haz, busErr, hst⟩ := h.status
  obtain ⟨haz', busErr', hst'⟩ := h'.status
  exact ⟨h'.params.trans h.params, h'.mem.trans h.mem, h'.pending.trans h.pending,
    h'.res.trans h.res, haz', busErr', by rw [hst', hst]⟩

theorem State.Inv.of_sameBlock (h : s.Inv) (hb : SameBlock s t) : t.Inv := by
  obtain ⟨hp, hm, hpend, hres, haz, busErr, hst⟩ := hb
  obtain ⟨p, cfg, st, rs, m, pend, prog, sched, log, draws, unit⟩ := t
  subst hp hm hpend hres hst
  exact ⟨⟨h.mem.legal, h.mem.canonical, h.mem.mapped⟩, ⟨h.status.pending, h.status.errors⟩,
    ⟨h.valid.bits, h.valid.sym, h.valid.wave, h.valid.rx, h.valid.est, h.valid.ber⟩⟩

theorem hostRead_sameBlock (a : Addr) (width : Width) (s : State) :
    SameBlock s (hostRead a width s).2 := by
  obtain h | h | h := hostRead_cases a width s
  · rw [h]; exact .refl s
  · rw [h]; exact ⟨rfl, rfl, rfl, rfl, _, _, rfl⟩
  · rw [h]; exact ⟨rfl, rfl, rfl, rfl, _, _, rfl⟩

/-- Everything a host step can do to the block (R29): set HAZ or BUSERR; or, when idle, write a
register or an entry of HBITS or SNR_IN, all else of the block as after that write. -/
theorem hostStep_block_cases (s : State) :
    SameBlock s (hostStep s) ∨
      (s.pending = none ∧ ∃ a v rest, s.hostProg = .write a .full v :: rest ∧
        ((∃ r : Reg, a.toNat = r.offset ∧ SameBlock (s.writeReg r v) (hostStep s)) ∨
          ∃ (r : Region) (j : Nat), r.isConfig = true ∧ j < r.capacity s.params ∧
            a.toNat = r.entryAddr j ∧ SameBlock (s.setEntry r j v) (hostStep s))) := by
  obtain h | ⟨op, rest, hprog, ⟨a, w, -, h | h⟩ | ⟨a, w, v, hop, h⟩ | ⟨-, h⟩⟩ := hostStep_cases s
  · rw [h]; exact .inl (.refl s)
  · rw [h]; exact .inl ((hostRead_sameBlock a w s).trans ⟨rfl, rfl, rfl, rfl, _, _, rfl⟩)
  · rw [h]; exact .inl ((hostRead_sameBlock a w s).trans ⟨rfl, rfl, rfl, rfl, _, _, rfl⟩)
  · have hrest : SameBlock (hostWrite a w v s) (hostStep s) := by
      rw [h]; exact ⟨rfl, rfl, rfl, rfl, _, _, rfl⟩
    obtain hw | ⟨-, hw⟩ | ⟨hb, r, ha, rfl, hw⟩ | ⟨hb, r, j, hr, hj, ha, rfl, hw⟩ | ⟨-, hw⟩ :=
      hostWrite_cases a w v s <;> rw [hw] at hrest
    · exact .inl (.trans (t := s.setBusErr) ⟨rfl, rfl, rfl, rfl, _, _, rfl⟩ hrest)
    · exact .inl (.trans (t := s.setHaz) ⟨rfl, rfl, rfl, rfl, _, _, rfl⟩ hrest)
    · exact .inr ⟨busy_eq_false_iff.mp hb, a, v, rest, hop ▸ hprog, .inl ⟨r, ha, hrest⟩⟩
    · exact .inr ⟨busy_eq_false_iff.mp hb, a, v, rest, hop ▸ hprog, .inr ⟨r, j, hr, hj, ha, hrest⟩⟩
    · exact .inl hrest
  · rw [h]; exact .inl ⟨rfl, rfl, rfl, rfl, _, _, rfl⟩

theorem setEntry_stores {p : Params} {r : Region} {j : Nat} (hj : j < r.capacity p) (v : Word)
    (s : State) : Stores p (· = r) s.mem (s.setEntry r j v).mem :=
  Stores.write (ws := (· = r)) (n := 1) (fun _ => v) .none rfl hj

theorem setEntry_inv (h : s.Inv) {r : Region} {j : Nat} (hj : j < r.capacity s.params) (v : Word) :
    (s.setEntry r j v).Inv where
  mem := h.mem.of_stores rfl (setEntry_stores hj v s)
  status := ⟨h.status.pending, h.status.errors⟩
  valid := h.valid.of_stores h.mem (setEntry_stores hj v s)

/-- Acceptance starts with no error and DONE = 0, and notes the opcode (R310). -/
theorem accept_inv (h : s.Inv) (v : Word) : (accept v s).Inv where
  mem := ⟨h.mem.legal, h.mem.canonical, h.mem.mapped⟩
  status := ⟨fun _ hw => by cases hw; exact ⟨rfl, rfl, rfl, rfl⟩, .inl ⟨rfl, rfl⟩⟩
  valid := ⟨h.valid.bits, h.valid.sym, h.valid.wave, h.valid.rx, h.valid.est, h.valid.ber⟩

/-- The W1C write of an idle block clears no VALID flag and no error field (R46). -/
theorem acknowledge_inv (h : s.Inv) (hp : s.pending = none) (v : Word) : (acknowledge v s).Inv where
  mem := ⟨h.mem.legal, h.mem.canonical, h.mem.mapped⟩
  status := ⟨fun _ hw => absurd (hp.symm.trans hw) nofun, h.status.errors⟩
  valid := ⟨h.valid.bits, h.valid.sym, h.valid.wave, h.valid.rx, h.valid.est, h.valid.ber⟩

theorem writeReg_inv (h : s.Inv) (hp : s.pending = none) (r : Reg) (v : Word) :
    (s.writeReg r v).Inv := by
  obtain ⟨cfg, hw⟩ | ⟨-, hw⟩ | ⟨-, hw⟩ | hw := writeReg_cases v s r <;> rw [hw]
  · exact h.of_sameBlock ⟨rfl, rfl, rfl, rfl, _, _, rfl⟩
  · exact acknowledge_inv h hp v
  · exact accept_inv h v
  · exact h

theorem hostStep_inv (h : s.Inv) : (hostStep s).Inv := by
  obtain hb | ⟨hp, a, v, rest, -, ⟨r, -, hb⟩ | ⟨r, j, -, hj, -, hb⟩⟩ := hostStep_block_cases s
  · exact h.of_sameBlock hb
  · exact (writeReg_inv h hp r v).of_sameBlock hb
  · exact (setEntry_inv h hj v).of_sameBlock hb

/-! ### The sequencer and the reset input -/

/-- Completion leaves an idle block and a row of the error table (R313, R336). -/
theorem complete_inv {r : Result} (hm : r.state.MemInv) (hv : r.state.ValidInv) :
    (complete r).Inv := by
  obtain ⟨-, h⟩ | ⟨e, -, h⟩ := complete_cases r <;> rw [h]
  · exact ⟨⟨hm.legal, hm.canonical, hm.mapped⟩, ⟨nofun, .inl ⟨rfl, rfl⟩⟩,
      ⟨hv.bits, hv.sym, hv.wave, hv.rx, hv.est, hv.ber⟩⟩
  · exact ⟨⟨hm.legal, hm.canonical, hm.mapped⟩, ⟨nofun, .inr ⟨e, rfl, rfl⟩⟩,
      ⟨hv.bits, hv.sym, hv.wave, hv.rx, hv.est, hv.ber⟩⟩

theorem sequencerStep_inv (h : s.Inv) (hs : sequencerStep s = .next t) : t.Inv := by
  obtain ⟨-, hs'⟩ | ⟨w, i, -, -, hs'⟩ | ⟨w, e, -, -, hs'⟩ := sequencerStep_cases s <;>
    rw [hs'] at hs <;> cases hs
  · exact h
  · have hbody := bodyOf_produces i h.mem h.valid
    exact complete_inv (hbody.memInv h.mem) hbody.valid
  · exact complete_inv (r := .raise _ s) h.mem h.valid

theorem resetBlock_inv (h : s.Inv) : (resetBlock s).Inv where
  mem := ⟨h.mem.legal, ⟨.nil, nofun⟩, nofun⟩
  status := ⟨nofun, .inl ⟨rfl, rfl⟩⟩
  valid := ⟨nofun, nofun, nofun, nofun, nofun, nofun⟩

theorem agentStep_inv {a : Agent} (h : s.Inv) (hs : agentStep a s = .next t) : t.Inv := by
  cases a with
  | host => cases hs; exact hostStep_inv h
  | sequencer => exact sequencerStep_inv h hs
  | reset => cases hs; exact resetBlock_inv h

end

/-- Settles O60, mover by mover. -/
theorem invariantIsKept : Obligations.InvariantIsKept := by
  intro s t h hs
  obtain ⟨a, u, ha, hu⟩ := step_cases s
  have hinv : u.Inv := by
    obtain rfl | ⟨rest, -, rfl⟩ := hu
    · exact h
    · exact h.of_sameBlock ⟨rfl, rfl, rfl, rfl, _, _, rfl⟩
  exact agentStep_inv hinv (ha.symm.trans hs)

end Sys2Proof.Machine
end

section
/-! PROOF. The address map at a register or an entry (20_memory.md R94), and what an idle block's
registers and entries do when the host reads and writes them (10_state.md R41 to R59). -/

namespace Sys2Proof.Machine

/-! ### The address map -/

theorem decodeAddr_offset (p : Params) (r : Reg) : decodeAddr p r.offset = .reg r := by
  have hfind : Reg.all.find? (fun r' => r'.offset == r.offset) = some r := by cases r <;> decide
  unfold decodeAddr
  rw [hfind]

/-- An address below some window's capacity is mapped. -/
theorem decodeAddr_ne_unmapped {p : Params} {r : Region} {a : Nat} (hlo : r.base ≤ a)
    (hhi : a < r.entryAddr (r.capacity p)) : decodeAddr p a ≠ .unmapped := by
  unfold decodeAddr
  split
  · simp
  · split
    · simp
    · next h =>
      have hout := List.find?_eq_none.mp h r (mem_all_region r)
      exact absurd (by simpa using ⟨hlo, hhi⟩) hout

theorem decodeAddr_entryAddr {p : Params} (hp : p.legal = true) {r : Region} {j : Nat}
    (hj : j < r.capacity p) : decodeAddr p (r.entryAddr j) = .cell r j := by
  have hbounds := entryAddr_bounds hp hj
  have hbase := base_ge r
  obtain ⟨r', -, ha⟩ | ⟨r', j', h, hj', hlo, hhi⟩ | h := decodeAddr_cases p (r.entryAddr j)
  · have := offset_lt r'
    omega
  · have hsame : ¬ (r ≠ r' ∨ j ≠ j') := fun hne => by
      have := entries_disjoint hp hj hj' hne
      omega
    rw [h, not_or, not_not, not_not] at *
    rw [hsame.1, hsame.2]
  · refine absurd h (decodeAddr_ne_unmapped hbounds.1 ?_)
    unfold Region.entryAddr
    omega

theorem offset_toNat (r : Reg) : (BitVec.ofNat 24 r.offset).toNat = r.offset := by
  have := offset_lt r
  rw [BitVec.toNat_ofNat]
  omega

theorem entryAddr_toNat {p : Params} (hp : p.legal = true) {r : Region} {j : Nat}
    (hj : j < r.capacity p) : (BitVec.ofNat 24 (r.entryAddr j)).toNat = r.entryAddr j := by
  have hbounds := entryAddr_bounds hp hj
  have hspan := base_span_le r
  rw [BitVec.toNat_ofNat]
  omega

theorem accessTarget_offset (p : Params) (r : Reg) :
    accessTarget p (BitVec.ofNat 24 r.offset) .full = .reg r := by
  have halign : r.offset % 8 = 0 := by cases r <;> rfl
  rw [accessTarget, offset_toNat, if_pos halign, decodeAddr_offset]

theorem accessTarget_entryAddr {p : Params} (hp : p.legal = true) {r : Region} {j : Nat}
    (hj : j < r.capacity p) :
    accessTarget p (BitVec.ofNat 24 (r.entryAddr j)) .full = .cell r j := by
  have halign : r.entryAddr j % 8 = 0 := by
    have : r.base % 8 = 0 := by cases r <;> rfl
    unfold Region.entryAddr
    omega
  rw [accessTarget, entryAddr_toNat hp hj, if_pos halign, decodeAddr_entryAddr hp hj]

/-! ### An idle block -/

section
variable {s : State} (hidle : s.pending = none)
include hidle

theorem hostRead_reg (r : Reg) :
    hostRead (BitVec.ofNat 24 r.offset) .full s = (s.readReg r, s) := by
  rw [hostRead, accessTarget_offset]
  simp [busy_eq_false_iff.mpr hidle]

theorem hostWrite_reg (r : Reg) (v : Word) :
    hostWrite (BitVec.ofNat 24 r.offset) .full v s = s.writeReg r v := by
  rw [hostWrite, accessTarget_offset]
  simp [busy_eq_false_iff.mpr hidle]

variable (hp : s.params.legal = true) {r : Region} {j : Nat} (hj : j < r.capacity s.params)
include hp hj

theorem hostRead_written {v : Word} (h : readWord s.mem (r.entryAddr j) = some v) :
    hostRead (BitVec.ofNat 24 (r.entryAddr j)) .full s = (v, s) := by
  rw [hostRead, accessTarget_entryAddr hp hj]
  simp [busy_eq_false_iff.mpr hidle, h]

theorem hostRead_unwritten (h : s.written r j = false) :
    hostRead (BitVec.ofNat 24 (r.entryAddr j)) .full s = s.takeDraw := by
  have hnone : readWord s.mem (r.entryAddr j) = none := by
    simpa [State.written] using h
  rw [hostRead, accessTarget_entryAddr hp hj]
  simp [busy_eq_false_iff.mpr hidle, hnone]

theorem hostWrite_entry (hr : r.isConfig = true) (v : Word) :
    hostWrite (BitVec.ofNat 24 (r.entryAddr j)) .full v s = s.setEntry r j v := by
  rw [hostWrite, accessTarget_entryAddr hp hj]
  simp [busy_eq_false_iff.mpr hidle, hr]

end

/-- A register written while a command is pending: HAZ, and nothing else (R104, R311). -/
theorem hostWrite_reg_pending {s : State} (h : s.pending ≠ none) (r : Reg) (v : Word) :
    hostWrite (BitVec.ofNat 24 r.offset) .full v s = s.setHaz := by
  have hbusy : s.busy = true := by simpa [State.busy, Option.isSome_iff_ne_none] using h
  rw [hostWrite, accessTarget_offset]
  simp [hbusy]

/-! ### Registers read back -/

section
variable {s : State} {r r' : Reg}

/-- A write to a register other than CMD and STATUS changes the configuration alone (R98). -/
theorem writeReg_cfg_only (hcmd : r ≠ .cmd) (hstatus : r ≠ .status) (v : Word) :
    s.writeReg r v = { s with cfg := (s.writeReg r v).cfg } := by
  obtain ⟨cfg, h⟩ | ⟨h, -⟩ | ⟨h, -⟩ | h := writeReg_cases v s r
  · rw [h]
  · exact absurd h hstatus
  · exact absurd h hcmd
  · rw [h]

/-- No other register reads differently after a write to a register other than CMD and STATUS. -/
theorem readReg_writeReg_other (hcmd : r ≠ .cmd) (hstatus : r ≠ .status) (v : Word) (h : r' ≠ r) :
    (s.writeReg r v).readReg r' = s.readReg r' := by
  cases r
  case cmd => exact absurd rfl hcmd
  case status => exact absurd rfl hstatus
  case ctrl | scheme | nbits | sps | fc | fs | noiseLevel | seed | berCount =>
    -- each register has a field of its own, and `h` excludes the one that is written
    cases r' <;> first | rfl | exact absurd rfl h
  all_goals rfl

end

/-- Keeping the low `k` bits of a word. -/
theorem setWidth_setWidth_eq_and (v : Word) {k : Nat} (hk : k ≤ 64) :
    (v.setWidth k).setWidth 64 = v &&& BitVec.ofNat 64 (2 ^ k - 1) := by
  have hpow : 2 ^ k ≤ 2 ^ 64 := Nat.pow_le_pow_right (by omega) hk
  apply BitVec.eq_of_toNat_eq
  rw [BitVec.toNat_setWidth, BitVec.toNat_setWidth, BitVec.toNat_and, BitVec.toNat_ofNat,
    Nat.mod_eq_of_lt (a := 2 ^ k - 1) (by have := Nat.two_pow_pos k; omega),
    Nat.and_two_pow_sub_one_eq_mod]
  exact Nat.mod_eq_of_lt ((Nat.mod_lt _ (Nat.two_pow_pos k)).trans_le hpow)

/-- Settles O43. -/
theorem idleReads : Obligations.IdleReads :=
  fun _ hp hidle => ⟨hostRead_reg hidle, fun _ _ _ hj h => hostRead_written hidle hp hj h,
    fun _ _ hj h => hostRead_unwritten hidle hp hj h⟩

/-- Settles O47. -/
theorem configurationWrites : Obligations.ConfigurationWrites := by
  intro s v hidle r hcmd hstatus
  rw [hostWrite_reg hidle]
  refine ⟨fun r' h => readReg_writeReg_other hcmd hstatus v h, writeReg_cfg_only hcmd hstatus v,
    ?_, ?_, ?_⟩
  · rintro rfl
    exact setWidth_setWidth_eq_and v (k := 4) (by omega)
  · rintro rfl
    exact setWidth_setWidth_eq_and v (k := 3) (by omega)
  · rintro (rfl | rfl | rfl | rfl | rfl | rfl | rfl) <;> rfl

/-- Settles O48. -/
theorem arrayWrites : Obligations.ArrayWrites := by
  intro s r j v hm hidle hr hj
  have hconfig : r.isConfig = true := by obtain rfl | rfl := hr <;> rfl
  rw [hostWrite_entry hidle hm.legal hj hconfig]
  have hword : readWord (s.setEntry r j v).mem (r.entryAddr j) = some v :=
    readWord_writeBlock_in hm.canonical (r.entryAddr j) 1 (fun _ => v) (j := 0) Nat.one_pos
  refine ⟨by rw [State.entry, hword], by rw [State.written, hword]; rfl, fun i hi => ?_,
    fun a ha => ?_, rfl⟩
  · rw [setEntry_mem, read_writeBlock hm.canonical, if_pos (by omega),
      show (r.entryAddr j + i - r.entryAddr j) % 8 = i by omega]
    rfl
  · rw [setEntry_mem, read_writeBlock hm.canonical, if_neg (by omega)]

end Sys2Proof.Machine
end

section
/-! PROOF. STATUS (10_state.md R45, R46) and the interrupt output (10_state.md R72). -/

namespace Sys2Proof.Machine

/-- The single bits of STATUS (R45): STATUS is a concatenation, the lowest bit last. -/
theorem statusWord_bits (s : State) :
    let w := s.statusWord
    w.getLsbD 0 = s.pending.isSome ∧ w.getLsbD 1 = s.status.done ∧ w.getLsbD 2 = s.status.err ∧
    w.getLsbD 3 = s.status.haz ∧ w.getLsbD 4 = s.status.busErr ∧ w.getLsbD 5 = s.status.degen ∧
    w.getLsbD 8 = s.status.bitsV ∧ w.getLsbD 9 = s.status.symV ∧ w.getLsbD 10 = s.status.waveV ∧
    w.getLsbD 11 = s.status.rxV ∧ w.getLsbD 12 = s.status.estV ∧ w.getLsbD 13 = s.status.berV := by
  unfold State.statusWord State.busy
  refine ⟨?_, ?_, ?_, ?_, ?_, ?_, ?_, ?_, ?_, ?_, ?_, ?_⟩
  all_goals
    show @BitVec.getLsbD (_ + _) (_ ++ _) _ = _
    simp only [BitVec.getLsbD_append]
    simp

/-- The fields of STATUS, the reserved ones included (R45). -/
theorem statusWord_fields (s : State) :
    let w := s.statusWord
    w.extractLsb' 6 2 = 0 ∧ w.extractLsb' 14 2 = 0 ∧ w.extractLsb' 16 8 = s.status.errCode ∧
    w.extractLsb' 24 8 = s.status.errInfo ∧ w.extractLsb' 32 8 = s.status.lastOp ∧
    w.extractLsb' 40 24 = 0 := by
  unfold State.statusWord
  refine ⟨?_, ?_, ?_, ?_, ?_, ?_⟩
  all_goals
    show @BitVec.extractLsb' (_ + _) _ _ (_ ++ _) = _
    simp (disch := decide) only [BitVec.extractLsb'_append_eq_of_le,
      BitVec.extractLsb'_append_eq_of_add_le]
    exact BitVec.extractLsb'_eq_self

/-- Settles O50. -/
theorem statusLayout : Obligations.StatusLayout := by
  intro s
  obtain ⟨busy, done, err, haz, busErr, degen, bitsV, symV, waveV, rxV, estV, berV⟩ :=
    statusWord_bits s
  obtain ⟨low, high, code, info, lastOp, top⟩ := statusWord_fields s
  exact ⟨busy, done, err, haz, busErr, degen, low, bitsV, symV, waveV, rxV, estV, berV, high, code,
    info, lastOp, top⟩

/-- Settles O51. -/
theorem statusWriteOneToClear : Obligations.StatusWriteOneToClear :=
  fun _ v => ⟨fun h => hostWrite_reg h .status v, fun h => hostWrite_reg_pending h .status v⟩

/-- After a completion DONE is 1 (R313). -/
theorem complete_done (r : Result) : (complete r).status.done = true := by
  obtain ⟨-, h⟩ | ⟨e, -, h⟩ := complete_cases r <;> rw [h] <;> rfl

theorem irq_exec {i : Instr} {s t : State} (h : exec i s = .next t) :
    t.irq = s.cfg.ctrl.getLsbD 0 := by
  rw [exec_eq] at h
  cases h
  rw [State.irq, State.irqEn, complete_done, complete_cfg, (bodyOf_frame i s).cfg, Bool.and_true]

theorem irq_writeReg_ctrl (s : State) (v : Word) :
    (s.writeReg .ctrl v).irq = (v.getLsbD 0 && s.status.done) := by
  simp [State.irq, State.irqEn, State.writeReg]

/-- Settles O52. -/
theorem interruptLevel : Obligations.InterruptLevel := by
  refine ⟨fun _ => rfl, fun _ _ _ h => irq_exec h, fun s v hidle => ?_, fun s => ?_⟩
  · have hwrite (r : Reg) := hostWrite_reg hidle r v
    refine ⟨(congrArg State.irq (hwrite .cmd)).trans ?_,
      fun h => (congrArg State.irq (hwrite .status)).trans ?_,
      fun h => (congrArg State.irq (hwrite .ctrl)).trans ?_,
      fun h => (congrArg State.irq (hwrite .ctrl)).trans ?_⟩
    · simp [State.irq, State.writeReg]
    · simp [State.irq, State.writeReg, h]
    · exact (irq_writeReg_ctrl s v).trans (by rw [h, Bool.false_and])
    · exact (irq_writeReg_ctrl s v).trans (by rw [h, Bool.true_and])
  · rw [State.irq, resetBlock_status]
    exact Bool.and_false _

end Sys2Proof.Machine
end

section
/-! PROOF. Which windows a step may change (10_state.md R60, R61, R66). -/

namespace Sys2Proof.Machine

open Sys2Proof.Claims

theorem encode_toNat_of_decodeOpcode {n : Nat} {i : Instr} (h : decodeOpcode n = some i) :
    (encode i).toNat = n := by
  unfold decodeOpcode at h
  split at h <;> cases h <;> rfl

/-- Only the command word of an instruction decodes to it (R121). -/
theorem eq_encode_of_decode {w : Word} {i : Instr} (h : decode w = .ok i) : w = encode i := by
  unfold decode at h
  split at h
  · cases h
  next hres =>
  cases hop : decodeOpcode (w.toNat % 256) with
  | none => rw [hop] at h; cases h
  | some k =>
    rw [hop] at h
    cases h
    apply BitVec.eq_of_toNat_eq
    rw [encode_toNat_of_decodeOpcode hop]
    omega

/-- A host step changes an entry of a window only by a write to that entry (R66). -/
theorem hostStep_readWord {s : State} (hm : s.MemInv) {r : Region} {j : Nat}
    (hj : j < r.capacity s.params)
    (hno : ∀ v rest, r.isConfig = true → s.pending = none →
      s.hostProg ≠ .write (BitVec.ofNat 24 (r.entryAddr j)) .full v :: rest) :
    readWord (hostStep s).mem (r.entryAddr j) = readWord s.mem (r.entryAddr j) := by
  obtain hb | ⟨hp, a, v, rest, hprog, ⟨r', -, hb⟩ | ⟨r', j', hr', hj', ha, hb⟩⟩ :=
    hostStep_block_cases s <;> rw [hb.mem]
  · obtain ⟨cfg, hw⟩ | ⟨-, hw⟩ | ⟨-, hw⟩ | hw := writeReg_cases v s r' <;> rw [hw]
    · rfl
    · rfl
  · have hne : r' ≠ r ∨ j' ≠ j := by
      by_contra hsame
      rw [not_or, not_not, not_not] at hsame
      obtain ⟨rfl, rfl⟩ := hsame
      refine hno v rest hr' hp ?_
      rw [hprog, ← ha, BitVec.ofNat_toNat, BitVec.setWidth_eq]
    have hdisj := entries_disjoint hm.legal hj' hj hne
    rw [setEntry_mem]
    exact readWord_writeBlock_out hm.canonical _ 1 _ (by omega)

/-- A command changes no window but its own (R60). -/
theorem complete_bodyOf_readWord {s : State} (h : s.Inv) {i : Instr} {r : Region} {j : Nat}
    (hj : j < r.capacity s.params) (hr : ¬ mayWrite i r) :
    readWord (complete (bodyOf i s)).mem (r.entryAddr j) = readWord s.mem (r.entryAddr j) := by
  rw [complete_mem]
  exact (bodyOf_produces i h.mem h.valid).stores.readWord_eq h.mem.legal h.mem.canonical hr hj

/-- A SEQUENCER step changes no window but those of the pending command (R60, R312). -/
theorem sequencerStep_readWord {s t : State} (h : s.Inv) (hs : sequencerStep s = .next t)
    {r : Region} {j : Nat} (hj : j < r.capacity s.params)
    (hno : ∀ i, s.pending = some (encode i) → ¬ mayWrite i r) :
    readWord t.mem (r.entryAddr j) = readWord s.mem (r.entryAddr j) := by
  obtain ⟨-, hs'⟩ | ⟨w, i, hw, hd, hs'⟩ | ⟨w, e, -, -, hs'⟩ := sequencerStep_cases s <;>
    rw [hs'] at hs <;> cases hs
  · rfl
  · rw [eq_encode_of_decode hd] at hw
    exact complete_bodyOf_readWord h hj (hno i hw)
  · rfl

theorem isConfig_iff {r : Region} : r.isConfig = true ↔ r = .hbits ∨ r = .snrIn := by
  cases r <;> simp [Region.isConfig]

/-- Settles O56: by the mover whose turn it is. -/
theorem buffersChangeOnlyByTheirCommand : Obligations.BuffersChangeOnlyByTheirCommand := by
  intro s t r j h hj hstep hreset hwriter hrun hhost
  have hown (hnext : SequencerNext s) (i : Instr) (hi : s.pending = some (encode i)) :
      ¬ mayWrite i r := by
    rintro (hw | ⟨rfl, hw⟩)
    · exact hwriter i hw ⟨hi, hnext⟩
    · exact hrun hw ⟨hi, hnext⟩
  have hnowrite (hnext : s.pending = none →
      (s.sched = [] ∧ s.pending = none) ∨ ∃ rest, s.sched = .host :: rest)
      (v : Word) (rest : List HostOp) (hr : r.isConfig = true) (hp : s.pending = none) :
      s.hostProg ≠ .write (BitVec.ofNat 24 (r.entryAddr j)) .full v :: rest :=
    fun hop => hhost v (isConfig_iff.mp hr) ⟨⟨rest, hop⟩, hnext hp⟩
  cases hsched : s.sched with
  | nil =>
    rw [step_of_sched_nil hsched, defaultAgent] at hstep
    split at hstep
    · exact sequencerStep_readWord h hstep hj (hown (.inl hsched))
    · cases hstep
      exact hostStep_readWord h.mem hj (hnowrite fun hp => .inl ⟨hsched, hp⟩)
  | cons a rest =>
    have hu : State.Inv { s with sched := rest } :=
      h.of_sameBlock ⟨rfl, rfl, rfl, rfl, _, _, rfl⟩
    rw [step_of_sched_cons hsched] at hstep
    cases a with
    | host =>
      cases hstep
      exact hostStep_readWord hu.mem hj (hnowrite fun _ => .inr ⟨rest, hsched⟩)
    | sequencer => exact sequencerStep_readWord hu hstep hj (hown (.inr ⟨rest, hsched⟩))
    | reset => exact absurd ⟨rest, hsched⟩ hreset

end Sys2Proof.Machine
end

section
/-! PROOF. CHANNEL and SLICE read no configuration but CTRL, NOISE_LEVEL and SEED (10_state.md R55). -/

namespace Sys2Proof.Machine

/-- The state with another SCHEME, SPS, FC, FS and NBITS. -/
def State.reconfigured (s : State) (scheme : BitVec 3) (sps fc fs nbits : Word) : State :=
  { s with cfg := { s.cfg with scheme, sps, fc, fs, nbits } }

/-- The result of a body, with its state reconfigured. -/
def Result.reconfigured (r : Result) (scheme : BitVec 3) (sps fc fs nbits : Word) : Result :=
  { r with state := r.state.reconfigured scheme sps fc fs nbits }

section
variable (s : State) (N : Numerics) (scheme : BitVec 3) (sps fc fs nbits : Word)

theorem complete_reconfigured (r : Result) :
    complete (r.reconfigured scheme sps fc fs nbits)
      = (complete r).reconfigured scheme sps fc fs nbits := by
  obtain ⟨state, error⟩ := r
  cases error <;> rfl

/-! What the two commands read is the same. In parentheses `rfl` gives an equation that `simp` rewrites
with and does not take as definitional, so that the kernel never unfolds the arithmetic on the two
sides to compare them. -/

@[simp] theorem reconfigured_entry (r : Region) (j : Nat) :
    (s.reconfigured scheme sps fc fs nbits).entry r j = s.entry r j := (rfl)
@[simp] theorem reconfigured_res : (s.reconfigured scheme sps fc fs nbits).res = s.res := (rfl)
@[simp] theorem reconfigured_status :
    (s.reconfigured scheme sps fc fs nbits).status = s.status := (rfl)
@[simp] theorem reconfigured_strictSnr :
    (s.reconfigured scheme sps fc fs nbits).strictSnr = s.strictSnr := (rfl)
@[simp] theorem reconfigured_noiseMode :
    (s.reconfigured scheme sps fc fs nbits).noiseMode = s.noiseMode := (rfl)
@[simp] theorem reconfigured_noiseLevel :
    (s.reconfigured scheme sps fc fs nbits).cfg.noiseLevel = s.cfg.noiseLevel := (rfl)
@[simp] theorem reconfigured_seed :
    (s.reconfigured scheme sps fc fs nbits).cfg.seed = s.cfg.seed := (rfl)
@[simp] theorem reconfigured_fill (r : Region) (n : Nat) (f : Nat → Word) :
    (s.reconfigured scheme sps fc fs nbits).fill r n f
      = (s.fill r n f).reconfigured scheme sps fc fs nbits := (rfl)

theorem bodySlice_reconfigured : bodySlice (s.reconfigured scheme sps fc fs nbits)
    = (bodySlice s).reconfigured scheme sps fc fs nbits := by
  unfold bodySlice
  rw [reconfigured_status]
  split
  · rfl
  · rfl

theorem reportSnr_reconfigured (vtx vn : F64) (strict : Bool) :
    reportSnr N vtx vn strict (s.reconfigured scheme sps fc fs nbits)
      = (reportSnr N vtx vn strict s).reconfigured scheme sps fc fs nbits := by
  unfold reportSnr
  split
  · rfl
  · split
    · rfl
    · rfl

theorem channelWrites_reconfigured (vtx pn : F64) :
    channelWrites N vtx pn (s.reconfigured scheme sps fc fs nbits)
      = (channelWrites N vtx pn s).reconfigured scheme sps fc fs nbits := by
  simp only [channelWrites, reconfigured_entry, reconfigured_fill, reconfigured_res,
    reconfigured_status, reconfigured_seed]
  rfl

theorem bodyChannel_reconfigured : bodyChannel N (s.reconfigured scheme sps fc fs nbits)
    = (bodyChannel N s).reconfigured scheme sps fc fs nbits := by
  have hentry : (s.reconfigured scheme sps fc fs nbits).entry .tx = s.entry .tx := rfl
  unfold bodyChannel
  rw [reconfigured_status, reconfigured_noiseMode, reconfigured_noiseLevel, reconfigured_strictSnr,
    reconfigured_res, hentry]
  split
  · rfl
  · split
    · rfl
    · simp only [channelWrites_reconfigured, reportSnr_reconfigured, reconfigured_res]

end

/-- A command whose body commutes with the reconfiguration does so itself. -/
theorem exec_reconfigured {i : Instr} {s t : State} {scheme : BitVec 3} {sps fc fs nbits : Word}
    (h : bodyOf i (s.reconfigured scheme sps fc fs nbits)
      = (bodyOf i s).reconfigured scheme sps fc fs nbits) (ht : exec i s = .next t) :
    exec i (s.reconfigured scheme sps fc fs nbits)
      = .next (t.reconfigured scheme sps fc fs nbits) := by
  rw [exec_eq] at ht ⊢
  cases ht
  rw [h, complete_reconfigured]

/-- Settles O39. -/
theorem reconfigurationKeepsTheRun : Obligations.ReconfigurationKeepsTheRun :=
  fun s _ scheme sps fc fs nbits =>
    ⟨exec_reconfigured (bodySlice_reconfigured s scheme sps fc fs nbits),
      exec_reconfigured (bodyChannel_reconfigured s Config.numerics scheme sps fc fs nbits)⟩

end Sys2Proof.Machine
end

section
/-! PROOF. RUN whose checks pass (46_control.md R316, R317): the checks, one by one, and the five bodies
they let through. -/

namespace Sys2Proof.Machine

open Sys2Proof.Claims

theorem firstFailing_eq_none {l : List (Bool × BitVec 8 × BitVec 8)} :
    firstFailing l = none ↔ ∀ c ∈ l, c.1 = false := by
  induction l with
  | nil => simp [firstFailing]
  | cons c l ih =>
    obtain ⟨fails, pair⟩ := c
    cases fails
    · simpa [firstFailing] using ih
    · simp [firstFailing]

theorem ofCode_eq_none_iff {c : BitVec 3} : Scheme.ofCode c = none ↔ 4 ≤ c.toNat := by
  revert c
  decide

theorem checkSynth_of_synthChecks {p : Params} {sps : Int} {fs fc : F64} {c : Scheme} {n : Nat}
    (h : ∀ x ∈ synthChecks p sps fs fc c n, x.1 = false) : checkSynth p sps fs fc c n = none := by
  simp only [synthChecks, List.forall_mem_cons] at h
  obtain ⟨hsps, hone, hfs, hfc, hnyq, hphase, -⟩ := h
  simp only [checkSynth, phaseFinite, lastIndex]
  simp_all

theorem checkNoise_of_noiseCheck {mode : Bool} {x : F64} (h : (noiseCheck mode x).1 = false) :
    checkNoise mode x = none := by
  cases mode <;> simp_all [noiseCheck, checkNoise]

/-- The checks of a RUN, each of them passed (R317). -/
structure RunPasses (s : State) (c : Scheme) : Prop where
  scheme : Scheme.ofCode s.cfg.scheme = some c
  bitCount : checkBitCount s.params s.bitCount = none
  synth : checkSynth s.params s.samplesPerSymbol s.cfg.fs s.cfg.fc c
    (symbolCount c s.bitCount.toNat) = none
  noise : checkNoise s.noiseMode s.cfg.noiseLevel = none

theorem runPasses_of_passes {s : State} (h : Passes .run s) : ∃ c, RunPasses s c := by
  unfold Passes at h
  rw [firstFailing_eq_none] at h
  cases hc : Scheme.ofCode s.cfg.scheme with
  | none =>
    have hbad := ofCode_eq_none_iff.mp hc
    simp [checks, hc] at h
    omega
  | some c =>
    simp only [checks, hc, List.forall_mem_cons, List.cons_append, List.forall_mem_append] at h
    obtain ⟨-, hcount, hsynth, hnoise, -⟩ := h
    refine ⟨c, hc, checkBitCount_none.mpr (by simpa [State.bitCount] using hcount),
      checkSynth_of_synthChecks hsynth, checkNoise_of_noiseCheck hnoise⟩

theorem runChecks_of_passes {s : State} {c : Scheme} (h : RunPasses s c) : runChecks s = none := by
  simp only [runChecks, h.scheme, h.bitCount, h.synth, h.noise]

/-! ### The five bodies of a RUN -/

section
variable (N : Numerics) (s : State)

/-- The state of a RUN before its MAP. -/
def State.afterGenBits : State := (bodyGenBits N s).state
/-- The state of a RUN before its SYNTH. -/
def State.afterMap : State := (bodyMap (s.afterGenBits N)).state
/-- The state of a RUN before its CHANNEL. -/
def State.afterSynth : State := (bodySynth N (s.afterMap N)).state

theorem afterGenBits_frame : SameFrame s (s.afterGenBits N) := bodyGenBits_frame N s

theorem afterMap_frame : SameFrame s (s.afterMap N) :=
  (bodyGenBits_frame N s).trans (bodyMap_frame _)

theorem afterSynth_frame : SameFrame s (s.afterSynth N) :=
  ((bodyGenBits_frame N s).trans (bodyMap_frame _)).trans (bodySynth_frame N _)

end

section
variable {N : Numerics} {s : State} {c : Scheme} (h : RunPasses s c)
include h

theorem bitCount_lt : s.bitCount.toNat < 2 ^ 64 := by
  obtain ⟨hlo, -⟩ := checkBitCount_none.mp h.bitCount
  have hnonneg : 0 ≤ s.cfg.nbits.toInt := by unfold State.bitCount at hlo; omega
  rw [State.bitCount, toNat_toInt hnonneg]
  exact s.cfg.nbits.isLt

theorem afterGenBits_bitsV : (s.afterGenBits N).status.bitsV = true := by
  rw [State.afterGenBits, bodyGenBits_status h.bitCount]; rfl

theorem afterGenBits_bitsLen : (s.afterGenBits N).res.bitsLen.toNat = s.bitCount.toNat := by
  rw [State.afterGenBits, bodyGenBits_res h.bitCount]
  exact toNat_ofNat64 (bitCount_lt h)

theorem afterGenBits_scheme : Scheme.ofCode (s.afterGenBits N).cfg.scheme = some c := by
  rw [(afterGenBits_frame N s).cfg]; exact h.scheme

theorem afterMap_symV : (s.afterMap N).status.symV = true := by
  rw [State.afterMap, bodyMap_status (afterGenBits_scheme h) (afterGenBits_bitsV h)]; rfl

theorem afterMap_latScheme : (s.afterMap N).res.latScheme = c := by
  rw [State.afterMap, bodyMap_res (afterGenBits_scheme h) (afterGenBits_bitsV h)]

theorem afterMap_symLen : (s.afterMap N).res.symLen.toNat = symbolCount c s.bitCount.toNat := by
  rw [State.afterMap, bodyMap_res (afterGenBits_scheme h) (afterGenBits_bitsV h),
    afterGenBits_bitsLen h]
  exact toNat_ofNat64 ((symbolCount_le c _).trans_lt (bitCount_lt h))

/-- SYNTH's checks inside a RUN are those the RUN made (R317). -/
theorem afterMap_check : checkSynth (s.afterMap N).params (s.afterMap N).samplesPerSymbol
    (s.afterMap N).cfg.fs (s.afterMap N).cfg.fc (s.afterMap N).res.latScheme
    (s.afterMap N).res.symLen.toNat = none := by
  rw [afterMap_latScheme h, afterMap_symLen h, State.samplesPerSymbol, (afterMap_frame N s).cfg,
    (afterMap_frame N s).params]
  exact h.synth

theorem afterSynth_waveV : (s.afterSynth N).status.waveV = true := by
  rw [State.afterSynth, bodySynth_status (afterMap_symV h) (afterMap_check h)]; rfl

theorem afterSynth_check :
    checkNoise (s.afterSynth N).noiseMode (s.afterSynth N).cfg.noiseLevel = none := by
  rw [State.noiseMode, (afterSynth_frame N s).cfg]
  exact h.noise

/-- The first three bodies of a RUN meet no error (R316, R317). -/
theorem bodyRun_eq :
    bodyRun N s = (bodyChannel N (s.afterSynth N)).andThen bodySlice := by
  have hgen : bodyGenBits N s = .ok (s.afterGenBits N) := by
    rw [State.afterGenBits, bodyGenBits_ok h.bitCount]; rfl
  have hmap : bodyMap (s.afterGenBits N) = .ok (s.afterMap N) := by
    rw [State.afterMap, bodyMap_ok (afterGenBits_scheme h) (afterGenBits_bitsV h)]; rfl
  have hsynth : bodySynth N (s.afterMap N) = .ok (s.afterSynth N) := by
    simp only [State.afterSynth, bodySynth_ok (afterMap_symV h) (afterMap_check h), ok_state]
  rw [bodyRun_ok (runChecks_of_passes h), hgen, andThen_ok, hmap, andThen_ok, hsynth, andThen_ok]

end

end Sys2Proof.Machine
end

section
/-! PROOF. Reproducibility (10_state.md R70): two blocks with the same configuration and the same valid
data leave the same valid data after each body of a RUN, whatever else they hold. -/

namespace Sys2Proof.Machine

open Sys2Proof.Claims

/-! ### Values that depend on part of a sequence alone -/

theorem sum_congr {n : Nat} {f g : Nat → F64} (h : ∀ i, i < n → f i = g i) :
    F64.sum n f = F64.sum n g := by
  induction n with
  | zero => rw [F64.sum_zero, F64.sum_zero]
  | succ n ih =>
    rw [F64.sum_succ, F64.sum_succ, ih fun i hi => h i (by omega), h n (by omega)]

theorem variance_congr {n : Nat} {f g : Nat → F64} (h : ∀ i, i < n → f i = g i) :
    variance f n = variance g n := by
  simp only [variance, sum_congr h]
  rw [sum_congr fun i hi => by rw [h i hi]]

theorem packBits_congr {n : Nat} {b b' : Nat → Bool} (h : ∀ i, i < n → b i = b' i) :
    packBits n b = packBits n b' := by
  funext w
  apply BitVec.eq_of_getLsbD_eq
  intro t _
  rw [packBits_bit, packBits_bit]
  by_cases hi : 64 * w + t < n
  · rw [h _ hi]
  · simp [hi]

/-! ### The data a block holds under its VALID flags -/

/-- Whether the entries of a window are valid data (R67). -/
def windowValid (st : Status) : Region → Bool
  | .hbits | .snrIn | .berOut => false
  | .bits => st.bitsV
  | .symI | .symQ => st.symV
  | .time | .carI | .carQ | .tx => st.waveV
  | .noise | .rx | .demodI | .demodQ => st.rxV
  | .estI | .estQ | .rxbits => st.estV

/-- How many entries of a window the length registers cover (R55, R60). -/
def windowLen (rs : ResultRegs) : Region → Nat
  | .hbits | .snrIn | .berOut => 0
  | .bits => ceilDiv rs.bitsLen.toNat 64
  | .symI | .symQ | .estI | .estQ => rs.symLen.toNat
  | .time | .carI | .carQ | .tx | .noise | .rx | .demodI | .demodQ => rs.sampLen.toNat
  | .rxbits => ceilDiv (rs.symLen.toNat * rs.latScheme.bitsPerSymbol) 64

/-- Two windows hold the same `n` words. -/
def SameWords (s s' : State) (r : Region) (n : Nat) : Prop :=
  ∃ f, Holds s r n f ∧ Holds s' r n f

/-- Valid entries lie within capacity. -/
theorem windowLen_le_capacity {s : State} (hm : s.MemInv) (hv : s.ValidInv) {r : Region}
    (h : windowValid s.status r = true) : windowLen s.res r ≤ r.capacity s.params := by
  have wave_of_rx (hr : s.status.rxV = true) := (hv.rx hr).1
  have rx_of_est (he : s.status.estV = true) := (hv.est he).1
  have sym_of_wave (hw : s.status.waveV = true) := (hv.wave hw).1
  cases r
  case hbits | snrIn | berOut => exact Nat.zero_le _
  case bits => exact bitWords_le_capacity hm.legal (bitsLen_le hv h)
  case symI | symQ => exact symLen_le hv h
  case time | carI | carQ | tx => exact sampLen_le hv h
  case noise | rx | demodI | demodQ => exact sampLen_le hv (wave_of_rx h)
  case estI | estQ => exact symLen_le hv (sym_of_wave (wave_of_rx (rx_of_est h)))
  case rxbits => exact rxWords_le hm hv (sym_of_wave (wave_of_rx (rx_of_est h)))

/-- Two blocks that keep their invariants, configured alike, BER_COUNT apart. -/
structure SameConfig (s s' : State) : Prop where
  mem : s.MemInv
  valid : s.ValidInv
  mem' : s'.MemInv
  valid' : s'.ValidInv
  cfg : s'.cfg = { s.cfg with berCount := s'.cfg.berCount }

/-- A body of each block keeps the invariants and the configurations. -/
theorem SameConfig.step {s s' t t' : State} {ws : Region → Prop} (h : SameConfig s s')
    (hP : Produces ws s t) (hP' : Produces ws s' t') (hf : SameFrame s t) (hf' : SameFrame s' t') :
    SameConfig t t' where
  mem := hP.memInv h.mem
  valid := hP.valid
  mem' := hP'.memInv h.mem'
  valid' := hP'.valid
  cfg := by rw [hf.cfg, hf'.cfg]; exact h.cfg

/-- The same configuration, the same VALID flags of the chain and, under each flag, the same registers
and the same words. -/
structure SameData (s s' : State) : Prop extends SameConfig s s' where
  flags : ∀ r, windowValid s'.status r = windowValid s.status r
  bitsRegs : s.status.bitsV = true → s'.res.bitsLen = s.res.bitsLen
  symRegs : s.status.symV = true → s'.res.symLen = s.res.symLen ∧ s'.res.npad = s.res.npad ∧
    s'.res.latScheme = s.res.latScheme
  waveRegs : s.status.waveV = true → s'.res.sampLen = s.res.sampLen ∧
    s'.res.latSps = s.res.latSps ∧ s'.res.latFc = s.res.latFc ∧ s'.res.latFs = s.res.latFs
  rxRegs : s.status.rxV = true → s'.res.noisePwr = s.res.noisePwr ∧ s'.res.varTx = s.res.varTx ∧
    s'.res.varNoise = s.res.varNoise
  estRegs : s.status.estV = true → s'.res.errCnt = s.res.errCnt
  words : ∀ r, windowValid s.status r = true → SameWords s s' r (windowLen s.res r)

section
variable {s s' t t' : State} {N : Numerics} {c : Scheme} (h : SameData s s')
include h

theorem SameData.windowLen_eq {r : Region} (hr : windowValid s.status r = true) :
    windowLen s'.res r = windowLen s.res r := by
  have hsym (hs : s.status.symV = true) := (h.symRegs hs).1
  have sym_of_est (he : s.status.estV = true) : s.status.symV = true :=
    (h.valid.wave (h.valid.rx (h.valid.est he).1).1).1
  cases r
  case hbits | snrIn | berOut => rfl
  case bits => simp only [windowLen, h.bitsRegs hr]
  case symI | symQ => simp only [windowLen, hsym hr]
  case time | carI | carQ | tx => simp only [windowLen, (h.waveRegs hr).1]
  case noise | rx | demodI | demodQ => simp only [windowLen, (h.waveRegs (h.valid.rx hr).1).1]
  case estI | estQ => simp only [windowLen, hsym (sym_of_est hr)]
  case rxbits =>
    obtain ⟨hlen, -, hscheme⟩ := h.symRegs (sym_of_est hr)
    simp only [windowLen, hlen, hscheme]

theorem SameData.entry_eq {r : Region} {j : Nat} (hr : windowValid s.status r = true)
    (hj : j < windowLen s.res r) : s'.entry r j = s.entry r j := by
  obtain ⟨f, hf, hf'⟩ := h.words r hr
  rw [hf.entry_eq hj, hf'.entry_eq hj]

theorem SameData.bit_eq {i : Nat} (hb : s.status.bitsV = true) (hi : i < s.res.bitsLen.toNat) :
    s'.bit .bits i = s.bit .bits i := by
  have hword : i / 64 < windowLen s.res .bits := by simp only [windowLen, ceilDiv]; omega
  rw [State.bit, State.bit, h.entry_eq (r := .bits) hb hword]

/-- Words that neither body writes and that stay valid are still the same. -/
theorem SameData.words_step {ws : Region → Prop} (hP : Produces ws s t) (hP' : Produces ws s' t')
    (hold : ∀ r, ¬ ws r → windowValid t.status r = true →
      windowValid s.status r = true ∧ windowLen t.res r = windowLen s.res r)
    (hnew : ∀ r, ws r → SameWords t t' r (windowLen t.res r)) :
    ∀ r, windowValid t.status r = true → SameWords t t' r (windowLen t.res r) := by
  intro r hr
  by_cases hw : ws r
  · exact hnew r hw
  · obtain ⟨hvalid, hlen⟩ := hold r hw hr
    obtain ⟨f, hf, hf'⟩ := h.words r hvalid
    have hcap := windowLen_le_capacity h.mem h.valid hvalid
    have hcap' := windowLen_le_capacity h.mem' h.valid' ((h.flags r).trans hvalid)
    rw [h.windowLen_eq hvalid] at hcap'
    rw [hlen]
    exact ⟨f, hf.keep hP.stores h.mem hw hcap, hf'.keep hP'.stores h.mem' hw hcap'⟩

end

end Sys2Proof.Machine
end

section
/-! PROOF. The bodies of a RUN on two blocks with the same data, and O38. -/

namespace Sys2Proof.Machine

open Sys2Proof.Claims

/-! ### The same values from the same data -/

section
variable {s s' : State} {N : Numerics} (h : SameData s s')
include h

theorem SameData.symbolPoint_eq (hb : s.status.bitsV = true) (c : Scheme) :
    symbolPoint s' c = symbolPoint s c := by
  have hpad : padded s'.res.bitsLen.toNat (s'.bit .bits)
      = padded s.res.bitsLen.toNat (s.bit .bits) := by
    funext i
    rw [padded, padded, h.bitsRegs hb]
    by_cases hi : i < s.res.bitsLen.toNat
    · rw [h.bit_eq hb hi]
    · simp [hi]
  funext j
  rw [symbolPoint, symbolPoint, hpad]

theorem SameData.txSample_eq (hs : s.status.symV = true) {sps n : Nat}
    (hn : n < s.res.symLen.toNat * sps) : txSample N s' sps n = txSample N s sps n := by
  have hj : n / sps < s.res.symLen.toNat := Nat.div_lt_of_lt_mul (by rwa [Nat.mul_comm])
  rw [txSample, txSample, h.entry_eq (r := .symI) hs hj, h.entry_eq (r := .symQ) hs hj, h.cfg]

theorem SameData.estimate_eq (hr : s.status.rxV = true) {j : Nat} (hj : j < s.res.symLen.toNat) :
    estimate s' j = estimate s j := by
  obtain ⟨hw, -⟩ := h.valid.rx hr
  obtain ⟨hs, -, -, hlen, -⟩ := h.valid.wave hw
  obtain ⟨-, -, hscheme⟩ := h.symRegs hs
  obtain ⟨-, hsps, -⟩ := h.waveRegs hw
  have hin {t : Nat} (ht : t < s.res.latSps.toNat) :
      j * s.res.latSps.toNat + t < s.res.sampLen.toNat := by
    rw [hlen]
    calc j * s.res.latSps.toNat + t < (j + 1) * s.res.latSps.toNat := by rw [Nat.succ_mul]; omega
      _ ≤ s.res.symLen.toNat * s.res.latSps.toNat := Nat.mul_le_mul_right _ hj
  have hi {t : Nat} (ht : t < s.res.latSps.toNat) := h.entry_eq (r := .carI) hw (hin ht)
  have hq {t : Nat} (ht : t < s.res.latSps.toNat) := h.entry_eq (r := .carQ) hw (hin ht)
  have hdi {t : Nat} (ht : t < s.res.latSps.toNat) := h.entry_eq (r := .demodI) hr (hin ht)
  have hdq {t : Nat} (ht : t < s.res.latSps.toNat) := h.entry_eq (r := .demodQ) hr (hin ht)
  have hwindow : integrate s' s.res.latSps.toNat j = integrate s s.res.latSps.toNat j := by
    unfold integrate
    congr 1
    · exact sum_congr fun t ht => by rw [hi ht]
    · exact sum_congr fun t ht => by rw [hq ht]
    · exact sum_congr fun t ht => by rw [hi ht, hq ht]
    · exact sum_congr fun t ht => hdi ht
    · exact sum_congr fun t ht => hdq ht
  rw [estimate, estimate, hscheme, hsps, hwindow]

theorem SameData.recoveredBit_eq (hr : s.status.rxV = true) {i : Nat}
    (hi : i < s.res.symLen.toNat * s.res.latScheme.bitsPerSymbol) :
    recoveredBit s' i = recoveredBit s i := by
  obtain ⟨-, -, hscheme⟩ := h.symRegs (h.valid.wave (h.valid.rx hr).1).1
  have hj : i / s.res.latScheme.bitsPerSymbol < s.res.symLen.toNat :=
    Nat.div_lt_of_lt_mul (by rwa [Nat.mul_comm])
  rw [recoveredBit, recoveredBit, hscheme, h.estimate_eq hr hj]

theorem SameData.errorCount_eq (hr : s.status.rxV = true) : errorCount s' = errorCount s := by
  have hs : s.status.symV = true := (h.valid.wave (h.valid.rx hr).1).1
  have hb : s.status.bitsV = true := (h.valid.sym hs).1
  have hcover : s.res.bitsLen.toNat ≤ s.res.symLen.toNat * s.res.latScheme.bitsPerSymbol := by
    rw [symLen_eq h.valid hs]
    exact (symbolCount_bits _ _).1
  unfold errorCount
  rw [h.bitsRegs hb]
  refine List.countP_congr fun i hi => ?_
  rw [List.mem_range] at hi
  rw [h.bit_eq hb hi, h.recoveredBit_eq hr (hi.trans_le hcover)]

end

/-! ### The same data after each body -/

section
variable {s s' : State} {N : Numerics} {c : Scheme}

theorem SameWords.of_holds {r : Region} {n : Nat} {f g : Nat → Word} (hf : Holds s r n f)
    (hg : Holds s' r n g) (h : ∀ j, j < n → g j = f j) : SameWords s s' r n :=
  ⟨f, hf, fun j hj => by rw [hg j hj, h j hj]⟩

theorem sameData_genBits (h : SameConfig s s')
    (hsrc : ∀ i, i < s.bitCount.toNat → sourceBit N s' i = sourceBit N s i)
    (hc : checkBitCount s.params s.bitCount = none)
    (hc' : checkBitCount s'.params s'.bitCount = none) :
    SameData (bodyGenBits N s).state (bodyGenBits N s').state := by
  have hP := bodyGenBits_produces (N := N) h.mem h.valid
  have hP' := bodyGenBits_produces (N := N) h.mem' h.valid'
  have hconfig := h.step hP hP' (bodyGenBits_frame N s) (bodyGenBits_frame N s')
  obtain ⟨-, hbits⟩ := bodyGenBits_writes (N := N) h.mem hc
  obtain ⟨-, hbits'⟩ := bodyGenBits_writes (N := N) h.mem' hc'
  have hst := bodyGenBits_status (N := N) hc
  have hst' := bodyGenBits_status (N := N) hc'
  have hrs := bodyGenBits_res (N := N) hc
  have hrs' := bodyGenBits_res (N := N) hc'
  have hcount : s'.bitCount = s.bitCount := by rw [State.bitCount, h.cfg]; rfl
  rw [hcount, packBits_congr hsrc] at hbits'
  rw [hcount] at hrs'
  generalize (bodyGenBits N s).state = t at *
  generalize (bodyGenBits N s').state = t' at *
  have hlen := toNat_ofNat_of_le_nMax h.mem (n := s.bitCount.toNat)
    (by obtain ⟨-, hhi⟩ := checkBitCount_none.mp hc; omega)
  exact
    { hconfig with
      flags := fun r => by rw [hst, hst']; cases r <;> rfl
      bitsRegs := fun _ => by rw [hrs, hrs']
      symRegs := by simp [hst]
      waveRegs := by simp [hst]
      rxRegs := by simp [hst]
      estRegs := by simp [hst]
      words := fun r hr => by
        rw [hst] at hr
        cases r
        case bits => exact ⟨_, by simpa only [windowLen, hrs, hlen] using ⟨hbits, hbits'⟩⟩
        all_goals exact absurd hr Bool.false_ne_true }

theorem SameData.map (h : SameData s s') (hc : Scheme.ofCode s.cfg.scheme = some c)
    (hb : s.status.bitsV = true) : SameData (bodyMap s).state (bodyMap s').state := by
  have hP := bodyMap_produces h.mem h.valid
  have hP' := bodyMap_produces h.mem' h.valid'
  have hconfig := h.toSameConfig.step hP hP' (bodyMap_frame s) (bodyMap_frame s')
  have hb' : s'.status.bitsV = true := (h.flags .bits).trans hb
  have hc' : Scheme.ofCode s'.cfg.scheme = some c := by rw [h.cfg]; exact hc
  obtain ⟨-, hi, hq⟩ := bodyMap_writes h.mem h.valid hc hb
  obtain ⟨-, hi', hq'⟩ := bodyMap_writes h.mem' h.valid' hc' hb'
  have hst := bodyMap_status hc hb
  have hst' := bodyMap_status hc' hb'
  have hrs := bodyMap_res hc hb
  have hrs' := bodyMap_res hc' hb'
  rw [h.symbolPoint_eq hb, h.bitsRegs hb] at hi' hq'
  rw [h.bitsRegs hb] at hrs'
  generalize (bodyMap s).state = t at *
  generalize (bodyMap s').state = t' at *
  have hlen := toNat_ofNat_of_le_nMax h.mem ((symbolCount_le c _).trans (bitsLen_le h.valid hb))
  exact
    { hconfig with
      flags := fun r => by
        have hflag := h.flags r
        rw [hst, hst']
        cases r
        case bits => exact hflag
        all_goals rfl
      bitsRegs := fun _ => by rw [hrs, hrs']; exact h.bitsRegs hb
      symRegs := fun _ => by rw [hrs, hrs']; exact ⟨rfl, rfl, rfl⟩
      waveRegs := by simp [hst]
      rxRegs := by simp [hst]
      estRegs := by simp [hst]
      words := h.words_step hP hP'
        (fun r hw hr => by
          rw [hst] at hr
          rw [hrs]
          cases r
          case bits => exact ⟨hr, rfl⟩
          case symI | symQ => exact absurd rfl hw
          all_goals exact absurd hr Bool.false_ne_true)
        (fun r hw => by
          cases r
          case symI => exact ⟨_, by simpa only [windowLen, hrs, hlen] using ⟨hi, hi'⟩⟩
          case symQ => exact ⟨_, by simpa only [windowLen, hrs, hlen] using ⟨hq, hq'⟩⟩
          all_goals simp [writer] at hw) }

theorem SameData.synth (h : SameData s s') (hs : s.status.symV = true)
    (hc : checkSynth s.params s.samplesPerSymbol s.cfg.fs s.cfg.fc s.res.latScheme
      s.res.symLen.toNat = none)
    (hc' : checkSynth s'.params s'.samplesPerSymbol s'.cfg.fs s'.cfg.fc s'.res.latScheme
      s'.res.symLen.toNat = none) :
    SameData (bodySynth N s).state (bodySynth N s').state := by
  have hP := bodySynth_produces (N := N) h.mem h.valid
  have hP' := bodySynth_produces (N := N) h.mem' h.valid'
  have hconfig := h.toSameConfig.step hP hP' (bodySynth_frame N s) (bodySynth_frame N s')
  have hs' : s'.status.symV = true := (h.flags .symI).trans hs
  obtain ⟨-, ht, hi, hq, hx⟩ := bodySynth_writes (N := N) h.mem h.valid hs hc
  obtain ⟨-, ht', hi', hq', hx'⟩ := bodySynth_writes (N := N) h.mem' h.valid' hs' hc'
  have hst := bodySynth_status (N := N) hs hc
  have hst' := bodySynth_status (N := N) hs' hc'
  have hrs := bodySynth_res (N := N) hs hc
  have hrs' := bodySynth_res (N := N) hs' hc'
  have hsps : s'.samplesPerSymbol = s.samplesPerSymbol := by
    rw [State.samplesPerSymbol, h.cfg]; rfl
  have hfs : s'.cfg.fs = s.cfg.fs := by rw [h.cfg]
  have hfc : s'.cfg.fc = s.cfg.fc := by rw [h.cfg]
  rw [(h.symRegs hs).1, hsps, hfs] at ht' hi' hq' hrs'
  rw [hfc] at hi' hq' hrs'
  rw [(h.symRegs hs).1, hsps] at hx'
  generalize (bodySynth N s).state = t at *
  generalize (bodySynth N s').state = t' at *
  have hlen : t.res.sampLen.toNat = s.res.symLen.toNat * s.samplesPerSymbol.toNat := by
    rw [hrs]
    exact toNat_ofNat_of_le_lMax h.mem (synthLen_le h.valid hs hc)
  exact
    { hconfig with
      flags := fun r => by
        have hflag := h.flags r
        rw [hst, hst']
        cases r
        case bits | symI | symQ => exact hflag
        all_goals rfl
      bitsRegs := fun hb => by rw [hst] at hb; rw [hrs, hrs']; exact h.bitsRegs hb
      symRegs := fun _ => by rw [hrs, hrs']; exact h.symRegs hs
      waveRegs := fun _ => by rw [hrs, hrs']; exact ⟨rfl, rfl, rfl, rfl⟩
      rxRegs := by simp [hst]
      estRegs := by simp [hst]
      words := h.words_step hP hP'
        (fun r hw hr => by
          rw [hst] at hr
          rw [hrs]
          cases r
          case bits | symI | symQ => exact ⟨hr, rfl⟩
          case time | carI | carQ | tx => exact absurd rfl hw
          all_goals exact absurd hr Bool.false_ne_true)
        (fun r hw => by
          cases r
          case time => exact ⟨_, by simpa only [windowLen, hlen] using ⟨ht, ht'⟩⟩
          case carI => exact ⟨_, by simpa only [windowLen, hlen] using ⟨hi, hi'⟩⟩
          case carQ => exact ⟨_, by simpa only [windowLen, hlen] using ⟨hq, hq'⟩⟩
          case tx =>
            simp only [windowLen, hlen]
            exact .of_holds hx hx' fun n hn => h.txSample_eq hs hn
          all_goals simp [writer] at hw) }

theorem SameData.channelWrites (h : SameData s s') (hw : s.status.waveV = true) (vtx pn : F64) :
    SameData (channelWrites N vtx pn s) (channelWrites N vtx pn s') := by
  have hw' : s'.status.waveV = true := (h.flags .time).trans hw
  have hP := channelWrites_produces (N := N) h.mem h.valid hw vtx pn
  have hP' := channelWrites_produces (N := N) h.mem' h.valid' hw' vtx pn
  have hconfig := h.toSameConfig.step hP hP' (channelWrites_frame N s vtx pn)
    (channelWrites_frame N s' vtx pn)
  obtain ⟨-, hn, hr, hi, hq⟩ := channelWrites_writes (N := N) h.mem h.valid hw vtx pn
  obtain ⟨-, hn', hr', hi', hq'⟩ := channelWrites_writes (N := N) h.mem' h.valid' hw' vtx pn
  have hst := channelWrites_status (N := N) s vtx pn
  have hst' := channelWrites_status (N := N) s' vtx pn
  have hrs := channelWrites_res (N := N) s vtx pn
  have hrs' := channelWrites_res (N := N) s' vtx pn
  have hseed : s'.cfg.seed = s.cfg.seed := by rw [h.cfg]
  have hsamp := (h.waveRegs hw).1
  rw [hsamp, hseed] at hn' hr' hi' hq' hrs'
  generalize Machine.channelWrites N vtx pn s = t at *
  generalize Machine.channelWrites N vtx pn s' = t' at *
  have hlen : t.res.sampLen = s.res.sampLen := by rw [hrs]
  have htx {n : Nat} (hn : n < s.res.sampLen.toNat) := h.entry_eq (r := .tx) hw hn
  have hci {n : Nat} (hn : n < s.res.sampLen.toNat) := h.entry_eq (r := .carI) hw hn
  have hcq {n : Nat} (hn : n < s.res.sampLen.toNat) := h.entry_eq (r := .carQ) hw hn
  exact
    { hconfig with
      flags := fun r => by
        have hflag := h.flags r
        rw [hst, hst']
        cases r
        case bits | symI | symQ | time | carI | carQ | tx => exact hflag
        all_goals rfl
      bitsRegs := fun hb => by rw [hst] at hb; rw [hrs, hrs']; exact h.bitsRegs hb
      symRegs := fun hs => by rw [hst] at hs; rw [hrs, hrs']; exact h.symRegs hs
      waveRegs := fun _ => by rw [hrs, hrs']; exact h.waveRegs hw
      rxRegs := fun _ => by rw [hrs, hrs']; exact ⟨rfl, rfl, rfl⟩
      estRegs := by simp [hst]
      words := h.words_step hP hP'
        (fun r hown hr => by
          rw [hst] at hr
          rw [hrs]
          cases r
          case bits | symI | symQ | time | carI | carQ | tx => exact ⟨hr, rfl⟩
          case noise | rx | demodI | demodQ => exact absurd rfl hown
          all_goals exact absurd hr Bool.false_ne_true)
        (fun r hown => by
          cases r
          case noise => simp only [windowLen, hlen]; exact ⟨_, hn, hn'⟩
          case rx =>
            simp only [windowLen, hlen]
            exact .of_holds hr hr' fun n hn => by rw [htx hn]
          case demodI =>
            simp only [windowLen, hlen]
            exact .of_holds hi hi' fun n hn => by simp only [htx hn, hci hn]
          case demodQ =>
            simp only [windowLen, hlen]
            exact .of_holds hq hq' fun n hn => by simp only [htx hn, hcq hn]
          all_goals simp [writer] at hown) }

/-- SNR_MEAS is no data of the chain. -/
theorem SameData.setSnr (h : SameData s s') (snr : F64) :
    SameData { s with res := { s.res with snrMeas := snr } }
      { s' with res := { s'.res with snrMeas := snr } } where
  mem := ⟨h.mem.legal, h.mem.canonical, h.mem.mapped⟩
  valid := ⟨h.valid.bits, h.valid.sym, h.valid.wave, h.valid.rx, h.valid.est, h.valid.ber⟩
  mem' := ⟨h.mem'.legal, h.mem'.canonical, h.mem'.mapped⟩
  valid' := ⟨h.valid'.bits, h.valid'.sym, h.valid'.wave, h.valid'.rx, h.valid'.est, h.valid'.ber⟩
  cfg := h.cfg
  flags := h.flags
  bitsRegs := h.bitsRegs
  symRegs := h.symRegs
  waveRegs := h.waveRegs
  rxRegs := h.rxRegs
  estRegs := h.estRegs
  words := fun r hr => by
    have hwords := h.words r hr
    cases r <;> exact hwords

theorem windowValid_validSlice (st : Status) (d : Bool) (r : Region) :
    windowValid (st.validSlice d) r = (windowValid st r || decide (writer r = some .slice)) := by
  cases r <;> simp [windowValid, writer]

theorem SameData.slice (h : SameData s s') (hr : s.status.rxV = true) :
    SameData (bodySlice s).state (bodySlice s').state := by
  have hr' : s'.status.rxV = true := (h.flags .noise).trans hr
  obtain ⟨hw, -⟩ := h.valid.rx hr
  have hs : s.status.symV = true := (h.valid.wave hw).1
  have hP := bodySlice_produces h.mem h.valid
  have hP' := bodySlice_produces h.mem' h.valid'
  have hconfig := h.toSameConfig.step hP hP' (bodySlice_frame s) (bodySlice_frame s')
  obtain ⟨-, hi, hq, hb⟩ := bodySlice_writes h.mem h.valid hr
  obtain ⟨-, hi', hq', hb'⟩ := bodySlice_writes h.mem' h.valid' hr'
  have hst := bodySlice_status hr
  have hst' := bodySlice_status hr'
  have hrs := bodySlice_res hr
  have hrs' := bodySlice_res hr'
  obtain ⟨hsym, -, hscheme⟩ := h.symRegs hs
  rw [hsym] at hi' hq' hb'
  rw [hscheme, packBits_congr fun i hi => h.recoveredBit_eq hr hi] at hb'
  rw [h.errorCount_eq hr] at hrs'
  generalize (bodySlice s).state = t at *
  generalize (bodySlice s').state = t' at *
  generalize anyDegenerate s = d at hst
  generalize anyDegenerate s' = d' at hst'
  generalize BitVec.ofNat 64 (errorCount s) = errors at hrs hrs'
  have hlen : t.res.symLen = s.res.symLen := by rw [hrs]
  have hlat : t.res.latScheme = s.res.latScheme := by rw [hrs]
  exact
    { hconfig with
      flags := fun r => by rw [hst, hst', windowValid_validSlice, windowValid_validSlice, h.flags r]
      bitsRegs := fun hb => by rw [hst] at hb; rw [hrs, hrs']; exact h.bitsRegs hb
      symRegs := fun _ => by rw [hrs, hrs']; exact h.symRegs hs
      waveRegs := fun _ => by rw [hrs, hrs']; exact h.waveRegs hw
      rxRegs := fun _ => by rw [hrs, hrs']; exact h.rxRegs hr
      estRegs := fun _ => by rw [hrs, hrs']
      words := h.words_step hP hP'
        (fun r hown hr => by
          rw [hst] at hr
          rw [hrs]
          cases r
          case estI | estQ | rxbits => exact absurd rfl hown
          all_goals exact ⟨hr, rfl⟩)
        (fun r hown => by
          cases r
          case estI =>
            simp only [windowLen, hlen]
            exact .of_holds hi hi' fun j hj => by rw [h.estimate_eq hr hj]
          case estQ =>
            simp only [windowLen, hlen]
            exact .of_holds hq hq' fun j hj => by rw [h.estimate_eq hr hj]
          case rxbits => simp only [windowLen, hlen, hlat]; exact ⟨_, hb, hb'⟩
          all_goals simp [writer] at hown) }

/-- What the SNR report does depends on the variances alone (R239, R240). -/
theorem reportSnr_uniform (N : Numerics) (vtx vn : F64) (strict : Bool) : ∃ snr e, ∀ s : State,
    reportSnr N vtx vn strict s =
      { state := { s with res := { s.res with snrMeas := snr } }, error := e } := by
  unfold reportSnr
  split
  · exact ⟨_, _, fun _ => rfl⟩
  · split
    · exact ⟨_, _, fun _ => rfl⟩
    · exact ⟨_, _, fun _ => rfl⟩

/-- Two results with the same data, the same SNR_MEAS and the same error. -/
structure SameResult (r r' : Result) : Prop where
  data : SameData r.state r'.state
  snr : r'.state.res.snrMeas = r.state.res.snrMeas
  error : r'.error = r.error
  rxV : r.state.status.rxV = true

theorem SameData.reportSnr (h : SameData s s') (hr : s.status.rxV = true) (vtx : F64)
    (strict : Bool) :
    SameResult (reportSnr N vtx s.res.varNoise strict s)
      (reportSnr N vtx s'.res.varNoise strict s') := by
  obtain ⟨-, -, hnoise⟩ := h.rxRegs hr
  rw [hnoise]
  obtain ⟨snr, e, hreport⟩ := reportSnr_uniform N vtx s.res.varNoise strict
  rw [hreport, hreport]
  exact ⟨h.setSnr snr, rfl, rfl, hr⟩

theorem SameData.channel (h : SameData s s') (hw : s.status.waveV = true)
    (hc : checkNoise s.noiseMode s.cfg.noiseLevel = none) :
    SameResult (bodyChannel N s) (bodyChannel N s') := by
  have hw' : s'.status.waveV = true := (h.flags .time).trans hw
  have hmode : s'.noiseMode = s.noiseMode := by rw [State.noiseMode, h.cfg]; rfl
  have hstrict : s'.strictSnr = s.strictSnr := by rw [State.strictSnr, h.cfg]; rfl
  have hlevel : s'.cfg.noiseLevel = s.cfg.noiseLevel := by rw [h.cfg]
  have hvtx : variance (s'.entry .tx) s'.res.sampLen.toNat
      = variance (s.entry .tx) s.res.sampLen.toNat := by
    rw [(h.waveRegs hw).1]
    exact variance_congr fun n hn => h.entry_eq (r := .tx) hw hn
  rw [bodyChannel_ok hw hc, bodyChannel_ok hw' (by rw [hmode, hlevel]; exact hc)]
  dsimp only
  rw [hmode, hlevel, hstrict, hvtx]
  generalize variance (s.entry .tx) s.res.sampLen.toNat = vtx
  generalize noisePower N s.noiseMode s.cfg.noiseLevel vtx = pn
  have hrx : (Machine.channelWrites N vtx pn s).status.rxV = true := by
    rw [channelWrites_status, validChannel_rxV]
  exact (h.channelWrites hw vtx pn).reportSnr hrx vtx s.strictSnr

theorem SameResult.andThen_slice {r r' : Result} (h : SameResult r r') :
    SameResult (r.andThen bodySlice) (r'.andThen bodySlice) ∧
      ((r.andThen bodySlice).error = none → (r.andThen bodySlice).state.status.estV = true) := by
  have hr' : r'.state.status.rxV = true := (h.data.flags .noise).trans h.rxV
  unfold Result.andThen
  rw [h.error]
  cases r.error with
  | some e => exact ⟨⟨h.data, h.snr, rfl, h.rxV⟩, nofun⟩
  | none =>
    refine ⟨⟨h.data.slice h.rxV, ?_, ?_, ?_⟩, fun _ => ?_⟩
    · simpa only [bodySlice_res h.rxV, bodySlice_res hr'] using h.snr
    · rw [bodySlice_ok h.rxV, bodySlice_ok hr', ok_error, ok_error]
    · rw [bodySlice_status h.rxV, validSlice_rxV, h.rxV]
    · rw [bodySlice_status h.rxV, validSlice_estV]

/-- RUN on two blocks configured alike, whose bit sources agree below NBITS (R316, R70). -/
theorem bodyRun_sameResult {c' : Scheme} (h : SameConfig s s') (hrun : RunPasses s c)
    (hrun' : RunPasses s' c')
    (hsrc : ∀ i, i < s.bitCount.toNat → sourceBit N s' i = sourceBit N s i) :
    SameResult (bodyRun N s) (bodyRun N s') ∧
      ((bodyRun N s).error = none → (bodyRun N s).state.status.estV = true) := by
  have hgen : SameData (s.afterGenBits N) (s'.afterGenBits N) :=
    sameData_genBits h hsrc hrun.bitCount hrun'.bitCount
  have hmap : SameData (s.afterMap N) (s'.afterMap N) :=
    hgen.map (afterGenBits_scheme hrun) (afterGenBits_bitsV hrun)
  have hsynth : SameData (s.afterSynth N) (s'.afterSynth N) :=
    hmap.synth (afterMap_symV hrun) (afterMap_check hrun) (afterMap_check hrun')
  rw [bodyRun_eq hrun, bodyRun_eq hrun']
  exact (hsynth.channel (afterSynth_waveV hrun) (afterSynth_check hrun)).andThen_slice

/-! ### After completion -/

theorem windowValid_complete (r : Result) (w : Region) :
    windowValid (complete r).status w = windowValid r.state.status w := by
  obtain ⟨code, info, err, -, h⟩ := complete_status r
  rw [h]
  cases w <;> rfl

theorem holds_complete {r : Result} {w : Region} {n : Nat} {f : Nat → Word}
    (h : Holds r.state w n f) : Holds (complete r) w n f := by
  intro j hj
  rw [complete_mem]
  exact h j hj

theorem SameData.complete {r r' : Result} (h : SameData r.state r'.state) :
    SameData (complete r) (complete r') := by
  have hinv := complete_inv h.mem h.valid
  have hinv' := complete_inv h.mem' h.valid'
  have hv (w : Region) := windowValid_complete r w
  have hv' (w : Region) := windowValid_complete r' w
  have hres := complete_res r
  have hres' := complete_res r'
  exact
    { mem := hinv.mem, valid := hinv.valid, mem' := hinv'.mem, valid' := hinv'.valid
      cfg := by rw [complete_cfg, complete_cfg]; exact h.cfg
      flags := fun w => by rw [hv, hv']; exact h.flags w
      bitsRegs := fun hb => by rw [hres, hres']; exact h.bitsRegs ((hv .bits).symm.trans hb)
      symRegs := fun hs => by rw [hres, hres']; exact h.symRegs ((hv .symI).symm.trans hs)
      waveRegs := fun hw => by rw [hres, hres']; exact h.waveRegs ((hv .time).symm.trans hw)
      rxRegs := fun hr => by rw [hres, hres']; exact h.rxRegs ((hv .noise).symm.trans hr)
      estRegs := fun he => by rw [hres, hres']; exact h.estRegs ((hv .estI).symm.trans he)
      words := fun w hw => by
        obtain ⟨f, hf, hf'⟩ := h.words w ((hv w).symm.trans hw)
        rw [hres]
        exact ⟨f, holds_complete hf, holds_complete hf'⟩ }

/-- Two results with the same error report it alike. -/
theorem complete_errors {r r' : Result} (h : r'.error = r.error) :
    (complete r).status.errCode = (complete r').status.errCode ∧
      (complete r).status.errInfo = (complete r').status.errInfo := by
  unfold Machine.complete
  rw [h]
  cases r.error <;> exact ⟨rfl, rfl⟩

theorem error_eq_none_of_errCode {r : Result} (h : (complete r).status.errCode = 0) :
    r.error = none := by
  obtain ⟨he, -⟩ | ⟨e, -, he⟩ := complete_cases r
  · exact he
  · have hcode : ∀ e : CmdError, e.code ≠ 0 := by intro e; cases e <;> decide
    rw [he, takeError_status] at h
    exact absurd h (hcode e)

/-- Valid received samples fix every length, latched and result register but ERRCNT and BER_LEN. -/
theorem SameData.res_eq (h : SameData s s') (hr : s.status.rxV = true)
    (hsnr : s'.res.snrMeas = s.res.snrMeas) :
    s'.res = { s.res with errCnt := s'.res.errCnt, berLen := s'.res.berLen } := by
  obtain ⟨hw, -⟩ := h.valid.rx hr
  obtain ⟨hs, -⟩ := h.valid.wave hw
  have hbits := h.bitsRegs (h.valid.sym hs).1
  have hsym := h.symRegs hs
  have hwave := h.waveRegs hw
  have hrx := h.rxRegs hr
  generalize s.res = a at *
  generalize s'.res = b at *
  obtain ⟨⟩ := a
  obtain ⟨⟩ := b
  simp_all

end

/-- Settles O38. -/
theorem runIsReproducible : Obligations.RunIsReproducible := by
  intro s s' t t' hinv hinv' hpass hpass' hcfg hbits ht ht'
  rw [exec_eq] at ht ht'
  cases ht
  cases ht'
  obtain ⟨c, hrun⟩ := runPasses_of_passes hpass
  obtain ⟨c', hrun'⟩ := runPasses_of_passes hpass'
  have hconfig : SameConfig s s' := ⟨hinv.mem, hinv.valid, hinv'.mem, hinv'.valid, hcfg⟩
  have hsrc : ∀ i, i < s.bitCount.toNat →
      sourceBit Config.numerics s' i = sourceBit Config.numerics s i := by
    intro i hi
    have hsource : s'.bitSrc = s.bitSrc := by rw [State.bitSrc, hcfg]; rfl
    have hseed : s'.cfg.seed = s.cfg.seed := by rw [hcfg]
    rw [sourceBit, sourceBit, hsource, hseed]
    split
    · next hsel => exact (hbits hsel i hi).symm
    · rfl
  obtain ⟨hsame, hest⟩ := bodyRun_sameResult hconfig hrun hrun' hsrc
  have herrors := complete_errors hsame.error
  have hdata := hsame.data.complete
  have hsnr : (complete (bodyRun Config.numerics s')).res.snrMeas
      = (complete (bodyRun Config.numerics s)).res.snrMeas := by
    rw [complete_res, complete_res]; exact hsame.snr
  have hrx := (windowValid_complete (bodyRun Config.numerics s) .noise).trans hsame.rxV
  have hest' (h0 : (complete (bodyRun Config.numerics s)).status.errCode = 0) :=
    (windowValid_complete (bodyRun Config.numerics s) .estI).trans
      (hest (error_eq_none_of_errCode h0))
  change _ ∧ _
  simp only [bodyOf]
  generalize complete (bodyRun Config.numerics s) = t at *
  generalize complete (bodyRun Config.numerics s') = t' at *
  obtain ⟨hw, -⟩ := hdata.valid.rx hrx
  obtain ⟨hs, -⟩ := hdata.valid.wave hw
  have hb := (hdata.valid.sym hs).1
  have hentry {r : Region} {j : Nat} (hr : windowValid t.status r = true)
      (hj : j < windowLen t.res r) : t.entry r j = t'.entry r j := (hdata.entry_eq hr hj).symm
  refine ⟨herrors.1, herrors.2, (hdata.flags .bits).symm, (hdata.flags .symI).symm,
    (hdata.flags .time).symm, (hdata.flags .noise).symm, (hdata.flags .estI).symm,
    hdata.res_eq hrx hsnr, fun w hw => hentry (r := .bits) hb hw, ?_, ?_, fun h0 => ⟨?_, ?_, ?_⟩⟩
  · rintro r j (rfl | rfl) hj
    · exact hentry (r := .symI) hs hj
    · exact hentry (r := .symQ) hs hj
  · intro r n hr hn
    cases r
    case time | carI | carQ | tx => exact hentry hw hn
    case noise | rx | demodI | demodQ => exact hentry hrx hn
    all_goals simp [writer] at hr
  · exact (hdata.estRegs (hest' h0)).symm
  · rintro r j (rfl | rfl) hj
    · exact hentry (r := .estI) (hest' h0) hj
    · exact hentry (r := .estQ) (hest' h0) hj
  · exact fun w hw => hentry (r := .rxbits) (hest' h0) hw

end Sys2Proof.Machine
end

section
/-! PROOF. What a host access names (20_memory.md R92, R94), and what one that is not served does
(20_memory.md R95). -/

namespace Sys2Proof.Machine

/-! ### Addresses of entries -/

theorem entryAddr_aligned (r : Region) (j : Nat) : r.entryAddr j % 8 = 0 := by
  have hbase : r.base % 8 = 0 := by cases r <;> rfl
  unfold Region.entryAddr
  omega

/-- Settles O40. An aligned address that lies in an entry is the entry's own. -/
theorem addressMap : Obligations.AddressMap := by
  intro p hp
  refine ⟨decodeAddr_offset p, fun r j hj => ⟨decodeAddr_entryAddr hp hj, ?_⟩, ?_⟩
  · have hbounds := entryAddr_bounds hp hj
    have hspan := base_span_le r
    omega
  · intro a ha hreg hcell
    obtain ⟨r, -, hr⟩ | ⟨r, j, -, hj, hlo, hhi⟩ | h := decodeAddr_cases p a
    · exact absurd hr (hreg r)
    · have halign := entryAddr_aligned r j
      exact absurd (by omega) (hcell r j hj)
    · exact h

/-! ### Accesses that are served, and those that are not -/

theorem accessTarget_eq_unmapped_iff {p : Params} {a : Addr} {width : Width} :
    accessTarget p a width = .unmapped ↔
      width = .narrow ∨ a.toNat % 8 ≠ 0 ∨ decodeAddr p a.toNat = .unmapped := by
  cases width with
  | narrow => simp [accessTarget]
  | full => by_cases ha : a.toNat % 8 = 0 <;> simp [accessTarget, ha]

section
variable {s : State} {a : Addr} {width : Width}

theorem hostRead_unserved (h : accessTarget s.params a width = .unmapped) :
    hostRead a width s = (0, s.setBusErr) := by
  rw [hostRead, h]

theorem hostWrite_unserved (h : accessTarget s.params a width = .unmapped) (v : Word) :
    hostWrite a width v s = s.setBusErr := by
  rw [hostWrite, h]

/-- A read that is served changes nothing but the count of draws (R97). -/
theorem hostRead_served (h : accessTarget s.params a width ≠ .unmapped) :
    ∃ draws, (hostRead a width s).2 = { s with draws := draws } := by
  unfold hostRead
  split
  · exact absurd ‹_› h
  · split
    · split
      · exact ⟨_, rfl⟩
      · exact ⟨_, rfl⟩
    · exact ⟨_, rfl⟩
  · split
    · exact ⟨_, rfl⟩
    · split
      · exact ⟨_, rfl⟩
      · exact ⟨_, rfl⟩

end

/-- Settles O41. -/
theorem unservedAccesses : Obligations.UnservedAccesses := fun _ _ _ v h =>
  have htarget := accessTarget_eq_unmapped_iff.mpr h
  ⟨hostRead_unserved htarget, hostWrite_unserved htarget v⟩

/-- Settles O42: a read is served, or sets BUSERR and does nothing else. -/
theorem readsHaveNoSideEffect : Obligations.ReadsHaveNoSideEffect := by
  intro s a width
  by_cases h : accessTarget s.params a width = .unmapped
  · rw [hostRead_unserved h]
    refine ⟨rfl, fun _ => rfl, fun hmap hal hw => ?_⟩
    obtain rfl | hal' | hmap' := accessTarget_eq_unmapped_iff.mp h
    · cases hw
    · exact absurd hal hal'
    · exact absurd hmap' hmap
  · obtain ⟨draws, hread⟩ := hostRead_served h
    rw [hread]
    exact ⟨rfl, id, fun _ _ _ => rfl⟩

end Sys2Proof.Machine
end

section
/-! PROOF. What the host sees and changes while a command is pending (20_memory.md R101, R103, R104),
and the writes an idle block ignores (20_memory.md R96). -/

namespace Sys2Proof.Machine

/-! ### Reads while a command is pending -/

/-- BUSY = 1, DONE = 0, every other bit the draw's (R103). -/
theorem getLsbD_busyStatus (d : Word) (i : Nat) :
    (busyStatus d).getLsbD i = (decide (i = 0) || (decide (2 ≤ i) && d.getLsbD i)) := by
  have hmask : 0xFFFFFFFFFFFFFFFC#64 = ~~~0x3#64 := by decide
  have hhigh (hi : 2 ≤ i) : (0x3#64).getLsbD i = false ∧ (0x1#64).getLsbD i = false := by
    have hpow : 2 ^ 2 ≤ 2 ^ i := Nat.pow_le_pow_right (by omega) hi
    have hthree : (0x3#64).toNat = 3 := rfl
    have hone : (0x1#64).toNat = 1 := rfl
    exact ⟨Nat.testBit_eq_false_of_lt (by omega), Nat.testBit_eq_false_of_lt (by omega)⟩
  rw [busyStatus, hmask, BitVec.getLsbD_or, BitVec.getLsbD_and, BitVec.getLsbD_not]
  obtain rfl | rfl | hi : i = 0 ∨ i = 1 ∨ 2 ≤ i := by omega
  · simp
  · simp
  · have hne : i ≠ 0 := by omega
    simpa [hhigh hi, hi, hne] using fun hd => BitVec.lt_of_getLsbD hd

section
variable {s : State}

/-- Read as it stands in every state: ID, PARAM and the configuration registers. -/
theorem hostRead_steady {r : Reg} (hr : r.steadyWhileBusy = true) :
    hostRead (BitVec.ofNat 24 r.offset) .full s = (s.readReg r, s) := by
  rw [hostRead, accessTarget_offset]
  simp [hr]

/-- Read as it stands in every state: an entry of HBITS or SNR_IN. -/
theorem hostRead_config (hp : s.params.legal = true) {r : Region} {j : Nat}
    (hj : j < r.capacity s.params) (hr : r.isConfig = true) {v : Word}
    (h : readWord s.mem (r.entryAddr j) = some v) :
    hostRead (BitVec.ofNat 24 (r.entryAddr j)) .full s = (v, s) := by
  rw [hostRead, accessTarget_entryAddr hp hj]
  simp [hr, h]

variable (hbusy : s.busy = true)
include hbusy

theorem hostRead_status_pending :
    hostRead statusAddr .full s = (busyStatus s.takeDraw.1, s.takeDraw.2) := by
  rw [hostRead, show statusAddr = BitVec.ofNat 24 Reg.status.offset from rfl, accessTarget_offset]
  simp [hbusy, Reg.steadyWhileBusy]

theorem hostRead_unsteady_pending {r : Reg} (hr : r.steadyWhileBusy = false) (hne : r ≠ .status) :
    hostRead (BitVec.ofNat 24 r.offset) .full s = s.takeDraw := by
  rw [hostRead, accessTarget_offset]
  simp [hbusy, hr, hne]

theorem hostRead_buffer_pending (hp : s.params.legal = true) {r : Region} {j : Nat}
    (hj : j < r.capacity s.params) (hr : r.isConfig = false) :
    hostRead (BitVec.ofNat 24 (r.entryAddr j)) .full s = s.takeDraw := by
  rw [hostRead, accessTarget_entryAddr hp hj]
  simp [hbusy, hr]

end

theorem isConfig_eq_false {r : Region} (h : r ≠ .hbits) (h' : r ≠ .snrIn) : r.isConfig = false :=
  Bool.eq_false_iff.mpr fun hr => (isConfig_iff.mp hr).elim h h'

theorem busy_of_pending {s : State} {w : Word} (h : s.pending = some w) : s.busy = true := by
  rw [State.busy, h]
  rfl

/-- Settles O44. -/
theorem busyReads : Obligations.BusyReads := by
  intro s w hp hpend
  have hbusy := busy_of_pending hpend
  refine ⟨?_, fun r hr => hostRead_steady hr,
    fun r hr hne => hostRead_unsteady_pending hbusy hr hne,
    fun r j v hr hj hv => hostRead_config hp hj (isConfig_iff.mpr hr) hv,
    fun r j hr hr' hj => hostRead_buffer_pending hbusy hp hj (isConfig_eq_false hr hr'),
    fun a ha => hostRead_unserved (accessTarget_eq_unmapped_iff.mpr (.inr (.inr ha)))⟩
  rw [show 0x000018#24 = statusAddr from rfl, hostRead_status_pending hbusy]
  simp only [getLsbD_busyStatus]
  refine ⟨rfl, rfl, fun i hi => ?_, rfl⟩
  rw [decide_eq_true hi, decide_eq_false (by omega)]
  rfl

/-! ### Host steps while a command is pending -/

theorem hostRead_cfg (a : Addr) (width : Width) (s : State) :
    (hostRead a width s).2.cfg = s.cfg := by
  obtain h | h | h := hostRead_cases a width s <;> rw [h]
  rfl

/-- While a command is pending a write sets BUSERR or HAZ and does nothing else (R95, R104). -/
theorem hostWrite_pending {s : State} (hbusy : s.busy = true) (a : Addr) (width : Width) (v : Word) :
    hostWrite a width v s = s.setBusErr ∨ hostWrite a width v s = s.setHaz := by
  obtain h | ⟨-, h⟩ | ⟨hidle, -⟩ | ⟨hidle, -⟩ | ⟨hidle, -⟩ := hostWrite_cases a width v s
  · exact .inl h
  · exact .inr h
  all_goals exact absurd (hbusy.symm.trans hidle) Bool.noConfusion

theorem hostStep_cfg_pending {s : State} (hbusy : s.busy = true) : (hostStep s).cfg = s.cfg := by
  obtain h | ⟨op, rest, -, ⟨a, width, -, h | h⟩ | ⟨a, width, v, -, h⟩ | ⟨-, h⟩⟩ := hostStep_cases s <;>
    rw [h]
  · exact hostRead_cfg a width s
  · exact hostRead_cfg a width s
  · obtain hw | hw := hostWrite_pending hbusy a width v <;> rw [hw] <;> rfl

/-- Settles O46. -/
theorem hostCannotDisturbAPendingCommand : Obligations.HostCannotDisturbAPendingCommand := by
  intro s w hpend
  obtain ⟨hparams, hmem, hpending, hres, haz, busErr, hstatus⟩ | ⟨hidle, -⟩ := hostStep_block_cases s
  · exact ⟨hpending.trans hpend, hparams, hostStep_cfg_pending (busy_of_pending hpend), hres, hmem,
      by rw [hstatus]⟩
  · exact absurd (hidle.symm.trans hpend) nofun

/-! ### Writes an idle block ignores -/

theorem hostWrite_readOnly_entry {s : State} (hidle : s.pending = none)
    (hp : s.params.legal = true) {r : Region} {j : Nat} (hj : j < r.capacity s.params)
    (hr : r.isConfig = false) (v : Word) :
    hostWrite (BitVec.ofNat 24 (r.entryAddr j)) .full v s = s := by
  rw [hostWrite, accessTarget_entryAddr hp hj]
  simp [busy_eq_false_iff.mpr hidle, hr]

/-- Settles O49. -/
theorem readOnlyWritesAreIgnored : Obligations.ReadOnlyWritesAreIgnored := by
  intro s v hp hidle
  refine ⟨fun r hr => ?_, fun r j h h' hj =>
    hostWrite_readOnly_entry hidle hp hj (isConfig_eq_false h h') v, ?_, ?_⟩
  · rw [hostWrite_reg hidle]
    fin_cases hr <;> rfl
  · rw [show 0x000010#24 = BitVec.ofNat 24 Reg.ctrl.offset from rfl, hostWrite_reg hidle]
    exact setWidth_setWidth_eq_and v (k := 4) (by omega)
  · rw [show 0x000028#24 = BitVec.ofNat 24 Reg.scheme.offset from rfl, hostWrite_reg hidle]
    exact setWidth_setWidth_eq_and v (k := 3) (by omega)

end Sys2Proof.Machine
end

section
/-! PROOF. Every step keeps the memory's canonical form (20_memory.md R93, R94): whatever the lengths and
capacities, a body stores by fills, and a fill keeps the form. -/

namespace Sys2Proof.Machine

/-! ### The bodies -/

theorem andThen_wf {r : Result} {f : State → Result} (hr : Memory.wf r.state.mem)
    (hf : ∀ s, Memory.wf s.mem → Memory.wf (f s).state.mem) : Memory.wf (r.andThen f).state.mem := by
  unfold Result.andThen
  cases r.error with
  | none => exact hf _ hr
  | some e => exact hr

section
variable {s : State} (hm : Memory.wf s.mem) (N : Numerics)
include hm

theorem bodyGenBits_wf : Memory.wf (bodyGenBits N s).state.mem := by
  obtain ⟨e, h⟩ | h := bodyGenBits_cases N s
  · rwa [h]
  · rw [bodyGenBits_ok h]
    exact fill_wf hm ..

theorem bodyMap_wf : Memory.wf (bodyMap s).state.mem := by
  obtain ⟨e, h⟩ | ⟨c, hc, hb⟩ := bodyMap_cases s
  · rwa [h]
  · rw [bodyMap_ok hc hb]
    exact fill_wf (fill_wf hm ..) ..

theorem bodySynth_wf : Memory.wf (bodySynth N s).state.mem := by
  obtain ⟨e, h⟩ | ⟨hs, hc⟩ := bodySynth_cases N s
  · rwa [h]
  · rw [bodySynth_ok hs hc]
    exact fill_wf (fill_wf (fill_wf (fill_wf hm ..) ..) ..) ..

theorem channelWrites_wf (vtx pn : F64) : Memory.wf (channelWrites N vtx pn s).mem :=
  fill_wf (fill_wf (fill_wf (fill_wf hm ..) ..) ..) ..

theorem bodyChannel_wf : Memory.wf (bodyChannel N s).state.mem := by
  obtain ⟨e, h⟩ | ⟨hw, hc⟩ := bodyChannel_cases N s
  · rwa [h]
  · rw [bodyChannel_ok hw hc, reportSnr_mem]
    exact channelWrites_wf hm N _ _

theorem bodySlice_wf : Memory.wf (bodySlice s).state.mem := by
  obtain ⟨e, h⟩ | h := bodySlice_cases s
  · rwa [h]
  · rw [bodySlice_ok h]
    exact fill_wf (fill_wf (fill_wf hm ..) ..) ..

theorem bodyBer_wf : Memory.wf (bodyBer N s).state.mem := by
  obtain ⟨e, h⟩ | ⟨c, hc, hk, hf⟩ := bodyBer_cases N s
  · rwa [h]
  · rw [bodyBer_ok hc hk hf]
    exact fill_wf hm ..

theorem bodyRun_wf : Memory.wf (bodyRun N s).state.mem := by
  cases h : runChecks s with
  | some e => rwa [bodyRun, h]
  | none =>
    rw [bodyRun_ok h]
    have hmap := andThen_wf (bodyGenBits_wf hm N) fun _ h => bodyMap_wf h
    have hsynth := andThen_wf hmap fun _ h => bodySynth_wf h N
    have hchannel := andThen_wf hsynth fun _ h => bodyChannel_wf h N
    exact andThen_wf hchannel fun _ h => bodySlice_wf h

theorem bodyOf_wf (i : Instr) : Memory.wf (bodyOf i s).state.mem := by
  cases i with
  | nop => exact hm
  | clear => exact hm
  | genBits => exact bodyGenBits_wf hm _
  | map => exact bodyMap_wf hm
  | synth => exact bodySynth_wf hm _
  | channel => exact bodyChannel_wf hm _
  | slice => exact bodySlice_wf hm
  | ber => exact bodyBer_wf hm _
  | run => exact bodyRun_wf hm _

end

/-! ### The movers -/

theorem writeReg_mem (s : State) (r : Reg) (v : Word) : (s.writeReg r v).mem = s.mem := by
  obtain ⟨cfg, h⟩ | ⟨-, h⟩ | ⟨-, h⟩ | h := writeReg_cases v s r <;> rw [h] <;> rfl

section
variable {s t : State} (hm : Memory.wf s.mem)
include hm

theorem hostStep_wf : Memory.wf (hostStep s).mem := by
  obtain hb | ⟨-, a, v, rest, -, ⟨r, -, hb⟩ | ⟨r, j, -, -, -, hb⟩⟩ := hostStep_block_cases s
  · rwa [hb.mem]
  · rwa [hb.mem, writeReg_mem]
  · rw [hb.mem]
    exact setEntry_wf hm r j v

theorem sequencerStep_wf (h : sequencerStep s = .next t) : Memory.wf t.mem := by
  obtain ⟨-, h'⟩ | ⟨w, i, -, -, h'⟩ | ⟨w, e, -, -, h'⟩ := sequencerStep_cases s <;>
    rw [h'] at h <;> cases h
  · exact hm
  · rw [complete_mem]
    exact bodyOf_wf hm i
  · exact hm

theorem agentStep_wf {a : Agent} (h : agentStep a s = .next t) : Memory.wf t.mem := by
  cases a with
  | host => cases h; exact hostStep_wf hm
  | sequencer => exact sequencerStep_wf hm h
  | reset => cases h; exact ⟨.nil, nofun⟩

end

/-- Settles O59, mover by mover. -/
theorem canonicalMemoryIsKept : Obligations.CanonicalMemoryIsKept := by
  intro s t hm h
  obtain ⟨a, u, ha, hu⟩ := step_cases s
  have hmem : u.mem = s.mem := by obtain rfl | ⟨rest, -, rfl⟩ := hu <;> rfl
  exact agentStep_wf (hmem ▸ hm) (ha.symm.trans h)

end Sys2Proof.Machine
end

section
/-! PROOF. No step is stuck (93_implementation_defined.md section 2), and the blocks of a system share
nothing (20_memory.md R108). -/

namespace Sys2Proof.Machine

/-! ### One block -/

theorem agentStep_next (a : Agent) (s : State) : ∃ t, agentStep a s = .next t := by
  cases a with
  | host => exact ⟨_, rfl⟩
  | sequencer =>
    obtain ⟨-, h⟩ | ⟨w, i, -, -, h⟩ | ⟨w, e, -, -, h⟩ := sequencerStep_cases s
    · exact ⟨_, h⟩
    · exact ⟨_, h⟩
    · exact ⟨_, h⟩
  | reset => exact ⟨_, rfl⟩

theorem step_next (s : State) : ∃ t, step s = .next t := by
  obtain ⟨a, u, ha, -⟩ := step_cases s
  exact ha ▸ agentStep_next a u

/-- A run of any machine from a state that steps to `t` goes on from `t`. -/
theorem coreRun_succ {M : Host.Core} {s t : M.State} (h : M.step s = .next t) (n : Nat) :
    M.run (n + 1) s = M.run n t := by
  rw [Host.Core.run, h]

/-! ### A system of blocks -/

/-- A step of block `k` is never stuck, keeps the number of blocks, and takes block `k` where its own
step does. -/
theorem system_step_next (k : Nat) (y : System) : ∃ z, y.step k = .next z ∧
    z.blocks.length = y.blocks.length ∧
    ∀ s, y.blocks[k]? = some s → ∃ t, step s = .next t ∧ z.blocks[k]? = some t := by
  obtain ⟨hnone, hz⟩ | ⟨s, hs, ⟨t, ht, hz⟩ | ⟨r, hr, -⟩ | ⟨r, hr, -⟩⟩ := system_step_cases k y
  · exact ⟨y, hz, rfl, fun s hs => absurd (hnone.symm.trans hs) nofun⟩
  · refine ⟨_, hz, List.length_set .., fun s' hs' => ⟨t, ?_, ?_⟩⟩
    · rwa [← Option.some.inj (hs.symm.trans hs')]
    · exact List.getElem?_set_self (List.getElem?_eq_some_iff.mp hs).1
  all_goals
    obtain ⟨t, ht⟩ := step_next s
    exact absurd (ht.symm.trans hr) nofun

/-- Each block of a system is where its own steps take it, after any interleaving. -/
theorem system_run_next (ks : List Nat) (y : System) : ∃ z, y.run ks = .next z ∧
    z.blocks.length = y.blocks.length ∧
    ∀ (k : Nat) (s : State), y.blocks[k]? = some s →
      ∃ t, Host.Core.run Sys2Proof.core (ks.count k) s = .next t ∧ z.blocks[k]? = some t := by
  induction ks generalizing y with
  | nil => exact ⟨y, rfl, rfl, fun k s hs => ⟨s, rfl, hs⟩⟩
  | cons j js ih =>
    obtain ⟨x, hx, hlen, hown⟩ := system_step_next j y
    obtain ⟨z, hz, hlen', hblocks⟩ := ih x
    refine ⟨z, by rw [System.run, hx]; exact hz, hlen'.trans hlen, fun k s hs => ?_⟩
    by_cases hk : k = j
    · subst hk
      obtain ⟨u, hu, hxu⟩ := hown s hs
      rw [List.count_cons_self, coreRun_succ (M := Sys2Proof.core) hu]
      exact hblocks k u hxu
    · rw [List.count_cons_of_ne (Ne.symm hk)]
      exact hblocks k s ((system_step_other hx hk).trans hs)

/-- Settles O15. -/
theorem everyStepAnswersNext : Obligations.EveryStepAnswersNext :=
  ⟨step_next, fun y ks => system_run_next ks y⟩

end Sys2Proof.Machine
end

section
/-! PROOF. Decoding and encoding agree (30_encoding.md R120, R121, R124, R125), and a word is its
eight bytes (20_memory.md R93). -/

namespace Sys2Proof.Machine

open Sys2Proof.Claims

/-! ### A word and its fields -/

/-- OPCODE and RSVD make up the whole command word (R120). -/
theorem word_eq_iff_fields (w v : Word) :
    w = v ↔ w.extractLsb' 8 56 = v.extractLsb' 8 56 ∧ w.extractLsb' 0 8 = v.extractLsb' 0 8 := by
  refine ⟨fun h => h ▸ ⟨rfl, rfl⟩, fun ⟨hhi, hlo⟩ => ?_⟩
  have hjoin (u : Word) : u.extractLsb' 8 56 ++ u.extractLsb' 0 8 = u :=
    (BitVec.extractLsb'_append_extractLsb'_eq_extractLsb' rfl).trans BitVec.extractLsb'_eq_self
  rw [← hjoin w, ← hjoin v, hhi, hlo]

theorem extractLsb'_reserved_eq_zero_iff (w : Word) :
    w.extractLsb' 8 56 = 0 ↔ w.toNat / 256 = 0 := by
  rw [← BitVec.toNat_inj, BitVec.extractLsb'_toNat, Nat.shiftRight_eq_div_pow]
  change w.toNat / 256 % 2 ^ 56 = 0 ↔ _
  omega

/-- The bytes of a word, lane 0 first, make up the word again (R93). -/
theorem wordOfBytes_bytesOfWord (w : Word) : wordOfBytes (bytesOfWord w) = w := by
  apply BitVec.eq_of_toNat_eq
  simp only [wordOfBytes, bytesOfWord, List.range_eq_range', List.range'_succ, List.range'_zero,
    List.map_cons, List.map_nil, List.foldr_cons, List.foldr_nil, BitVec.extractLsb'_toNat,
    Nat.shiftRight_eq_div_pow, BitVec.toNat_ofNat]
  omega

theorem length_bytesOfWord (w : Word) : (bytesOfWord w).length = 8 := rfl

/-! ### The decoder against the encoder -/

@[simp] theorem decode_encode (i : Instr) : decode (encode i) = .ok i := by
  cases i <;> rfl

theorem encode_reserved (i : Instr) : (encode i).extractLsb' 8 56 = 0 := by
  cases i <;> rfl

/-- The command word of an instruction, and no other, decodes to it (R121). -/
theorem decode_eq_ok_iff {w : Word} {i : Instr} : decode w = .ok i ↔ w = encode i :=
  ⟨eq_encode_of_decode, fun h => h ▸ decode_encode i⟩

/-- The reserved bits are checked first, so they alone decide this rejection (R124). -/
theorem decode_eq_reservedBits_iff {w : Word} :
    decode w = .error .reservedBits ↔ w.extractLsb' 8 56 ≠ 0 := by
  rw [ne_eq, extractLsb'_reserved_eq_zero_iff, decode]
  split
  next hres => exact iff_of_true rfl hres
  next hres =>
    refine iff_of_false ?_ hres
    cases decodeOpcode (w.toNat % 256) <;> nofun

/-- What is left once the other two answers are excluded: no reserved bit, and no command's word
(R125). -/
theorem decode_eq_undefinedOpcode_iff {w : Word} :
    decode w = .error .undefinedOpcode ↔ w.extractLsb' 8 56 = 0 ∧ ∀ i, w ≠ encode i := by
  have hres : w.extractLsb' 8 56 = 0 ↔ decode w ≠ .error .reservedBits := by
    rw [ne_eq, decode_eq_reservedBits_iff, not_ne_iff]
  simp only [hres, ne_eq, ← decode_eq_ok_iff]
  cases decode w with
  | ok i => simp
  | error e => cases e <;> simp

/-- A word with no reserved bit is a command's word exactly when its opcode is that command's. -/
theorem eq_encode_iff_opcode {w : Word} (h : w.extractLsb' 8 56 = 0) (i : Instr) :
    w = encode i ↔ w.extractLsb' 0 8 = (encode i).extractLsb' 0 8 := by
  rw [word_eq_iff_fields, encode_reserved, and_iff_right h]

theorem decodeBytes_bytesOfWord_append (w : Word) (rest : List Byte) {i : Instr}
    (h : decode w = .ok i) : decodeBytes (bytesOfWord w ++ rest) = .ok (i, rest) := by
  have hlen : ¬ (bytesOfWord w ++ rest).length < 8 := by
    rw [List.length_append, length_bytesOfWord]
    omega
  rw [decodeBytes, if_neg hlen, List.take_left' (length_bytesOfWord w),
    List.drop_left' (length_bytesOfWord w), wordOfBytes_bytesOfWord, h]

/-- Settles O9: each answer of the decoder by its own rule, with a word split into two fields. -/
theorem decodeAgreesWithEncode : Obligations.DecodeAgreesWithEncode := by
  refine ⟨fun _ _ => decode_eq_ok_iff, fun _ => decode_eq_reservedBits_iff, fun w => ?_,
    fun i rest => decodeBytes_bytesOfWord_append _ rest (decode_encode i)⟩
  exact decode_eq_undefinedOpcode_iff.trans
    (and_congr_right fun h => forall_congr' fun i => not_congr (eq_encode_iff_opcode h i))

/-- Settles O10: the nine words are the encoded ones; RSVD rejects two words, and the opcode 0x80 is
no command's. -/
theorem decodeTheNineWords : Obligations.DecodeTheNineWords :=
  ⟨decode_encode .nop, decode_encode .clear, decode_encode .genBits, decode_encode .map,
    decode_encode .synth, decode_encode .channel, decode_encode .slice, decode_encode .ber,
    decode_encode .run, decode_eq_reservedBits_iff.mpr (by decide),
    decode_eq_reservedBits_iff.mpr (by decide),
    decode_eq_undefinedOpcode_iff.mpr ⟨by decide, fun i => by cases i <;> decide⟩⟩

end Sys2Proof.Machine
end

section
/-! PROOF. GEN_BITS (40_bitsource.md R150 to R152): the bits it leaves are those of the source, and no
byte outside the words it fills changes. -/

namespace Sys2Proof.Machine

open Sys2Proof.Claims

/-! ### Packed buffers and windows after a fill -/

section
variable {s : State} (hm : Memory.wf s.mem)
include hm

/-- The last word of a packed buffer is zero-filled (R17). -/
theorem bit_fillBits_beyond (r : Region) {n i : Nat} (bit : Nat → Bool) (hn : n ≤ i)
    (hi : i < 64 * ceilDiv n 64) : (s.fillBits r n bit).bit r i = false := by
  rw [State.bit, State.fillBits, entry_fill_in hm r _ (Nat.div_lt_of_lt_mul hi), packBits_bit,
    Nat.div_add_mod, decide_eq_false hn.not_gt, Bool.false_and, Bool.and_false]

theorem written_fill (r : Region) {n j : Nat} (f : Nat → Word) (hj : j < n) :
    (s.fill r n f).written r j = true := by
  rw [State.written, readWord_fill_in hm r f hj]
  rfl

/-- Fills change no byte outside the entries they fill. -/
theorem onlyStored_fillAll (ws : List Fill) :
    OnlyStored s (s.fillAll ws) (ws.map fun w => (w.region, w.count)) := by
  induction ws generalizing s with
  | nil => exact fun _ _ => rfl
  | cons w ws ih =>
    intro a ha
    obtain ⟨hw, hws⟩ : ¬ (w.region.entryAddr 0 ≤ a ∧ a < w.region.entryAddr w.count) ∧
        ¬ Stored (ws.map fun w => (w.region, w.count)) a := by
      simpa [Stored] using ha
    exact (ih (fill_wf hm ..) a hws).trans (read_fill_out hm w.region w.count w.value hw)

end

/-! ### The two ways GEN_BITS ends -/

section
variable {s : State}

theorem bodyGenBits_raise {N : Numerics} (h : checkBitCount s.params s.bitCount ≠ none) :
    bodyGenBits N s = .raise .bitCount s := by
  have hbad : checkBitCount s.params s.bitCount = some .bitCount :=
    if_neg fun hrange => h (checkBitCount_none.mpr hrange)
  rw [bodyGenBits, hbad]

/-- The state of a GEN_BITS whose check passes, after completion (R151, R313). -/
theorem exec_genBits_ok (h : checkBitCount s.params s.bitCount = none) :
    exec .genBits s = .next (completeOk
      { s.fillBits .bits s.bitCount.toNat (sourceBit Config.numerics s) with
        res := { s.res with bitsLen := BitVec.ofNat 64 s.bitCount.toNat }
        status := s.status.validGenBits }) := by
  rw [exec_eq, bodyOf, bodyGenBits_ok h, complete_ok]

theorem genBits_failsWith (h : checkBitCount s.params s.bitCount ≠ none) :
    FailsWith .genBits s 1 0x01 := by
  rw [FailsWith, exec_eq, bodyOf, bodyGenBits_raise h, complete_raise]
  rfl

theorem passes_genBits_iff :
    Passes .genBits s ↔ checkBitCount s.params s.bitCount = none := by
  rw [Passes, firstFailing_eq_none, checkBitCount_none]
  simp [checks, State.bitCount]

/-- The bits a GEN_BITS that passes its check leaves are those of the source (R151). -/
theorem bit_of_exec_genBits {t : State} (hm : Memory.wf s.mem) (hpass : Passes .genBits s)
    (ht : exec .genBits s = .next t) {i : Nat} (hi : i < s.cfg.nbits.toInt.toNat) :
    t.bit .bits i = sourceBit Config.numerics s i := by
  rw [exec_genBits_ok (passes_genBits_iff.mp hpass)] at ht
  cases ht
  exact bit_fillBits hm .bits _ hi

end

/-- Settles O21: the check decides which of the two endings it is, and the passing one is a fill of
BITS. -/
theorem genBitsResult : Obligations.GenBitsResult := by
  intro s hm
  refine ⟨fun hbad => genBits_failsWith (mt checkBitCount_none.mp hbad), fun hlo hhi => ?_⟩
  have hcheck : checkBitCount s.params s.bitCount = none := checkBitCount_none.mpr ⟨hlo, hhi⟩
  have hlen : BitVec.ofNat 64 s.bitCount.toNat = s.cfg.nbits := ofNat_toInt (by omega)
  refine ⟨_, exec_genBits_ok hcheck, fun i hi => bit_fillBits hm .bits _ hi,
    fun i hn hi => bit_fillBits_beyond hm .bits _ hn hi, fun w hw => written_fill hm .bits _ hw,
    onlyStored_fillAll hm [⟨.bits, _, _⟩], ?_⟩
  rw [hlen]
  rfl

/-- Settles O22: both requests leave the bits of their sources, and bit `i` of a source does not depend
on the length of the request. -/
theorem bitSourceIsReproducible : Obligations.BitSourceIsReproducible := by
  intro s s' t t' hm hm' hpass hpass' hle hsrc hseed hpattern ht ht' i hi
  have hi' : i < s'.cfg.nbits.toInt.toNat := hi.trans_le (Int.toNat_le_toNat hle)
  have hbitSrc : s'.bitSrc = s.bitSrc := hsrc.symm
  rw [bit_of_exec_genBits hm hpass ht hi, bit_of_exec_genBits hm' hpass' ht' hi', sourceBit, sourceBit,
    hbitSrc]
  cases hb : s.bitSrc with
  | false => rw [hseed hb]; rfl
  | true => exact hpattern hb i hi

end Sys2Proof.Machine
end

section
/-! PROOF. The constellation (41_mapper.md R173 to R178, R180): labels as numbers, axis coordinates as
exact integers, and what the slicer (44_slicer.md R265, R266) decides on them. -/

namespace Sys2Proof

theorem F64.lt_ofInt_iff {a b : ℤ} (ha : a.natAbs ≤ 2 ^ 53) (hb : b.natAbs ≤ 2 ^ 53) :
    F64.lt (F64.ofInt a) (F64.ofInt b) = true ↔ a < b := by
  obtain ⟨hfa, hva⟩ := F64.ofInt_exact ha
  obtain ⟨hfb, hvb⟩ := F64.ofInt_exact hb
  rw [F64.lt_iff hfa hfb, hva, hvb, Int.cast_lt]

end Sys2Proof

namespace Sys2Proof.Machine

/-! ### Labels (R173) -/

theorem label_succ (h : Nat) (g : Nat → Bool) :
    label (h + 1) g = Nat.bit (g h) (label h g) := by
  simp [label, List.range_succ, Nat.bit_val]

theorem label_one (g : Nat → Bool) : label 1 g = (g 0).toNat := by
  rw [label_succ, Nat.bit_val]
  exact Nat.zero_add _

theorem label_two (g : Nat → Bool) : label 2 g = 2 * (g 0).toNat + (g 1).toNat := by
  rw [label_succ, label_one, Nat.bit_val]

theorem label_three (g : Nat → Bool) :
    label 3 g = 4 * (g 0).toNat + 2 * (g 1).toNat + (g 2).toNat := by
  rw [label_succ, label_two, Nat.bit_val]
  omega

theorem label_lt_two_pow (h : Nat) (g : Nat → Bool) : label h g < 2 ^ h := by
  induction h with
  | zero => exact Nat.one_pos
  | succ h ih => rwa [label_succ, Nat.bit_lt_two_pow_succ_iff]

theorem label_xor (h : Nat) (f g : Nat → Bool) :
    label h f ^^^ label h g = label h (fun t => f t != g t) := by
  induction h with
  | zero => exact Nat.xor_self 0
  | succ h ih => rw [label_succ, label_succ, label_succ, Nat.xor_bit, ih]

/-- The first bit of a label is its most significant (R173). -/
theorem testBit_label (g : Nat → Bool) :
    ∀ {h t : Nat}, t < h → (label h g).testBit (h - 1 - t) = g t
  | h + 1, t, ht => by
    rw [label_succ]
    obtain hlt | rfl := Nat.lt_succ_iff_lt_or_eq.mp ht
    · rw [show h + 1 - 1 - t = h - 1 - t + 1 by omega, Nat.testBit_bit_succ]
      exact testBit_label g hlt
    · rw [Nat.add_sub_cancel, Nat.sub_self, Nat.testBit_bit_zero]

theorem countP_of_label_eq_zero {h : Nat} {b : Nat → Bool} (hb : label h b = 0) :
    (List.range h).countP b = 0 := by
  refine List.countP_eq_zero.mpr fun t ht => ?_
  rw [← testBit_label b (List.mem_range.mp ht), hb, Nat.zero_testBit]
  exact Bool.false_ne_true

theorem countP_range_succ (b : Nat → Bool) (h : Nat) :
    (List.range (h + 1)).countP b = (List.range h).countP b + (b h).toNat := by
  rw [List.range_succ, List.countP_append, List.countP_singleton]
  cases b h <;> rfl

/-- A label that is a power of two has one bit set: the last, or one of those before it. -/
theorem countP_of_label_eq_two_pow {h : Nat} {b : Nat → Bool} :
    ∀ {k : Nat}, label h b = 2 ^ k → (List.range h).countP b = 1 := by
  induction h with
  | zero => exact fun hb => absurd hb.symm (Nat.two_pow_pos _).ne'
  | succ h ih =>
    intro k hb
    rw [label_succ, Nat.bit_val] at hb
    rw [countP_range_succ]
    have hle := Bool.toNat_le (b h)
    cases k with
    | zero =>
      have hlast : (b h).toNat = 1 := by omega
      have hrest : label h b = 0 := by omega
      rw [countP_of_label_eq_zero hrest, hlast]
    | succ k =>
      rw [Nat.pow_succ] at hb
      have hlast : (b h).toNat = 0 := by omega
      have hrest : label h b = 2 ^ k := by omega
      rw [ih hrest, hlast]

/-! ### Axes (R174) -/

theorem countP_lt_range {m n : Nat} (hm : m ≤ n) :
    (List.range n).countP (fun i => decide (i < m)) = m := by
  rw [List.countP_eq_length_filter, ← List.Ico.zero_bot, List.Ico.filter_lt, List.Ico.length,
    min_eq_right hm, Nat.sub_zero]

theorem axisLevel_gray {levels h m : Nat} (hm : m < 2 ^ h) :
    axisLevel levels h (gray m) = F64.ofInt (levelCoordinate levels m) := by
  rw [axisLevel, ginv_gray hm]

section
variable {h : Nat} (hh : h ≤ 3)
include hh

theorem levelCoordinate_natAbs_le {m : Nat} (hm : m < 2 ^ h) :
    (levelCoordinate (2 ^ h) m).natAbs ≤ 2 ^ 53 := by
  have hA : 2 ^ h ≤ 2 ^ 3 := Nat.pow_le_pow_right (by norm_num) hh
  unfold levelCoordinate
  omega

theorem toRat_axisLevel {g : Nat} (hg : g < 2 ^ h) :
    F64.toRat (axisLevel (2 ^ h) h g) = levelCoordinate (2 ^ h) (ginv h g) :=
  (F64.ofInt_exact (levelCoordinate_natAbs_le hh (ginv_lt_two_pow hg))).2

/-- Equal coordinates have equal labels. -/
theorem countP_of_axisLevel_eq {f g : Nat → Bool}
    (heq : axisLevel (2 ^ h) h (label h f) = axisLevel (2 ^ h) h (label h g)) :
    (List.range h).countP (fun t => f t != g t) = 0 := by
  have hf := label_lt_two_pow h f
  have hg := label_lt_two_pow h g
  have hrat := congrArg F64.toRat heq
  rw [toRat_axisLevel hh hf, toRat_axisLevel hh hg, Int.cast_inj] at hrat
  have hlevel : ginv h (label h f) = ginv h (label h g) := by unfold levelCoordinate at hrat; omega
  have hlabel : label h f = label h g := by rw [← gray_ginv hf, hlevel, gray_ginv hg]
  exact countP_of_label_eq_zero (by rw [← label_xor, hlabel, Nat.xor_self])

/-- Coordinates 2 apart are those of neighbouring levels, whose Gray codes differ in one bit
(R180). -/
theorem countP_of_axisLevel_step {f g : Nat → Bool}
    (hstep : F64.toRat (axisLevel (2 ^ h) h (label h g))
      - F64.toRat (axisLevel (2 ^ h) h (label h f)) = 2) :
    (List.range h).countP (fun t => f t != g t) = 1 := by
  have hf := label_lt_two_pow h f
  have hg := label_lt_two_pow h g
  rw [toRat_axisLevel hh hf, toRat_axisLevel hh hg] at hstep
  have hlevel : ginv h (label h g) = ginv h (label h f) + 1 := by
    have hcoord : levelCoordinate (2 ^ h) (ginv h (label h g))
        - levelCoordinate (2 ^ h) (ginv h (label h f)) = 2 := by exact_mod_cast hstep
    unfold levelCoordinate at hcoord
    omega
  obtain ⟨k, hk⟩ := gray_xor_gray_succ (ginv h (label h f))
  rw [← hlevel, gray_ginv hf, gray_ginv hg, label_xor] at hk
  exact countP_of_label_eq_two_pow hk

/-- An exact level lies above as many thresholds as there are levels below it (R265). -/
theorem level_axisLevel {g : Nat} (hg : g < 2 ^ h) :
    level (axisLevel (2 ^ h) h g) (2 ^ h) = ginv h g := by
  have hA : 2 ^ h ≤ 2 ^ 3 := Nat.pow_le_pow_right (by norm_num) hh
  have hm : ginv h g < 2 ^ h := ginv_lt_two_pow hg
  have hthreshold : ∀ i ∈ List.range (2 ^ h - 1),
      F64.lt (F64.ofInt (2 * (i + 1 : Nat) - (2 ^ h : Nat))) (axisLevel (2 ^ h) h g) = true ↔
        decide (i < ginv h g) = true := by
    intro i hi
    rw [List.mem_range] at hi
    rw [axisLevel, F64.lt_ofInt_iff (by omega) (levelCoordinate_natAbs_le hh hm), levelCoordinate,
      decide_eq_true_iff]
    omega
  rw [level, List.countP_congr hthreshold, countP_lt_range (by omega)]

end

/-! ### The schemes -/

theorem halfBits_le (c : Scheme) : c.halfBits ≤ 3 := by cases c <;> decide

theorem bitsPerSymbol_eq_halfBits_add {c : Scheme} (hc : c ≠ .bpsk) :
    c.bitsPerSymbol = c.halfBits + c.halfBits := by
  cases c with
  | bpsk => exact absurd rfl hc
  | qpsk | qam16 | qam64 => rfl

section
variable {c : Scheme} (hc : c = .qam16 ∨ c = .qam64)
include hc

theorem ne_bpsk_of_qam : c ≠ .bpsk := by obtain rfl | rfl := hc <;> decide

theorem levels_of_qam : c.levels = 2 ^ c.halfBits := by obtain rfl | rfl := hc <;> rfl

/-- The points of 16-QAM and 64-QAM, by the labels of their axes (R177, R178). -/
theorem point_of_qam (g : Nat → Bool) :
    point c g = (axisLevel (2 ^ c.halfBits) c.halfBits (label c.halfBits g),
      axisLevel (2 ^ c.halfBits) c.halfBits (label c.halfBits (fun t => g (c.halfBits + t)))) := by
  rw [← levels_of_qam hc]
  obtain rfl | rfl := hc <;> rfl

/-- The points of 16-QAM and 64-QAM, by the level indices whose Gray codes the labels are (R174). -/
theorem point_of_gray {g : Nat → Bool} {m n : Nat} (hm : m < 2 ^ c.halfBits)
    (hn : n < 2 ^ c.halfBits) (hi : gray m = label c.halfBits g)
    (hq : gray n = label c.halfBits (fun t => g (c.halfBits + t))) :
    point c g = (F64.ofInt (levelCoordinate (2 ^ c.halfBits) m),
      F64.ofInt (levelCoordinate (2 ^ c.halfBits) n)) := by
  rw [point_of_qam hc, ← hi, ← hq, axisLevel_gray hm, axisLevel_gray hn]

end

/-- Settles O24: the label of an axis is the Gray code of its level index. -/
theorem constellationPoints : Obligations.ConstellationPoints := by
  refine ⟨fun _ => rfl, fun _ => rfl, fun g m n hm hn hi hq => ?_, fun g m n hm hn hi hq => ?_⟩
  · exact point_of_gray (.inl rfl) hm hn (hi.trans (label_two g).symm)
      (hq.trans (label_two fun t => g (2 + t)).symm)
  · exact point_of_gray (.inr rfl) hm hn (hi.trans (label_three g).symm)
      (hq.trans (label_three fun t => g (3 + t)).symm)

/-- Settles O25: the axis of equal coordinates has no differing bit, the other axis one. -/
theorem grayNeighbours : Obligations.GrayNeighbours := by
  intro c f g hc hpoints
  have hh := halfBits_le c
  rw [point_of_qam hc, point_of_qam hc] at hpoints
  rw [bitsPerSymbol_eq_halfBits_add (ne_bpsk_of_qam hc), List.range_add,
    List.countP_append, List.countP_map]
  obtain ⟨hq, hi⟩ | ⟨hi, hq⟩ := hpoints
  · have hI := countP_of_axisLevel_step hh hi
    have hQ := countP_of_axisLevel_eq hh hq
    exact congrArg₂ (· + ·) hI hQ
  · have hI := countP_of_axisLevel_eq hh hi
    have hQ := countP_of_axisLevel_step hh hq
    exact congrArg₂ (· + ·) hI hQ

/-! ### Decisions (R265, R266) -/

/-- A decided bit is the estimate's where both axes decide the labels of a group. -/
theorem decidedBit_of_axisLabel {c : Scheme} (hc : c ≠ .bpsk) {g : Nat → Bool} {x y : F64}
    (hx : axisLabel c x = label c.halfBits g)
    (hy : axisLabel c y = label c.halfBits (fun t => g (c.halfBits + t)))
    (d : Bool) {t : Nat} (ht : t < c.bitsPerSymbol) :
    decidedBit c { x := x, y := y, degenerate := d } t = g t := by
  have heq : decidedBit c { x := x, y := y, degenerate := d } t = if t < c.halfBits
      then (axisLabel c x).testBit (c.halfBits - 1 - t)
      else (axisLabel c y).testBit (c.halfBits - 1 - (t - c.halfBits)) := by
    cases c with
    | bpsk => exact absurd rfl hc
    | qpsk | qam16 | qam64 => rfl
  rw [bitsPerSymbol_eq_halfBits_add hc] at ht
  rw [heq, hx, hy]
  split
  next hfirst => exact testBit_label g hfirst
  next hsecond =>
    rw [testBit_label _ (by omega), Nat.add_sub_cancel' (by omega)]

theorem axisLabel_axisLevel {c : Scheme} (hc : c = .qam16 ∨ c = .qam64) {g : Nat}
    (hg : g < 2 ^ c.halfBits) : axisLabel c (axisLevel (2 ^ c.halfBits) c.halfBits g) = g := by
  rw [axisLabel, levels_of_qam hc, level_axisLevel (halfBits_le c) hg, gray_ginv hg]

theorem decidedBit_of_qam {c : Scheme} (hc : c = .qam16 ∨ c = .qam64) (g : Nat → Bool) (d : Bool)
    {t : Nat} (ht : t < c.bitsPerSymbol) :
    decidedBit c { x := (point c g).1, y := (point c g).2, degenerate := d } t = g t := by
  rw [point_of_qam hc]
  have haxis (b : Nat → Bool) :=
    axisLabel_axisLevel hc (label_lt_two_pow c.halfBits b)
  exact decidedBit_of_axisLabel (ne_bpsk_of_qam hc) (haxis g)
    (haxis fun t => g (c.halfBits + t)) d ht

theorem level_bpsk (b : Bool) : level (if b then F64.one else F64.negOne) 2 = b.toNat := by
  cases b <;> decide

theorem axisLabel_qpsk (b : Bool) :
    axisLabel .qpsk (if b then F64.scale else F64.negScale) = b.toNat := by
  cases b <;> decide

/-- Settles O26: each scheme's levels lie between its thresholds. -/
theorem decisionUndoesMapping : Obligations.DecisionUndoesMapping := by
  intro c g d t ht
  cases c with
  | bpsk =>
    obtain rfl : t = 0 := Nat.lt_one_iff.mp ht
    change decide (level (if g 0 then F64.one else F64.negOne) 2 = 1) = g 0
    rw [level_bpsk]
    cases g 0 <;> rfl
  | qpsk =>
    have hI := (axisLabel_qpsk (g 0)).trans (label_one g).symm
    have hQ := (axisLabel_qpsk (g 1)).trans (label_one fun t => g (1 + t)).symm
    exact decidedBit_of_axisLabel (c := .qpsk) (by decide) hI hQ d ht
  | qam16 => exact decidedBit_of_qam (.inl rfl) g d ht
  | qam64 => exact decidedBit_of_qam (.inr rfl) g d ht

end Sys2Proof.Machine
end

section
/-! PROOF. MAP (41_mapper.md R171, R172): what a MAP that passes its checks leaves. -/

namespace Sys2Proof.Machine

open Sys2Proof.Claims

section
variable {s : State} {c : Scheme} (hc : Scheme.ofCode s.cfg.scheme = some c)
  (hb : s.status.bitsV = true)
include hc hb

/-- A MAP that passes its checks ends without an error (R313). -/
theorem exec_map_ok : exec .map s = .next (completeOk (bodyMap s).state) := by
  rw [exec_eq, bodyOf, bodyMap_ok hc hb, complete_ok, ok_state]

/-- MAP changes no byte outside the symbols it writes. -/
theorem bodyMap_onlyStored (hm : Memory.wf s.mem) :
    OnlyStored s (bodyMap s).state
      [(.symI, symbolCount c s.res.bitsLen.toNat), (.symQ, symbolCount c s.res.bitsLen.toNat)] := by
  rw [bodyMap_ok hc hb]
  exact onlyStored_fillAll hm [⟨.symI, _, _⟩, ⟨.symQ, _, _⟩]

/-- The state after MAP, but for what it stores: its registers and flags, and what stays. -/
theorem completeOk_bodyMap_eq :
    completeOk (bodyMap s).state = { s with
      mem := (bodyMap s).state.mem
      pending := none
      res := { s.res with
        symLen := (bodyMap s).state.res.symLen, npad := (bodyMap s).state.res.npad, latScheme := c }
      status := doneOk s.status.validMap } := by
  rw [bodyMap_ok hc hb]
  rfl

end

/-- Settles O23: MAP's two windows, its length registers, and its frame. -/
theorem mapResult : Obligations.MapResult := by
  intro s c hinv hc hb n k count group
  obtain ⟨-, hI, hQ⟩ := bodyMap_writes hinv.mem hinv.valid hc hb
  obtain ⟨-, -, hmax, -⟩ := legal_bounds hinv.mem.legal
  have hn : n ≤ s.params.nMax := bitsLen_le hinv.valid hb
  have hcount : count ≤ n := symbolCount_le c n
  have hpad : n ≤ count * k ∧ count * k ≤ n + 5 := symbolCount_bits c n
  refine ⟨_, exec_map_ok hc hb, hI, hQ, bodyMap_onlyStored hc hb hinv.mem.canonical, ?_, ?_,
    completeOk_bodyMap_eq hc hb⟩
  · rw [completeOk_res, bodyMap_res hc hb]
    exact toNat_ofNat64 (n := count) (by omega)
  · rw [completeOk_res, bodyMap_res hc hb]
    exact toNat_ofNat64 (n := count * k - n) (by omega)

end Sys2Proof.Machine
end

section
/-! PROOF. The checks of each command (42_synth.md R201, 43_channel.md R232, 46_control.md R317): the
first that fails is the error its body raises before any write. -/

namespace Sys2Proof.Machine

open Sys2Proof.Claims

/-- What an error reports, ERRCODE and ERRINFO (R336). -/
def CmdError.report (e : CmdError) : BitVec 8 × BitVec 8 := (e.code, e.info)

/-- The error of the first check of a command that fails, as its body finds it (R338). -/
def checkError (i : Instr) (s : State) : Option CmdError :=
  match i with
  | .nop | .clear => none
  | .genBits => checkBitCount s.params s.bitCount
  | .map =>
    match Scheme.ofCode s.cfg.scheme with
    | none => some .scheme
    | some _ => if s.status.bitsV = false then some .bitsNotReady else none
  | .synth =>
    if s.status.symV = false then some .symNotReady
    else checkSynth s.params s.samplesPerSymbol s.cfg.fs s.cfg.fc s.res.latScheme
      s.res.symLen.toNat
  | .channel =>
    if s.status.waveV = false then some .waveNotReady
    else checkNoise s.noiseMode s.cfg.noiseLevel
  | .slice => if s.status.rxV = false then some .rxNotReady else none
  | .ber =>
    match Scheme.ofCode s.cfg.scheme with
    | none => some .scheme
    | some _ => (checkPointCount s.params s.pointCount).or
        (if pointsFinite s s.pointCount.toNat = false then some .snrPoint else none)
  | .run => runChecks s

/-! ### Lists of checks against the errors they report -/

section
variable {l l' : List (Bool × BitVec 8 × BitVec 8)} {o o' : Option CmdError}
  (hl : firstFailing l = o.map CmdError.report)
include hl

/-- A check in front of a list. -/
theorem firstFailing_cons_eq (e : CmdError) {fails : Bool} {p : Prop} [Decidable p]
    (hp : fails = false ↔ ¬ p) :
    firstFailing ((fails, e.report) :: l) = (if p then some e else o).map CmdError.report := by
  by_cases h : p
  · rw [if_pos h, firstFailing, if_pos (Bool.of_not_eq_false (mt hp.mp (not_not.mpr h))),
      Option.map_some]
  · rw [if_neg h, firstFailing, hp.mpr h, if_neg Bool.false_ne_true, hl]

theorem firstFailing_append_eq (hl' : firstFailing l' = o'.map CmdError.report) :
    firstFailing (l ++ l') = (o.or o').map CmdError.report := by
  induction l generalizing o with
  | nil => rw [Option.map_eq_none_iff.mp hl.symm]; exact hl'
  | cons c l ih =>
    obtain ⟨fails, pair⟩ := c
    cases fails with
    | false => exact ih hl
    | true =>
      cases o with
      | none => cases hl
      | some e => exact hl

end

/-- A list of one check, of a condition under which it passes. -/
theorem firstFailing_singleton (e : CmdError) {fails : Bool} {p : Prop} [Decidable p]
    (hp : fails = false ↔ p) :
    firstFailing [(fails, e.report)] = (if p then none else some e).map CmdError.report := by
  rw [← ite_not]
  exact firstFailing_cons_eq (o := none) rfl e (by rw [hp, not_not])

theorem firstFailing_synthChecks (p : Params) (sps : Int) (fs fc : F64) (c : Scheme) (n : Nat) :
    firstFailing (synthChecks p sps fs fc c n)
      = (checkSynth p sps fs fc c n).map CmdError.report :=
  have phaseRange := firstFailing_cons_eq (l := []) (o := none) rfl .phaseRange
    (p := ¬ phaseFinite n sps fs fc = true) (by simp [phaseFinite, lastIndex, and_assoc])
  have nyquist := firstFailing_cons_eq phaseRange .nyquist (by simp)
  have carrier := firstFailing_cons_eq nyquist .carrier (by simp)
  have sampleRate := firstFailing_cons_eq carrier .sampleRate (by simp)
  have spsOneWithQ := firstFailing_cons_eq sampleRate .spsOneWithQ (by simp)
  firstFailing_cons_eq spsOneWithQ .spsRange (by simp)

theorem firstFailing_noiseCheck (mode : Bool) (x : F64) :
    firstFailing [noiseCheck mode x] = (checkNoise mode x).map CmdError.report := by
  cases mode <;> exact firstFailing_singleton .noiseLevel (by simp)

theorem firstFailing_bitCount (p : Params) (n : Int) :
    firstFailing [(!(decide (1 ≤ n) && decide (n ≤ p.nMax)), 1, 0x01)]
      = (checkBitCount p n).map CmdError.report :=
  firstFailing_singleton .bitCount (by simp)

theorem firstFailing_pointCount (p : Params) (k : Int) :
    firstFailing [(!(decide (1 ≤ k) && decide (k ≤ p.berMax)), 1, 0x09)]
      = (checkPointCount p k).map CmdError.report :=
  firstFailing_singleton .berCount (by simp)

theorem runChecks_eq_or (s : State) : runChecks s =
    match Scheme.ofCode s.cfg.scheme with
    | none => some .scheme
    | some c => (checkBitCount s.params s.bitCount).or
        ((checkSynth s.params s.samplesPerSymbol s.cfg.fs s.cfg.fc c
          (symbolCount c s.bitCount.toNat)).or (checkNoise s.noiseMode s.cfg.noiseLevel)) := by
  unfold runChecks
  cases Scheme.ofCode s.cfg.scheme with
  | none => rfl
  | some c =>
    dsimp only
    cases checkBitCount s.params s.bitCount with
    | some e => rfl
    | none =>
      cases checkSynth s.params s.samplesPerSymbol s.cfg.fs s.cfg.fc c
          (symbolCount c s.bitCount.toNat) with
      | some e => rfl
      | none => rfl

/-- The lists of R338 report the errors the bodies find. -/
theorem firstFailing_checks (i : Instr) (s : State) :
    firstFailing (checks i s) = (checkError i s).map CmdError.report := by
  have hscheme : decide (4 ≤ s.cfg.scheme.toNat) = false ↔ ¬ Scheme.ofCode s.cfg.scheme = none := by
    rw [ofCode_eq_none_iff, decide_eq_false_iff_not]
  cases i with
  | nop | clear => rfl
  | genBits => exact firstFailing_bitCount s.params s.bitCount
  | map =>
    have hbits := firstFailing_cons_eq (l := []) (o := none) rfl .bitsNotReady
      (fails := !s.status.bitsV) (p := s.status.bitsV = false) (by simp)
    rw [checks, checkError]
    cases hc : Scheme.ofCode s.cfg.scheme <;> rw [hc] at hscheme <;>
      exact firstFailing_cons_eq hbits .scheme hscheme
  | synth =>
    exact firstFailing_cons_eq (firstFailing_synthChecks ..) .symNotReady (by simp)
  | channel =>
    exact firstFailing_cons_eq (firstFailing_noiseCheck ..) .waveNotReady (by simp)
  | slice => exact firstFailing_cons_eq (o := none) rfl .rxNotReady (by simp)
  | ber =>
    have hpoints := firstFailing_cons_eq (l := []) (o := none) rfl .snrPoint
      (fails := !pointsFinite s s.pointCount.toNat)
      (p := pointsFinite s s.pointCount.toNat = false) (by simp)
    have hcount := firstFailing_append_eq (firstFailing_pointCount s.params s.pointCount) hpoints
    rw [checks, checkError]
    cases hc : Scheme.ofCode s.cfg.scheme <;> rw [hc] at hscheme <;>
      exact firstFailing_cons_eq hcount .scheme hscheme
  | run =>
    simp only [checks, checkError, runChecks_eq_or]
    cases hc : Scheme.ofCode s.cfg.scheme with
    | none =>
      rw [hc] at hscheme
      exact firstFailing_cons_eq (l := []) (o := none) rfl .scheme hscheme
    | some c =>
      rw [hc] at hscheme
      have hsynth := firstFailing_synthChecks s.params s.samplesPerSymbol s.cfg.fs s.cfg.fc c
        (symbolCount c s.bitCount.toNat)
      have hnoise := firstFailing_noiseCheck s.noiseMode s.cfg.noiseLevel
      have hcount := firstFailing_bitCount s.params s.bitCount
      exact firstFailing_cons_eq (firstFailing_append_eq hcount
        (firstFailing_append_eq hsynth hnoise)) .scheme hscheme

/-- A body whose checks find an error raises it, and has then changed nothing. -/
theorem bodyOf_eq_raise {i : Instr} {s : State} {e : CmdError} :
    checkError i s = some e → bodyOf i s = .raise e s := by
  cases i with
  | nop | clear => exact nofun
  | genBits => intro h; rw [bodyOf, bodyGenBits, show checkBitCount _ _ = _ from h]
  | map =>
    rw [checkError, bodyOf, bodyMap]
    cases Scheme.ofCode s.cfg.scheme with
    | none => exact fun h => by cases h; rfl
    | some c =>
      cases s.status.bitsV with
      | false => exact fun h => by cases h; rfl
      | true => exact nofun
  | synth =>
    rw [checkError, bodyOf, bodySynth]
    cases s.status.symV with
    | false => exact fun h => by cases h; rfl
    | true => intro h; rw [if_neg nofun] at h ⊢; rw [h]
  | channel =>
    rw [checkError, bodyOf, bodyChannel]
    cases s.status.waveV with
    | false => exact fun h => by cases h; rfl
    | true => intro h; rw [if_neg nofun] at h ⊢; rw [h]
  | slice =>
    rw [checkError, bodyOf, bodySlice]
    cases s.status.rxV with
    | false => exact fun h => by cases h; rfl
    | true => exact nofun
  | ber =>
    rw [checkError, bodyOf, bodyBer]
    cases Scheme.ofCode s.cfg.scheme with
    | none => exact fun h => by cases h; rfl
    | some c =>
      dsimp only
      cases checkPointCount s.params s.pointCount with
      | some e => exact fun h => by cases h; rfl
      | none =>
        cases pointsFinite s s.pointCount.toNat with
        | false => exact fun h => by cases h; rfl
        | true => exact nofun
  | run => intro h; rw [bodyOf, bodyRun, show runChecks _ = _ from h]

theorem checkError_eq_none_iff {i : Instr} {s : State} : checkError i s = none ↔ Passes i s := by
  rw [Passes, firstFailing_checks, Option.map_eq_none_iff]

/-- Settles O16: the lists report the error the bodies find, and a body that finds one raises it
before it changes anything. -/
theorem checksReportInOrder : Obligations.ChecksReportInOrder := by
  intro i s code info h
  rw [firstFailing_checks, Option.map_eq_some_iff] at h
  obtain ⟨e, he, hreport⟩ := h
  cases hreport
  rw [FailsWith, exec_eq, bodyOf_eq_raise he, complete_raise]
  rfl

end Sys2Proof.Machine
end

section
/-! PROOF. SYNTH (42_synth.md R200 to R209): what a SYNTH that passes its checks leaves. -/

namespace Sys2Proof.Machine

open Sys2Proof.Claims

theorem passes_synth_iff {s : State} : Passes .synth s ↔ s.status.symV = true ∧
    checkSynth s.params s.samplesPerSymbol s.cfg.fs s.cfg.fc s.res.latScheme s.res.symLen.toNat
      = none := by
  rw [← checkError_eq_none_iff, checkError]
  cases s.status.symV with
  | false => exact iff_of_false nofun nofun
  | true => exact ⟨fun h => ⟨rfl, h⟩, And.right⟩

section
variable {s : State} (hs : s.status.symV = true) (hc : checkSynth s.params s.samplesPerSymbol
  s.cfg.fs s.cfg.fc s.res.latScheme s.res.symLen.toNat = none)
include hs hc

/-- A SYNTH that passes its checks ends without an error (R313). -/
theorem exec_synth_ok :
    exec .synth s = .next (completeOk (bodySynth Config.numerics s).state) := by
  rw [exec_eq, bodyOf, bodySynth_ok hs hc, complete_ok, ok_state]

/-- SYNTH changes no byte outside the samples it writes. -/
theorem bodySynth_onlyStored (hm : Memory.wf s.mem) (N : Numerics) :
    let len := s.res.symLen.toNat * s.samplesPerSymbol.toNat
    OnlyStored s (bodySynth N s).state [(.time, len), (.carI, len), (.carQ, len), (.tx, len)] := by
  intro len a ha
  have hmem : (bodySynth N s).state.mem = (s.fillAll [⟨.time, len, sampleTime s.cfg.fs⟩,
      ⟨.carI, len, carrierI N s.cfg.fs s.cfg.fc⟩, ⟨.carQ, len, carrierQ N s.cfg.fs s.cfg.fc⟩,
      ⟨.tx, len, txSample N s s.samplesPerSymbol.toNat⟩]).mem := by
    simp [len, bodySynth_ok hs hc, State.fillAll]
  rw [hmem]
  exact onlyStored_fillAll hm _ a ha

/-- The state after SYNTH, but for what it stores: its registers and flags, and what stays. -/
theorem completeOk_bodySynth_eq (N : Numerics) :
    completeOk (bodySynth N s).state = { s with
      mem := (bodySynth N s).state.mem
      pending := none
      res := { s.res with
        sampLen := (bodySynth N s).state.res.sampLen
        latSps := s.cfg.sps, latFc := s.cfg.fc, latFs := s.cfg.fs }
      status := doneOk s.status.validSynth } := by
  obtain ⟨hsps, -⟩ := checkSynth_none hc
  have hlat : BitVec.ofNat 64 s.samplesPerSymbol.toNat = s.cfg.sps :=
    ofNat_toInt (by unfold State.samplesPerSymbol at hsps; omega)
  have hframe := bodySynth_frame N s
  have hst := bodySynth_status (N := N) hs hc
  have hrs := bodySynth_res (N := N) hs hc
  generalize (bodySynth N s).state = t at *
  rw [SameFrame, hst, hrs, hlat] at hframe
  rw [hframe]
  rfl

/-- SAMP_LEN after SYNTH (R209). -/
theorem bodySynth_sampLen (hm : s.MemInv) (hv : s.ValidInv) (N : Numerics) :
    (bodySynth N s).state.res.sampLen.toNat = s.res.symLen.toNat * s.samplesPerSymbol.toNat := by
  rw [bodySynth_res hs hc]
  exact toNat_ofNat_of_le_lMax hm (synthLen_le hv hs hc)

end

/-- Settles O27: SYNTH's four windows, its registers, and its frame. -/
theorem synthResult : Obligations.SynthResult := by
  intro s hinv hpass sps len time theta c u
  obtain ⟨hs, hc⟩ := passes_synth_iff.mp hpass
  obtain ⟨-, htime, hcarI, hcarQ, htx⟩ := bodySynth_writes hinv.mem hinv.valid hs hc
  exact ⟨_, exec_synth_ok hs hc, htime, hcarI, hcarQ, htx,
    bodySynth_onlyStored hs hc hinv.mem.canonical _, bodySynth_sampLen hs hc hinv.mem hinv.valid _,
    completeOk_bodySynth_eq hs hc _⟩

end Sys2Proof.Machine
end

section
/-! PROOF. Bounds through rounding (00_scope.md R23): a bound that is itself a binary64 number, and a
finite result of a larger number, pass from the exact result to the rounded one. -/

namespace Sys2Proof

open Sys2Proof.Claims

section
variable {f g : F64} {x y : ℝ}

/-- A finite result is not rounded from past the threshold of overflow. -/
theorem Claims.CorrectlyRounded.abs_lt_overflowAt (h : CorrectlyRounded f x)
    (hf : F64.isFinite f = true) : |x| < overflowAt := by
  by_contra hbig
  rw [h.overflow (not_lt.mp hbig)] at hf
  split at hf
  · exact absurd hf (by decide)
  · exact absurd hf (by decide)

theorem Claims.CorrectlyRounded.le_of_le (h : CorrectlyRounded f x) (hx : |x| < overflowAt)
    (hg : F64.isFinite g = true) (hle : x ≤ F64.toRat g) : F64.toRat f ≤ F64.toRat g := by
  have hclose := ((h.nearest hx).2 g hg).1
  rw [abs_of_nonneg (show 0 ≤ (F64.toRat g : ℝ) - x by linarith)] at hclose
  have hself := le_abs_self ((F64.toRat f : ℝ) - x)
  exact_mod_cast (show (F64.toRat f : ℝ) ≤ F64.toRat g by linarith)

theorem Claims.CorrectlyRounded.ge_of_ge (h : CorrectlyRounded f x) (hx : |x| < overflowAt)
    (hg : F64.isFinite g = true) (hge : F64.toRat g ≤ x) : F64.toRat g ≤ F64.toRat f := by
  have hclose := ((h.nearest hx).2 g hg).1
  rw [abs_of_nonpos (show (F64.toRat g : ℝ) - x ≤ 0 by linarith)] at hclose
  have hself := neg_abs_le ((F64.toRat f : ℝ) - x)
  exact_mod_cast (show (F64.toRat g : ℝ) ≤ F64.toRat f by linarith)

theorem Claims.CorrectlyRounded.nonneg (h : CorrectlyRounded f x) (hf : F64.isFinite f = true)
    (hx : 0 ≤ x) : 0 ≤ F64.toRat f := by
  have := h.ge_of_ge (h.abs_lt_overflowAt hf) (g := F64.zero) (by decide) (by simpa [toRat_zero])
  rwa [toRat_zero] at this

/-- Below a number with a finite result every number has one. -/
theorem Claims.CorrectlyRounded.finite_of_le (h : CorrectlyRounded f x) (h' : CorrectlyRounded g y)
    (hg : F64.isFinite g = true) (hx : 0 ≤ x) (hxy : x ≤ y) : F64.isFinite f = true := by
  have hlt := h'.abs_lt_overflowAt hg
  rw [abs_of_nonneg (hx.trans hxy)] at hlt
  exact (h.nearest (by rw [abs_of_nonneg hx]; exact hxy.trans_lt hlt)).1

/-- Rounding keeps the order of two numbers: were it reversed, both would lie between the results,
`x` not below their midpoint and `y` not above it. -/
theorem Claims.CorrectlyRounded.toRat_mono (h : CorrectlyRounded f x) (h' : CorrectlyRounded g y)
    (hf : F64.isFinite f = true) (hg : F64.isFinite g = true) (hxy : x < y) :
    F64.toRat f ≤ F64.toRat g := by
  have hx := h.abs_lt_overflowAt hf
  have hy := h'.abs_lt_overflowAt hg
  by_contra hgf
  have hgx : F64.toRat g < x := lt_of_not_ge fun hle => hgf (h.le_of_le hx hg hle)
  have hyf : y < F64.toRat f := lt_of_not_ge fun hge => hgf (h'.ge_of_ge hy hf hge)
  have hclose := ((h.nearest hx).2 g hg).1
  have hclose' := ((h'.nearest hy).2 f hf).1
  rw [abs_of_pos (sub_pos.mpr (hxy.trans hyf)), abs_of_neg (sub_neg.mpr hgx)] at hclose
  rw [abs_of_neg (sub_neg.mpr (hgx.trans hxy)), abs_of_pos (sub_pos.mpr hyf)] at hclose'
  linarith

end

section
variable {x : F64} (h : F64.lt F64.zero x = true)
include h

theorem F64.key_pos_of_pos : 0 < F64.key x := by
  have hzero : F64.key F64.zero = 0 := by decide
  simp only [F64.lt, Bool.and_eq_true, decide_eq_true_eq] at h
  omega

theorem F64.isZero_of_pos : F64.isZero x = false := by
  rw [← Bool.not_eq_true, F64.isZero_iff_key]
  exact (F64.key_pos_of_pos h).ne'

theorem F64.neg?_of_pos : F64.neg? x = false := by
  have hpos := F64.key_pos_of_pos h
  unfold F64.key at hpos
  split at hpos
  · omega
  · next hneg => exact Bool.of_not_eq_true hneg

theorem F64.toRat_pos_of_pos : (0 : ℝ) < F64.toRat x := toRat_pos (F64.key_pos_of_pos h)

end

/-- A finite number of magnitude at most `b`. -/
def F64.BoundedBy (f : F64) (b : ℕ) : Prop := F64.isFinite f = true ∧ |F64.toRat f| ≤ b

/-- A bound of at most 53 bits is a binary64 number, so it passes to the rounded result. -/
theorem Claims.CorrectlyRounded.boundedBy {f : F64} {x : ℝ} {b : ℕ} (h : CorrectlyRounded f x)
    (hb : b ≤ 2 ^ 53) (hx : |x| ≤ b) : F64.BoundedBy f b := by
  obtain ⟨g, hg, hval⟩ := exists_finite_toRat_eq_natCast hb
  have hsmall : |x| < overflowAt := by
    have hlt := abs_toRat_lt_overflowAt hg
    rw [hval, Rat.cast_natCast, Nat.abs_cast] at hlt
    exact hx.trans_lt hlt
  obtain ⟨hlo, hhi⟩ := abs_le.mp hx
  have hupper := h.le_of_le hsmall hg (by rwa [hval, Rat.cast_natCast])
  have hlower := h.ge_of_ge hsmall (g := F64.neg g) (by rwa [F64.isFinite_neg])
    (by rwa [F64.toRat_neg, hval, Rat.cast_neg, Rat.cast_natCast])
  rw [F64.toRat_neg, hval] at hlower
  rw [hval] at hupper
  exact ⟨(h.nearest hsmall).1, abs_le.mpr ⟨hlower, hupper⟩⟩

section
variable {x y : F64} {b c : ℕ}

theorem F64.BoundedBy.mono (h : F64.BoundedBy x b) (hbc : b ≤ c) : F64.BoundedBy x c :=
  ⟨h.1, h.2.trans (by exact_mod_cast hbc)⟩

theorem F64.BoundedBy.neg (h : F64.BoundedBy x b) : F64.BoundedBy (F64.neg x) b := by
  rwa [F64.BoundedBy, F64.isFinite_neg, F64.toRat_neg, abs_neg]

theorem F64.BoundedBy.add (hx : F64.BoundedBy x b) (hy : F64.BoundedBy y c)
    (hbc : b + c ≤ 2 ^ 53) : F64.BoundedBy (F64.add x y) (b + c) := by
  obtain ⟨hfx, hx⟩ := hx
  obtain ⟨hfy, hy⟩ := hy
  refine (F64.add_correct hfx hfy).boundedBy hbc ?_
  exact_mod_cast (abs_add_le (F64.toRat x) (F64.toRat y)).trans (add_le_add hx hy)

theorem F64.BoundedBy.mul (hx : F64.BoundedBy x b) (hy : F64.BoundedBy y c)
    (hbc : b * c ≤ 2 ^ 53) : F64.BoundedBy (F64.mul x y) (b * c) := by
  obtain ⟨hfx, hx⟩ := hx
  obtain ⟨hfy, hy⟩ := hy
  refine (F64.mul_correct hfx hfy).boundedBy hbc ?_
  have hmul : |F64.toRat x * F64.toRat y| ≤ b * c := by
    rw [abs_mul]
    exact mul_le_mul hx hy (abs_nonneg _) b.cast_nonneg
  exact_mod_cast hmul

/-- Patterns from -1.0 to 1.0. -/
theorem F64.boundedBy_one (hlo : F64.le F64.negOne x = true) (hhi : F64.le x F64.one = true) :
    F64.BoundedBy x 1 := by
  have hklo := key_of_le hlo
  have hkhi := key_of_le hhi
  have hf : F64.isFinite x = true := by
    rw [finite_iff_key]
    have hone : F64.key F64.one < F64.infMag := by decide
    have hnegOne : F64.key F64.negOne = -F64.key F64.one := by decide
    omega
  rw [F64.le_iff negOne_finite hf, toRat_negOne] at hlo
  rw [F64.le_iff hf one_finite, toRat_one] at hhi
  exact ⟨hf, by rw [Nat.cast_one]; exact abs_le.mpr ⟨hlo, hhi⟩⟩

theorem F64.boundedBy_ofInt {n : ℤ} (hn : n.natAbs ≤ b) (hb : b ≤ 2 ^ 53) :
    F64.BoundedBy (F64.ofInt n) b := by
  obtain ⟨hf, hval⟩ := F64.ofInt_exact (hn.trans hb)
  refine ⟨hf, ?_⟩
  have habs : |n| ≤ b := by rw [Int.abs_eq_natAbs]; exact_mod_cast hn
  rw [hval]
  exact_mod_cast habs

end

end Sys2Proof
end

section
/-! PROOF. The modulator on constellation points and the phases of the carrier (42_synth.md R202, R206,
R208). -/

namespace Sys2Proof.Machine

open Sys2Proof.Claims

/-! ### The modulator (R208) -/

theorem boundedBy_axisLevel {h g : Nat} (hh : h ≤ 3) (hg : g < 2 ^ h) :
    F64.BoundedBy (axisLevel (2 ^ h) h g) 7 := by
  have hA : 2 ^ h ≤ 2 ^ 3 := Nat.pow_le_pow_right (by norm_num) hh
  have hm : ginv h g < 2 ^ h := ginv_lt_two_pow hg
  refine F64.boundedBy_ofInt ?_ (by norm_num)
  unfold levelCoordinate
  omega

theorem boundedBy_antipodal {x : F64} (hlo : F64.le F64.negOne x = true)
    (hhi : F64.le x F64.one = true) {y : F64} (hy : y = F64.neg x) (b : Bool) :
    F64.BoundedBy (if b then x else y) 7 := by
  have hx : F64.BoundedBy x 7 := (F64.boundedBy_one hlo hhi).mono (by norm_num)
  cases b
  · exact hy ▸ hx.neg
  · exact hx

/-- Both coordinates of a constellation point are at most 7 in magnitude (R179). -/
theorem boundedBy_point (c : Scheme) (g : Nat → Bool) :
    F64.BoundedBy (point c g).1 7 ∧ F64.BoundedBy (point c g).2 7 := by
  have qam (hc : c = .qam16 ∨ c = .qam64) :
      F64.BoundedBy (point c g).1 7 ∧ F64.BoundedBy (point c g).2 7 := by
    rw [point_of_qam hc]
    exact ⟨boundedBy_axisLevel (halfBits_le c) (label_lt_two_pow _ _),
      boundedBy_axisLevel (halfBits_le c) (label_lt_two_pow _ _)⟩
  cases c with
  | bpsk =>
    have hzero : F64.BoundedBy F64.zero 1 := F64.boundedBy_one (by decide) (by decide)
    exact ⟨boundedBy_antipodal (by decide) (by decide) (by decide) (g 0), hzero.mono (by norm_num)⟩
  | qpsk =>
    have hscale := boundedBy_antipodal (x := F64.scale) (y := F64.negScale) (by decide) (by decide)
      (by decide)
    exact ⟨hscale (g 0), hscale (g 1)⟩
  | qam16 => exact qam (.inl rfl)
  | qam64 => exact qam (.inr rfl)

/-- The sample of a constellation point at a finite phase (R208): 14 = 7 * 1 + 7 * 1. -/
theorem boundedBy_modulate (c : Scheme) (g : Nat → Bool) {x : F64} (hx : F64.isFinite x = true) :
    F64.BoundedBy (modulate (point c g).1 (point c g).2 (Config.numerics.cos x)
      (F64.neg (Config.numerics.sin x))) 14 := by
  obtain ⟨hi, hq⟩ := boundedBy_point c g
  obtain ⟨hcos, hcos'⟩ := numerics_cos_range x hx
  obtain ⟨hsin, hsin'⟩ := numerics_sin_range x hx
  have hic := hi.mul (F64.boundedBy_one hcos hcos') (by norm_num)
  have hqu := hq.mul (F64.boundedBy_one hsin hsin').neg (by norm_num)
  exact hic.add hqu (by norm_num)

/-! ### Phases (R206) -/

/-- What a passed check_synth says of the frequencies and the last phase (R201). -/
theorem checkSynth_none_phase {p : Params} {sps : Int} {fs fc : F64} {c : Scheme} {n : Nat}
    (h : checkSynth p sps fs fc c n = none) :
    (F64.isFinite fs = true ∧ F64.lt F64.zero fs = true) ∧
      (F64.isFinite fc = true ∧ F64.lt F64.zero fc = true) ∧ phaseFinite n sps fs fc = true := by
  unfold checkSynth at h
  split_ifs at h with _ _ hfs hfc _ hphase
  exact ⟨hfs, hfc, hphase⟩

theorem lastIndex_eq_ofNat {n : Nat} {sps : Int} (hsps : 1 ≤ sps) (hpos : 0 < n * sps.toNat) :
    lastIndex n sps = F64.ofNat (n * sps.toNat - 1) := by
  have hlen : (n : ℤ) * sps = (n * sps.toNat : ℕ) := by
    rw [Nat.cast_mul, Int.toNat_of_nonneg (by omega)]
  rw [F64.ofNat_eq_ofInt, lastIndex, hlen, Nat.cast_pred hpos]

theorem twoPi_mul_pos {fc : F64} (hfc0 : F64.lt F64.zero fc = true) :
    (0 : ℝ) < F64.toRat F64.twoPi * F64.toRat fc :=
  mul_pos (F64.toRat_pos_of_pos (by decide)) (F64.toRat_pos_of_pos hfc0)

section
variable {fs fc : F64} (hfs : F64.isFinite fs = true) (hfs0 : F64.lt F64.zero fs = true)
include hfs hfs0

/-- Each time is the quotient correctly rounded (R202). -/
theorem sampleTime_correct {n : Nat} (hn : n ≤ 2 ^ 53) :
    CorrectlyRounded (sampleTime fs n) ((n : ℝ) / F64.toRat fs) := by
  obtain ⟨hfn, hval⟩ := F64.ofInt_exact (n := n) (by omega)
  have h := F64.div_correct hfn hfs (F64.isZero_of_pos hfs0)
  rw [hval] at h
  rw [sampleTime, F64.ofNat_eq_ofInt]
  exact_mod_cast h

theorem sampleTime_zero : sampleTime fs 0 = F64.zero := by
  have h := F64.div_zero_left hfs false (F64.isZero_of_pos hfs0)
  rw [F64.neg?_of_pos hfs0] at h
  exact h

variable (hfc : F64.isFinite fc = true) (hfc0 : F64.lt F64.zero fc = true)
  (hw : F64.isFinite (F64.mul F64.twoPi fc) = true)
include hfc hfc0 hw

/-- The first phase (R206). -/
theorem phase_zero : phase fs fc 0 = F64.zero := by
  have hpos := twoPi_mul_pos hfc0
  have hsign : F64.neg? (F64.mul F64.twoPi fc) = false := by
    rw [← Bool.not_eq_true, (F64.mul_correct (by decide) hfc).sign hpos.ne']
    exact hpos.not_gt
  have h := F64.mul_zero_right hw false
  rw [hsign] at h
  rw [phase, sampleTime_zero hfs hfs0]
  exact h

/-- Times rise to the last one, so phases do (R206): each is finite if the last is, and none is
negative. -/
theorem phase_finite {m n : Nat} (hm : m ≤ 2 ^ 53) (hn : n ≤ m)
    (ht : F64.isFinite (sampleTime fs m) = true) (hphase : F64.isFinite (phase fs fc m) = true) :
    F64.isFinite (phase fs fc n) = true ∧ F64.le F64.zero (phase fs fc n) = true := by
  have hfs' := F64.toRat_pos_of_pos hfs0
  have hn' := sampleTime_correct hfs hfs0 (hn.trans hm)
  have hm' := sampleTime_correct hfs hfs0 hm
  have hle : (n : ℝ) / F64.toRat fs ≤ m / F64.toRat fs := by gcongr
  have htn : F64.isFinite (sampleTime fs n) = true := hn'.finite_of_le hm' ht (by positivity) hle
  have htn0 : 0 ≤ F64.toRat (sampleTime fs n) := hn'.nonneg htn (by positivity)
  have htle : F64.toRat (sampleTime fs n) ≤ F64.toRat (sampleTime fs m) := by
    obtain hlt | rfl := hn.lt_or_eq
    · exact hn'.toRat_mono hm' htn ht (by gcongr)
    · exact le_rfl
  have hw0 := (F64.mul_correct (by decide) hfc).nonneg hw (twoPi_mul_pos hfc0).le
  have hpn : CorrectlyRounded (phase fs fc n)
      (F64.toRat (F64.mul F64.twoPi fc) * F64.toRat (sampleTime fs n)) := F64.mul_correct hw htn
  have hprod : (0 : ℝ) ≤ F64.toRat (F64.mul F64.twoPi fc) * F64.toRat (sampleTime fs n) := by
    exact_mod_cast mul_nonneg hw0 htn0
  have hfin := hpn.finite_of_le (F64.mul_correct hw ht) hphase hprod
    (by exact_mod_cast mul_le_mul_of_nonneg_left htle hw0)
  refine ⟨hfin, ?_⟩
  rw [F64.le_iff zero_finite hfin, toRat_zero]
  exact hpn.nonneg hfin hprod

end

end Sys2Proof.Machine
end

section
/-! PROOF. The samples a SYNTH or a RUN transmits (42_synth.md R206, R208). -/

namespace Sys2Proof.Machine

open Sys2Proof.Claims

/-- The phases of a carrier below the sample count of `t`, and the samples `t` holds (R206, R208). -/
def WaveBounded (fs fc : F64) (t : State) : Prop :=
  phase fs fc 0 = F64.zero ∧
    ∀ n, n < t.res.sampLen.toNat →
      F64.isFinite (phase fs fc n) = true ∧ F64.le F64.zero (phase fs fc n) = true ∧
      F64.isFinite (t.entry .tx n) = true ∧ |F64.toRat (t.entry .tx n)| ≤ 14

/-- Symbols as MAP leaves them: each is a constellation point (R171). -/
def SymbolsArePoints (s : State) : Prop :=
  ∀ j, j < s.res.symLen.toNat → ∃ c g, s.entry .symI j = (point c g).1 ∧
    s.entry .symQ j = (point c g).2

/-- A block that holds the samples a SYNTH in `s` computes. -/
structure HoldsSynthOf (s t : State) : Prop where
  len : t.res.sampLen.toNat = s.res.symLen.toNat * s.samplesPerSymbol.toNat
  tx : Holds t .tx (s.res.symLen.toNat * s.samplesPerSymbol.toNat)
    (txSample Config.numerics s s.samplesPerSymbol.toNat)

section
variable {s t : State} (hm : s.MemInv) (hv : s.ValidInv) (hs : s.status.symV = true)
  (hc : checkSynth s.params s.samplesPerSymbol s.cfg.fs s.cfg.fc s.res.latScheme
    s.res.symLen.toNat = none)
include hm hv hs hc

/-- The state SYNTH leaves holds its samples. -/
theorem bodySynth_holds : HoldsSynthOf s (bodySynth Config.numerics s).state := by
  obtain ⟨-, -, -, -, htx⟩ := bodySynth_writes (N := Config.numerics) hm hv hs hc
  exact ⟨bodySynth_sampLen hs hc hm hv _, htx⟩

/-- The check of the last phase bounds every phase, and the modulator every sample. -/
theorem waveBounded_of_holds (hpoints : SymbolsArePoints s) (h : HoldsSynthOf s t) :
    WaveBounded s.cfg.fs s.cfg.fc t := by
  obtain ⟨hsps, -⟩ := checkSynth_none hc
  obtain ⟨⟨hfs, hfs0⟩, ⟨hfc, hfc0⟩, hphase⟩ := checkSynth_none_phase hc
  simp only [phaseFinite, Bool.and_eq_true] at hphase
  obtain ⟨⟨hw, htime⟩, hlast⟩ := hphase
  refine ⟨phase_zero hfs hfs0 hfc hfc0 hw, fun n hn => ?_⟩
  rw [h.len] at hn
  rw [h.tx.entry_eq hn]
  rw [lastIndex_eq_ofNat hsps (by omega)] at htime hlast
  have hmax : s.res.symLen.toNat * s.samplesPerSymbol.toNat ≤ 131072 := by
    obtain ⟨-, -, -, hcap, -⟩ := legal_bounds hm.legal
    exact (synthLen_le hv hs hc).trans hcap
  obtain ⟨hfin, hnonneg⟩ := phase_finite hfs hfs0 hfc hfc0 hw (n := n) (by omega) (by omega)
    htime hlast
  obtain ⟨c, g, hi, hq⟩ := hpoints (n / s.samplesPerSymbol.toNat)
    (Nat.div_lt_of_lt_mul (by rwa [Nat.mul_comm]))
  rw [txSample, hi, hq]
  exact ⟨hfin, hnonneg, boundedBy_modulate c g hfin⟩

end

/-- Completion changes no sample and no length (R313). -/
theorem HoldsSynthOf.complete {s : State} {r : Result} (h : HoldsSynthOf s r.state) :
    HoldsSynthOf s (complete r) where
  len := by rw [complete_res, h.len]
  tx := holds_complete h.tx

/-! ### The samples of a RUN -/

theorem bodyChannel_sampLen (N : Numerics) (s : State) :
    (bodyChannel N s).state.res.sampLen = s.res.sampLen := by
  obtain ⟨e, h⟩ | ⟨hw, hc⟩ := bodyChannel_cases N s
  · rw [h, raise_state]
  · rw [bodyChannel_ok hw hc]
    obtain ⟨snr, hsnr⟩ := reportSnr_res (N := N)
      (s := channelWrites N (variance (s.entry .tx) s.res.sampLen.toNat)
        (noisePower N s.noiseMode s.cfg.noiseLevel (variance (s.entry .tx) s.res.sampLen.toNat)) s)
      _ _ _
    rw [hsnr, channelWrites_res]

theorem bodySlice_sampLen (s : State) : (bodySlice s).state.res.sampLen = s.res.sampLen := by
  obtain ⟨e, h⟩ | hr := bodySlice_cases s
  · rw [h, raise_state]
  · rw [bodySlice_res hr]

/-- CHANNEL and SLICE leave the samples and their count. -/
theorem HoldsSynthOf.channel_slice {s t : State} (h : HoldsSynthOf s t) (hm : t.MemInv)
    (hv : t.ValidInv) (hcap : s.res.symLen.toNat * s.samplesPerSymbol.toNat
      ≤ Region.tx.capacity t.params) (N : Numerics) :
    HoldsSynthOf s ((bodyChannel N t).andThen bodySlice).state where
  len := by
    unfold Result.andThen
    cases (bodyChannel N t).error with
    | none => rw [bodySlice_sampLen, bodyChannel_sampLen, h.len]
    | some e => rw [raise_state, bodyChannel_sampLen, h.len]
  tx := by
    have other {i : Instr} (hi : i ≠ .synth) (r : Region) (hr : writer r = some i) : r ≠ .tx := by
      rintro rfl
      exact hi (Option.some.inj hr).symm
    have hprod : Produces (· ≠ .tx) t ((bodyChannel N t).andThen bodySlice).state :=
      ((bodyChannel_produces hm hv).mono (other (by decide))).andThen hm fun u hm hv =>
        (bodySlice_produces hm hv).mono (other (by decide))
    exact h.tx.keep hprod.stores hm (not_not.mpr rfl) hcap

section
variable {s : State} {c : Scheme} (h : RunPasses s c) (hm : s.MemInv) (hv : s.ValidInv)
include h hm hv

/-- In a RUN the symbols SYNTH reads are those MAP has just written. -/
theorem afterMap_symbolsArePoints (N : Numerics) : SymbolsArePoints (s.afterMap N) := by
  have hgen := bodyGenBits_produces (N := N) hm hv
  obtain ⟨-, hi, hq⟩ := bodyMap_writes (hgen.memInv hm) hgen.valid (afterGenBits_scheme h)
    (afterGenBits_bitsV h)
  intro j hj
  rw [afterMap_symLen h, ← afterGenBits_bitsLen (N := N) h] at hj
  exact ⟨c, _, hi.entry_eq hj, hq.entry_eq hj⟩

/-- The samples of a RUN are those of its SYNTH, which made the RUN's checks (R317). -/
theorem waveBounded_run :
    WaveBounded s.cfg.fs s.cfg.fc (complete (bodyRun Config.numerics s)) := by
  have hgen := bodyGenBits_produces (N := Config.numerics) hm hv
  have hmap := bodyMap_produces (hgen.memInv hm) hgen.valid
  have hm' := hmap.memInv (hgen.memInv hm)
  have hsynth := bodySynth_produces (N := Config.numerics) hm' hmap.valid
  have hs := afterMap_symV (N := Config.numerics) h
  have hc := afterMap_check (N := Config.numerics) h
  have hholds := (bodySynth_holds hm' hmap.valid hs hc).channel_slice (hsynth.memInv hm')
    hsynth.valid (by rw [hsynth.params]; exact synthLen_le hmap.valid hs hc) Config.numerics
  rw [bodyRun_eq h, ← (afterMap_frame Config.numerics s).cfg]
  exact waveBounded_of_holds hm' hmap.valid hs hc (afterMap_symbolsArePoints h hm hv _)
    hholds.complete

end

/-- Settles O28: SYNTH's own checks and symbols bound what it leaves, and a RUN transmits what the
SYNTH inside it leaves. -/
theorem transmittedSamplesAreBounded : Obligations.TransmittedSamplesAreBounded := by
  refine ⟨fun c g x hx => boundedBy_modulate c g hx, fun i s t hinv hpass ht hcase => ?_⟩
  rw [exec_eq] at ht
  cases ht
  obtain ⟨rfl, hpoints⟩ | rfl := hcase
  · obtain ⟨hs, hc⟩ := passes_synth_iff.mp hpass
    exact waveBounded_of_holds hinv.mem hinv.valid hs hc hpoints
      (bodySynth_holds hinv.mem hinv.valid hs hc).complete
  · obtain ⟨c, h⟩ := runPasses_of_passes hpass
    exact waveBounded_run h hinv.mem hinv.valid

end Sys2Proof.Machine
end

section
/-! PROOF. Zeros through the arithmetic (00_scope.md R23, R24): sums, products with a finite number,
quotients by a non-zero finite number and variances of zeros are zeros. -/

namespace Sys2Proof

theorem F64.exists_eq_pack_zero {a : F64} (h : F64.isZero a = true) : ∃ i, a = F64.pack i 0 := by
  have hmag : F64.mag a = 0 := of_decide_eq_true h
  exact ⟨F64.neg? a, by rw [← hmag, F64.pack_neg_mag]⟩

/-- A zero of either sign is equal to +0.0 (R25). -/
theorem F64.eq_zero_of_isZero {a : F64} (h : F64.isZero a = true) :
    F64.eq a F64.zero = true := by
  obtain ⟨i, rfl⟩ := F64.exists_eq_pack_zero h
  cases i <;> decide

section
variable {a b : F64} (ha : F64.isZero a = true)
include ha

theorem F64.isZero_add (hb : F64.isZero b = true) : F64.isZero (F64.add a b) = true := by
  obtain ⟨i, rfl⟩ := F64.exists_eq_pack_zero ha
  obtain ⟨j, rfl⟩ := F64.exists_eq_pack_zero hb
  rw [F64.add_zero_zero, F64.isZero_pack_zero]

theorem F64.isZero_sub (hb : F64.isZero b = true) : F64.isZero (F64.sub a b) = true := by
  obtain ⟨i, rfl⟩ := F64.exists_eq_pack_zero ha
  obtain ⟨j, rfl⟩ := F64.exists_eq_pack_zero hb
  rw [F64.sub_zero_zero, F64.isZero_pack_zero]

theorem F64.isZero_mul (hb : F64.isFinite b = true) : F64.isZero (F64.mul a b) = true := by
  obtain ⟨i, rfl⟩ := F64.exists_eq_pack_zero ha
  rw [F64.mul_zero_left hb, F64.isZero_pack_zero]

theorem F64.isZero_div (hb : F64.isFinite b = true) (hz : F64.isZero b = false) :
    F64.isZero (F64.div a b) = true := by
  obtain ⟨i, rfl⟩ := F64.exists_eq_pack_zero ha
  rw [F64.div_zero_left hb i hz, F64.isZero_pack_zero]

theorem F64.isZero_sqrt : F64.isZero (F64.sqrt a) = true := by
  obtain ⟨i, rfl⟩ := F64.exists_eq_pack_zero ha
  rw [F64.sqrt_zero, F64.isZero_pack_zero]

end

theorem F64.isZero_sum {x : Nat → F64} {n : Nat} (h : ∀ i, i < n → F64.isZero (x i) = true) :
    F64.isZero (F64.sum n x) = true := by
  induction n with
  | zero => rfl
  | succ n ih =>
    rw [F64.sum_succ]
    exact F64.isZero_add (ih fun i hi => h i (by omega)) (h n (by omega))

theorem F64.ofNat_finite_ne_zero {n : Nat} (hpos : 1 ≤ n) (hn : n ≤ 2 ^ 53) :
    F64.isFinite (F64.ofNat n) = true ∧ F64.isZero (F64.ofNat n) = false := by
  obtain ⟨hf, hval⟩ := F64.ofInt_exact (n := n) (by omega)
  rw [F64.ofNat_eq_ofInt]
  refine ⟨hf, Bool.eq_false_iff.mpr fun hz => ?_⟩
  rw [toRat_of_isZero hz] at hval
  have : n = 0 := by exact_mod_cast hval.symm
  omega

/-- The variance of at least one and at most `2 ^ 53` zeros (R233): both means divide a zero by a
finite number that is none. -/
theorem Machine.isZero_variance {x : Nat → F64} {n : Nat} (hpos : 1 ≤ n) (hn : n ≤ 2 ^ 53)
    (h : ∀ i, i < n → F64.isZero (x i) = true) : F64.isZero (Machine.variance x n) = true := by
  obtain ⟨hf, hz⟩ := F64.ofNat_finite_ne_zero hpos hn
  have hmean : F64.isZero (F64.div (F64.sum n x) (F64.ofNat n)) = true :=
    F64.isZero_div (F64.isZero_sum h) hf hz
  refine F64.isZero_div (F64.isZero_sum fun i hi => ?_) hf hz
  have hdiff := F64.isZero_sub (h i hi) hmean
  exact F64.isZero_mul hdiff (isZero_finite hdiff)

end Sys2Proof
end

section
/-! PROOF. CHANNEL (43_channel.md R231 to R240): what a CHANNEL that passes its checks leaves, and
what it reports of a zero noise power. -/

namespace Sys2Proof.Machine

open Sys2Proof.Claims

theorem passes_channel_iff {s : State} : Passes .channel s ↔
    s.status.waveV = true ∧ checkNoise s.noiseMode s.cfg.noiseLevel = none := by
  rw [← checkError_eq_none_iff, checkError]
  cases s.status.waveV with
  | false => exact iff_of_false nofun nofun
  | true => exact ⟨fun h => ⟨rfl, h⟩, And.right⟩

/-- After a body with its frame, completion has changed nothing more than `pending` (R313). -/
theorem complete_eq_of_sameFrame {s : State} {r : Result} (h : SameFrame s r.state) :
    complete r = { s with
      mem := (complete r).mem, pending := none, res := (complete r).res
      status := (complete r).status } := by
  rw [SameFrame] at h
  obtain ⟨-, hr⟩ | ⟨e, -, hr⟩ := complete_cases r
  · rw [hr, h]; rfl
  · rw [hr, h]; rfl

/-! ### The SNR report (R239, R240) -/

/-- What the SNR report of two variances leaves in STATUS and SNR_MEAS after completion, from the
flags before it: the strict error of a zero noise variance, else that of a zero signal variance,
else the SNR (R239, R240). -/
def SnrReported (N : Numerics) (vtx vn : F64) (strict : Bool) (flags : Status) (t : State) : Prop :=
  if strict = true ∧ F64.eq vn F64.zero = true then
    t.status = doneErr 3 0x30 flags ∧ t.res.snrMeas = F64.qnan
  else if strict = true ∧ F64.eq vtx F64.zero = true then
    t.status = doneErr 3 0x31 flags ∧ t.res.snrMeas = F64.qnan
  else t.status = doneOk flags ∧ t.res.snrMeas = snrDb N vtx vn

section
variable (N : Numerics) (vtx vn : F64) (strict : Bool) (s : State)

theorem snrReported_complete :
    SnrReported N vtx vn strict s.status (complete (reportSnr N vtx vn strict s)) := by
  unfold SnrReported reportSnr
  simp only [Bool.and_eq_true]
  split
  · exact ⟨rfl, rfl⟩
  · split
    · exact ⟨rfl, rfl⟩
    · exact ⟨rfl, rfl⟩

theorem complete_reportSnr_mem : (complete (reportSnr N vtx vn strict s)).mem = s.mem := by
  rw [complete_mem, reportSnr_mem]

theorem complete_reportSnr_res : (complete (reportSnr N vtx vn strict s)).res =
    { s.res with snrMeas := (complete (reportSnr N vtx vn strict s)).res.snrMeas } := by
  obtain ⟨snr, h⟩ := reportSnr_res (N := N) (s := s) vtx vn strict
  rw [complete_res, h]

end

section
variable {N : Numerics} {vtx vn : F64} {strict : Bool} {flags : Status} {t : State}
  (h : SnrReported N vtx vn strict flags t) (hvn : F64.eq vn F64.zero = true)
include h hvn

/-- A zero noise variance is an infinite SNR (R239). -/
theorem SnrReported.posInf (hs : strict = false) :
    t.status = doneOk flags ∧ t.res.snrMeas = F64.posInf := by
  rw [SnrReported, if_neg (by simp [hs]), if_neg (by simp [hs]), snrDb, if_pos hvn] at h
  exact h

/-- A zero noise variance is the first of the strict errors (R240). -/
theorem SnrReported.strictNoise (hs : strict = true) :
    t.status = doneErr 3 0x30 flags ∧ t.res.snrMeas = F64.qnan := by
  rw [SnrReported, if_pos ⟨hs, hvn⟩] at h
  exact h

end

/-! ### A CHANNEL whose checks pass -/

/-- VAR_TX (R231, R233). -/
def State.txVariance (s : State) : F64 := variance (s.entry .tx) s.res.sampLen.toNat

/-- The noise power Pn of a CHANNEL (R234). -/
def State.channelPower (N : Numerics) (s : State) : F64 :=
  noisePower N s.noiseMode s.cfg.noiseLevel s.txVariance

/-- VAR_NOISE (R238). -/
def State.noiseVariance (N : Numerics) (s : State) : F64 :=
  variance (noiseSample N (s.channelPower N) s.cfg.seed) s.res.sampLen.toNat

/-- The block after CHANNEL, its report made and completed (R231). -/
def State.afterChannel (N : Numerics) (s : State) : State :=
  complete (reportSnr N s.txVariance (s.noiseVariance N) s.strictSnr
    (channelWrites N s.txVariance (s.channelPower N) s))

/-- CHANNEL changes no byte outside the samples it writes. -/
theorem channelWrites_onlyStored {s : State} (hm : Memory.wf s.mem) (N : Numerics) (vtx pn : F64) :
    let len := s.res.sampLen.toNat
    OnlyStored s (channelWrites N vtx pn s)
      [(.noise, len), (.rx, len), (.demodI, len), (.demodQ, len)] :=
  onlyStored_fillAll hm [⟨.noise, _, _⟩, ⟨.rx, _, _⟩, ⟨.demodI, _, _⟩, ⟨.demodQ, _, _⟩]

section
variable (N : Numerics) (s : State)

/-- Completion keeps what the writes left in memory. -/
theorem afterChannel_mem : (s.afterChannel N).mem =
    (channelWrites N s.txVariance (s.channelPower N) s).mem := complete_reportSnr_mem ..

theorem afterChannel_res : (s.afterChannel N).res =
    { s.res with
      noisePwr := s.channelPower N, varTx := s.txVariance, varNoise := s.noiseVariance N
      snrMeas := (s.afterChannel N).res.snrMeas } := complete_reportSnr_res ..

theorem afterChannel_snr : SnrReported N s.txVariance (s.noiseVariance N) s.strictSnr
    s.status.validChannel (s.afterChannel N) := snrReported_complete ..

theorem afterChannel_eq : s.afterChannel N = { s with
    mem := (s.afterChannel N).mem, pending := none, res := (s.afterChannel N).res
    status := (s.afterChannel N).status } :=
  complete_eq_of_sameFrame ((channelWrites_frame N s _ _).trans (reportSnr_frame N _ _ _ _))

end

section
variable {s : State} (hw : s.status.waveV = true)
include hw

theorem exec_channel_eq (hc : checkNoise s.noiseMode s.cfg.noiseLevel = none) :
    exec .channel s = .next (s.afterChannel Config.numerics) := by
  rw [exec_eq, bodyOf, bodyChannel_ok hw hc]
  rfl

/-- The four windows after CHANNEL (R235 to R237). -/
theorem afterChannel_holds (hinv : s.Inv) (N : Numerics) :
    let t := s.afterChannel N
    let len := s.res.sampLen.toNat
    let w := noiseSample N (s.channelPower N) s.cfg.seed
    let r := fun n => F64.add (s.entry .tx n) (w n)
    Holds t .noise len w ∧ Holds t .rx len r ∧
      Holds t .demodI len (fun n => F64.mul (r n) (s.entry .carI n)) ∧
      Holds t .demodQ len (fun n => F64.mul (r n) (s.entry .carQ n)) := by
  simp only [Holds, afterChannel_mem]
  exact (channelWrites_writes hinv.mem hinv.valid hw _ _).2

end

/-- Settles O29: CHANNEL's four windows, its registers, its frame, and its report. -/
theorem channelResult : Obligations.ChannelResult := by
  intro s hinv hpass
  obtain ⟨hw, hc⟩ := passes_channel_iff.mp hpass
  obtain ⟨hnoise, hrx, hI, hQ⟩ := afterChannel_holds hw hinv Config.numerics
  refine ⟨_, exec_channel_eq hw hc, hnoise, hrx, hI, hQ, fun a ha => ?_, afterChannel_res _ s,
    afterChannel_eq _ s, afterChannel_snr _ s⟩
  rw [afterChannel_mem]
  exact channelWrites_onlyStored hinv.mem.canonical _ _ _ a ha

/-! ### A zero noise power -/

theorem checkNoise_of_isZero {x : F64} (h : F64.isZero x = true) : checkNoise false x = none := by
  obtain ⟨i, rfl⟩ := F64.exists_eq_pack_zero h
  cases i <;> decide

/-- A zero noise power gives zero noise, since every random sample is finite (R230, R235). -/
theorem isZero_noiseSample {pn : F64} (h : F64.isZero pn = true) (seed : Word) (n : Nat) :
    F64.isZero (noiseSample Config.numerics pn seed n) = true :=
  F64.isZero_mul (F64.isZero_sqrt h) (numerics_gauss_finite seed n)

/-- At least one sample, and no more than the windows hold (R172, R201, R233). -/
theorem sampLen_bounds {s : State} (hinv : s.Inv) (hw : s.status.waveV = true) :
    1 ≤ s.res.sampLen.toNat ∧ s.res.sampLen.toNat ≤ 131072 := by
  obtain ⟨-, -, -, hcap, -⟩ := legal_bounds hinv.mem.legal
  obtain ⟨hsym, hsps, -, hlen, -⟩ := hinv.valid.wave hw
  obtain ⟨hbits, hsymLen, -⟩ := hinv.valid.sym hsym
  obtain ⟨hpos, -⟩ := hinv.valid.bits hbits
  have hsymbols : 0 < s.res.symLen.toNat := by
    have hcover := (symbolCount_bits s.res.latScheme s.res.bitsLen.toNat).1
    rw [← hsymLen] at hcover
    exact Nat.pos_of_mul_pos_right (hpos.trans hcover)
  refine ⟨?_, (sampLen_le hinv.valid hw).trans hcap⟩
  rw [hlen]
  exact Nat.mul_pos hsymbols hsps

/-- Settles O30: zero noise has zero variance, which decides the report. -/
theorem noiselessChannelReportsInfinity : Obligations.NoiselessChannelReportsInfinity := by
  intro s t hinv hw hmode hlevel hexec
  have hmode : s.noiseMode = false := hmode
  have hpower : s.channelPower Config.numerics = s.cfg.noiseLevel := by
    rw [State.channelPower, noisePower, hmode, if_neg Bool.false_ne_true]
  have hzero (n : Nat) : F64.isZero
      (noiseSample Config.numerics (s.channelPower Config.numerics) s.cfg.seed n) = true :=
    isZero_noiseSample (hpower ▸ hlevel) _ n
  rw [exec_channel_eq hw (hmode ▸ checkNoise_of_isZero hlevel)] at hexec
  cases hexec
  obtain ⟨hpos, hmax⟩ := sampLen_bounds hinv hw
  have hvar : F64.eq (s.noiseVariance Config.numerics) F64.zero = true :=
    F64.eq_zero_of_isZero (isZero_variance hpos (by omega) fun n _ => hzero n)
  obtain ⟨hnoise, -⟩ := afterChannel_holds hw hinv Config.numerics
  have hsnr := afterChannel_snr Config.numerics s
  refine ⟨?_, fun n hn => ?_, fun hs => ?_, fun hs => ?_⟩
  · rw [afterChannel_res]
    exact hvar
  · rw [hnoise.entry_eq hn]
    exact hzero n
  · obtain ⟨hstatus, hmeas⟩ := hsnr.posInf hvar hs
    exact ⟨hmeas, by rw [hstatus]; rfl⟩
  · obtain ⟨hstatus, hmeas⟩ := hsnr.strictNoise hvar hs
    exact ⟨hmeas, by rw [hstatus]; rfl, by rw [hstatus]; rfl⟩

end Sys2Proof.Machine
end

section
/-! PROOF. Decisions (44_slicer.md R265): the level of an estimate against the thresholds of its
axis. -/

namespace Sys2Proof.Machine

/-- Where a predicate holds of every number below one it holds of, the numbers it counts are those
below the count. -/
theorem lt_countP_range_iff {p : Nat → Bool} (hp : ∀ i j, i ≤ j → p j = true → p i = true)
    (i n : Nat) : i < (List.range n).countP p ↔ i < n ∧ p i = true := by
  induction n with
  | zero => simp
  | succ n ih =>
    cases hn : p n with
    | false =>
      have hne (h : p i = true) : i ≠ n := by
        rintro rfl
        exact absurd h (Bool.eq_false_iff.mp hn)
      rw [countP_range_succ, hn, Bool.toNat_false, Nat.add_zero, ih]
      exact and_congr_left fun h => by have := hne h; omega
    | true =>
      have hall : ∀ j ∈ List.range (n + 1), p j = true := fun j hj =>
        hp j n (Nat.le_of_lt_succ (List.mem_range.mp hj)) hn
      rw [List.countP_eq_length.mpr hall, List.length_range]
      exact ⟨fun h => ⟨h, hall i (List.mem_range.mpr h)⟩, And.left⟩

theorem levels_bounds (c : Scheme) : 1 ≤ c.levels ∧ c.levels ≤ 8 := by cases c <;> decide

/-- The number an estimate denotes lies above threshold `i` of an axis (R265). -/
def aboveThreshold (v : F64) (levels i : Nat) : Bool :=
  decide ((2 * (i : ℚ) - levels : ℚ) < F64.toRat v)

/-- The thresholds of an axis are exact, so a finite estimate is compared with their values. -/
theorem threshold_lt_iff {v : F64} (hv : F64.isFinite v = true) {levels i : Nat}
    (hlevels : levels ≤ 8) (hi : i < levels) :
    F64.lt (F64.ofInt (2 * i - levels)) v = true ↔ aboveThreshold v levels i = true := by
  obtain ⟨hf, hval⟩ := F64.ofInt_exact (n := 2 * (i : ℤ) - levels) (by omega)
  rw [F64.lt_iff hf hv, hval, aboveThreshold, decide_eq_true_iff]
  push_cast
  rfl

theorem aboveThreshold_of_le {v : F64} {levels i j : Nat} (hij : i ≤ j)
    (h : aboveThreshold v levels j = true) : aboveThreshold v levels i = true := by
  rw [aboveThreshold, decide_eq_true_iff] at h ⊢
  refine lt_of_le_of_lt ?_ h
  gcongr

theorem level_lt {levels : Nat} (hlevels : 1 ≤ levels) (v : F64) : level v levels < levels := by
  have hcount : level v levels ≤ levels - 1 := List.countP_le_length.trans_eq List.length_range
  omega

/-- The level of a finite estimate is `i` or above exactly when the estimate is above threshold `i`,
since the thresholds rise (R265). -/
theorem le_level_iff {v : F64} (hv : F64.isFinite v = true) {levels i : Nat}
    (hlevels : levels ≤ 8) (hpos : 1 ≤ i) (hi : i < levels) :
    i ≤ level v levels ↔ aboveThreshold v levels i = true := by
  have hcount : level v levels
      = (List.range (levels - 1)).countP (fun k => aboveThreshold v levels (k + 1)) :=
    List.countP_congr fun k hk => by
      rw [List.mem_range] at hk
      exact threshold_lt_iff hv hlevels (by omega)
  have hdown (k l : Nat) (hkl : k ≤ l) (h : aboveThreshold v levels (l + 1) = true) :
      aboveThreshold v levels (k + 1) = true := aboveThreshold_of_le (Nat.succ_le_succ hkl) h
  obtain ⟨k, rfl⟩ : ∃ k, i = k + 1 := ⟨i - 1, by omega⟩
  rw [hcount, Nat.succ_le_iff, lt_countP_range_iff hdown]
  exact and_iff_right (by omega)

theorem level_of_isNaN {v : F64} (hv : F64.isNaN v = true) (levels : Nat) : level v levels = 0 :=
  List.countP_eq_zero.mpr fun _ _ => by
    rw [F64.lt_of_isNaN (.inr hv)]
    exact Bool.false_ne_true

/-- Settles O32: the level counts the thresholds below the estimate. -/
theorem decisionThresholds : Obligations.DecisionThresholds := by
  intro c a
  obtain ⟨hpos, hmax⟩ := levels_bounds c
  have hinf : level F64.posInf a = a - 1 ∧ level F64.negInf a = 0 := by cases c <;> decide
  refine ⟨level_lt hpos, fun v i hv hlo hi => ?_, fun v hv => level_of_isNaN hv a, hinf⟩
  rw [le_level_iff hv hmax hlo hi, aboveThreshold, decide_eq_true_iff]

end Sys2Proof.Machine
end

section
/-! PROOF. Signs through the arithmetic (00_scope.md R23, R24): rounding to nearest with ties to
even gives one number and is symmetric, so signed copies stay signed copies under ⊕, ⊗ and sums. -/

namespace Sys2Proof

open Sys2Proof.Claims

theorem F64.isZero_iff_toRat (f : F64) : F64.isZero f = true ↔ F64.toRat f = 0 := by
  rw [F64.isZero_iff_key, ← toRat_zero, F64.toRat_eq_iff, show F64.key F64.zero = 0 by decide]

/-- The parity of a pattern's magnitude is that of its order key. -/
theorem F64.mag_mod_two_eq_zero_iff (f : F64) : F64.mag f % 2 = 0 ↔ F64.key f % 2 = 0 := by
  unfold F64.key
  split <;> omega

/-- A finite pattern lies strictly between two whose keys are two or more apart. -/
theorem exists_finite_between {f g : F64} (hf : F64.isFinite f = true) (hg : F64.isFinite g = true)
    (h : F64.key f + 2 ≤ F64.key g) :
    ∃ m : F64, F64.isFinite m = true ∧ F64.toRat f < F64.toRat m ∧ F64.toRat m < F64.toRat g := by
  rw [finite_iff_key] at hf hg
  have hm : (F64.key f + 1).natAbs < F64.infMag := by omega
  refine ⟨ofKey (F64.key f + 1), finite_ofKey hm, ?_, ?_⟩
  · rw [F64.toRat_lt_iff, key_ofKey hm.le]
    omega
  · rw [F64.toRat_lt_iff, key_ofKey hm.le]
    omega

section
variable {f g : F64} {x : ℝ}

/-- Two results of one rounding are not different numbers: they would be equally far from `x`, both
of them even, and a pattern between them closer. -/
theorem Claims.CorrectlyRounded.toRat_le (h : CorrectlyRounded f x) (h' : CorrectlyRounded g x)
    (hx : |x| < overflowAt) : F64.toRat g ≤ F64.toRat f := by
  obtain ⟨hf, hclose⟩ := h.nearest hx
  obtain ⟨hg, hclose'⟩ := h'.nearest hx
  by_contra hlt
  rw [not_le] at hlt
  have hdist := le_antisymm (hclose g hg).1 (hclose' f hf).1
  have hevenF := ((hclose g hg).2 hdist).resolve_left hlt.ne'
  have hevenG := ((hclose' f hf).2 hdist.symm).resolve_left hlt.ne
  rw [F64.mag_mod_two_eq_zero_iff] at hevenF hevenG
  have hkey := (F64.toRat_lt_iff f g).mp hlt
  obtain ⟨m, hm, hfm, hmg⟩ := exists_finite_between hf hg (by omega)
  have hmid := (hclose m hm).1
  have hfm' : (F64.toRat f : ℝ) < F64.toRat m := by exact_mod_cast hfm
  have hmg' : (F64.toRat m : ℝ) < F64.toRat g := by exact_mod_cast hmg
  obtain heq | hmidpoint := abs_eq_abs.mp hdist
  · linarith
  · rw [abs_of_neg (show (F64.toRat f : ℝ) - x < 0 by linarith)] at hmid
    have hcloser : |(F64.toRat m : ℝ) - x| < -((F64.toRat f : ℝ) - x) :=
      abs_lt.mpr ⟨by linarith, by linarith⟩
    exact absurd hmid (not_le.mpr hcloser)

theorem Claims.CorrectlyRounded.toRat_unique (h : CorrectlyRounded f x) (h' : CorrectlyRounded g x)
    (hx : |x| < overflowAt) : F64.toRat f = F64.toRat g :=
  le_antisymm (h'.toRat_le h hx) (h.toRat_le h' hx)

/-- A finite number rounds to itself. -/
theorem F64.correctlyRounded_self (hf : F64.isFinite f = true) :
    CorrectlyRounded f (F64.toRat f) where
  nearest _ := ⟨hf, fun g _ => by
    rw [sub_self, abs_zero]
    refine ⟨abs_nonneg _, fun h => .inl ?_⟩
    exact_mod_cast sub_eq_zero.mp (abs_eq_zero.mp h.symm)⟩
  overflow hbig := absurd (abs_toRat_lt_overflowAt hf) (not_lt.mpr hbig)
  sign hne := by
    have hkey : F64.key f ≠ 0 := fun h0 =>
      hne (by rw [(F64.isZero_iff_toRat f).mp ((F64.isZero_iff_key f).mpr h0), Rat.cast_zero])
    rw [Rat.cast_lt_zero, ← toRat_zero, F64.toRat_lt_iff, show F64.key F64.zero = 0 by decide]
    cases hs : F64.neg? f with
    | false => exact iff_of_false Bool.false_ne_true (key_nonneg_of_sign hs).not_gt
    | true =>
      rw [F64.key, hs, if_pos rfl] at hkey ⊢
      exact iff_of_true rfl (by omega)

end

/-- `g` is `f` with the sign bit `i` applied, as finite numbers. -/
structure F64.SignedCopy (i : Bool) (f g : F64) : Prop where
  finite : F64.isFinite f = true
  finite_copy : F64.isFinite g = true
  value : (F64.toRat g : ℝ) = signOf i * F64.toRat f

section
variable {i : Bool} {f g c : F64}

theorem abs_signOf_mul (i : Bool) (x : ℝ) : |signOf i * x| = |x| := by
  cases i <;> simp

/-- Rounding is symmetric: the results for a number and its negation are copies. -/
theorem F64.SignedCopy.of_correct {x : ℝ} (hf : CorrectlyRounded f x)
    (hg : CorrectlyRounded g (signOf i * x)) (hfin : F64.isFinite f = true) :
    F64.SignedCopy i f g := by
  have hx : |x| < overflowAt := hf.abs_lt_overflowAt hfin
  have hx' : |signOf i * x| < overflowAt := by rwa [abs_signOf_mul]
  refine ⟨hfin, (hg.nearest hx').1, ?_⟩
  cases i with
  | false =>
    rw [signOf_false, one_mul] at hg ⊢
    rw [hg.toRat_unique hf hx]
  | true =>
    rw [signOf_true, neg_one_mul] at hg hx' ⊢
    obtain rfl | hne := eq_or_ne x 0
    · have hzero := correctlyRounded_of_isZero (f := F64.zero) rfl
      rw [neg_zero] at hg
      rw [hf.toRat_unique hzero hx, hg.toRat_unique hzero hx, toRat_zero, Rat.cast_zero, neg_zero]
    · rw [hg.toRat_unique (hf.neg hne) hx', F64.toRat_neg, Rat.cast_neg]

/-- A number that is not zero has one copy of each sign. -/
theorem F64.SignedCopy.unique {g' : F64} (h : F64.SignedCopy i f g) (h' : F64.SignedCopy i f g')
    (hz : F64.isZero f = false) : g = g' := by
  have hval : F64.toRat g = F64.toRat g' := by exact_mod_cast h.value.trans h'.value.symm
  refine F64.eq_of_key ((F64.toRat_eq_iff g g').mp hval) fun h0 => ?_
  have hg : F64.toRat g = 0 := (F64.isZero_iff_toRat g).mp ((F64.isZero_iff_key g).mpr h0)
  have hf : (F64.toRat f : ℝ) = 0 := by
    rw [← abs_eq_zero, ← abs_signOf_mul i, ← h.value, hg, Rat.cast_zero, abs_zero]
  exact Bool.eq_false_iff.mp hz ((F64.isZero_iff_toRat f).mpr (by exact_mod_cast hf))

/-- The copies of 1.0 carry their sign to a product. -/
theorem F64.SignedCopy.one_mul (h : F64.SignedCopy i F64.one g) (hc : F64.isFinite c = true) :
    F64.SignedCopy i c (F64.mul g c) := by
  have hmul := F64.mul_correct h.finite_copy hc
  rw [h.value, toRat_one, Rat.cast_one, mul_one] at hmul
  exact .of_correct (F64.correctlyRounded_self hc) hmul hc

theorem F64.SignedCopy.mul (h : F64.SignedCopy i f g) (hc : F64.isFinite c = true)
    (hfin : F64.isFinite (F64.mul f c) = true) :
    F64.SignedCopy i (F64.mul f c) (F64.mul g c) := by
  have hmul := F64.mul_correct h.finite_copy hc
  rw [h.value, mul_assoc] at hmul
  exact .of_correct (F64.mul_correct h.finite hc) hmul hfin

theorem F64.SignedCopy.add {f' g' : F64} (h : F64.SignedCopy i f g) (h' : F64.SignedCopy i f' g')
    (hfin : F64.isFinite (F64.add f f') = true) :
    F64.SignedCopy i (F64.add f f') (F64.add g g') := by
  have hadd := F64.add_correct h.finite_copy h'.finite_copy
  rw [h.value, h'.value, ← mul_add] at hadd
  exact .of_correct (F64.add_correct h.finite h'.finite) hadd hfin

/-- A zero of either sign changes no number it is added to. -/
theorem F64.SignedCopy.add_isZero {z : F64} (h : F64.SignedCopy i f g) (hz : F64.isZero z = true) :
    F64.SignedCopy i f (F64.add g z) := by
  have hadd := F64.add_correct h.finite_copy (isZero_finite hz)
  rw [toRat_of_isZero hz, Rat.cast_zero, add_zero, h.value] at hadd
  exact .of_correct (F64.correctlyRounded_self h.finite) hadd h.finite

theorem F64.SignedCopy.sum {x y : ℕ → F64} {n : ℕ}
    (h : ∀ k, k < n → F64.SignedCopy i (x k) (y k))
    (hfin : ∀ k, k ≤ n → F64.isFinite (F64.sum k x) = true) :
    F64.SignedCopy i (F64.sum n x) (F64.sum n y) := by
  induction n with
  | zero =>
    exact ⟨rfl, rfl, by rw [F64.sum_zero, F64.sum_zero, toRat_zero, Rat.cast_zero, mul_zero]⟩
  | succ n ih =>
    have hprev := ih (fun k hk => h k (by omega)) fun k hk => hfin k (by omega)
    have hnext := hfin (n + 1) le_rfl
    rw [F64.sum_succ] at hnext
    rw [F64.sum_succ, F64.sum_succ]
    exact hprev.add (h n (by omega)) hnext

/-- The quotient of a copy by the number itself is the copy of 1.0. -/
theorem F64.SignedCopy.div_original (h : F64.SignedCopy i f g) (hpos : F64.lt F64.zero f = true) :
    F64.SignedCopy i F64.one (F64.div g f) := by
  have hdiv := F64.div_correct h.finite_copy h.finite (F64.isZero_of_pos hpos)
  rw [h.value, mul_div_assoc, div_self (F64.toRat_pos_of_pos hpos).ne'] at hdiv
  have hone := F64.correctlyRounded_self one_finite
  rw [toRat_one, Rat.cast_one] at hone
  exact .of_correct hone hdiv one_finite

end

/-- A sum of numbers of magnitude at most `b` stays finite while its bound has at most 53 bits. -/
theorem F64.BoundedBy.sum {x : ℕ → F64} {b n : ℕ} (h : ∀ k, k < n → F64.BoundedBy (x k) b)
    (hn : n * b ≤ 2 ^ 53) : F64.BoundedBy (F64.sum n x) (n * b) := by
  induction n with
  | zero => exact ⟨rfl, by rw [F64.sum_zero, toRat_zero, Nat.zero_mul, Nat.cast_zero, abs_zero]⟩
  | succ n ih =>
    rw [Nat.succ_mul] at hn ⊢
    rw [F64.sum_succ]
    exact (ih (fun k hk => h k (by omega)) (by omega)).add (h n (by omega)) hn

end Sys2Proof
end

section
/-! PROOF. SLICE (44_slicer.md R260 to R267): the estimates and bits a SLICE leaves, and what it
counts. -/

namespace Sys2Proof.Machine

open Sys2Proof.Claims

theorem mul_add_lt_mul {j n k t : Nat} (hj : j < n) (ht : t < k) : j * k + t < n * k :=
  calc j * k + t < (j + 1) * k := by rw [Nat.succ_mul]; omega
    _ ≤ n * k := Nat.mul_le_mul_right k hj

/-! ### Entries and bits that stay, and bits that were packed -/

section
variable {s t : State} {ws : Region → Prop}

/-- A written entry of a window that is not stored to stays. -/
theorem Stores.entry_eq (h : Stores s.params ws s.mem t.mem) (hm : s.MemInv) {r : Region}
    (hr : ¬ ws r) {j : Nat} (hj : j < r.capacity s.params) (hw : s.written r j = true) :
    t.entry r j = s.entry r j := by
  obtain ⟨v, hv⟩ := Option.isSome_iff_exists.mp hw
  rw [State.entry, State.entry, h.readWord_eq hm.legal hm.canonical hr hj, hv]

/-- Valid information bits stay where BITS is not stored to. -/
theorem Stores.bits_eq (h : Stores s.params ws s.mem t.mem) (hm : s.MemInv) (hv : s.ValidInv)
    (hr : ¬ ws .bits) (hb : s.status.bitsV = true) {i : Nat} (hi : i < s.res.bitsLen.toNat) :
    t.bit .bits i = s.bit .bits i := by
  obtain ⟨-, hmax, hfilled⟩ := hv.bits hb
  have hword : i / 64 < ceilDiv s.res.bitsLen.toNat 64 := by unfold ceilDiv; omega
  rw [State.bit, State.bit, h.entry_eq hm hr
    (hword.trans_le (bitWords_le_capacity hm.legal hmax)) (hfilled _ hword)]

/-- The bits of a packed buffer: those packed, and zeros up to the end of the last word (R17). -/
theorem bit_of_holds_packBits {r : Region} {n i : Nat} {b : Nat → Bool}
    (h : Holds t r (ceilDiv n 64) (packBits n b)) (hi : i < 64 * ceilDiv n 64) :
    t.bit r i = (decide (i < n) && b i) := by
  rw [State.bit, h.entry_eq (Nat.div_lt_of_lt_mul hi), packBits_bit, Nat.div_add_mod,
    decide_eq_true (Nat.mod_lt i (by norm_num)), Bool.true_and]

theorem lt_mul_ceilDiv {n i : Nat} (hi : i < n) : i < 64 * ceilDiv n 64 := by
  unfold ceilDiv; omega

end

/-! ### Estimates and decided bits -/

/-- The two estimators in one (R262, R263). -/
theorem estimateOf_eq (c : Scheme) (w : Window) :
    estimateOf c w =
      if c = .bpsk then
        if F64.lt F64.zero w.h11 then
          { x := F64.div w.ai w.h11, y := F64.zero, degenerate := false }
        else { x := F64.zero, y := F64.zero, degenerate := true }
      else if F64.lt F64.zero w.det ∧ F64.isFinite w.det then
        { x := F64.div (F64.sub (F64.mul w.h22 w.ai) (F64.mul w.h12 w.aq)) w.det
          y := F64.div (F64.sub (F64.mul w.h11 w.aq) (F64.mul w.h12 w.ai)) w.det
          degenerate := false }
      else { x := F64.zero, y := F64.zero, degenerate := true } := by
  cases c with
  | bpsk => rfl
  | qpsk | qam16 | qam64 => simp only [estimateOf, est2x2, Bool.and_eq_true]; rfl

/-- Bit `t` of symbol `j` (R266). -/
theorem recoveredBit_mul_add (s : State) (j : Nat) {t : Nat}
    (ht : t < s.res.latScheme.bitsPerSymbol) :
    recoveredBit s (j * s.res.latScheme.bitsPerSymbol + t)
      = decidedBit s.res.latScheme (estimate s j) t := by
  rw [recoveredBit, Nat.mul_comm, Nat.mul_add_div (by omega), Nat.mul_add_mod, Nat.div_eq_of_lt ht,
    Nat.mod_eq_of_lt ht, Nat.add_zero]

/-- The one bit of a BPSK symbol. -/
theorem recoveredBit_bpsk {s : State} (hc : s.res.latScheme = .bpsk) (j : Nat) :
    recoveredBit s j = decide (level (estimate s j).x 2 = 1) := by
  have h := recoveredBit_mul_add s j (t := 0) (by rw [hc]; decide)
  rwa [hc, Scheme.bitsPerSymbol, Nat.mul_one, Nat.add_zero] at h

section
variable {c : Scheme} (hc : c ≠ .bpsk) (e : Estimate) {t : Nat} (ht : t < c.halfBits)
include hc ht

/-- The first half of a symbol's bits are those of its I label (R266). -/
theorem decidedBit_first : decidedBit c e t = (axisLabel c e.x).testBit (c.halfBits - 1 - t) := by
  cases c with
  | bpsk => exact absurd rfl hc
  | qpsk | qam16 | qam64 => exact if_pos ht

/-- The second half of a symbol's bits are those of its Q label (R266). -/
theorem decidedBit_second :
    decidedBit c e (c.halfBits + t) = (axisLabel c e.y).testBit (c.halfBits - 1 - t) := by
  have hnot : ¬ c.halfBits + t < c.halfBits := by omega
  have hsub : c.halfBits + t - c.halfBits = t := Nat.add_sub_cancel_left ..
  cases c with
  | bpsk => exact absurd rfl hc
  | qpsk | qam16 | qam64 => exact (if_neg hnot).trans (by rw [hsub])

end

/-! ### A SLICE whose check passes -/

section
variable {s : State} (hv : s.ValidInv)
include hv

theorem bitsV_of_symV (hs : s.status.symV = true) : s.status.bitsV = true := (hv.sym hs).1

/-- Received samples are samples of valid symbols (R67). -/
theorem symV_of_rxV (hr : s.status.rxV = true) : s.status.symV = true := by
  obtain ⟨hw, -⟩ := hv.rx hr
  exact (hv.wave hw).1

end

section
variable {s : State} (hr : s.status.rxV = true)
include hr

/-- A SLICE that passes its check ends without an error (R313). -/
theorem exec_slice_ok : exec .slice s = .next (completeOk (bodySlice s).state) := by
  rw [exec_eq, bodyOf, bodySlice_ok hr, complete_ok, ok_state]

/-- SLICE changes no byte outside the entries it writes. -/
theorem bodySlice_onlyStored (hm : Memory.wf s.mem) :
    OnlyStored s (bodySlice s).state
      [(.estI, s.res.symLen.toNat), (.estQ, s.res.symLen.toNat),
        (.rxbits, ceilDiv (s.res.symLen.toNat * s.res.latScheme.bitsPerSymbol) 64)] := by
  rw [bodySlice_ok hr]
  exact onlyStored_fillAll hm [⟨.estI, _, _⟩, ⟨.estQ, _, _⟩, ⟨.rxbits, _, _⟩]

/-- The state after SLICE, but for what it stores: its registers and flags, and what stays. -/
theorem completeOk_bodySlice_eq :
    completeOk (bodySlice s).state = { s with
      mem := (bodySlice s).state.mem
      pending := none
      res := { s.res with errCnt := (bodySlice s).state.res.errCnt }
      status := doneOk (s.status.validSlice (anyDegenerate s)) } := by
  rw [bodySlice_ok hr]
  rfl

variable (hm : s.MemInv) (hv : s.ValidInv)
include hm hv

/-- RXBITS after SLICE: the recovered bits, zero-filled (R266). -/
theorem bodySlice_rxbits {i : Nat}
    (hi : i < 64 * ceilDiv (s.res.symLen.toNat * s.res.latScheme.bitsPerSymbol) 64) :
    (bodySlice s).state.bit .rxbits i
      = (decide (i < s.res.symLen.toNat * s.res.latScheme.bitsPerSymbol) && recoveredBit s i) := by
  obtain ⟨-, -, -, hbits⟩ := bodySlice_writes hm hv hr
  exact bit_of_holds_packBits hbits hi

theorem bodySlice_rxbits_of_lt {i : Nat}
    (hi : i < s.res.symLen.toNat * s.res.latScheme.bitsPerSymbol) :
    (bodySlice s).state.bit .rxbits i = recoveredBit s i := by
  rw [bodySlice_rxbits hr hm hv (lt_mul_ceilDiv hi), decide_eq_true hi, Bool.true_and]

/-- SLICE leaves the information bits. -/
theorem bodySlice_bits {i : Nat} (hi : i < s.res.bitsLen.toNat) :
    (bodySlice s).state.bit .bits i = s.bit .bits i := by
  obtain ⟨hstores, -⟩ := bodySlice_writes hm hv hr
  have hb : s.status.bitsV = true := bitsV_of_symV hv (symV_of_rxV hv hr)
  exact hstores.bits_eq hm hv (by decide) hb hi

omit hm in
/-- Every information bit is a bit of some symbol (R172). -/
theorem bitsLen_le_symbolBits :
    s.res.bitsLen.toNat ≤ s.res.symLen.toNat * s.res.latScheme.bitsPerSymbol := by
  rw [symLen_eq hv (symV_of_rxV hv hr)]
  exact (symbolCount_bits _ _).1

omit hm hv in
/-- ERRCNT is held exactly (R267). -/
theorem bodySlice_errCnt : (bodySlice s).state.res.errCnt.toNat = errorCount s := by
  have hcount : errorCount s ≤ s.res.bitsLen.toNat :=
    List.countP_le_length.trans_eq List.length_range
  rw [bodySlice_res hr]
  exact toNat_ofNat64 (hcount.trans_lt s.res.bitsLen.isLt)

/-- The errors counted are the information bits in which BITS and RXBITS differ after SLICE. -/
theorem errorCount_eq_countP :
    errorCount s = (List.range s.res.bitsLen.toNat).countP
      (fun i => (bodySlice s).state.bit .bits i != (bodySlice s).state.bit .rxbits i) := by
  refine List.countP_congr fun i hi => ?_
  rw [List.mem_range] at hi
  rw [bodySlice_bits hr hm hv hi,
    bodySlice_rxbits_of_lt hr hm hv (hi.trans_le (bitsLen_le_symbolBits hr hv))]

end

/-- Settles O31: SLICE's three windows, its error count, and its frame. -/
theorem sliceResult : Obligations.SliceResult := by
  intro s hinv hr count k sps sum ci cq h11 h22 h12 ai aq det est
  have hest : estimate s = est := funext fun j => estimateOf_eq _ (integrate s sps j)
  obtain ⟨-, hI, hQ, -⟩ := bodySlice_writes hinv.mem hinv.valid hr
  have hsymbol {j t : Nat} (hj : j < count) (ht : t < k) :
      (bodySlice s).state.bit .rxbits (j * k + t) = decidedBit s.res.latScheme (est j) t := by
    rw [bodySlice_rxbits_of_lt hr hinv.mem hinv.valid (mul_add_lt_mul hj ht),
      recoveredBit_mul_add s j ht, hest]
  rw [hest] at hI hQ
  refine ⟨_, exec_slice_ok hr, hI, hQ, fun hc j hj => ?_, fun hc j h hj hh => ?_,
    fun i hi hlt => ?_, bodySlice_onlyStored hr hinv.mem.canonical, ?_, ?_⟩
  · have hi : j < count * s.res.latScheme.bitsPerSymbol := by
      rwa [hc, Scheme.bitsPerSymbol, Nat.mul_one]
    rw [← hest, ← recoveredBit_bpsk hc]
    exact bodySlice_rxbits_of_lt hr hinv.mem hinv.valid hi
  · have hk : k = s.res.latScheme.halfBits + s.res.latScheme.halfBits :=
      bitsPerSymbol_eq_halfBits_add hc
    have hI := (hsymbol hj (by omega)).trans (decidedBit_first hc (est j) hh)
    have hQ := (hsymbol hj (by omega)).trans (decidedBit_second hc (est j) hh)
    rw [← Nat.add_assoc] at hQ
    exact ⟨hI, hQ⟩
  · have hbit := bodySlice_rxbits hr hinv.mem hinv.valid hlt
    rwa [decide_eq_false hi.not_gt, Bool.false_and] at hbit
  · exact (bodySlice_errCnt hr).trans (errorCount_eq_countP hr hinv.mem hinv.valid)
  · rw [← hest]
    exact completeOk_bodySlice_eq hr

end Sys2Proof.Machine
end

section
/-! PROOF. The noiseless round trip of BPSK (44_slicer.md R262, R268): each sample is a signed copy
of its carrier, so each window integrates to a signed copy of the carrier's energy, and the estimate
is the symbol. -/

namespace Sys2Proof.Machine

open Sys2Proof.Claims

/-! ### A BPSK symbol through the block -/

/-- The coordinate of a BPSK symbol (R175). -/
def bpskSymbol (b : Bool) : F64 := if b then F64.one else F64.negOne

theorem bpskSymbol_signedCopy (b : Bool) : F64.SignedCopy (!b) F64.one (bpskSymbol b) := by
  cases b with
  | false => exact ⟨one_finite, negOne_finite, by
      rw [bpskSymbol, if_neg Bool.false_ne_true, toRat_negOne, toRat_one]; norm_num⟩
  | true => exact ⟨one_finite, one_finite, by rw [bpskSymbol, if_pos rfl, toRat_one]; norm_num⟩

theorem point_bpsk (g : Nat → Bool) : point .bpsk g = (bpskSymbol (g 0), F64.zero) := rfl

/-- The symbols are BPSK's, symbol `j` that of bit `j` (R172). -/
structure BpskSymbols (s : State) : Prop where
  scheme : s.res.latScheme = .bpsk
  symI : ∀ j, j < s.res.symLen.toNat → s.entry .symI j = bpskSymbol (s.bit .bits j)
  symQ : ∀ j, j < s.res.symLen.toNat → s.entry .symQ j = F64.zero

/-- Every sample is a copy of its carrier, with the sign of its bit (R208). -/
structure BpskWave (s : State) : Prop where
  scheme : s.res.latScheme = .bpsk
  carI : ∀ n, n < s.res.sampLen.toNat → F64.BoundedBy (s.entry .carI n) 1
  tx : ∀ n, n < s.res.sampLen.toNat →
    F64.SignedCopy (!s.bit .bits (n / s.res.latSps.toNat)) (s.entry .carI n) (s.entry .tx n)

/-- Every demodulator product is a copy of the carrier's energy, with the sign of its bit (R237). -/
structure BpskProducts (s : State) : Prop where
  scheme : s.res.latScheme = .bpsk
  carI : ∀ n, n < s.res.sampLen.toNat → F64.BoundedBy (s.entry .carI n) 1
  demodI : ∀ n, n < s.res.sampLen.toNat →
    F64.SignedCopy (!s.bit .bits (n / s.res.latSps.toNat))
      (F64.mul (s.entry .carI n) (s.entry .carI n)) (s.entry .demodI n)

section
variable {s : State} (hm : s.MemInv) (hv : s.ValidInv)

include hv in
/-- A BPSK symbol carries one bit (R172). -/
theorem symLen_eq_bitsLen (hs : s.status.symV = true) (hc : s.res.latScheme = .bpsk) :
    s.res.symLen.toNat = s.res.bitsLen.toNat := by
  rw [symLen_eq hv hs, hc, symbolCount, ceilDiv, Scheme.bitsPerSymbol]
  omega

include hm hv

/-- MAP leaves the symbols of its bits (R171, R175). -/
theorem bodyMap_bpskSymbols (hc : Scheme.ofCode s.cfg.scheme = some .bpsk)
    (hb : s.status.bitsV = true) : BpskSymbols (bodyMap s).state := by
  obtain ⟨hstores, hI, hQ⟩ := bodyMap_writes hm hv hc hb
  have hcount : symbolCount .bpsk s.res.bitsLen.toNat = s.res.bitsLen.toNat := Nat.div_one _
  rw [hcount] at hI hQ
  have hlen : (bodyMap s).state.res.symLen.toNat = s.res.bitsLen.toNat := by
    rw [bodyMap_res hc hb, hcount]
    exact toNat_ofNat_of_le_nMax hm (bitsLen_le hv hb)
  refine ⟨by rw [bodyMap_res hc hb], fun j hj => ?_, fun j hj => ?_⟩
  · rw [hlen] at hj
    have hgroup : padded s.res.bitsLen.toNat (s.bit .bits) (j * 1 + 0) = s.bit .bits j := by
      rw [padded, Nat.mul_one, Nat.add_zero, decide_eq_true hj, Bool.true_and]
    rw [hI.entry_eq hj, hstores.bits_eq hm hv (by decide) hb hj, symbolPoint, point_bpsk]
    exact congrArg bpskSymbol hgroup
  · rw [hlen] at hj
    exact hQ.entry_eq hj

/-- SYNTH leaves carriers of magnitude at most 1.0, and copies of them as samples (R207, R208). -/
theorem bodySynth_bpskWave (hs : s.status.symV = true)
    (hc : checkSynth s.params s.samplesPerSymbol s.cfg.fs s.cfg.fc s.res.latScheme
      s.res.symLen.toNat = none) (h : BpskSymbols s) :
    BpskWave (bodySynth Config.numerics s).state := by
  obtain ⟨hstores, -, hcarI, -, htx⟩ := bodySynth_writes (N := Config.numerics) hm hv hs hc
  have hlen := bodySynth_sampLen hs hc hm hv Config.numerics
  have hsps : (bodySynth Config.numerics s).state.res.latSps.toNat = s.samplesPerSymbol.toNat := by
    obtain ⟨-, hhi⟩ := checkSynth_none hc
    have hmax := legal_spsMax hm.legal
    rw [bodySynth_res hs hc]
    exact toNat_ofNat64 (by omega)
  have hpoints : SymbolsArePoints s := fun j hj =>
    ⟨.bpsk, fun _ => s.bit .bits j, h.symI j hj, h.symQ j hj⟩
  obtain ⟨-, hphase⟩ := waveBounded_of_holds hm hv hs hc hpoints (bodySynth_holds hm hv hs hc)
  have hcarrier (n : Nat) (hn : n < s.res.symLen.toNat * s.samplesPerSymbol.toNat) :
      F64.BoundedBy (carrierI Config.numerics s.cfg.fs s.cfg.fc n) 1 ∧
        F64.isFinite (carrierQ Config.numerics s.cfg.fs s.cfg.fc n) = true := by
    obtain ⟨hfin, -⟩ := hphase n (by rwa [hlen])
    obtain ⟨hcos, hcos'⟩ := numerics_cos_range _ hfin
    obtain ⟨hsin, hsin'⟩ := numerics_sin_range _ hfin
    exact ⟨F64.boundedBy_one hcos hcos', (F64.boundedBy_one hsin hsin').neg.1⟩
  refine ⟨by rw [bodySynth_res hs hc]; exact h.scheme, fun n hn => ?_, fun n hn => ?_⟩
  · rw [hlen] at hn
    rw [hcarI.entry_eq hn]
    exact (hcarrier n hn).1
  · rw [hlen] at hn
    have hj : n / s.samplesPerSymbol.toNat < s.res.symLen.toNat :=
      Nat.div_lt_of_lt_mul (by rwa [Nat.mul_comm])
    have hbit := hstores.bits_eq hm hv (by decide) (bitsV_of_symV hv hs)
      (hj.trans_eq (symLen_eq_bitsLen hv hs h.scheme))
    obtain ⟨⟨hI, -⟩, hQ⟩ := hcarrier n hn
    rw [hcarI.entry_eq hn, htx.entry_eq hn, txSample, hsps, hbit, h.symI _ hj, h.symQ _ hj]
    exact ((bpskSymbol_signedCopy _).one_mul hI).add_isZero (F64.isZero_mul rfl hQ)

/-- Without noise CHANNEL leaves the samples' products with the carrier (R236, R237). -/
theorem channelWrites_bpskProducts (hw : s.status.waveV = true) (vtx : F64) {pn : F64}
    (hpn : F64.isZero pn = true) (h : BpskWave s) :
    BpskProducts (channelWrites Config.numerics vtx pn s) := by
  obtain ⟨hstores, -, -, hI, -⟩ := channelWrites_writes (N := Config.numerics) hm hv hw vtx pn
  have hres := channelWrites_res (N := Config.numerics) s vtx pn
  generalize channelWrites Config.numerics vtx pn s = t at *
  obtain ⟨hs, -, -, hlen, -, hcarFilled, -⟩ := hv.wave hw
  have hcar {n : Nat} (hn : n < s.res.sampLen.toNat) : t.entry .carI n = s.entry .carI n :=
    hstores.entry_eq hm (by decide) (hn.trans_le (sampLen_le hv hw)) (hcarFilled n hn)
  have hsamp : t.res.sampLen = s.res.sampLen := by rw [hres]
  refine ⟨by rw [hres]; exact h.scheme, fun n hn => ?_, fun n hn => ?_⟩
  · rw [hsamp] at hn
    rw [hcar hn]
    exact h.carI n hn
  · rw [hsamp] at hn
    have hj : n / s.res.latSps.toNat < s.res.bitsLen.toNat := by
      rw [← symLen_eq_bitsLen hv hs h.scheme]
      exact Nat.div_lt_of_lt_mul (by rwa [Nat.mul_comm, ← hlen])
    have hbit := hstores.bits_eq hm hv (by decide) (bitsV_of_symV hv hs) hj
    have hc := h.carI n hn
    have hr := (h.tx n hn).add_isZero (isZero_noiseSample hpn s.cfg.seed n)
    rw [hcar hn, hI.entry_eq hn, hres, hbit]
    exact hr.mul hc.1 (hc.mul hc (by norm_num)).1

/-- A window that is not degenerate is estimated as its symbol, exactly (R262). -/
theorem BpskProducts.estimate_eq (h : BpskProducts s) (hr : s.status.rxV = true) {j : Nat}
    (hj : j < s.res.symLen.toNat) (hd : (estimate s j).degenerate = false) :
    estimate s j = { x := bpskSymbol (s.bit .bits j), y := F64.zero, degenerate := false } := by
  obtain ⟨hw, -⟩ := hv.rx hr
  obtain ⟨-, hsps, hmax, hlen, -⟩ := hv.wave hw
  have hbound := legal_spsMax hm.legal
  generalize hP : s.res.latSps.toNat = P at *
  have hin {t : Nat} (ht : t < P) : j * P + t < s.res.sampLen.toNat := by
    rw [hlen]
    exact mul_add_lt_mul hj ht
  have hwindow {t : Nat} (ht : t < P) : (j * P + t) / P = j := by
    rw [Nat.mul_comm, Nat.mul_add_div hsps, Nat.div_eq_of_lt ht, Nat.add_zero]
  have hcopy (t : Nat) (ht : t < P) : F64.SignedCopy (!s.bit .bits j)
      (F64.mul (s.entry .carI (j * P + t)) (s.entry .carI (j * P + t)))
      (s.entry .demodI (j * P + t)) := by
    have hproduct := h.demodI _ (hin ht)
    rwa [hP, hwindow ht] at hproduct
  have henergy (t : Nat) (ht : t < P) : F64.BoundedBy
      (F64.mul (s.entry .carI (j * P + t)) (s.entry .carI (j * P + t))) (1 * 1) :=
    (h.carI _ (hin ht)).mul (h.carI _ (hin ht)) (by norm_num)
  have hsum : F64.SignedCopy (!s.bit .bits j) (integrate s P j).h11 (integrate s P j).ai :=
    .sum hcopy fun k hk => (F64.BoundedBy.sum (fun t ht => henergy t (ht.trans_le hk)) (by omega)).1
  rw [estimate, h.scheme, hP, estimateOf, estBpsk] at hd ⊢
  by_cases hpos : F64.lt F64.zero (integrate s P j).h11 = true
  · rw [if_pos hpos,
      (hsum.div_original hpos).unique (bpskSymbol_signedCopy (s.bit .bits j)) (by decide)]
  · rw [if_neg hpos] at hd
    exact absurd hd (by decide)

/-- Where no window is degenerate, SLICE recovers every bit (R265, R268). -/
theorem BpskProducts.recoveredBit_eq (h : BpskProducts s) (hr : s.status.rxV = true)
    (hd : anyDegenerate s = false) {i : Nat} (hi : i < s.res.bitsLen.toNat) :
    recoveredBit s i = s.bit .bits i := by
  have hs : s.status.symV = true := symV_of_rxV hv hr
  rw [← symLen_eq_bitsLen hv hs h.scheme] at hi
  have hwindow : (estimate s i).degenerate = false :=
    Bool.eq_false_iff.mpr (List.any_eq_false.mp hd i (List.mem_range.mpr hi))
  rw [recoveredBit_bpsk h.scheme, h.estimate_eq hm hv hr hi hwindow]
  exact decisionUndoesMapping .bpsk (fun _ => s.bit .bits i) false 0 (by decide)

theorem BpskProducts.errorCount_eq_zero (h : BpskProducts s) (hr : s.status.rxV = true)
    (hd : anyDegenerate s = false) : errorCount s = 0 :=
  List.countP_eq_zero.mpr fun i hi => by
    rw [h.recoveredBit_eq hm hv hr hd (List.mem_range.mp hi), bne_self_eq_false]
    exact Bool.false_ne_true

/-- SLICE then counts no error and leaves RXBITS equal to BITS (R267). -/
theorem BpskProducts.bodySlice_recovers (h : BpskProducts s) (hr : s.status.rxV = true)
    (hd : (bodySlice s).state.status.degen = false) :
    (bodySlice s).state.res.errCnt = 0 ∧ ∀ i, i < (bodySlice s).state.res.bitsLen.toNat →
      (bodySlice s).state.bit .rxbits i = (bodySlice s).state.bit .bits i := by
  rw [bodySlice_status hr, validSlice_degen, Bool.or_eq_false_iff] at hd
  obtain ⟨-, hd⟩ := hd
  rw [bodySlice_res hr]
  refine ⟨by rw [h.errorCount_eq_zero hm hv hr hd]; rfl, fun i hi => ?_⟩
  rw [bodySlice_bits hr hm hv hi, ← h.recoveredBit_eq hm hv hr hd hi]
  exact bodySlice_rxbits_of_lt hr hm hv (hi.trans_le (bitsLen_le_symbolBits hr hv))

end

/-! ### A RUN without noise -/

/-- Without STRICT_SNR, CHANNEL's report is no error and writes SNR_MEAS alone (R239). -/
theorem bodyChannel_of_not_strict {s : State} {N : Numerics} (hw : s.status.waveV = true)
    (hc : checkNoise s.noiseMode s.cfg.noiseLevel = none) (hstrict : s.strictSnr = false) :
    ∃ snr, let t := channelWrites N s.txVariance (s.channelPower N) s
      bodyChannel N s = .ok { t with res := { t.res with snrMeas := snr } } := by
  rw [bodyChannel_ok hw hc]
  obtain h | ⟨hs, -⟩ := reportSnr_cases N s.txVariance
    (channelWrites N s.txVariance (s.channelPower N) s).res.varNoise s.strictSnr
    (channelWrites N s.txVariance (s.channelPower N) s)
  · exact ⟨_, h⟩
  · exact absurd hs (Bool.eq_false_iff.mp hstrict)

theorem BpskProducts.setSnrMeas {s : State} (h : BpskProducts s) (snr : F64) :
    BpskProducts { s with res := { s.res with snrMeas := snr } } :=
  ⟨h.scheme, h.carI, h.demodI⟩

/-- Without noise and STRICT_SNR, CHANNEL on copies of a carrier leaves their products (R231). -/
theorem BpskWave.channel_products {s : State} (h : BpskWave s) (hm : s.MemInv) (hv : s.ValidInv)
    (hw : s.status.waveV = true) (hmode : s.noiseMode = false)
    (hlevel : F64.isZero s.cfg.noiseLevel = true) (hstrict : s.strictSnr = false) :
    ∃ t, bodyChannel Config.numerics s = .ok t ∧ t.status.rxV = true ∧ BpskProducts t := by
  have hpower : s.channelPower Config.numerics = s.cfg.noiseLevel := by
    rw [State.channelPower, noisePower, hmode, if_neg Bool.false_ne_true]
  obtain ⟨snr, ht⟩ := bodyChannel_of_not_strict (N := Config.numerics) hw
    (by rw [hmode]; exact checkNoise_of_isZero hlevel) hstrict
  have hproducts := channelWrites_bpskProducts hm hv hw s.txVariance
    (pn := s.channelPower Config.numerics) (by rwa [hpower]) h
  refine ⟨_, ht, ?_, hproducts.setSnrMeas snr⟩
  rw [channelWrites_status, validChannel_rxV]

section
variable {s : State} (hm : s.MemInv) (hv : s.ValidInv)
include hm hv

theorem afterGenBits_inv (N : Numerics) :
    (s.afterGenBits N).MemInv ∧ (s.afterGenBits N).ValidInv :=
  have hgen := bodyGenBits_produces (N := N) hm hv
  ⟨hgen.memInv hm, hgen.valid⟩

theorem afterMap_inv (N : Numerics) : (s.afterMap N).MemInv ∧ (s.afterMap N).ValidInv :=
  have ⟨hm', hv'⟩ := afterGenBits_inv hm hv N
  have hmap := bodyMap_produces hm' hv'
  ⟨hmap.memInv hm', hmap.valid⟩

theorem afterSynth_inv (N : Numerics) : (s.afterSynth N).MemInv ∧ (s.afterSynth N).ValidInv :=
  have ⟨hm', hv'⟩ := afterMap_inv hm hv N
  have hsynth := bodySynth_produces (N := N) hm' hv'
  ⟨hsynth.memInv hm', hsynth.valid⟩

/-- In a RUN of BPSK, CHANNEL finds copies of the carrier (R316). -/
theorem afterSynth_bpskWave (h : RunPasses s .bpsk) : BpskWave (s.afterSynth Config.numerics) := by
  obtain ⟨hmGen, hvGen⟩ := afterGenBits_inv hm hv Config.numerics
  obtain ⟨hmMap, hvMap⟩ := afterMap_inv hm hv Config.numerics
  have hsymbols := bodyMap_bpskSymbols hmGen hvGen (afterGenBits_scheme h) (afterGenBits_bitsV h)
  exact bodySynth_bpskWave hmMap hvMap (afterMap_symV h) (afterMap_check h) hsymbols

end

/-- Settles O33: a RUN's CHANNEL leaves products that SLICE decides as the bits. -/
theorem noiselessBpskRoundTrip : Obligations.NoiselessBpskRoundTrip := by
  intro s t hinv hscheme hstrict hmode hlevel hpass hexec hdegen
  obtain ⟨c, h⟩ := runPasses_of_passes hpass
  obtain rfl : c = .bpsk := by
    have hc := h.scheme
    rw [hscheme] at hc
    exact (Option.some.inj hc).symm
  obtain ⟨hm, hv⟩ := afterSynth_inv hinv.mem hinv.valid Config.numerics
  have hcfg := (afterSynth_frame Config.numerics s).cfg
  have hwave := afterSynth_bpskWave hinv.mem hinv.valid h
  obtain ⟨u, hu, hr, hproducts⟩ := hwave.channel_products hm hv
    (afterSynth_waveV h)
    (by rw [State.noiseMode, hcfg]; exact hmode) (by rwa [hcfg])
    (by rw [State.strictSnr, hcfg]; exact hstrict)
  have hchannel := bodyChannel_produces (N := Config.numerics) hm hv
  rw [hu, ok_state] at hchannel
  have hslice := exec_slice_ok hr
  rw [exec_eq, bodyOf] at hslice
  rw [exec_eq, bodyOf, bodyRun_eq h, hu, andThen_ok, hslice] at hexec
  cases hexec
  exact hproducts.bodySlice_recovers (hchannel.memInv hm) hchannel.valid hr hdegen

end Sys2Proof.Machine
end

section
/-! PROOF. The order of patterns through the arithmetic (00_scope.md R23, R25): rounding keeps `<=`,
overflow to the infinities included, so an operation that rounds a monotone function is monotone. -/

namespace Sys2Proof

open Sys2Proof.Claims

theorem F64.le_refl {a : F64} (h : F64.isNaN a = false) : F64.le a a = true := le_of_key h h le_rfl

theorem F64.le_trans {a b c : F64} (hab : F64.le a b = true) (hbc : F64.le b c = true) :
    F64.le a c = true :=
  le_of_key (not_nan_of_le hab).1 (not_nan_of_le hbc).2 ((key_of_le hab).trans (key_of_le hbc))

/-- A pattern at or above +0.0 is +inf or a finite number that is not negative. -/
theorem F64.finite_or_posInf_of_nonneg {x : F64} (h : F64.le F64.zero x = true) :
    (F64.isFinite x = true ∧ (0 : ℝ) ≤ F64.toRat x) ∨ x = F64.posInf := by
  obtain hz | ⟨hf, hk⟩ | rfl := nonneg_cases h
  · exact .inl ⟨isZero_finite hz, by rw [toRat_of_isZero hz, Rat.cast_zero]⟩
  · exact .inl ⟨hf, (toRat_pos hk).le⟩
  · exact .inr rfl

/-! ### Rounding -/

section
variable {f g : F64} {x y : ℝ}

/-- A result is finite below the threshold of overflow and an infinity from it on. -/
theorem Claims.CorrectlyRounded.finite_or_inf (h : CorrectlyRounded f x) :
    (F64.isFinite f = true ∧ |x| < overflowAt) ∨ (f = F64.posInf ∧ overflowAt ≤ x) ∨
      (f = F64.negInf ∧ x ≤ -overflowAt) := by
  have hpos : 0 < overflowAt := one_pos.trans one_lt_overflowAt
  obtain hsmall | hbig := lt_or_ge |x| overflowAt
  · exact .inl ⟨(h.nearest hsmall).1, hsmall⟩
  · have hf := h.overflow hbig
    obtain hx | hx := le_abs.mp hbig
    · exact .inr (.inl ⟨by rw [hf, if_neg (by linarith)], hx⟩)
    · exact .inr (.inr ⟨by rw [hf, if_pos (by linarith)], by linarith⟩)

theorem Claims.CorrectlyRounded.not_nan (h : CorrectlyRounded f x) : F64.isNaN f = false := by
  obtain ⟨hf, -⟩ | ⟨rfl, -⟩ | ⟨rfl, -⟩ := h.finite_or_inf
  · exact F64.finite_not_nan hf
  · decide
  · decide

/-- Rounding keeps the order of two numbers, past the threshold of overflow too. -/
theorem Claims.CorrectlyRounded.le_mono (h : CorrectlyRounded f x) (h' : CorrectlyRounded g y)
    (hxy : x ≤ y) : F64.le f g = true := by
  have hpos : 0 < overflowAt := one_pos.trans one_lt_overflowAt
  obtain ⟨-, -, negInf_le, -⟩ := negInf_comparisons h'.not_nan
  obtain ⟨-, -, le_posInf, -⟩ := posInf_comparisons h.not_nan
  obtain ⟨hf, hx⟩ | ⟨rfl, hx⟩ | ⟨rfl, -⟩ := h.finite_or_inf
  · obtain ⟨hg, -⟩ | ⟨rfl, -⟩ | ⟨rfl, hy⟩ := h'.finite_or_inf
    · rw [F64.le_iff hf hg]
      obtain hlt | rfl := hxy.lt_or_eq
      · exact h.toRat_mono h' hf hg hlt
      · exact (h.toRat_unique h' hx).le
    · exact le_posInf
    · linarith [(abs_lt.mp hx).1]
  · have hy : overflowAt ≤ y := hx.trans hxy
    rw [h'.overflow (hy.trans (le_abs_self y)), if_neg (by linarith)]
    exact F64.le_refl (by decide)
  · exact negInf_le

theorem Claims.CorrectlyRounded.zero_le (h : CorrectlyRounded f x) (hx : 0 ≤ x) :
    F64.le F64.zero f = true :=
  (correctlyRounded_of_isZero rfl).le_mono h hx

end

/-! ### Operations on `+0.0 .. +inf` -/

/-- A function that keeps the patterns from +0.0 to +inf, and their order. -/
def F64.Rises (φ : F64 → F64) : Prop :=
  ∀ x y, F64.le F64.zero x = true → F64.le x y = true →
    F64.le F64.zero (φ x) = true ∧ F64.le (φ x) (φ y) = true

theorem F64.Rises.nonneg {φ : F64 → F64} (h : F64.Rises φ) {x : F64}
    (hx : F64.le F64.zero x = true) : F64.le F64.zero (φ x) = true :=
  (h x x hx (F64.le_refl (not_nan_of_le hx).2)).1

theorem F64.Rises.comp {φ ψ : F64 → F64} (hψ : F64.Rises ψ) (hφ : F64.Rises φ) :
    F64.Rises (ψ ∘ φ) := fun x y hx hxy =>
  have ⟨h0, hle⟩ := hφ x y hx hxy
  hψ (φ x) (φ y) h0 hle

/-- A monotone function correctly rounded, with +inf sent to itself. -/
theorem F64.rises_of_correct {φ : F64 → F64} {r : ℝ → ℝ} (hr : Monotone r) (h0 : 0 ≤ r 0)
    (hφ : ∀ x, F64.isFinite x = true → F64.le F64.zero x = true →
      CorrectlyRounded (φ x) (r (F64.toRat x))) (hinf : φ F64.posInf = F64.posInf) :
    F64.Rises φ := by
  intro x y hx hxy
  have hy := F64.le_trans hx hxy
  obtain ⟨hfx, hx0⟩ | rfl := F64.finite_or_posInf_of_nonneg hx
  · have hcx := hφ x hfx hx
    refine ⟨hcx.zero_le (h0.trans (hr hx0)), ?_⟩
    obtain ⟨hfy, -⟩ | rfl := F64.finite_or_posInf_of_nonneg hy
    · rw [F64.le_iff hfx hfy] at hxy
      exact hcx.le_mono (hφ y hfy hy) (hr (by exact_mod_cast hxy))
    · obtain ⟨-, -, le_posInf, -⟩ := posInf_comparisons hcx.not_nan
      rwa [hinf]
  · have hy : y = F64.posInf := by
      obtain ⟨-, -, -, posInf_le, -⟩ := posInf_comparisons (not_nan_of_le hxy).2
      exact posInf_le.mp hxy
    rw [hy, hinf]
    decide

theorem F64.sqrt_rises : F64.Rises F64.sqrt :=
  F64.rises_of_correct Real.sqrt_monotone (Real.sqrt_nonneg 0) (fun _ => F64.sqrt_correct)
    (by decide)

section
variable {c : F64} (hf : F64.isFinite c = true) (hpos : F64.lt F64.zero c = true)
include hf hpos

theorem F64.mul_posInf : F64.mul c F64.posInf = F64.posInf := by
  have h := F64.mul_inf_right (F64.finite_not_nan hf) (F64.isZero_of_pos hpos) false
  rwa [F64.neg?_of_pos hpos] at h

theorem F64.posInf_div : F64.div F64.posInf c = F64.posInf := by
  have h := F64.div_inf_left hf false
  rwa [F64.neg?_of_pos hpos] at h

theorem F64.mul_rises : F64.Rises (F64.mul c) :=
  F64.rises_of_correct (monotone_mul_left_of_nonneg (F64.toRat_pos_of_pos hpos).le)
    (by rw [mul_zero]) (fun _ hx _ => F64.mul_correct hf hx) (F64.mul_posInf hf hpos)

theorem F64.div_rises : F64.Rises (F64.div · c) :=
  F64.rises_of_correct (monotone_div_right_of_nonneg (F64.toRat_pos_of_pos hpos).le)
    (by rw [zero_div]) (fun _ hx _ => F64.div_correct hx hf (F64.isZero_of_pos hpos))
    (F64.posInf_div hf hpos)

end

end Sys2Proof
end

section
/-! PROOF. The BER curves (45_ber.md R292 to R299): each is a weight times ERFC of an argument that
rises with the SNR. -/

namespace Sys2Proof.Machine

open Sys2Proof.Claims

/-! ### The formulas as weighted ERFC values -/

/-- The factor in front of ERFC (R293, R294, R295). -/
def berWeight : Scheme → F64
  | .bpsk | .qpsk => F64.half
  | .qam16 => F64.threeEighths
  | .qam64 => F64.c712

/-- The argument of ERFC at a linear SNR (R293, R294, R295). -/
def berArgument : Scheme → F64 → F64
  | .bpsk | .qpsk => F64.sqrt
  | .qam16 => F64.sqrt ∘ F64.mul F64.fourFifths
  | .qam64 => F64.sqrt ∘ (F64.div · F64.fortyTwo)

theorem berOf_eq (N : Numerics) (c : Scheme) (snr : F64) :
    berOf N c snr = F64.mul (berWeight c) (N.erfc (berArgument c snr)) := by
  cases c <;> rfl

theorem berWeight_finite (c : Scheme) : F64.isFinite (berWeight c) = true := by cases c <;> decide

theorem berWeight_pos (c : Scheme) : F64.lt F64.zero (berWeight c) = true := by cases c <;> decide

theorem berArgument_rises (c : Scheme) : F64.Rises (berArgument c) := by
  cases c with
  | bpsk | qpsk => exact F64.sqrt_rises
  | qam16 => exact F64.sqrt_rises.comp (F64.mul_rises (by decide) (by decide))
  | qam64 => exact F64.sqrt_rises.comp (F64.div_rises (by decide) (by decide))

theorem toRat_fortyTwo : F64.toRat F64.fortyTwo = 42 := by
  have h : F64.ofInt 42 = F64.fortyTwo := by decide
  obtain ⟨-, hval⟩ := F64.ofInt_exact (n := 42) (by decide)
  rw [← h, hval]
  rfl

theorem toRat_half : F64.toRat F64.half = 1 / 2 := by
  rw [F64.toRat_eq, show F64.key F64.half = 1022 * 2 ^ 52 from by decide, keyVal,
    if_neg (by norm_num), magVal]
  norm_num

theorem half_le_fourFifths : (1 / 2 : ℝ) ≤ F64.toRat F64.fourFifths := by
  have h : F64.toRat F64.half ≤ F64.toRat F64.fourFifths := by
    rw [F64.toRat_le_iff]
    decide
  rw [toRat_half] at h
  simpa using (Rat.cast_le (K := ℝ)).mpr h

/-- R299: `s ⊘ 42.0 <= 0.8 ⊗ s`. -/
theorem div_fortyTwo_le_mul_fourFifths {s : F64} (hs : F64.le F64.zero s = true) :
    F64.le (F64.div s F64.fortyTwo) (F64.mul F64.fourFifths s) = true := by
  obtain ⟨hf, h0⟩ | rfl := F64.finite_or_posInf_of_nonneg hs
  · have hdiv := F64.div_correct hf (show F64.isFinite F64.fortyTwo = true by decide) (by decide)
    have hmul := F64.mul_correct (show F64.isFinite F64.fourFifths = true by decide) hf
    rw [toRat_fortyTwo, Rat.cast_ofNat] at hdiv
    refine hdiv.le_mono hmul ?_
    calc (F64.toRat s : ℝ) / 42 ≤ 1 / 2 * F64.toRat s := by linarith
      _ ≤ F64.toRat F64.fourFifths * F64.toRat s := by gcongr; exact half_le_fourFifths
  · rw [F64.posInf_div (by decide) (by decide), F64.mul_posInf (by decide) (by decide)]
    exact F64.le_refl (by decide)

theorem berArgument_qam64_le_qam16 {s : F64} (hs : F64.le F64.zero s = true) :
    F64.le (berArgument .qam64 s) (berArgument .qam16 s) = true := by
  have h0 := (F64.div_rises (c := F64.fortyTwo) (by decide) (by decide)).nonneg hs
  exact (F64.sqrt_rises _ _ h0 (div_fortyTwo_le_mul_fourFifths hs)).2

/-! ### Conforming numerics -/

section
variable {N : Numerics} (hN : N.Laws)
include hN

theorem erfc_finite_nonneg {x : F64} (hx : F64.le F64.zero x = true) :
    F64.isFinite (N.erfc x) = true ∧ 0 ≤ F64.toRat (N.erfc x) := by
  obtain ⟨hlo, hhi⟩ := hN.erfc_range x hx
  obtain ⟨hf, -⟩ := F64.boundedBy_one (F64.le_trans (by decide) hlo) hhi
  rw [F64.le_iff zero_finite hf, toRat_zero] at hlo
  exact ⟨hf, hlo⟩

/-- A larger weight at a smaller argument gives a larger value. -/
theorem mul_erfc_le {k k' x x' : F64} (hk : F64.isFinite k = true) (hk' : F64.isFinite k' = true)
    (hpos : F64.lt F64.zero k = true) (hkk' : F64.le k k' = true) (hx : F64.le F64.zero x = true)
    (hxx' : F64.le x x' = true) :
    F64.le (F64.mul k (N.erfc x')) (F64.mul k' (N.erfc x)) = true := by
  obtain ⟨hf, -⟩ := erfc_finite_nonneg hN hx
  obtain ⟨hf', h0'⟩ := erfc_finite_nonneg hN (F64.le_trans hx hxx')
  have hanti := hN.erfc_anti x x' hx hxx'
  rw [F64.le_iff hf' hf] at hanti
  rw [F64.le_iff hk hk'] at hkk'
  have hk0 : 0 ≤ F64.toRat k' :=
    (by exact_mod_cast F64.toRat_pos_of_pos hpos : 0 < F64.toRat k).le.trans hkk'
  refine (F64.mul_correct hk hf').le_mono (F64.mul_correct hk' hf) ?_
  exact_mod_cast mul_le_mul hkk' hanti h0' hk0

/-- The linear SNR of a finite point lies from +0.0 to +inf (R292). -/
theorem linearSnr_nonneg {db : F64} (h : F64.isFinite db = true) :
    F64.le F64.zero (linearSnr N db) = true := by
  have hdiv := F64.div_correct h (show F64.isFinite F64.ten = true by decide) (by decide)
  obtain ⟨hsign, hnan⟩ := hN.pow10_sign _ hdiv.not_nan
  exact le_of_key (by decide) hnan (key_nonneg_of_sign hsign)

/-- The linear SNR rises with the point: one division correctly rounded, then POW10 (R292). -/
theorem linearSnr_mono {a b : F64} (ha : F64.isFinite a = true) (hb : F64.isFinite b = true)
    (hab : F64.le a b = true) : F64.le (linearSnr N a) (linearSnr N b) = true := by
  have hten : F64.isFinite F64.ten = true := by decide
  have hpos : (0 : ℝ) < F64.toRat F64.ten := F64.toRat_pos_of_pos (by decide)
  rw [F64.le_iff ha hb] at hab
  have hab' : (F64.toRat a : ℝ) ≤ F64.toRat b := by exact_mod_cast hab
  exact hN.pow10_mono _ _ ((F64.div_correct ha hten (by decide)).le_mono
    (F64.div_correct hb hten (by decide)) (by gcongr))

end

/-- Settles O35: the ERFC argument rises with the SNR, and 64-QAM has the larger weight and the
smaller argument. -/
theorem berCurves : Obligations.BerCurves := by
  refine fun N hN => ⟨fun c a b ha hb hab => ?_, fun db hdb => ?_⟩
  · have hsnr := linearSnr_mono hN ha hb hab
    obtain ⟨h0, harg⟩ := berArgument_rises c _ _ (linearSnr_nonneg hN ha) hsnr
    have hc := berWeight_finite c
    rw [berOf_eq, berOf_eq]
    exact mul_erfc_le hN hc hc (berWeight_pos c) (F64.le_refl (F64.finite_not_nan hc)) h0 harg
  · have hs := linearSnr_nonneg hN hdb
    rw [berOf_eq, berOf_eq]
    exact mul_erfc_le hN (berWeight_finite _) (berWeight_finite _) (berWeight_pos _) (by decide)
      ((berArgument_rises .qam64).nonneg hs) (berArgument_qam64_le_qam16 hs)

end Sys2Proof.Machine
end

section
/-! PROOF. BER (45_ber.md R290 to R296): what a BER that passes its checks leaves. -/

namespace Sys2Proof.Machine

open Sys2Proof.Claims

section
variable {s : State} {c : Scheme} (hc : Scheme.ofCode s.cfg.scheme = some c)
include hc

theorem passes_ber_iff : Passes .ber s ↔
    checkPointCount s.params s.pointCount = none ∧ pointsFinite s s.pointCount.toNat = true := by
  rw [← checkError_eq_none_iff, checkError, hc]
  dsimp only
  rw [Option.or_eq_none_iff]
  cases pointsFinite s s.pointCount.toNat <;> simp

variable (hk : checkPointCount s.params s.pointCount = none)
  (hf : pointsFinite s s.pointCount.toNat = true)
include hk hf

/-- A BER that passes its checks ends without an error (R313). -/
theorem exec_ber_ok : exec .ber s = .next (completeOk (bodyBer Config.numerics s).state) := by
  rw [exec_eq, bodyOf, bodyBer_ok hc hk hf, complete_ok, ok_state]

/-- BER changes no byte outside the points it writes. -/
theorem bodyBer_onlyStored (hm : Memory.wf s.mem) (N : Numerics) :
    OnlyStored s (bodyBer N s).state [(.berOut, s.pointCount.toNat)] := by
  rw [bodyBer_ok hc hk hf]
  exact onlyStored_fillAll hm [⟨.berOut, _, _⟩]

/-- The state after BER, but for what it stores: its registers and flags, and what stays. -/
theorem completeOk_bodyBer_eq (N : Numerics) :
    completeOk (bodyBer N s).state = { s with
      mem := (bodyBer N s).state.mem
      pending := none
      res := { s.res with berLen := s.cfg.berCount }
      status := doneOk s.status.validBer } := by
  obtain ⟨hlo, -⟩ := checkPointCount_none.mp hk
  have hlen : BitVec.ofNat 64 s.pointCount.toNat = s.cfg.berCount :=
    ofNat_toInt (by unfold State.pointCount at hlo; omega)
  rw [bodyBer_ok hc hk hf, hlen]
  rfl

end

/-- Settles O34: BER's one window, its length register, and its frame. -/
theorem berResult : Obligations.BerResult := by
  intro s c hinv hc hpass count snr erfc
  obtain ⟨hk, hf⟩ := (passes_ber_iff hc).mp hpass
  obtain ⟨-, hout⟩ := bodyBer_writes (N := Config.numerics) hinv.mem hc hk hf
  refine ⟨_, exec_ber_ok hc hk hf, ?_, bodyBer_onlyStored hc hk hf hinv.mem.canonical _,
    completeOk_bodyBer_eq hc hk hf _⟩
  cases c <;> exact hout

end Sys2Proof.Machine
end

section
/-! PROOF. Acceptance, dispatch, and the commands NOP and CLEAR (46_control.md R310 to R315). -/

namespace Sys2Proof.Machine

open Sys2Proof.Claims

/-! ### Acceptance -/

/-- Settles O13: an idle block's write to CMD is its acceptance, and LASTOP the low byte. -/
theorem commandAcceptance : Obligations.CommandAcceptance := by
  intro s v hidle
  have hcmd : hostWrite (BitVec.ofNat 24 Reg.cmd.offset) .full v s = accept v s :=
    hostWrite_reg hidle .cmd v
  rw [← BitVec.setWidth_eq_extractLsb' (by decide)]
  exact hcmd

/-- While a command is pending a write that is served sets HAZ and does nothing else (R104, R311). -/
theorem hostWrite_served_pending {s : State} (hbusy : s.busy = true) {a : Addr} {width : Width}
    (h : accessTarget s.params a width ≠ .unmapped) (v : Word) :
    hostWrite a width v s = s.setHaz := by
  unfold hostWrite
  split
  · exact absurd ‹_› h
  · exact if_pos hbusy
  · exact if_pos hbusy

/-- Settles O45: an aligned, full access to a mapped address is served. -/
theorem busyWritesAreDropped : Obligations.BusyWritesAreDropped := by
  intro s w v a hpend halign hmap
  have htarget : accessTarget s.params a .full ≠ .unmapped := by
    rw [ne_eq, accessTarget_eq_unmapped_iff]
    simp [halign, hmap]
  exact hostWrite_served_pending (busy_of_pending hpend) htarget v

/-! ### Dispatch -/

/-- When the SEQUENCER moves next, the step is its step with the interleaving advanced (R100, R385). -/
theorem step_of_performs {s : State} {w : Word} (h : Performs s w) :
    step s = sequencerStep (advance s) := by
  obtain ⟨hpend, hnil | ⟨rest, hcons⟩⟩ := h
  · have hagent : defaultAgent s = .sequencer := if_pos (busy_of_pending hpend)
    have hadvance : advance s = s := by
      rw [advance, hnil, List.tail_nil, ← hnil]
    rw [step_of_sched_nil hnil, hagent, hadvance]
    rfl
  · rw [step_of_sched_cons hcons, advance, hcons]
    rfl

/-- The SEQUENCER performs the instruction its pending word decodes to (R312). -/
theorem sequencerStep_of_decode {s : State} {w : Word} {i : Instr} (hpend : s.pending = some w)
    (hdec : decode w = .ok i) : sequencerStep s = exec i s := by
  rw [sequencerStep, hpend]
  dsimp only
  rw [hdec]

/-- Settles O11: the step is the SEQUENCER's, which dispatches on the decoded word. -/
theorem stepRunsTheDecodedInstruction : Obligations.StepRunsTheDecodedInstruction := by
  intro s w i h hdec
  rw [step_of_performs h]
  obtain ⟨hpend, -⟩ := h
  exact sequencerStep_of_decode (s := advance s) hpend hdec

/-! ### NOP and CLEAR -/

/-- Settles O19: NOP's body leaves the state as it is. -/
theorem nopResult : Obligations.NopResult := fun s => exec_eq .nop s

/-- Settles O20: CLEAR's body, then completion. -/
theorem clearResult : Obligations.ClearResult := fun s => exec_eq .clear s

end Sys2Proof.Machine
end

section
/-! PROOF. Completion (46_control.md R313, 60_exceptions.md R340): the bodies leave LASTOP to acceptance,
and ERR to completion and CLEAR. -/

namespace Sys2Proof.Machine

/-- From `st` to `st'` ERR is kept, and LASTOP with it. -/
structure KeepsErr (st st' : Status) : Prop where
  err : st'.err = st.err
  lastOp : st'.lastOp = st.lastOp

theorem KeepsErr.trans {a b c : Status} (h : KeepsErr a b)
    (h' : KeepsErr b c) : KeepsErr a c :=
  ⟨h'.err.trans h.err, h'.lastOp.trans h.lastOp⟩

theorem KeepsErr.andThen {s : State} {r : Result} {f : State → Result}
    (h : KeepsErr s.status r.state.status)
    (hf : ∀ t : State, KeepsErr t.status (f t).state.status) :
    KeepsErr s.status (r.andThen f).state.status := by
  unfold Result.andThen
  cases r.error with
  | none => exact h.trans (hf r.state)
  | some e => exact h

section
variable (N : Numerics) (s : State)

theorem bodyGenBits_keepsErr : KeepsErr s.status (bodyGenBits N s).state.status := by
  obtain ⟨e, h⟩ | h := bodyGenBits_cases N s
  · rw [h]; exact ⟨rfl, rfl⟩
  · rw [bodyGenBits_status h]; exact ⟨rfl, rfl⟩

theorem bodyMap_keepsErr : KeepsErr s.status (bodyMap s).state.status := by
  obtain ⟨e, h⟩ | ⟨c, hc, hb⟩ := bodyMap_cases s
  · rw [h]; exact ⟨rfl, rfl⟩
  · rw [bodyMap_status hc hb]; exact ⟨rfl, rfl⟩

theorem bodySynth_keepsErr : KeepsErr s.status (bodySynth N s).state.status := by
  obtain ⟨e, h⟩ | ⟨hs, hc⟩ := bodySynth_cases N s
  · rw [h]; exact ⟨rfl, rfl⟩
  · rw [bodySynth_status hs hc]; exact ⟨rfl, rfl⟩

theorem bodyChannel_keepsErr : KeepsErr s.status (bodyChannel N s).state.status := by
  obtain ⟨e, h⟩ | ⟨hw, hc⟩ := bodyChannel_cases N s
  · rw [h]; exact ⟨rfl, rfl⟩
  · rw [bodyChannel_ok hw hc, reportSnr_status, channelWrites_status]; exact ⟨rfl, rfl⟩

theorem bodySlice_keepsErr : KeepsErr s.status (bodySlice s).state.status := by
  obtain ⟨e, h⟩ | hr := bodySlice_cases s
  · rw [h]; exact ⟨rfl, rfl⟩
  · rw [bodySlice_status hr]; exact ⟨rfl, rfl⟩

theorem bodyBer_keepsErr : KeepsErr s.status (bodyBer N s).state.status := by
  obtain ⟨e, h⟩ | ⟨c, hc, hk, hf⟩ := bodyBer_cases N s
  · rw [h]; exact ⟨rfl, rfl⟩
  · rw [bodyBer_status hc hk hf]; exact ⟨rfl, rfl⟩

theorem bodyRun_keepsErr : KeepsErr s.status (bodyRun N s).state.status := by
  unfold bodyRun
  cases runChecks s with
  | some e => exact ⟨rfl, rfl⟩
  | none =>
    exact ((((bodyGenBits_keepsErr N s).andThen bodyMap_keepsErr).andThen
      (bodySynth_keepsErr N)).andThen (bodyChannel_keepsErr N)).andThen
      bodySlice_keepsErr

end

/-- No body writes LASTOP, and none but CLEAR's writes ERR (R313, R343). -/
theorem bodyOf_err_lastOp (i : Instr) (s : State) :
    (bodyOf i s).state.status.err = (s.status.err && decide (i ≠ .clear)) ∧
      (bodyOf i s).state.status.lastOp = s.status.lastOp := by
  have keeps (hi : i ≠ .clear) (h : KeepsErr s.status (bodyOf i s).state.status) :
      (bodyOf i s).state.status.err = (s.status.err && decide (i ≠ .clear)) ∧
        (bodyOf i s).state.status.lastOp = s.status.lastOp := by
    rw [decide_eq_true hi, Bool.and_true]
    exact ⟨h.err, h.lastOp⟩
  cases i with
  | clear => exact ⟨(Bool.and_false _).symm, rfl⟩
  | nop => exact keeps nofun ⟨rfl, rfl⟩
  | genBits => exact keeps nofun (bodyGenBits_keepsErr _ s)
  | map => exact keeps nofun (bodyMap_keepsErr s)
  | synth => exact keeps nofun (bodySynth_keepsErr _ s)
  | channel => exact keeps nofun (bodyChannel_keepsErr _ s)
  | slice => exact keeps nofun (bodySlice_keepsErr s)
  | ber => exact keeps nofun (bodyBer_keepsErr _ s)
  | run => exact keeps nofun (bodyRun_keepsErr _ s)

/-- Settles O14: completion writes the error fields from the body's result, and the bodies leave
LASTOP and ERR as they were. -/
theorem everyCommandCompletes : Obligations.EveryCommandCompletes := by
  intro i s
  obtain ⟨herr, hlastOp⟩ := bodyOf_err_lastOp i s
  refine ⟨_, exec_eq i s, complete_pending _, complete_done _, ?_⟩
  obtain ⟨-, h⟩ | ⟨e, -, h⟩ := complete_cases (bodyOf i s)
  · rw [h, completeOk_status]
    exact ⟨hlastOp, .inl ⟨rfl, rfl, herr⟩⟩
  · rw [h, takeError_status]
    exact ⟨hlastOp, .inr ⟨rfl, e, rfl, rfl⟩⟩

end Sys2Proof.Machine
end

section
/-! PROOF. RUN against its five commands (46_control.md R316, R318): no command reads what the completion
before it wrote, so the five commands in turn meet the states of a RUN's bodies. -/

namespace Sys2Proof.Machine

open Sys2Proof.Claims

/-! ### A command after a completion -/

theorem afterChannel_completeOk (N : Numerics) (s : State) :
    (completeOk s).afterChannel N = s.afterChannel N := by
  have hsignal : (completeOk s).txVariance = s.txVariance := rfl
  have hnoise : (completeOk s).noiseVariance N = s.noiseVariance N := rfl
  have hstrict : (completeOk s).strictSnr = s.strictSnr := rfl
  obtain ⟨snr, e, hreport⟩ := reportSnr_uniform N s.txVariance (s.noiseVariance N) s.strictSnr
  rw [State.afterChannel, hsignal, hnoise, hstrict, hreport, State.afterChannel, hreport]
  cases e <;> rfl

section
variable {s : State}

theorem exec_map_completeOk {c : Scheme} (hc : Scheme.ofCode s.cfg.scheme = some c)
    (hb : s.status.bitsV = true) : exec .map (completeOk s) = exec .map s := by
  rw [exec_map_ok (s := completeOk s) hc hb, exec_map_ok hc hb, bodyMap_ok (s := completeOk s) hc hb,
    bodyMap_ok hc hb]
  rfl

theorem exec_synth_completeOk (hs : s.status.symV = true)
    (hc : checkSynth s.params s.samplesPerSymbol s.cfg.fs s.cfg.fc s.res.latScheme
      s.res.symLen.toNat = none) : exec .synth (completeOk s) = exec .synth s := by
  rw [exec_synth_ok (s := completeOk s) hs hc, exec_synth_ok hs hc,
    bodySynth_ok (s := completeOk s) hs hc, bodySynth_ok hs hc]
  rfl

theorem exec_channel_completeOk (hw : s.status.waveV = true)
    (hc : checkNoise s.noiseMode s.cfg.noiseLevel = none) :
    exec .channel (completeOk s) = exec .channel s := by
  rw [exec_channel_eq (s := completeOk s) hw hc, exec_channel_eq hw hc, afterChannel_completeOk]

theorem exec_slice_completeOk (hr : s.status.rxV = true) :
    exec .slice (completeOk s) = exec .slice s := by
  rw [exec_slice_ok (s := completeOk s) hr, exec_slice_ok hr, bodySlice_ok (s := completeOk s) hr,
    bodySlice_ok hr]
  rfl

end

/-! ### How a CHANNEL and a SLICE end -/

theorem Result.eq_ok {r : Result} (h : r.error = none) : r = .ok r.state := by
  rw [Result.ok, ← h]

theorem Result.eq_raise {r : Result} {e : CmdError} (h : r.error = some e) :
    r = .raise e r.state := by
  rw [Result.raise, ← h]

/-- Everything the SNR report can come to: no error, or one of the two errors of a strict ratio (R239,
R240). -/
theorem SnrReported.cases {N : Numerics} {vtx vn : F64} {strict : Bool} {flags : Status} {t : State}
    (h : SnrReported N vtx vn strict flags t) : t.status = doneOk flags ∨
      (strict = true ∧ t.res.snrMeas = F64.qnan ∧
        ∃ info, (info = 0x30 ∨ info = 0x31) ∧ t.status = doneErr 3 info flags) := by
  unfold SnrReported at h
  split at h
  · next hnoise => exact .inr ⟨hnoise.1, h.2, 0x30, .inl rfl, h.1⟩
  · split at h
    · next hsignal => exact .inr ⟨hsignal.1, h.2, 0x31, .inr rfl, h.1⟩
    · exact .inl h.1

/-- A CHANNEL that passes its checks is its body, then completion, whatever its report. -/
theorem complete_bodyChannel {s : State} {N : Numerics} (hw : s.status.waveV = true)
    (hc : checkNoise s.noiseMode s.cfg.noiseLevel = none) :
    complete (bodyChannel N s) = s.afterChannel N := by
  rw [bodyChannel_ok hw hc]
  rfl

/-- STATUS after a SLICE that passes its check (R260, R313). -/
theorem status_of_exec_slice {s t : State} (hr : s.status.rxV = true)
    (ht : exec .slice s = .next t) :
    t.status = doneOk (s.status.validSlice (anyDegenerate s)) := by
  rw [exec_slice_ok hr] at ht
  cases ht
  rw [completeOk_bodySlice_eq hr]

/-! ### The five commands -/

section
variable {s : State} {c : Scheme} (h : RunPasses s c)
include h

/-- The first four commands in turn leave the states of a RUN's bodies, each completed. -/
theorem exec_first_four :
    exec .genBits s = .next (completeOk (s.afterGenBits Config.numerics)) ∧
    exec .map (completeOk (s.afterGenBits Config.numerics))
      = .next (completeOk (s.afterMap Config.numerics)) ∧
    exec .synth (completeOk (s.afterMap Config.numerics))
      = .next (completeOk (s.afterSynth Config.numerics)) ∧
    exec .channel (completeOk (s.afterSynth Config.numerics))
      = .next ((s.afterSynth Config.numerics).afterChannel Config.numerics) := by
  refine ⟨?_, ?_, ?_, ?_⟩
  · rw [exec_genBits_ok h.bitCount, State.afterGenBits, bodyGenBits_ok h.bitCount, ok_state]
  · rw [exec_map_completeOk (afterGenBits_scheme h) (afterGenBits_bitsV h),
      exec_map_ok (afterGenBits_scheme h) (afterGenBits_bitsV h), State.afterMap]
  · rw [exec_synth_completeOk (afterMap_symV h) (afterMap_check h),
      exec_synth_ok (afterMap_symV h) (afterMap_check h), State.afterSynth]
  · rw [exec_channel_completeOk (afterSynth_waveV h) (afterSynth_check h),
      exec_channel_eq (afterSynth_waveV h) (afterSynth_check h)]

theorem afterSynth_status (N : Numerics) :
    (s.afterSynth N).status = s.status.validGenBits.validMap.validSynth := by
  rw [State.afterSynth, bodySynth_status (afterMap_symV h) (afterMap_check h), State.afterMap,
    bodyMap_status (afterGenBits_scheme h) (afterGenBits_bitsV h), State.afterGenBits,
    bodyGenBits_status h.bitCount]

omit h in
theorem afterSynth_strictSnr (N : Numerics) : (s.afterSynth N).strictSnr = s.strictSnr := by
  rw [State.strictSnr, (afterSynth_frame N s).cfg]
  rfl

theorem complete_channel_afterSynth (N : Numerics) :
    complete (bodyChannel N (s.afterSynth N)) = (s.afterSynth N).afterChannel N :=
  complete_bodyChannel (afterSynth_waveV h) (afterSynth_check h)

theorem exec_run_eq : exec .run s = .next (complete
    ((bodyChannel Config.numerics (s.afterSynth Config.numerics)).andThen bodySlice)) := by
  rw [exec_eq, bodyOf, bodyRun_eq h]

/-- A RUN whose CHANNEL meets no error ends as SLICE does (R316). -/
theorem exec_run_of_channel_ok
    (hok : ((s.afterSynth Config.numerics).afterChannel Config.numerics).status.errCode = 0) :
    exec .run s = exec .slice ((s.afterSynth Config.numerics).afterChannel Config.numerics) := by
  rw [← complete_channel_afterSynth h] at hok ⊢
  have hbody := Result.eq_ok (error_eq_none_of_errCode hok)
  have hrx : (bodyChannel Config.numerics (s.afterSynth Config.numerics)).state.status.rxV = true := by
    rw [bodyChannel_ok (afterSynth_waveV h) (afterSynth_check h), reportSnr_status,
      channelWrites_status, validChannel_rxV]
  rw [exec_run_eq h, hbody, andThen_ok, complete_ok, exec_slice_completeOk hrx, exec_eq, bodyOf]

/-- A RUN whose CHANNEL meets an error ends with CHANNEL's state (R318). -/
theorem exec_run_of_channel_error
    (herr : ((s.afterSynth Config.numerics).afterChannel Config.numerics).status.errCode ≠ 0) :
    exec .run s = .next ((s.afterSynth Config.numerics).afterChannel Config.numerics) := by
  rw [← complete_channel_afterSynth h] at herr ⊢
  rw [exec_run_eq h]
  cases hres : (bodyChannel Config.numerics (s.afterSynth Config.numerics)).error with
  | none =>
    rw [Result.eq_ok hres] at herr
    exact absurd rfl herr
  | some e => rw [Result.eq_raise hres, andThen_raise]

end

/-- Settles O36: the first four commands leave the states of the RUN's bodies, and SLICE and the RUN
then end alike. -/
theorem runEqualsTheFiveCommands : Obligations.RunEqualsTheFiveCommands := by
  intro s hpass
  obtain ⟨c, h⟩ := runPasses_of_passes hpass
  obtain ⟨hgen, hmap, hsynth, hchannel⟩ := exec_first_four h
  have hslice := exec_eq .slice ((s.afterSynth Config.numerics).afterChannel Config.numerics)
  have hreport := (afterChannel_snr Config.numerics (s.afterSynth Config.numerics)).cases
  rw [afterSynth_strictSnr, afterSynth_status h] at hreport
  refine ⟨_, _, _, _, _, hgen, hmap, hsynth, hchannel, hslice, fun hok => ?_, fun hstrict => ?_⟩
  · obtain hstatus | ⟨-, -, info, -, hstatus⟩ := hreport
    · have hdone := status_of_exec_slice (by rw [hstatus]; rfl) hslice
      rw [hstatus] at hdone
      refine ⟨(exec_run_of_channel_ok h hok).trans hslice, ?_⟩
      rw [hdone]
      exact ⟨rfl, rfl, rfl, rfl, rfl, rfl, rfl, complete_pending _⟩
    · rw [hstatus] at hok
      exact absurd hok (by simp [doneErr])
  · obtain hstatus | ⟨hs, -⟩ := hreport
    · rw [hstatus]
      rfl
    · exact absurd hs (Bool.eq_false_iff.mp hstrict)

/-! ### What a strict error leaves -/

/-- An entry of another command's window is left as it was. -/
theorem readWord_of_onlyStored {s t : State} {ws : List (Region × Nat)} (h : OnlyStored s t ws)
    {p : Params} (hp : p.legal = true) {r : Region} {i : Instr} (hr : writer r = some i)
    (hws : ∀ w ∈ ws, writer w.1 ≠ some i ∧ w.2 ≤ w.1.capacity p) {j : Nat} (hj : j < r.capacity p) :
    readWord t.mem (r.entryAddr j) = readWord s.mem (r.entryAddr j) := by
  refine readWord_congr fun k hk => h _ ?_
  rintro ⟨w, hw, hlo, hhi⟩
  obtain ⟨hwriter, hfit⟩ := hws w hw
  have hne : w.1 ≠ r := fun heq => hwriter (heq ▸ hr)
  have hdisj := regions_disjoint hne
  have hspan := capacity_span hp w.1
  have hbounds := entryAddr_bounds hp hj
  unfold Region.entryAddr at *
  omega

section
variable {s : State} {c : Scheme} (h : RunPasses s c) (N : Numerics)
include h

theorem afterSynth_errCnt : (s.afterSynth N).res.errCnt = s.res.errCnt := by
  rw [State.afterSynth, bodySynth_res (afterMap_symV h) (afterMap_check h), State.afterMap,
    bodyMap_res (afterGenBits_scheme h) (afterGenBits_bitsV h), State.afterGenBits,
    bodyGenBits_res h.bitCount]

/-- The symbols of a RUN are no more than its bits, which its first check bounds (R172, R317). -/
theorem runSymbols_le : symbolCount c s.bitCount.toNat ≤ s.params.nMax := by
  obtain ⟨-, hhi⟩ := checkBitCount_none.mp h.bitCount
  exact (symbolCount_le c _).trans (by omega)

/-- The samples of a RUN's SYNTH fit the windows (R12, R317). -/
theorem runSamples_le : (s.afterMap N).res.symLen.toNat * (s.afterMap N).samplesPerSymbol.toNat
    ≤ s.params.nMax * s.params.spsMax := by
  obtain ⟨-, hhi⟩ := checkSynth_none (afterMap_check (N := N) h)
  rw [(afterMap_frame N s).params] at hhi
  rw [afterMap_symLen h]
  exact Nat.mul_le_mul (runSymbols_le h) (by omega)

theorem afterSynth_sampLen_le (hm : s.MemInv) :
    (s.afterSynth N).res.sampLen.toNat ≤ s.params.nMax * s.params.spsMax := by
  rw [State.afterSynth, bodySynth_res (afterMap_symV h) (afterMap_check h)]
  exact (toNat_ofNat_of_le_lMax hm (runSamples_le h N)).trans_le (runSamples_le h N)

/-- The first four bodies of a RUN leave SLICE's windows as they were. -/
theorem afterChannel_readWord_slice (hm : s.MemInv) {r : Region} (hr : writer r = some .slice)
    {j : Nat} (hj : j < r.capacity s.params) :
    readWord ((s.afterSynth N).afterChannel N).mem (r.entryAddr j)
      = readWord s.mem (r.entryAddr j) := by
  have hgenWf : Memory.wf (s.afterGenBits N).mem := bodyGenBits_wf hm.canonical N
  have hmapWf : Memory.wf (s.afterMap N).mem := bodyMap_wf hgenWf
  have hsynthWf : Memory.wf (s.afterSynth N).mem := bodySynth_wf hmapWf N
  have hgen : OnlyStored s (s.afterGenBits N) [(.bits, ceilDiv s.bitCount.toNat 64)] := by
    rw [State.afterGenBits, bodyGenBits_ok h.bitCount]
    exact onlyStored_fillAll hm.canonical [⟨.bits, _, _⟩]
  have hmap := bodyMap_onlyStored (afterGenBits_scheme h) (afterGenBits_bitsV h) hgenWf
  have hsynth := bodySynth_onlyStored (afterMap_symV h) (afterMap_check h) hmapWf N
  have hchannel := channelWrites_onlyStored hsynthWf N (s.afterSynth N).txVariance
    ((s.afterSynth N).channelPower N)
  rw [afterGenBits_bitsLen h] at hmap
  have hbits : ceilDiv s.bitCount.toNat 64 ≤ Region.bits.capacity s.params := by
    obtain ⟨-, hhi⟩ := checkBitCount_none.mp h.bitCount
    exact bitWords_le_capacity hm.legal (by omega)
  have hsymbols := runSymbols_le h
  have hwave := runSamples_le h N
  have hrx := afterSynth_sampLen_le h N hm
  rw [afterChannel_mem]
  calc
    _ = readWord (s.afterSynth N).mem (r.entryAddr j) :=
      readWord_of_onlyStored hchannel hm.legal hr (by simpa [writer] using ⟨hrx, hrx, hrx, hrx⟩) hj
    _ = readWord (s.afterMap N).mem (r.entryAddr j) :=
      readWord_of_onlyStored hsynth hm.legal hr
        (by simpa [writer] using ⟨hwave, hwave, hwave, hwave⟩) hj
    _ = readWord (s.afterGenBits N).mem (r.entryAddr j) :=
      readWord_of_onlyStored hmap hm.legal hr (by simpa [writer] using ⟨hsymbols, hsymbols⟩) hj
    _ = readWord s.mem (r.entryAddr j) :=
      readWord_of_onlyStored hgen hm.legal hr (by simpa [writer] using hbits) hj

end

/-- Settles O37: the report of CHANNEL inside the RUN is a strict error, and SLICE's windows and
ERRCNT are written by SLICE alone. -/
theorem runStopsAtTheStrictError : Obligations.RunStopsAtTheStrictError := by
  intro s t1 t2 t3 t4 hpass h1 h2 h3 h4 herr
  obtain ⟨c, h⟩ := runPasses_of_passes hpass
  obtain ⟨hgen, hmap, hsynth, hchannel⟩ := exec_first_four h
  cases hgen.symm.trans h1
  cases hmap.symm.trans h2
  cases hsynth.symm.trans h3
  cases hchannel.symm.trans h4
  obtain hstatus | ⟨-, hsnr, info, hinfo, hstatus⟩ :=
    (afterChannel_snr Config.numerics (s.afterSynth Config.numerics)).cases
  · exact absurd (by rw [hstatus]; rfl) herr
  refine ⟨exec_run_of_channel_error h herr, by rw [hstatus]; rfl, hsnr, by rw [hstatus]; exact hinfo,
    by rw [hstatus]; rfl, by rw [hstatus]; rfl, ?_, fun hm r j hr hj => ?_⟩
  · rw [afterChannel_res]
    exact afterSynth_errCnt h _
  · exact afterChannel_readWord_slice h _ hm (by obtain rfl | rfl | rfl := hr <;> rfl) hj

end Sys2Proof.Machine
end

section
/-! PROOF. How commands end (60_exceptions.md R334, R335, R338, R339): a command whose checks pass
meets no error but a strict ratio, any other error is the one its checks found, and a word that is
no command's meets ILLEGAL_COMMAND. -/

namespace Sys2Proof.Machine

open Sys2Proof.Claims

/-! ### The commands whose checks pass -/

section
variable {s : State}

theorem passes_map_iff : Passes .map s ↔
    ∃ c, Scheme.ofCode s.cfg.scheme = some c ∧ s.status.bitsV = true := by
  rw [← checkError_eq_none_iff, checkError]
  cases Scheme.ofCode s.cfg.scheme <;> simp

theorem passes_slice_iff : Passes .slice s ↔ s.status.rxV = true := by
  rw [← checkError_eq_none_iff, checkError]
  cases s.status.rxV <;> simp

theorem scheme_of_passes_ber (h : Passes .ber s) : ∃ c, Scheme.ofCode s.cfg.scheme = some c := by
  rw [← checkError_eq_none_iff, checkError] at h
  cases hc : Scheme.ofCode s.cfg.scheme with
  | none => rw [hc] at h; cases h
  | some c => exact ⟨c, rfl⟩

end

/-- The error code of a CHANNEL that passes its checks (R239, R335). -/
theorem afterChannel_errCode (N : Numerics) (s : State) : (s.afterChannel N).status.errCode = 0 ∨
    ((s.afterChannel N).status.errCode = 3 ∧ s.strictSnr = true) := by
  obtain hstatus | ⟨hstrict, -, info, -, hstatus⟩ := (afterChannel_snr N s).cases
  · exact .inl (by rw [hstatus]; rfl)
  · exact .inr ⟨by rw [hstatus]; rfl, hstrict⟩

theorem afterChannel_rxV (N : Numerics) (s : State) :
    (s.afterChannel N).status.rxV = true := by
  obtain hstatus | ⟨-, -, info, -, hstatus⟩ := (afterChannel_snr N s).cases <;> rw [hstatus] <;> rfl

/-- Settles O17: a passing body raises nothing, but for the report of CHANNEL, alone or in a RUN. -/
theorem passingCommandsSucceed : Obligations.PassingCommandsSucceed := by
  intro i s hpass
  cases i with
  | nop => exact ⟨_, exec_eq .nop s, .inl rfl⟩
  | clear => exact ⟨_, exec_eq .clear s, .inl rfl⟩
  | genBits => exact ⟨_, exec_genBits_ok (passes_genBits_iff.mp hpass), .inl rfl⟩
  | map =>
    obtain ⟨c, hc, hb⟩ := passes_map_iff.mp hpass
    exact ⟨_, exec_map_ok hc hb, .inl rfl⟩
  | synth =>
    obtain ⟨hs, hc⟩ := passes_synth_iff.mp hpass
    exact ⟨_, exec_synth_ok hs hc, .inl rfl⟩
  | channel =>
    obtain ⟨hw, hc⟩ := passes_channel_iff.mp hpass
    exact ⟨_, exec_channel_eq hw hc,
      (afterChannel_errCode _ s).imp id fun ⟨hcode, hstrict⟩ => ⟨hcode, hstrict, .inl rfl⟩⟩
  | slice => exact ⟨_, exec_slice_ok (passes_slice_iff.mp hpass), .inl rfl⟩
  | ber =>
    obtain ⟨c, hc⟩ := scheme_of_passes_ber hpass
    obtain ⟨hk, hf⟩ := (passes_ber_iff hc).mp hpass
    exact ⟨_, exec_ber_ok hc hk hf, .inl rfl⟩
  | run =>
    obtain ⟨c, h⟩ := runPasses_of_passes hpass
    obtain hok | ⟨hcode, hstrict⟩ :=
      afterChannel_errCode Config.numerics (s.afterSynth Config.numerics)
    · have hslice := exec_slice_ok (afterChannel_rxV Config.numerics (s.afterSynth Config.numerics))
      exact ⟨_, (exec_run_of_channel_ok h hok).trans hslice, .inl rfl⟩
    · have herr : ((s.afterSynth Config.numerics).afterChannel
          Config.numerics).status.errCode ≠ 0 := by rw [hcode]; decide
      rw [afterSynth_strictSnr] at hstrict
      exact ⟨_, exec_run_of_channel_error h herr, .inr ⟨hcode, hstrict, .inr rfl⟩⟩

/-! ### Errors -/

/-- Settles O18: an error that is no strict ratio is one the checks report, before any write. -/
theorem errorsArePrecise : Obligations.ErrorsArePrecise := by
  intro i s t ht hne0 hne3
  cases hfail : firstFailing (checks i s) with
  | none =>
    obtain ⟨u, hu, hend⟩ := passingCommandsSucceed i s hfail
    cases ht.symm.trans hu
    obtain h0 | ⟨h3, -⟩ := hend
    · exact absurd h0 hne0
    · exact absurd h3 hne3
  | some pair =>
    obtain ⟨code, info⟩ := pair
    have hfails : FailsWith i s code info := checksReportInOrder i s code info hfail
    cases ht.symm.trans hfails
    rfl

/-- The SEQUENCER rejects a pending word that does not decode (R312, R334). -/
theorem sequencerStep_of_decode_error {s : State} {w : Word} {e : DecodeError}
    (hpend : s.pending = some w) (hdec : decode w = .error e) :
    sequencerStep s = .next (takeError (illegalError e) s) := by
  rw [sequencerStep, hpend]
  dsimp only
  rw [hdec]
  rfl

/-- Settles O12: the decoder's two rejections, each with its error entry. -/
theorem illegalCommandWords : Obligations.IllegalCommandWords := by
  intro s w h
  have hstep {e : DecodeError} (hdec : decode w = .error e) :
      step s = .next (takeError (illegalError e) (advance s)) := by
    rw [step_of_performs h]
    obtain ⟨hpend, -⟩ := h
    exact sequencerStep_of_decode_error (s := advance s) hpend hdec
  exact ⟨fun hres => hstep (decode_eq_reservedBits_iff.mpr hres),
    fun hres hop => hstep (decode_eq_undefinedOpcode_iff.mpr ⟨hres, hop⟩)⟩

end Sys2Proof.Machine
end

section
/-! PROOF. The sticky flags (60_exceptions.md R343): of the bodies only CLEAR's clears one, of the
host's accesses only the W1C write. -/

namespace Sys2Proof.Machine

open Sys2Proof.Claims

/-- ERR, HAZ, BUSERR and DEGEN, each with its bit of STATUS (R45, R343). -/
def stickyFlags : List (Nat × (Status → Bool)) :=
  [(2, Status.err), (3, Status.haz), (4, Status.busErr), (5, Status.degen)]

/-- Every sticky flag that is 1 in `st` is 1 in `st'`. -/
def KeepsSticky (st st' : Status) : Prop := ∀ b ∈ stickyFlags, b.2 st = true → b.2 st' = true

section
variable {st st' st'' : Status}

theorem keepsSticky_iff : KeepsSticky st st' ↔
    (st.err = true → st'.err = true) ∧ (st.haz = true → st'.haz = true) ∧
      (st.busErr = true → st'.busErr = true) ∧ (st.degen = true → st'.degen = true) := by
  simp [KeepsSticky, stickyFlags]

theorem KeepsSticky.refl (st : Status) : KeepsSticky st st := fun _ _ => id

theorem KeepsSticky.trans (h : KeepsSticky st st') (h' : KeepsSticky st' st'') :
    KeepsSticky st st'' := fun b hb => h' b hb ∘ h b hb

end

/-- The W1C write clears a sticky flag exactly where its bit is written 1 (R46). -/
theorem flag_writeOneToClear {bit : Nat} {flag : Status → Bool} (h : (bit, flag) ∈ stickyFlags)
    (st : Status) (v : Word) : flag (st.writeOneToClear v) = (flag st && !v.getLsbD bit) := by
  simp only [stickyFlags, List.mem_cons, Prod.mk.injEq, List.not_mem_nil, or_false] at h
  obtain ⟨rfl, rfl⟩ | ⟨rfl, rfl⟩ | ⟨rfl, rfl⟩ | ⟨rfl, rfl⟩ := h <;> rfl

/-! ### The bodies -/

/-- One row of the VALID table (R67) applied to STATUS. -/
inductive ValidRow : Status → Status → Prop
  | genBits (st : Status) : ValidRow st st.validGenBits
  | map (st : Status) : ValidRow st st.validMap
  | synth (st : Status) : ValidRow st st.validSynth
  | channel (st : Status) : ValidRow st st.validChannel
  | slice (st : Status) (degenerate : Bool) : ValidRow st (st.validSlice degenerate)
  | ber (st : Status) : ValidRow st st.validBer

/-- Any number of rows of the VALID table, one after the other. -/
abbrev ValidRows : Status → Status → Prop := Relation.ReflTransGen ValidRow

theorem ValidRow.keepsSticky {st st' : Status} (h : ValidRow st st') : KeepsSticky st st' := by
  rw [keepsSticky_iff]
  cases h with
  | slice degenerate => exact ⟨id, id, id, fun hd => by rw [validSlice_degen, hd, Bool.true_or]⟩
  | genBits | map | synth | channel | ber => exact ⟨id, id, id, id⟩

theorem ValidRows.keepsSticky {st st' : Status} (h : ValidRows st st') : KeepsSticky st st' := by
  induction h with
  | refl => exact .refl st
  | tail _ hrow ih => exact ih.trans hrow.keepsSticky

theorem ValidRows.andThen {s : State} {r : Result} {f : State → Result}
    (h : ValidRows s.status r.state.status)
    (hf : ∀ t : State, ValidRows t.status (f t).state.status) :
    ValidRows s.status (r.andThen f).state.status := by
  unfold Result.andThen
  cases r.error with
  | none => exact h.trans (hf r.state)
  | some e => exact h

section
variable (N : Numerics) (s : State)

theorem bodyGenBits_validRows : ValidRows s.status (bodyGenBits N s).state.status := by
  obtain ⟨e, h⟩ | h := bodyGenBits_cases N s
  · rw [h]; exact .refl
  · rw [bodyGenBits_status h]; exact .single (.genBits _)

theorem bodyMap_validRows : ValidRows s.status (bodyMap s).state.status := by
  obtain ⟨e, h⟩ | ⟨c, hc, hb⟩ := bodyMap_cases s
  · rw [h]; exact .refl
  · rw [bodyMap_status hc hb]; exact .single (.map _)

theorem bodySynth_validRows : ValidRows s.status (bodySynth N s).state.status := by
  obtain ⟨e, h⟩ | ⟨hs, hc⟩ := bodySynth_cases N s
  · rw [h]; exact .refl
  · rw [bodySynth_status hs hc]; exact .single (.synth _)

theorem bodyChannel_validRows : ValidRows s.status (bodyChannel N s).state.status := by
  obtain ⟨e, h⟩ | ⟨hw, hc⟩ := bodyChannel_cases N s
  · rw [h]; exact .refl
  · rw [bodyChannel_ok hw hc, reportSnr_status, channelWrites_status]; exact .single (.channel _)

theorem bodySlice_validRows : ValidRows s.status (bodySlice s).state.status := by
  obtain ⟨e, h⟩ | hr := bodySlice_cases s
  · rw [h]; exact .refl
  · rw [bodySlice_status hr]; exact .single (.slice _ _)

theorem bodyBer_validRows : ValidRows s.status (bodyBer N s).state.status := by
  obtain ⟨e, h⟩ | ⟨c, hc, hk, hf⟩ := bodyBer_cases N s
  · rw [h]; exact .refl
  · rw [bodyBer_status hc hk hf]; exact .single (.ber _)

theorem bodyRun_validRows : ValidRows s.status (bodyRun N s).state.status := by
  cases h : runChecks s with
  | some e => rw [bodyRun, h]; exact .refl
  | none =>
    rw [bodyRun_ok h]
    exact ((((bodyGenBits_validRows N s).andThen bodyMap_validRows).andThen
      (bodySynth_validRows N)).andThen (bodyChannel_validRows N)).andThen bodySlice_validRows

end

/-- A body other than CLEAR's changes STATUS by rows of the VALID table alone (R67). -/
theorem bodyOf_validRows {i : Instr} (hi : i ≠ .clear) (s : State) :
    ValidRows s.status (bodyOf i s).state.status := by
  cases i with
  | nop => exact .refl
  | clear => exact absurd rfl hi
  | genBits => exact bodyGenBits_validRows _ s
  | map => exact bodyMap_validRows s
  | synth => exact bodySynth_validRows _ s
  | channel => exact bodyChannel_validRows _ s
  | slice => exact bodySlice_validRows s
  | ber => exact bodyBer_validRows _ s
  | run => exact bodyRun_validRows _ s

theorem complete_keepsSticky (r : Result) : KeepsSticky r.state.status (complete r).status := by
  rw [keepsSticky_iff]
  obtain ⟨-, h⟩ | ⟨e, -, h⟩ := complete_cases r <;> rw [h]
  · exact ⟨id, id, id, id⟩
  · exact ⟨fun _ => rfl, id, id, id⟩

theorem sequencerStep_keepsSticky {s t : State} (hclear : s.pending ≠ some (encode .clear))
    (h : sequencerStep s = .next t) : KeepsSticky s.status t.status := by
  obtain ⟨-, h'⟩ | ⟨w, i, hw, hdec, h'⟩ | ⟨w, e, -, -, h'⟩ := sequencerStep_cases s <;>
    rw [h'] at h <;> cases h
  · exact .refl _
  · have hi : i ≠ .clear := by
      rintro rfl
      exact hclear (eq_encode_of_decode hdec ▸ hw)
    exact (bodyOf_validRows hi s).keepsSticky.trans (complete_keepsSticky _)
  · exact complete_keepsSticky (.raise _ s)

/-! ### The host -/

theorem setBusErr_keepsSticky (s : State) : KeepsSticky s.status s.setBusErr.status :=
  keepsSticky_iff.mpr ⟨id, id, fun _ => rfl, id⟩

theorem setHaz_keepsSticky (s : State) : KeepsSticky s.status s.setHaz.status :=
  keepsSticky_iff.mpr ⟨id, fun _ => rfl, id, id⟩

theorem hostRead_keepsSticky (a : Addr) (width : Width) (s : State) :
    KeepsSticky s.status (hostRead a width s).2.status := by
  obtain h | h | h := hostRead_cases a width s <;> rw [h]
  · exact .refl _
  · exact setBusErr_keepsSticky s
  · exact .refl _

/-- A register write keeps the sticky flags, unless it is the W1C write (R46). -/
theorem writeReg_keepsSticky (r : Reg) (v : Word) (s : State) :
    KeepsSticky s.status (s.writeReg r v).status ∨
      (r = .status ∧ (s.writeReg r v).status = s.status.writeOneToClear v) := by
  obtain ⟨cfg, h⟩ | ⟨hr, h⟩ | ⟨-, h⟩ | h := writeReg_cases v s r <;> rw [h]
  · exact .inl (.refl _)
  · exact .inr ⟨hr, rfl⟩
  · exact .inl (keepsSticky_iff.mpr ⟨id, id, id, id⟩)
  · exact .inl (.refl _)

/-- A host write keeps the sticky flags, unless it is the W1C write (R46, R343). -/
theorem hostWrite_keepsSticky (a : Addr) (width : Width) (v : Word) (s : State) :
    KeepsSticky s.status (hostWrite a width v s).status ∨
      (a = statusAddr ∧ width = .full ∧
        (hostWrite a width v s).status = s.status.writeOneToClear v) := by
  obtain h | ⟨-, h⟩ | ⟨-, r, ha, hw, h⟩ | ⟨-, r, j, -, -, -, -, h⟩ | ⟨-, h⟩ :=
    hostWrite_cases a width v s <;> rw [h]
  · exact .inl (setBusErr_keepsSticky s)
  · exact .inl (setHaz_keepsSticky s)
  · exact (writeReg_keepsSticky r v s).imp id fun ⟨hr, hst⟩ =>
      ⟨BitVec.eq_of_toNat_eq (by rw [ha, hr]; rfl), hw, hst⟩
  · exact .inl (.refl _)
  · exact .inl (.refl _)

/-- A host step keeps the sticky flags, unless it is the W1C write (R46, R343). -/
theorem hostStep_keepsSticky (s : State) : KeepsSticky s.status (hostStep s).status ∨
    ∃ v rest, s.hostProg = .write statusAddr .full v :: rest ∧
      (hostStep s).status = s.status.writeOneToClear v := by
  obtain h | ⟨op, rest, hprog, ⟨a, width, -, h | h⟩ | ⟨a, width, v, rfl, h⟩ | ⟨-, h⟩⟩ :=
    hostStep_cases s <;> rw [h]
  · exact .inl (.refl _)
  · exact .inl (hostRead_keepsSticky a width s)
  · exact .inl (hostRead_keepsSticky a width s)
  · refine (hostWrite_keepsSticky a width v s).imp id ?_
    rintro ⟨rfl, rfl, hst⟩
    exact ⟨v, rest, hprog, hst⟩
  · exact .inl (.refl _)

/-! ### One step -/

theorem advance_of_sched_nil {s : State} (h : s.sched = []) : advance s = s := by
  rw [advance, h, List.tail_nil, ← h]

/-- Everything a step can be, by the mover whose turn it is, with the interleaving advanced (R100,
R370, R385). -/
theorem step_mover_cases {s t : State} (h : step s = .next t) : ResetNext s ∨
    (((s.sched = [] ∧ s.pending = none) ∨ ∃ rest, s.sched = .host :: rest) ∧
      t = hostStep (advance s)) ∨
    (SequencerNext s ∧ sequencerStep (advance s) = .next t) := by
  cases hsched : s.sched with
  | nil =>
    rw [step_of_sched_nil hsched, defaultAgent] at h
    rw [advance_of_sched_nil hsched]
    cases hbusy : s.busy with
    | true => rw [hbusy] at h; exact .inr (.inr ⟨.inl hsched, h⟩)
    | false =>
      rw [hbusy] at h
      cases h
      exact .inr (.inl ⟨.inl ⟨rfl, busy_eq_false_iff.mp hbusy⟩, rfl⟩)
  | cons a rest =>
    rw [step_of_sched_cons hsched] at h
    rw [advance, hsched]
    cases a with
    | host => cases h; exact .inr (.inl ⟨.inr ⟨rest, rfl⟩, rfl⟩)
    | sequencer => exact .inr (.inr ⟨.inr ⟨rest, hsched⟩, h⟩)
    | reset => exact .inl ⟨rest, hsched⟩

/-- Settles O55: by the mover whose turn it is. -/
theorem stickyFlagsClearOnlyBy : Obligations.StickyFlagsClearOnlyBy := by
  intro s t hstep hreset hclear bit flag hflag hset hhost
  obtain hnext | ⟨hnext, rfl⟩ | ⟨hnext, hseq⟩ := step_mover_cases hstep
  · exact absurd hnext hreset
  · obtain hkeeps | ⟨v, rest, hprog, hst⟩ := hostStep_keepsSticky (advance s)
    · exact hkeeps _ hflag hset
    · have hbit : v.getLsbD bit = false :=
        Bool.eq_false_iff.mpr fun hv => hhost v hv ⟨⟨rest, hprog⟩, hnext⟩
      rw [hst, flag_writeOneToClear hflag, hbit, Bool.not_false, Bool.and_true]
      exact hset
  · have hpend : (advance s).pending ≠ some (encode .clear) := fun hp => hclear ⟨hp, hnext⟩
    exact sequencerStep_keepsSticky hpend hseq _ hflag hset

end Sys2Proof.Machine
end

section
/-! PROOF. Waiting for BUSY = 0 (70_reset_and_hazards.md R380, R385): the settled block is idle, and
an idle block's STATUS ends the wait. -/

namespace Sys2Proof.Machine

section
variable {s : State}

/-- The SEQUENCER's step settles the block (R312). -/
theorem sequencerStep_eq_settled (s : State) : sequencerStep s = .next s.settled := by
  obtain ⟨t, ht⟩ := agentStep_next .sequencer s
  have hseq : sequencerStep s = .next t := ht
  rw [State.settled, hseq]

/-- Settling the block leaves the host's side as it was (R101). -/
theorem settled_frame (s : State) : s.settled = { s with
    mem := s.settled.mem, pending := none, res := s.settled.res, status := s.settled.status } := by
  obtain ⟨hp, h⟩ | ⟨w, i, -, -, h⟩ | ⟨w, e, -, -, h⟩ := settled_cases s <;> rw [h]
  · rw [← hp]
  · exact complete_eq_of_sameFrame (bodyOf_frame i s)
  · exact complete_eq_of_sameFrame (r := .raise (illegalError e) s) (.refl s)

theorem settled_done (h : s.pending.isSome = true) : s.settled.status.done = true := by
  obtain ⟨hidle, -⟩ | ⟨w, i, -, -, hs⟩ | ⟨w, e, -, -, hs⟩ := settled_cases s
  · rw [hidle] at h
    cases h
  · rw [hs]
    exact complete_done _
  · rw [hs]
    rfl

theorem settled_sched (s : State) : s.settled.sched = s.sched := by rw [settled_frame]
theorem settled_hostProg (s : State) : s.settled.hostProg = s.hostProg := by rw [settled_frame]
theorem settled_readLog (s : State) : s.settled.readLog = s.readLog := by rw [settled_frame]

/-- STATUS of an idle block has BUSY = 0 (R45, R69). -/
theorem statusWord_not_busy (hidle : s.pending = none) : s.statusWord.getLsbD 0 = false := by
  obtain ⟨hbit, -⟩ := statusWord_bits s
  rw [hbit, hidle, Option.isSome_none]

/-- A wait that finds the block idle goes on (R129, R380). -/
theorem hostStep_wait_of_idle (hidle : s.pending = none) {rest : List HostOp}
    (hprog : s.hostProg = .wait :: rest) : hostStep s = { s with
      hostProg := rest, readLog := (statusAddr, s.statusWord) :: s.readLog } := by
  have hread : hostRead statusAddr .full s = (s.statusWord, s) := hostRead_reg hidle .status
  have hnext : ¬ s.statusWord.getLsbD 0 = true := Bool.eq_false_iff.mp (statusWord_not_busy hidle)
  simp only [hostStep, hprog, hostOp, hread, if_neg hnext]
  rfl

variable (hsched : s.sched = [])
include hsched

/-- In the default order a pending command is performed at once (R385). -/
theorem step_of_pending (hpend : s.pending.isSome = true) : step s = .next s.settled := by
  have hagent : defaultAgent s = .sequencer := if_pos hpend
  rw [step_of_sched_nil hsched, hagent]
  exact sequencerStep_eq_settled s

/-- In the default order the host moves when no command is pending (R100, R386). -/
theorem step_of_idle (hidle : s.pending = none) : step s = .next (hostStep s) := by
  have hagent : defaultAgent s = .host :=
    if_neg (Bool.eq_false_iff.mp (busy_eq_false_iff.mpr hidle))
  rw [step_of_sched_nil hsched, hagent]
  rfl

end

/-- Settles O57: one step settles the block where a command is pending, one more ends the wait. -/
theorem waitEnds : Obligations.WaitEnds := by
  intro s rest hsched hprog
  have hwait {u : State} (hu : u.sched = []) (hidle : u.pending = none)
      (hnext : u.hostProg = .wait :: rest) : Host.Core.run Sys2Proof.core 1 u = .next { u with
        hostProg := rest, readLog := (statusAddr, u.statusWord) :: u.readLog } := by
    rw [coreRun_succ (M := Sys2Proof.core) (step_of_idle hu hidle),
      hostStep_wait_of_idle hidle hnext]
    rfl
  cases hpend : s.pending with
  | none =>
    exact ⟨1, _, by omega, hwait hsched hpend hprog, hpend, rfl, nofun, _, rfl,
      statusWord_not_busy hpend⟩
  | some w =>
    have hsome : s.pending.isSome = true := by rw [hpend]; rfl
    have hidle := settled_pending s
    have hrun := hwait ((settled_sched s).trans hsched) hidle ((settled_hostProg s).trans hprog)
    exact ⟨2, _, le_rfl,
      (coreRun_succ (M := Sys2Proof.core) (step_of_pending hsched hsome) 1).trans hrun,
      hidle, rfl, fun _ => settled_done hsome, _, congrArg (List.cons _) (settled_readLog s),
      statusWord_not_busy hidle⟩

end Sys2Proof.Machine
end

section
/-! PROOF. Reset (70_reset_and_hazards.md R370 to R373, R376). -/

namespace Sys2Proof.Machine

/-- PARAM's fields (R43). -/
theorem paramWord_fields (p : Params) :
    (paramWord p).extractLsb' 0 16 = BitVec.ofNat 16 p.nMax ∧
    (paramWord p).extractLsb' 16 16 = BitVec.ofNat 16 p.spsMax ∧
    (paramWord p).extractLsb' 32 16 = BitVec.ofNat 16 p.berMax ∧
    (paramWord p).extractLsb' 48 16 = 0 := by
  unfold paramWord
  refine ⟨?_, ?_, ?_, ?_⟩
  all_goals
    show @BitVec.extractLsb' (_ + _) _ _ (_ ++ _) = _
    simp (disch := decide) only [BitVec.extractLsb'_append_eq_of_le,
      BitVec.extractLsb'_append_eq_of_add_le]
    exact BitVec.extractLsb'_eq_self

/-! ### The memory after reset -/

/-- A word of HBITS, SNR_IN or BER_OUT is 0 after reset (R371). -/
theorem readWord_nil_array {a : Nat} (hlo : 0x1000 ≤ a) (hhi : a + 8 ≤ 0x4000) :
    readWord [] a = some 0 := by
  have hbyte (k : Nat) (hk : k < 8) : Memory.read [] (a + k) = some 0 := if_pos (by omega)
  have h0 := hbyte 0 (by omega)
  rw [Nat.add_zero] at h0
  rw [readWord_eq, h0, hbyte 1 (by omega), hbyte 2 (by omega), hbyte 3 (by omega),
    hbyte 4 (by omega), hbyte 5 (by omega), hbyte 6 (by omega), hbyte 7 (by omega)]
  rfl

/-- A word of a buffer is not written after reset (R372). -/
theorem readWord_nil_buffer {a : Nat} (h : 0x4000 ≤ a) : readWord [] a = none := by
  have hbyte : Memory.read [] a = none := if_neg (by omega)
  rw [readWord_eq, hbyte]
  rfl

theorem base_ge_of_buffer {r : Region} (h : r ≠ .hbits) (h' : r ≠ .snrIn) (h'' : r ≠ .berOut) :
    0x4000 ≤ r.base := by
  cases r with
  | hbits => exact absurd rfl h
  | snrIn => exact absurd rfl h'
  | berOut => exact absurd rfl h''
  | _ => decide

/-- The bytes of HBITS, SNR_IN and BER_OUT (R94). -/
theorem array_span {r : Region} (h : r = .hbits ∨ r = .snrIn ∨ r = .berOut) :
    0x1000 ≤ r.base ∧ r.base + r.span ≤ 0x4000 := by
  obtain rfl | rfl | rfl := h <;> decide

/-! ### The reset state -/

/-- STATUS reads 0 after reset, whatever the capacities (R371). -/
theorem statusWord_resetOf (p : Params) : (State.resetOf p).statusWord = 0 := by
  have hparams : (State.resetOf p).statusWord = State.reset.statusWord := rfl
  rw [hparams]
  decide

/-- Settles O53: PARAM by its fields, the other registers one by one, and the memory by its unlisted
bytes. -/
theorem resetValues : Obligations.ResetValues := by
  refine ⟨rfl, by decide, fun p hp => ?_⟩
  intro s
  obtain ⟨-, -, hn, -, -, -, hber⟩ := legal_bounds hp
  have hsps := legal_spsMax hp
  obtain ⟨hnMax, hspsMax, hberMax, hzero⟩ := paramWord_fields p
  have hfield {k : Nat} (hk : k ≤ 32768) : (BitVec.ofNat 16 k).toNat = k :=
    Nat.mod_eq_of_lt (by omega)
  have hregs (r : Reg) (hid : r ≠ .id) (hparam : r ≠ .param) : s.readReg r = 0 := by
    cases r with
    | id => exact absurd rfl hid
    | param => exact absurd rfl hparam
    | status => exact statusWord_resetOf p
    | _ => rfl
  refine ⟨rfl, rfl, Bool.and_false _, hregs, rfl, (congrArg BitVec.toNat hnMax).trans (hfield hn),
    (congrArg BitVec.toNat hspsMax).trans (hfield (by omega)),
    (congrArg BitVec.toNat hberMax).trans (hfield (by omega)), hzero, fun r j hr hj => ?_,
    fun r j hhbits hsnrIn hberOut => ?_⟩
  · obtain ⟨hlo, hhi⟩ := array_span hr
    obtain ⟨hentry, hend⟩ := entryAddr_bounds hp hj
    exact readWord_nil_array (by omega) (by omega)
  · have hbase := base_ge_of_buffer hhbits hsnrIn hberOut
    have hunwritten : readWord s.mem (r.entryAddr j) = none :=
      readWord_nil_buffer (hbase.trans (Nat.le_add_right ..))
    rw [State.written, hunwritten, Option.isSome_none]

/-- Settles O54. -/
theorem resetInput : Obligations.ResetInput := fun _ _ hsched => step_of_sched_cons hsched

/-! ### The invariant at launch -/

/-- A block in its reset state meets the invariant: no byte is listed, no command pending, and no
VALID flag set (R371). -/
theorem inReset_inv {s : State} (h : s.inReset) : s.Inv := by
  obtain ⟨hlegal, hreset⟩ := h
  rw [← hreset]
  exact ⟨⟨hlegal, ⟨.nil, nofun⟩, nofun⟩, ⟨nofun, .inl ⟨rfl, rfl⟩⟩,
    ⟨nofun, nofun, nofun, nofun, nofun, nofun⟩⟩

/-- Settles O58: launch by launch. -/
theorem invariantAtReset : Obligations.InvariantAtReset := by
  refine ⟨fun p hp => inReset_inv (resetOf_inReset hp), fun l s h => ?_⟩
  cases l with
  | reset => exact inReset_inv h
  | wait assumed =>
    obtain ⟨hinv, -⟩ := h
    exact hinv

end Sys2Proof.Machine
end
